-- ==== Sys2Proof/Word.lean ====
section
/-! DEFINITION. The plainest words of the machine: bytes, 32-bit and 64-bit words, lane masks (00 R2, 02 R21). -/

namespace Sys2Proof

/-- One byte. -/
abbrev Byte := BitVec 8

/-- A register of 32 bits (07 R136). -/
abbrev Word := BitVec 32

/-- A 64-bit value: an address, a program counter, a register pair (02 R21, 03 R32). -/
abbrev Dword := BitVec 64

/-- A lane mask: bit l belongs to lane l (07 R136). -/
abbrev Mask := BitVec 64

end Sys2Proof
end

