-- ==== Sys2Proof/Config.lean ====
section
/-! DEFINITION. What one part fixes (01 R8, R9), and the free values: constants with no body, applied to a counter
of the state or to what they depend on, so that nothing can rest on a value the spec leaves open (log entry 4). -/

namespace Sys2Proof.Config

/-- Compute dies of a package. -/
def dies : Nat := 8
/-- Cores of a die. -/
def coresPerDie : Nat := 192
/-- Residency slots of a core. -/
def slots : Nat := 48
/-- Bytes of a core's scratchpad. -/
def spBytes : Nat := 0x80000
/-- Bytes of a quad's memory. -/
def qmBytes : Nat := 0x80000
/-- Bytes of a die's Caldera. -/
def calBytes : Nat := 0x2000000
/-- Bytes of a core's lane-private store. -/
def sliceBytes : Nat := 0x40000
/-- The numbers that the places of one core's or quad's windows take (log entry 2). -/
def placeSpan : Nat := 0x10000000000
/-- Entries of a core's queue pool (01 R13). -/
def poolEntries : Nat := 4096
/-- Vector registers of a core (07 R137). -/
def vectorFile : Nat := 4096
/-- Outstanding memory requests of a core (01 R8, 03 R44). -/
def coreRequests : Nat := 8192
/-- Entries of a core's first-level TLB, slices of a die TLB, and entries of a slice (06 R130). -/
def coreTlb : Nat := 256
def tlbSlices : Nat := 256
def sliceTlb : Nat := 64
/-- Wait-buffer entries of a combining output (13 R254). -/
def waitEntries : Nat := 64

/-- A measured number: clocks waited, watts, microseconds. -/
opaque freeNat : Nat → Nat
/-- 64 free bits. -/
opaque freeWord : Nat → Dword
/-- A free choice between two outcomes that the spec allows. -/
opaque freeBool : Nat → Bool
/-- A byte of the trap frame's BLOCK, whose layout is not architected (10 R233), or of a signature (25 R432). -/
opaque freeByte : Nat → Byte

end Sys2Proof.Config
end

