-- ==== Sys2Proof/Syntax.lean ====
section
/-! DEFINITION. The instructions: one constructor for each row of the opcode table.
Decoded instructions carry the fields of their layout (03 R33, R36, R42, R49); the other rows are steps of the
machine and carry what the step concerns. -/

namespace Sys2Proof

/-- The operand types of 03 R38, in code order. -/
inductive DType where
  | none | b8 | b16 | b32 | b64 | b128 | i8 | i16 | i32 | i64 | n8 | n16 | n32 | n64
  | f16 | bf16 | f32 | f64 | e4m3 | e5m2 | mxE4m3 | mxE5m2 | mxfp4 | i4x
  deriving DecidableEq, Repr

/-- The rounding modes of 03 R39, in code order. -/
inductive Rnd where
  | rne | rtz | rup | rdn | sr
  deriving DecidableEq, Repr

/-- The ORD field of 03 R36, in code order. -/
inductive Ordr where
  | plain | acq | rel | ar
  deriving DecidableEq, Repr

/-- The scopes of 03 R36 and 05 R90, in code order. -/
inductive Scope where
  | core | quad | die | pkg | pod | sys
  deriving DecidableEq, Repr

/-- An operand of an extended form under its class (03 R37).
An unused operand has field and class zero (03 R39), which is `v 0`. -/
inductive Opnd where
  | v (n : BitVec 8)
  | s (n : BitVec 7)
  | k (n : BitVec 4)
  | q (n : BitVec 4)
  | lit
  deriving DecidableEq, Repr

/-- The fields of an extended instruction (03 R36), less MAJOR, MINOR and LEN, which the constructor and the
presence of a literal operand give. -/
structure Ext where
  d : Opnd := .v 0
  a : Opnd := .v 0
  b : Opnd := .v 0
  c : Opnd := .v 0
  ty : DType := .none
  rnd : Rnd := .rne
  sat : Bool := false
  ftz : Bool := false
  fb : Bool := false
  k : BitVec 4 := 0
  x : BitVec 7 := 0
  off : BitVec 12 := 0
  ord : Ordr := .plain
  scope : Scope := .core
  lit : Dword := 0
  deriving DecidableEq, Repr

/-- The second source of a three-register base form: a register, or the 32-bit literal of 03 R35. -/
inductive BaseSrc where
  | reg (n : BitVec 7)
  | lit (w : Word)
  deriving DecidableEq, Repr

/-- A three-register base form (03 R33). -/
structure Base3 where
  d : BitVec 7
  a : BitVec 7
  b : BaseSrc
  deriving DecidableEq, Repr

/-- The immediate of a scalar-immediate form: IMM12, or the literal that takes its place (03 R35, 08 R162). -/
inductive ImmSrc where
  | imm (n : BitVec 12)
  | lit (w : Word)
  deriving DecidableEq, Repr

/-- A scalar-immediate form (03 R33). -/
structure BaseImm where
  d : BitVec 6
  a : BitVec 6
  i : ImmSrc
  deriving DecidableEq, Repr

/-- SHI (03 R33, R34). -/
structure BaseShi where
  d : BitVec 4
  imm : BitVec 20
  deriving DecidableEq, Repr

/-- A clause header (03 R42). -/
structure Clause where
  dcount : BitVec 4
  setb : BitVec 4
  seta : BitVec 4
  wait : BitVec 12
  deriving DecidableEq, Repr

/-- A 16-bit dictionary code (03 R49). -/
structure DictCode where
  patch : BitVec 6
  index : BitVec 10
  deriving DecidableEq, Repr

/-- The outputs of the switches at which fetch-and-operate requests may pair (13 R249): bench b of die d, and the central
crossbar of die d, towards an L2 slice, towards Caldera, towards the bridge to die k and towards a hub; hub h towards a
die, and towards an Adit port. -/
inductive Output where
  | bench (d b : Nat)
  | slice (d n : Nat)
  | caldera (d : Nat)
  | bridge (d k : Nat)
  | toHub (d h : Nat)
  | hubDie (h d : Nat)
  | adit (h p : Nat)
  deriving DecidableEq, Repr

/-- The buffers whose entries may merge (05 R87). -/
inductive Buf where
  | lq | cb | dw | pq
  deriving DecidableEq, Repr

/-- An access that arrives from another package of the pod, at this package's M (05 R101). `fao` is a fetch-and-operate
request that came in at an Adit port, with its operand and its count (13 R253); `atomic` is one element of a VAT. -/
inductive RemoteReq where
  | load (pa n : Nat)
  | store (pa : Nat) (bytes : List Byte)
  | fao (port : BitVec 4) (pa : Nat) (op : BitVec 4) (ty : DType) (operand : Dword) (count : Word)
  | atomic (pa : Nat) (op : BitVec 4) (ty : DType) (rnd : Rnd) (ftz : Bool) (operand : Dword)
  | cas (pa : Nat) (ty : DType) (compare operand : Dword)
  | xacc (pa : Nat) (value : Word)
  | red (pa : Nat) (op : BitVec 4) (ty : DType) (rnd : Rnd) (ftz : Bool) (operand : Dword)
  deriving DecidableEq, Repr

/-- An access of a host processor (05 R100). -/
inductive HostAccess where
  | read (pa n : Nat)
  | write (pa : Nat) (bytes : List Byte)
  deriving DecidableEq, Repr

/-- A walk that a die's page walkers start (06 R119). -/
structure WalkReq where
  die : Nat
  tenant : Nat
  va : Dword
  write : Bool
  deriving DecidableEq, Repr

/-- A ring of the host interface (25 R418): the feedback, drill, receive and debug rings of a tenant, and the
management function's error ring. -/
inductive RingId where
  | feedback (t : Nat)
  | drill (t : Nat)
  | receive (t : Nat)
  | debug (t : Nat)
  | error
  deriving DecidableEq, Repr

/-- What a context error reports (25 R424). -/
structure CtxError where
  tenant : Nat
  cause : BitVec 8
  sub : BitVec 8 := 0
  first : BitVec 8 := 0
  queue : BitVec 4 := 0
  die : Nat := 0
  core : Nat := 0
  slot : Nat := 0
  half : Nat := 0
  pcB : Dword := 0
  pcC : Dword := 0
  deriving DecidableEq, Repr

/-- Where an error stands (25 R428, R429); the level of a cache is its KIND in 25 R430. The numbers are the model's: word w
of a core's tiles holds their elements 2w and 2w + 1; frame f of a die's TLBs (level 4) counts those of its cores' TLBs one
after another, then those of the slices; link p is Adit port p, and link 16 + 8j + k the bridge between dies j and k. -/
inductive ErrLoc where
  | mem (pa : Nat)
  | sp (core byte : Nat)
  | qm (quad byte : Nat)
  | cald (die byte : Nat)
  | slice (core byte : Nat)
  | regs (core word : Nat)
  | queues (core word : Nat)
  | tiles (core word : Nat)
  | tables (die word : Nat)
  | cache (level die frame : Nat)
  | link (n : Nat)
  deriving DecidableEq, Repr

/-- A word of a wave's registers: register and lane of a vector register, a scalar register, a mask register. -/
inductive RegWord where
  | v (r lane : Nat)
  | s (r : Nat)
  | k (r : Nat)
  deriving DecidableEq, Repr

/-- What stands in a protected word or a line frame at the moment (25 R428): a wave's register word, by the wave's key; a
queue entry or a buffered store, by its number; a die's copy of a line; an instruction word of a core's cache; a TLB's entry or
a core's dictionary entry, by their places in State's lists; an open sequence's words. DESIGN CHOICE (log entry 92): which
of them stands in which word or frame is architected nowhere, so the step that finds an error says it. -/
inductive Kept where
  | reg (wave : Nat) (r : RegWord)
  | entry (id : Nat)
  | store (id : Nat)
  | copy (die pa : Nat)
  | fetch (core pa : Nat)
  | tlb (n : Nat)
  | table (n entry : Nat)
  | seq (tenant id : Nat)
  deriving DecidableEq, Repr

/-- A write or read of a host register at an offset of a BAR (25 R411, R415). -/
structure RegAccess where
  mgmt : Bool
  tenant : Nat
  off : Nat
  write : Bool
  value : Dword
  deriving DecidableEq, Repr

/-- What a step of the machine that is no instruction concerns: ids of waves, entries or tenants, a value written by
the host, an access from outside, an error. -/
inductive Subject where
  | none
  | ids (a b c : Nat)
  | value (a b : Nat) (v : Dword)
  | merge (b : Buf) (first second : Nat)
  | meet (out : Output) (first second : Nat) (same : Bool) (behind : List Nat)
  | remote (r : RemoteReq)
  | host (r : HostAccess)
  | walk (r : WalkReq)
  | ring (r : RingId) (v : Dword) (bytes : List Byte)
  | error (e : CtxError)
  | loc (e : ErrLoc) (consumer : Option Nat)
  /-- an error at a location in which this stands -/
  | kept (e : ErrLoc) (x : Kept)
  | rewritten (e : ErrLoc)
  | extend (j : Nat) (bytes : List Byte)
  | reg (r : RegAccess)
  /-- with an entry of the agenda that is no step: the clock ends, whatever is still due (05 R87) -/
  | clockEnd
  deriving DecidableEq, Repr

/-- The instructions and the steps of the machine: one constructor for each row of the opcode table.
A decoded instruction carries its fields; a step of the machine takes its subject from the state's `subject` field. -/
inductive Instr where
  | clause (h : Clause)
  | dref (c : DictCode)
  | iaddBaseV (b : Base3)
  | isubBaseV (b : Base3)
  | imulBaseV (b : Base3)
  | andBaseV (b : Base3)
  | orBaseV (b : Base3)
  | xorBaseV (b : Base3)
  | ishlBaseV (b : Base3)
  | lshrBaseV (b : Base3)
  | iminI32BaseV (b : Base3)
  | imaxI32BaseV (b : Base3)
  | iminN32BaseV (b : Base3)
  | imaxN32BaseV (b : Base3)
  | imulhI32BaseV (b : Base3)
  | imulhN32BaseV (b : Base3)
  | ishrI32BaseV (b : Base3)
  | faddBaseV (b : Base3)
  | fsubBaseV (b : Base3)
  | fmulBaseV (b : Base3)
  | fminBaseV (b : Base3)
  | fmaxBaseV (b : Base3)
  | iaddBaseS (b : Base3)
  | isubBaseS (b : Base3)
  | imulBaseS (b : Base3)
  | andBaseS (b : Base3)
  | orBaseS (b : Base3)
  | xorBaseS (b : Base3)
  | ishlBaseS (b : Base3)
  | lshrBaseS (b : Base3)
  | iminI32BaseS (b : Base3)
  | imaxI32BaseS (b : Base3)
  | iminN32BaseS (b : Base3)
  | imaxN32BaseS (b : Base3)
  | imulhI32BaseS (b : Base3)
  | imulhN32BaseS (b : Base3)
  | ishrI32BaseS (b : Base3)
  | faddBaseS (b : Base3)
  | fsubBaseS (b : Base3)
  | fmulBaseS (b : Base3)
  | fminBaseS (b : Base3)
  | fmaxBaseS (b : Base3)
  | iaddi (b : BaseImm)
  | andi (b : BaseImm)
  | ori (b : BaseImm)
  | xori (b : BaseImm)
  | ishli (b : BaseImm)
  | shi (b : BaseShi)
  | iadd (e : Ext)
  | isub (e : Ext)
  | iaddc (e : Ext)
  | imul (e : Ext)
  | imulh (e : Ext)
  | imad (e : Ext)
  | imin (e : Ext)
  | imax (e : Ext)
  | iabs (e : Ext)
  | ineg (e : Ext)
  | ishl (e : Ext)
  | ishr (e : Ext)
  | lshr (e : Ext)
  | andX (e : Ext)
  | orX (e : Ext)
  | xorX (e : Ext)
  | notX (e : Ext)
  | popc (e : Ext)
  | clz (e : Ext)
  | brev (e : Ext)
  | bfx (e : Ext)
  | bfi (e : Ext)
  | icmp (e : Ext)
  | selX (e : Ext)
  | fadd (e : Ext)
  | fsub (e : Ext)
  | fmul (e : Ext)
  | fma (e : Ext)
  | fmin (e : Ext)
  | fmax (e : Ext)
  | fabs (e : Ext)
  | fneg (e : Ext)
  | fcmp (e : Ext)
  | fclass (e : Ext)
  | fdiv (e : Ext)
  | fsqrt (e : Ext)
  | frcp (e : Ext)
  | frsq (e : Ext)
  | fex2 (e : Ext)
  | flg2 (e : Ext)
  | dadd (e : Ext)
  | dmul (e : Ext)
  | dfma (e : Ext)
  | cvt (e : Ext)
  | frnd (e : Ext)
  | pack (e : Ext)
  | unpack (e : Ext)
  | kand (e : Ext)
  | kor (e : Ext)
  | kxor (e : Ext)
  | knot (e : Ext)
  | kmov (e : Ext)
  | kpopc (e : Ext)
  | kfirst (e : Ext)
  | kany (e : Ext)
  | kall (e : Ext)
  | shfl (e : Ext)
  | shflx (e : Ext)
  | shflup (e : Ext)
  | shfldn (e : Ext)
  | bcast (e : Ext)
  | redw (e : Ext)
  | scanw (e : Ext)
  | movx (e : Ext)
  | movxw (e : Ext)
  | xswap (e : Ext)
  | ifX (e : Ext)
  | elseX (e : Ext)
  | endif (e : Ext)
  | loopX (e : Ext)
  | endloop (e : Ext)
  | breakX (e : Ext)
  | joinX (e : Ext)
  | bra (e : Ext)
  | bz (e : Ext)
  | bnz (e : Ext)
  | call (e : Ext)
  | calli (e : Ext)
  | ret (e : Ext)
  | exit (e : Ext)
  | nop (e : Ext)
  | yield (e : Ext)
  | ld (e : Ext)
  | ldb (e : Ext)
  | ldc (e : Ext)
  | lda (e : Ext)
  | prf (e : Ext)
  | st (e : Ext)
  | stb (e : Ext)
  | stl (e : Ext)
  | fao (e : Ext)
  | cas (e : Ext)
  | red (e : Ext)
  | vat (e : Ext)
  | xacc (e : Ext)
  | xrd (e : Ext)
  | xclr (e : Ext)
  | fence (e : Ext)
  | qfence (e : Ext)
  | barX (e : Ext)
  | bara (e : Ext)
  | barw (e : Ext)
  | qpush (e : Ext)
  | qpop (e : Ext)
  | qpeek (e : Ext)
  | trapX (e : Ext)
  | tret (e : Ext)
  | sysc (e : Ext)
  | bkpt (e : Ext)
  | rds (e : Ext)
  | wrs (e : Ext)
  | icf (e : Ext)
  | haltX (e : Ext)
  | cpy (e : Ext)
  | cpy2d (e : Ext)
  | gth (e : Ext)
  | sct (e : Ext)
  | xcode (e : Ext)
  | coll (e : Ext)
  | mma (e : Ext)
  | mzero (e : Ext)
  | mlda (e : Ext)
  | mldb (e : Ext)
  | munf (e : Ext)
  | mdrn (e : Ext)
  | mhist (e : Ext)
  | mstat (e : Ext)
  | draw (e : Ext)
  | drawf (e : Ext)
  | kdraw (e : Ext)
  | chsite (e : Ext)
  | chrec (e : Ext)
  | result (e : Ext)
  | chmut (e : Ext)
  | chstat (e : Ext)
  | chkey (e : Ext)
  | tsamp (e : Ext)
  | tdraft (e : Ext)
  | tconf (e : Ext)
  | trej (e : Ext)
  | twatchSet (e : Ext)
  | twatchClear (e : Ext)
  | twatchOpen (e : Ext)
  | twatchClose (e : Ext)
  | twatchThaw (e : Ext)
  | twatchSync (e : Ext)
  | tinj (e : Ext)
  | tfork (e : Ext)
  | tstat (e : Ext)
  | trav (e : Ext)
  | travc (e : Ext)
  | tres (e : Ext)
  | ttok (e : Ext)
  | smpl (e : Ext)
  | sres (e : Ext)
  | asbeg (e : Ext)
  | assegMove (e : Ext)
  | assegLine (e : Ext)
  | assegQuad (e : Ext)
  | assegCubic (e : Ext)
  | assegV (e : Ext)
  | asend (e : Ext)
  | asdrn (e : Ext)
  | asstat (e : Ext)
  | lnch (e : Ext)
  | armX (e : Ext)
  | sigh (e : Ext)
  | xswapPair
  | xswapTimeout
  | splitMerge
  | joinRelease
  | yieldExpiry
  | barrierComplete
  | longLatencyComplete
  | tokenWrite
  | performLsEntry
  | drainLq
  | propagateCb
  | writeBackDw
  | dropCopy
  | deliverPq
  | bufferMerge
  | remoteRequest
  | hostMemAccess
  | pageWalk
  | combinePair
  | combineReturn
  | guardExpiry
  | trapEntry
  | watchdog
  | engineFault
  | debugStop
  | pcmatch
  | q15DebugEntry
  | timeSliceExpiry
  | deadlineExpiry
  | contextStopped
  | contextAutoResume
  | cpyEntry
  | cpy2dEntry
  | gthEntry
  | sctEntry
  | xcodeEntry
  | collInstance
  | collTimeout
  | mmaEntry
  | joinInstanceForm
  | joinInstanceStart
  | joinTimeout
  | mzeroEntry
  | mldaEntry
  | mldbEntry
  | munfEntry
  | mdrnEntry
  | mhistEntry
  | matrixStatusPost
  | mBuild
  | drawRecord
  | chrecEntry
  | resultEntry
  | resultPost
  | chmutEntry
  | tsampEntry
  | tdraftEntry
  | tconfEntry
  | trejEntry
  | twatchSetEntry
  | twatchClearEntry
  | twatchOpenEntry
  | twatchCloseEntry
  | twatchThawEntry
  | twatchSyncEntry
  | tinjEntry
  | tforkEntry
  | tokenResultPost
  | rayTraversal
  | tresEntry
  | continuationRecord
  | batchTimeout
  | smplEntry
  | asbegEntry
  | assegEntry
  | asendEntry
  | asdrnEntry
  | ashlarStatusPost
  | lnchEntry
  | armEntry
  | sighEntry
  | nodeEnd
  | nodeLaunch
  | nodeRelaunch
  | nodeCond
  | nodeWhile
  | nodeJoin
  | nodeArm
  | nodeSignal
  | messageX
  | workgroupPlace
  | workgroupRetire
  | completionEvent
  | preempt
  | resumeX
  | invalPage
  | invalAll
  | invalIcache
  | invalComplete
  | calwWrite
  | seqnWrite
  | ringTailWrite
  | ringAppend
  | msgsend
  | contextError
  | cerrClear
  | dcmdHalt
  | dcmdResume
  | dcmdSend
  | dbgenClear
  | debugWindowWrite
  | pstateD0
  | pstateD1
  | pstateD2
  | pstateD3
  | pstateD4
  | pstateDone
  | pwrcapWrite
  | powerAlarm
  | thermalAlarm
  | thermalCritical
  | correctedError
  | uncorrectableError
  | linkReplay
  | packageReset
  | functionReady
  | measExtend
  | attgo
  | attestComplete
  | registerWrite
  | unimplMajor
  | illegalEnc
  | fetchFault
  | icfComplete
  | remoteLoad
  deriving DecidableEq, Repr

end Sys2Proof
end

