-- ==== Sys2Proof/Decode.lean ====
section
/-! DEFINITION. From bits to instructions and back (03 R31–R41, R54–R56): the operand and field rules of every
instruction (its Form), the decoder, and the encoder written from the same tables. -/

namespace Sys2Proof

/-! ## Types and their widths (02 R22, 03 R38) -/

/-- The type of a TYPE code; 0x18–0x1F are reserved (03 R38). -/
def DType.ofCode (n : Nat) : Option DType :=
  match n with
  | 0x00 => some .none | 0x01 => some .b8 | 0x02 => some .b16 | 0x03 => some .b32
  | 0x04 => some .b64 | 0x05 => some .b128 | 0x06 => some .i8 | 0x07 => some .i16
  | 0x08 => some .i32 | 0x09 => some .i64 | 0x0A => some .n8 | 0x0B => some .n16
  | 0x0C => some .n32 | 0x0D => some .n64 | 0x0E => some .f16 | 0x0F => some .bf16
  | 0x10 => some .f32 | 0x11 => some .f64 | 0x12 => some .e4m3 | 0x13 => some .e5m2
  | 0x14 => some .mxE4m3 | 0x15 => some .mxE5m2 | 0x16 => some .mxfp4 | 0x17 => some .i4x
  | _ => Option.none

/-- The TYPE code of a type (03 R38). -/
def DType.code : DType → Nat
  | .none => 0x00 | .b8 => 0x01 | .b16 => 0x02 | .b32 => 0x03 | .b64 => 0x04 | .b128 => 0x05
  | .i8 => 0x06 | .i16 => 0x07 | .i32 => 0x08 | .i64 => 0x09 | .n8 => 0x0A | .n16 => 0x0B
  | .n32 => 0x0C | .n64 => 0x0D | .f16 => 0x0E | .bf16 => 0x0F | .f32 => 0x10 | .f64 => 0x11
  | .e4m3 => 0x12 | .e5m2 => 0x13 | .mxE4m3 => 0x14 | .mxE5m2 => 0x15 | .mxfp4 => 0x16 | .i4x => 0x17

/-- The width of a scalar type in bits; block formats and `none` have none. -/
def DType.bits : DType → Nat
  | .b8 | .i8 | .n8 | .e4m3 | .e5m2 => 8
  | .b16 | .i16 | .n16 | .f16 | .bf16 => 16
  | .b32 | .i32 | .n32 | .f32 => 32
  | .b64 | .i64 | .n64 | .f64 => 64
  | .b128 => 128
  | _ => 0

/-- The width of a scalar type in bytes. -/
def DType.bytes (t : DType) : Nat := t.bits / 8

def DType.isSigned : DType → Bool
  | .i8 | .i16 | .i32 | .i64 => true
  | _ => false

def DType.isNatural : DType → Bool
  | .n8 | .n16 | .n32 | .n64 => true
  | _ => false

/-- The set I of 08. -/
def DType.isInt (t : DType) : Bool := t.isSigned || t.isNatural

/-- The set IW of 08. -/
def DType.isIntW (t : DType) : Bool := t.isInt && 32 ≤ t.bits

/-- The set F of 08. -/
def DType.isF : DType → Bool
  | .f16 | .bf16 | .f32 => true
  | _ => false

/-- F and `.f64`: the types `.ftz` goes with (04 R61). -/
def DType.isFD (t : DType) : Bool := t.isF || t == .f64

/-- The FP8 types. -/
def DType.isF8 : DType → Bool
  | .e4m3 | .e5m2 => true
  | _ => false

/-- The set B of 08. -/
def DType.isB : DType → Bool
  | .b32 | .b64 => true
  | _ => false

/-- The types CVT converts between (08 R171). -/
def DType.isCvt (t : DType) : Bool := t.isInt || t.isFD || t.isF8

/-- The block formats (04 R68). -/
def DType.isBlock : DType → Bool
  | .mxE4m3 | .mxE5m2 | .mxfp4 | .i4x => true
  | _ => false

/-! ## Field codes (03 R36, R39) -/

def Rnd.ofCode (n : Nat) : Option Rnd :=
  match n with
  | 0 => some .rne | 1 => some .rtz | 2 => some .rup | 3 => some .rdn | 4 => some .sr
  | _ => none

def Rnd.code : Rnd → Nat
  | .rne => 0 | .rtz => 1 | .rup => 2 | .rdn => 3 | .sr => 4

def Scope.ofCode (n : Nat) : Option Scope :=
  match n with
  | 0 => some .core | 1 => some .quad | 2 => some .die | 3 => some .pkg | 4 => some .pod | 5 => some .sys
  | _ => none

def Scope.code : Scope → Nat
  | .core => 0 | .quad => 1 | .die => 2 | .pkg => 3 | .pod => 4 | .sys => 5

def Ordr.ofCode (n : Nat) : Option Ordr :=
  match n with
  | 0 => some .plain | 1 => some .acq | 2 => some .rel | 3 => some .ar
  | _ => none

def Ordr.code : Ordr → Nat
  | .plain => 0 | .acq => 1 | .rel => 2 | .ar => 3

/-- An operand from its class and field; none for a value 03 R37 does not admit. -/
def Opnd.ofCode (cls field : Nat) : Option Opnd :=
  match cls with
  | 0 => some (.v (BitVec.ofNat 8 field))
  | 1 => if field < 0x80 then some (.s (BitVec.ofNat 7 field)) else none
  | 2 => if field < 0x10 then some (.k (BitVec.ofNat 4 field)) else none
  | _ =>
    if field < 0x10 then some (.q (BitVec.ofNat 4 field))
    else if field = 0xFF then some .lit else none

/-- The class code of an operand (03 R37). -/
def Opnd.cls : Opnd → Nat
  | .v _ => 0 | .s _ => 1 | .k _ => 2 | .q _ => 3 | .lit => 3

/-- The field of an operand (03 R37). -/
def Opnd.field : Opnd → Nat
  | .v n => n.toNat | .s n => n.toNat | .k n => n.toNat | .q n => n.toNat | .lit => 0xFF

def Opnd.isV : Opnd → Bool
  | .v _ => true
  | _ => false

def Opnd.isS : Opnd → Bool
  | .s _ => true
  | _ => false

def Opnd.isK : Opnd → Bool
  | .k _ => true
  | _ => false

def Opnd.isLit : Opnd → Bool
  | .lit => true
  | _ => false

/-- The number of literal operands of an extended instruction (03 R40). -/
def Ext.lits (e : Ext) : Nat :=
  e.d.isLit.toNat + e.a.isLit.toNat + e.b.isLit.toNat + e.c.isLit.toNat

/-! ## Operand slots and forms -/

/-- How wide an operand is, which gives its registers, their alignment and its literal's bits (02 R21, 03 R37, R40). -/
inductive Wid where
  /-- a fixed width in bits -/
  | w (bits : Nat)
  /-- the width of TYPE -/
  | ty
  /-- CAS: the compare value and the new value, one after the other (09 R208) -/
  | ty2
  /-- the source type of CVT, which X[4:0] holds (08 R171) -/
  | st
  /-- a group of n registers whose first is a multiple of al -/
  | grp (al n : Nat)
  /-- the rows of LDB and STB (09 R198) -/
  | rows
  /-- the payload of TRAVC (21 R357) -/
  | pay
  /-- the special register that X names (07 R138) -/
  | spec
  /-- the points of ASSEG: six scalar registers, or eight vector registers in the vector form (22 R380) -/
  | seg
  /-- the base of MOVX and MOVXW, which names no register by itself (03 R37) -/
  | base
  deriving DecidableEq, Repr

/-- The special registers of 07 R138: (width, per lane, access written by WRS). -/
def specialInfo (n : Nat) : Option (Nat × Bool × Bool) :=
  match n with
  | 0x00 => some (32, true, false)
  | 0x01 | 0x02 | 0x03 | 0x04 | 0x05 | 0x06 | 0x07 | 0x08 => some (32, false, false)
  | 0x09 => some (64, false, false)
  | 0x0A | 0x0B => some (32, false, false)
  | 0x0C => some (32, true, false)
  | 0x0D => some (32, false, false)
  | 0x0E => some (32, false, true)
  | 0x0F => some (64, false, true)
  | 0x10 => some (32, false, true)
  | _ => none

/-- The width of an operand in bits. -/
def Wid.bits (w : Wid) (e : Ext) : Nat :=
  match w with
  | .w n => n
  | .ty => e.ty.bits
  | .ty2 => 2 * e.ty.bits
  | .st => ((DType.ofCode (e.x.toNat % 32)).getD .none).bits
  | .grp _ _ => 32
  | .rows => 32
  | .pay => 32
  | .spec => match specialInfo e.x.toNat with
    | some (n, _, _) => n
    | none => 32
  | .base => 32
  | .seg => 32

/-- The number of registers an operand takes (02 R21); none are checked for `base` (03 R37). -/
def Wid.regs (w : Wid) (e : Ext) : Nat :=
  match w with
  | .grp _ n => n
  | .rows => ((e.x.toNat / 16) % 8 + 1) * (e.ty.bits / 32)
  | .pay => e.x.toNat % 64
  | .base => 0
  | .seg => if e.x.toNat / 4 % 2 = 1 then 8 else 6
  | w => max 1 (w.bits e / 32)

/-- The alignment of an operand's first register (03 R37 and the instructions' descriptions). -/
def Wid.align (w : Wid) (e : Ext) : Nat :=
  match w with
  | .grp al _ => al
  | .rows => max 1 (e.ty.bits / 32)
  | .pay => 1
  | .base => 1
  | .seg => 8
  | w => max 1 (w.bits e / 32)

/-- What an operand field may hold. -/
structure Slot where
  v : Bool := false
  s : Bool := false
  m : Bool := false
  l : Bool := false
  q : Option (Option (BitVec 4)) := none
  w : Wid := .w 32
  deriving DecidableEq, Repr

/-- An operand the instruction does not use: field and class zero (03 R39). -/
def Slot.unused : Slot := {}

def Slot.isUnused (t : Slot) : Bool := !t.v && !t.s && !t.m && !t.l && t.q.isNone

def Slot.ofV (w : Wid) : Slot := { v := true, w := w }
def Slot.ofS (w : Wid) : Slot := { s := true, w := w }
def Slot.ofVS (w : Wid) : Slot := { v := true, s := true, w := w }
def Slot.ofVSL (w : Wid) : Slot := { v := true, s := true, l := true, w := w }
def Slot.ofSL (w : Wid) : Slot := { s := true, l := true, w := w }
def Slot.ofL (w : Wid) : Slot := { l := true, w := w }
def Slot.ofM : Slot := { m := true, w := .w 64 }
def Slot.ofMS (w : Wid) : Slot := { m := true, s := true, w := w }
/-- The queue that the major feeds (03 R41). -/
def Slot.ofQ (n : BitVec 4) : Slot := { q := some (some n) }
def Slot.anyQ : Slot := { q := some none }

/-- Does an operand fit its slot: class, alignment, literal range (03 R37, R40, R41)? -/
def Slot.fits (t : Slot) (e : Ext) (o : Opnd) : Bool :=
  match o with
  | .v n => if t.isUnused then n == 0 else t.v && n.toNat % t.w.align e == 0
  | .s n => t.s && n.toNat % t.w.align e == 0
  | .k _ => t.m
  | .q n => match t.q with
    | some (some m) => n == m
    | some none => true
    | none => false
  | .lit => t.l && decide (t.w.bits e ≤ 64) && decide (e.lit.toNat < 2 ^ t.w.bits e)

/-- What an extended instruction accepts (03 R39 and the instructions' descriptions).
`rnd` 0 accepts no RND, 1 every mode but SR, 2 every mode; `xmask` holds the bits of X that have a meaning. -/
structure Form where
  d : Slot := .unused
  a : Slot := .unused
  b : Slot := .unused
  c : Slot := .unused
  ty : DType → Bool := (· == .none)
  rnd : Nat := 0
  sat : Bool := false
  ftz : Bool := false
  fb : Bool := false
  k : Bool := false
  off : Bool := false
  ord : Ordr → Bool := (· == .plain)
  scope : Scope → Bool := (· == .core)
  xmask : BitVec 7 := 0
  /-- B names a register only where this holds: in [sN] and [sN + e] it is zero and is not read (09 R193) -/
  bUsed : Ext → Bool := fun _ => true
  extra : Ext → Bool := fun _ => true

/-- Does an instruction's form accept these fields? Otherwise it raises ILLEGAL_ENC (03 R37–R41). -/
def Form.accepts (f : Form) (e : Ext) : Bool :=
  f.ty e.ty && f.d.fits e e.d && f.a.fits e e.a && f.b.fits e e.b && f.c.fits e e.c
  && (e.rnd == .rne || f.rnd == 2 || (f.rnd == 1 && e.rnd != .sr))
  && (!e.sat || f.sat) && (!e.ftz || f.ftz) && (!e.fb || f.fb)
  && (e.k == 0 || f.k) && (e.off == 0 || f.off)
  && f.ord e.ord && f.scope e.scope
  && (e.x &&& ~~~ f.xmask) == 0
  && decide (e.lits ≤ 1) && (e.lits == 1 || e.lit == 0)
  && f.extra e

/-! ## The forms, group by group -/

/-- 08 R154: with a scalar D every source is S or L, and K is zero. -/
def scalarRule (e : Ext) : Bool :=
  !e.d.isS || (e.k == 0 && !(e.a.isV && e.a != .v 0) && !(e.b.isV && e.b != .v 0) && !(e.c.isV && e.c != .v 0))

/-- 08 R154 for a named source: with a scalar D it is no vector register. -/
def scalarSrc (e : Ext) (o : Opnd) : Bool := !(e.d.isS && o.isV)

def scalarA (e : Ext) : Bool := (!e.d.isS || e.k == 0) && scalarSrc e e.a
def scalarAB (e : Ext) : Bool := scalarA e && scalarSrc e e.b
def scalarABC (e : Ext) : Bool := scalarAB e && scalarSrc e e.c

def isB3264 (t : DType) : Bool := t == .n32 || t == .n64 || t.isB

namespace Form

/-- 08 R157: D, A, B of integer type. -/
def int3 (sat : Bool) : Form :=
  { d := .ofVS .ty, a := .ofVSL .ty, b := .ofVSL .ty, ty := DType.isInt, sat := sat, k := true, extra := scalarAB }
/-- 08 R159. -/
def iaddc : Form :=
  { d := .ofVS .ty, a := .ofVSL .ty, b := .ofVSL .ty, c := .ofM, ty := fun t => t == .n32 || t == .n64, k := true,
    extra := scalarAB }
def imulh : Form := { int3 false with ty := DType.isIntW }
def imad : Form := { int3 true with c := .ofVSL .ty, extra := scalarABC }
def iabs : Form :=
  { d := .ofVS .ty, a := .ofVSL .ty, ty := DType.isSigned, sat := true, k := true, extra := scalarA }
def ineg : Form := { iabs with ty := DType.isInt }
/-- 08 R158: the count is 32 bits wide whatever the type. -/
def shift (ty : DType → Bool) : Form := { int3 false with b := .ofVSL (.w 32), ty := ty }
def logic3 : Form := { int3 false with ty := fun t => t.isInt || t.isB }
def not1 : Form := { iabs with ty := fun t => t.isInt || t.isB, sat := false }
/-- POPC and CLZ write one 32-bit register (08 R157). -/
def count1 : Form := { iabs with d := .ofVS (.w 32), ty := isB3264, sat := false }
def brev : Form := { iabs with ty := isB3264, sat := false }
/-- 08 R160. -/
def bfx : Form := { int3 false with b := .ofVSL (.w 32) }
def bfi : Form := { int3 false with c := .ofVSL (.w 32), extra := scalarABC }
/-- 08 R161. -/
def icmp : Form :=
  { int3 false with d := .ofMS (.w 32), xmask := 0b0000111, extra := fun e => scalarAB e && decide (e.x.toNat % 8 ≤ 5) }
def sel : Form := { int3 false with c := .ofM, ty := DType.isB }

/-- 08 R163. -/
def float3 : Form :=
  { d := .ofVS .ty, a := .ofVSL .ty, b := .ofVSL .ty, ty := DType.isF, rnd := 2, sat := true, ftz := true, k := true,
    extra := scalarAB }
def fma : Form := { float3 with c := .ofVSL .ty, extra := scalarABC }
def fminmax : Form := { float3 with ty := DType.isFD, rnd := 0, sat := false }
def fsign : Form :=
  { d := .ofVS .ty, a := .ofVSL .ty, ty := DType.isFD, k := true, extra := scalarA }
def fcmp : Form := { fminmax with d := .ofMS (.w 32), xmask := 0b0000111 }
/-- 08 R166. DESIGN CHOICE (log entry 97): R163 marks `.ftz` "no" for FCLASS and R166 says that it ignores it; it is
refused. -/
def fclass : Form := { fsign with d := .ofVS (.w 32) }
/-- 08 R167: long-latency. -/
def fdiv : Form := { float3 with ty := DType.isFD, fb := true }
def fsqrt : Form :=
  { d := .ofVS .ty, a := .ofVSL .ty, ty := DType.isFD, rnd := 2, sat := true, ftz := true, fb := true, k := true,
    extra := scalarA }
/-- 08 R168. -/
def ffun : Form := { fsign with ty := (· == .f32), ftz := true }
/-- 08 R170. -/
def dbl2 : Form := { float3 with ty := (· == .f64) }
def dbl3 : Form := { fma with ty := (· == .f64) }

/-- 08 R171: X[4:0] holds the source type, which differs from TYPE.
`.ftz` goes with the four float types of 04 R61, on either side. -/
def cvt : Form :=
  { d := .ofVS .ty, a := .ofVSL .st, ty := DType.isCvt, rnd := 2, sat := true, ftz := true, k := true,
    xmask := 0b0011111,
    extra := fun e => scalarA e &&
      match DType.ofCode (e.x.toNat % 32) with
      | some st => st.isCvt && st != e.ty && (!e.ftz || e.ty.isFD || st.isFD)
      | none => false }
/-- 08 R172. DESIGN CHOICE (log entry 97): D is VS and A is VSL, as in CVT; the rule gives no classes. -/
def frnd : Form := { fsign with rnd := 2 }
/-- 08 R173. DESIGN CHOICE (log entry 97): D is VS and the sources are VSL, here and in UNPACK; the rule gives no classes. -/
def pack : Form :=
  { d := .ofVS (.w 32), a := .ofVSL (.w 32), b := .ofVSL (.w 32),
    ty := fun t => t.isF8 || t == .f16 || t == .bf16 || (t.isInt && decide (t.bits ≤ 16)),
    rnd := 2, sat := true, ftz := true, k := true, xmask := 0b0000001,
    extra := fun e => scalarAB e && (!e.ftz || e.ty.isFD) && (e.ty.bits == 8 || e.x == 0) }
def unpack : Form :=
  { pack with
    b := .unused, xmask := 0b0000011,
    extra := fun e => scalarA e && (!e.ftz || e.ty.isFD) && (e.ty.bits == 8 || decide (e.x.toNat < 2)) }

/-- 08 R174. -/
def mask2 : Form := { d := .ofM, a := .ofM, b := .ofM }
def mask1 : Form := { d := .ofM, a := .ofM }
def kmov : Form :=
  { d := .ofMS (.w 64), a := { m := true, s := true, l := true, w := .w 64 }, extra := fun e => !e.d.isS || e.a.isK }
def maskToS : Form := { d := .ofS (.w 32), a := .ofM }

/-- 08 R175. -/
def shfl : Form := { d := .ofV .ty, a := .ofV .ty, b := .ofVSL (.w 32), ty := DType.isB, k := true }
/-- 08 R176. DEDUCED (log entry 104): B is one 32-bit register or a 32-bit literal under `.b64` too, as 08 R175 says of its
lane numbers. -/
def bcast : Form :=
  { d := .ofVS .ty, a := .ofV .ty, b := .ofSL (.w 32), ty := DType.isB, k := true,
    extra := fun e => !e.d.isS || e.k == 0 }
/-- 08 R177: which types and modifiers go with the operation in X[2:0]. -/
def redRule (e : Ext) : Bool :=
  if e.x.toNat % 8 ≤ 2 then
    (e.ty.isIntW && e.rnd == .rne && !e.ftz) || (e.ty.isFD && !e.sat)
  else decide (e.x.toNat % 8 ≤ 5) && e.ty.isB && e.rnd == .rne && !e.ftz && !e.sat
def redw : Form :=
  { d := .ofS .ty, a := .ofV .ty, ty := fun t => t.isIntW || t.isFD || t.isB, rnd := 1, sat := true, ftz := true,
    xmask := 0b0000111, extra := redRule }
/-- 08 R178. -/
def scanw : Form := { redw with d := .ofV .ty, k := true }
/-- 08 R179. -/
def movx : Form := { d := .ofV .ty, a := .ofV .base, b := .ofVS (.w 32), ty := DType.isB, k := true }
def movxw : Form := { d := .ofV .base, a := .ofV .ty, b := .ofVS (.w 32), ty := DType.isB, k := true }
/-- 08 R180. -/
def xswap : Form :=
  { d := .ofV .ty, a := .ofV .ty, b := .ofS (.w 32), ty := DType.isB, fb := true, k := true, xmask := 0b1111111 }

/-- 08 R182, R185: a target's bits [1:0] are 00. -/
def target (e : Ext) : Bool := e.lit.toNat % 4 == 0
def bare : Form := {}
def jump : Form := { b := .ofL (.w 32), extra := target }
def ifF : Form := { jump with a := .ofM }
def breakF : Form := { a := .ofM, xmask := 0b1111111 }
def bz : Form := { jump with a := .ofS (.w 32) }
def call : Form := { jump with d := .ofV (.w 64) }
def calli : Form := { d := .ofV (.w 64), a := .ofVS (.w 64) }
def ret : Form := { a := .ofV (.w 64) }

/-- 09 R193: the memory operand of majors 0x1A and 0x1B, with OFFV in X[3]. -/
def memAB (offv : Bool) (e : Ext) : Bool := offv || e.b == .v 0
/-- 09 R195: an access acts per lane when D, B or C names a vector register; K and `.lane` need it. -/
def perLane (offv d c : Bool) (e : Ext) : Bool := offv || (d && e.d.isV) || (c && e.c.isV)
def space (e : Ext) : Nat := e.x.toNat % 8
def offv3 (e : Ext) : Bool := e.x.toNat / 8 % 2 == 1
/-- The rules of 09 R193–R195 for majors 0x1A and 0x1B. -/
def memRule (d c : Bool) (e : Ext) : Bool :=
  decide (space e ≤ 4) && memAB (offv3 e) e
  && (perLane (offv3 e) d c e || (e.k == 0 && space e != 1))
  && !(d && e.d.isS && offv3 e)
def memA : Slot := .ofS (.w 64)
def memB : Slot := .ofV (.w 32)
def rawLoad (t : DType) : Bool :=
  t == .b8 || t == .b16 || t == .b32 || t == .b64 || t == .b128 || t == .i8 || t == .i16 || t == .n8 || t == .n16
def decLoad (t : DType) : Bool := t.isIntW || t.isFD
/-- 09 R197. -/
def ld : Form :=
  { d := .ofVS .ty, a := memA, b := memB, bUsed := offv3, ty := fun t => rawLoad t || decLoad t, rnd := 2, sat := true, ftz := true,
    fb := true, k := true, off := true, xmask := 0b1111111,
    extra := fun e => memRule true false e &&
      (if e.x.toNat / 16 % 2 == 1 then
        space e == 0 && decLoad e.ty && (!e.ftz || e.ty.isFD)
      else rawLoad e.ty && e.rnd == .rne && !e.sat && !e.ftz)
      && (e.x.toNat / 32 == 0 || space e == 0) }
/-- 09 R198. -/
def ldb : Form :=
  { d := .ofV .rows, a := memA, ty := DType.isB, fb := true, k := true, off := true, xmask := 0b1110111,
    extra := memRule true false }
/-- 09 R199. -/
def ldc : Form :=
  { d := .ofVS .ty, a := memA, b := memB, bUsed := offv3, ty := fun t => t.isB || t == .b128, fb := true, k := true, off := true,
    xmask := 0b0001000, extra := memRule true false }
def acqType (t : DType) : Bool :=
  t == .b8 || t == .b16 || t == .b32 || t == .b64 || t == .i8 || t == .i16 || t == .n8 || t == .n16
/-- 09 R200. -/
def lda : Form :=
  { d := .ofVS .ty, a := memA, b := memB, bUsed := offv3, ty := acqType, fb := true, k := true, off := true,
    scope := fun _ => true, xmask := 0b0001111, extra := fun e => memRule true false e && space e != 1 }
/-- 09 R201. -/
def prf : Form :=
  { a := memA, b := memB, bUsed := offv3, k := true, off := true, xmask := 0b0101000,
    extra := memRule false false }
/-- 09 R202. -/
def st : Form :=
  { a := memA, b := memB, bUsed := offv3, c := .ofVSL .ty, ty := fun t => t == .b8 || t == .b16 || t.isB || t == .b128, k := true,
    off := true, xmask := 0b1101111,
    extra := fun e => memRule false true e && (e.x.toNat / 32 == 0 || space e == 0) }
/-- 09 R203. -/
def stb : Form :=
  { a := memA, c := .ofV .rows, ty := DType.isB, k := true, off := true, xmask := 0b1110111,
    extra := memRule false true }
/-- 09 R204. -/
def stl : Form :=
  { a := memA, b := memB, bUsed := offv3, c := .ofVSL .ty, ty := acqType, k := true, off := true, scope := fun _ => true,
    xmask := 0b0001111, extra := fun e => memRule false true e && space e != 1 }

def aspace (e : Ext) : Nat := e.x.toNat % 4
def offv2 (e : Ext) : Bool := e.x.toNat / 4 % 2 == 1
/-- The rules of 09 R193–R195 and R206 for majors 0x1C and 0x33. -/
def atomRule (d c : Bool) (e : Ext) : Bool :=
  memAB (offv2 e) e && (perLane (offv2 e) d c e || e.k == 0)
  && !(d && e.d.isS && offv2 e)
  && (e.scope != .sys || aspace e == 0)
/-- The types of the FAO operations (09 R207). -/
def faoTypes (op : Nat) (t : DType) : Bool :=
  match op with
  | 0 | 1 => t.isIntW
  | 2 | 3 | 4 => t.isIntW || t.isB
  | 5 | 6 => t.isIntW
  | 7 => t.isB
  | 8 => t == .n32
  | _ => false
/-- 09 R207. -/
def fao : Form :=
  { d := .ofVS .ty, a := memA, b := memB, bUsed := offv2, c := .ofVSL .ty, ty := fun t => t.isIntW || t.isB, fb := true, k := true,
    off := true, ord := fun _ => true, scope := fun _ => true, xmask := 0b1111111,
    extra := fun e => atomRule true true e && faoTypes (e.x.toNat / 8) e.ty }
/-- 09 R208. -/
def cas : Form :=
  { fao with c := .ofVS .ty2, ty := DType.isB, xmask := 0b0000111, extra := atomRule true true }
/-- 09 R209. -/
def red : Form :=
  { a := memA, b := memB, bUsed := offv2, c := .ofVSL .ty, ty := fun t => t.isIntW || t.isB || t == .f32, rnd := 1, ftz := true,
    k := true, off := true, ord := fun o => o == .plain || o == .rel, scope := fun _ => true, xmask := 0b1111111,
    extra := fun e => atomRule false true e && decide (e.x.toNat / 8 ≤ 6)
      && (if e.ty == .f32 then e.x.toNat / 8 == 0 || e.x.toNat / 8 == 5 || e.x.toNat / 8 == 6
          else faoTypes (e.x.toNat / 8) e.ty)
      && ((e.rnd == .rne && !e.ftz) || (e.ty == .f32 && e.x.toNat / 8 == 0)) }
/-- 09 R210. -/
def vat : Form :=
  { d := .ofV (.grp 8 8), a := memA, b := memB, bUsed := offv2, c := .ofV (.grp 8 8),
    ty := fun t => t == .i16 || t == .n16 || t == .f16 || t == .bf16 || t == .i32 || t == .n32 || t == .f32
      || t == .i64 || t == .n64,
    rnd := 1, ftz := true, fb := true, k := true, off := true, ord := fun _ => true, scope := fun _ => true,
    xmask := 0b1111111,
    extra := fun e => atomRule true true e && e.x.toNat / 8 % 8 != 7
      && (e.x.toNat / 64 == 1 || (e.d == .v 0 && !e.fb))
      && !(e.ty.isF && decide (3 ≤ e.x.toNat / 8 % 8) && decide (e.x.toNat / 8 % 8 ≤ 5))
      && ((e.rnd == .rne && !e.ftz) || (e.ty.isF && e.x.toNat / 8 % 8 == 0)) }
/-- 09 R211. -/
def xacc : Form :=
  { a := memA, b := memB, bUsed := offv2, c := .ofVSL (.w 32), ty := (· == .f32), k := true, off := true,
    ord := fun o => o == .plain || o == .rel, scope := fun _ => true, xmask := 0b0000111,
    extra := atomRule false true }
/-- 09 R212. -/
def xrd : Form :=
  { d := .ofVS .ty, a := memA, b := memB, bUsed := offv2, ty := fun t => t == .f32 || t == .f64, rnd := 2, fb := true, k := true,
    off := true, ord := fun o => o == .plain || o == .acq, scope := fun _ => true, xmask := 0b0000111,
    extra := atomRule true false }
/-- 09 R213. -/
def xclr : Form :=
  { a := memA, b := memB, bUsed := offv2, k := true, off := true, ord := fun o => o == .plain || o == .rel, scope := fun _ => true,
    xmask := 0b0000111, extra := atomRule false false }

/-- 09 R215. -/
def fence : Form := { ord := (· != .plain), scope := fun _ => true }
/-- 09 R216: ls in literal[16], qn in bit n; no pop-only queue, and not empty. -/
def qfence : Form :=
  { a := .ofL (.w 64),
    extra := fun e => e.lit != 0 && decide (e.lit.toNat < 2 ^ 17) && (e.lit &&& 0x2AA2) == 0 }
/-- 09 R217. -/
def bar : Form := { scope := (· != .sys), xmask := 0b0000011 }
/-- 09 R219. -/
def qpush : Form :=
  { d := .anyQ, a := .ofSL .ty, ty := fun t => t.isB || t == .b128 }
def qpop : Form := { d := .ofS .ty, a := .anyQ, ty := fun t => t.isB || t == .b128 }
def qpeek : Form := { d := .ofS (.w 64), a := .anyQ, ty := (· == .b64) }
/-- 09 R221. -/
def code : Form := { xmask := 0b1111111 }
def rds : Form :=
  { d := .ofVS .spec, xmask := 0b1111111,
    extra := fun e => match specialInfo e.x.toNat with
      | some (_, lane, _) => e.d.isV == lane
      | none => false }
def wrs : Form :=
  { a := .ofSL .spec, xmask := 0b1111111,
    extra := fun e => match specialInfo e.x.toNat with
      | some (_, _, wr) => wr
      | none => false }
/-- 09 R225. -/
def icf : Form := { scope := fun s => s != .pod && s != .sys }

/-- 15 R284. -/
def mma : Form :=
  { d := .ofQ 0, a := .ofSL (.w 32),
    ty := fun t => t == .i8 || t == .f16 || t == .bf16 || t.isF8 || t.isBlock, xmask := 0b1111111,
    extra := fun e => (e.x.toNat / 4 % 4 != 0) == (e.x.toNat / 16 % 2 == 1) }
def mzero : Form := { d := .ofQ 0, xmask := 0b1000011 }
def mld : Form := { d := .ofQ 0, a := .ofSL (.w 32), b := .ofSL (.w 32), xmask := 0b1000000 }
def munf : Form := { d := .ofQ 0, b := .ofS (.grp 8 5), xmask := 0b1000000 }
/-- The explicit spaces that engine commands take (14 R262, 15 R284, 22 R380). -/
def engSpace (n : Nat) : Bool := n == 0 || n == 2 || n == 3 || n == 4
/-- 15 R284, R292. -/
def mdrn : Form :=
  { d := .ofQ 0, a := .ofS (.w 64), b := .ofSL (.w 32),
    ty := fun t => t == .f32 || t == .f16 || t == .bf16 || t.isF8 || t.isBlock || t == .i32 || t == .i8,
    rnd := 2, sat := true, ftz := true, xmask := 0b1111111,
    extra := fun e => engSpace (e.x.toNat / 4 % 8) && (!e.ty.isInt || (e.rnd == .rne && !e.ftz)) }
/-- MSTAT pops q1 (15 R296). -/
def mstat : Form := { d := .ofS (.w 64), a := .ofQ 1, xmask := 0b0000001 }

/-- 14 R262. -/
def copySpaces (e : Ext) : Bool := engSpace (e.x.toNat % 8) && engSpace (e.x.toNat / 8 % 8)
def copy : Form :=
  { d := .ofQ 2, a := .ofS (.w 32), b := .ofS (.grp 8 7), xmask := 0b0111111, extra := copySpaces }
def gather : Form :=
  { copy with ty := fun t => t == .b8 || t == .b16 || t.isB || t == .b128, xmask := 0b1111111 }
def xcode : Form :=
  { copy with ty := fun t => t == .none || t.isCvt || t.isBlock, rnd := 2, sat := true, ftz := true }
def coll : Form :=
  { copy with
    d := .ofQ 3, ty := fun t => t == .b8 || t == .b16 || t.isB || t == .b128 || t.isInt || t.isFD,
    rnd := 1, ftz := true, scope := (· != .sys),
    extra := fun e => (e.x.toNat % 8 == 0 || e.x.toNat % 8 == 4) && (e.x.toNat / 8 % 8 == 0 || e.x.toNat / 8 % 8 == 4) }

/-- 21 R357. -/
def trav : Form := { d := .ofQ 8, a := .ofV (.grp 4 12), b := .ofS (.grp 8 6), k := true }
def travc : Form :=
  { trav with c := .ofV .pay, xmask := 0b0111111, extra := fun e => decide (e.x.toNat ≤ 48) }
def tres : Form := { d := .ofQ 8, a := .ofS (.w 32), b := .ofSL (.w 32) }
def ttok : Form := { d := .ofS (.grp 8 8), a := .ofQ 9, xmask := 0b0000001 }
def smpl : Form := { d := .ofQ 10, a := .ofV (.grp 1 3), b := .ofS (.grp 8 6), k := true }
def sres : Form := { d := .ofV (.grp 4 4), a := .ofQ 11 }

/-- A command with a parameter group of n registers (19 R340, 23 R395). -/
def group (q : BitVec 4) (n : Nat) : Form := { d := .ofQ q, a := .ofS (.grp 8 n) }
/-- A pop of n registers with NB in X[0] (19 R344, 22 R383). -/
def popNb (q : BitVec 4) (al n : Nat) : Form := { d := .ofS (.grp al n), a := .ofQ q, xmask := 0b0000001 }
def qOnly (q : BitVec 4) : Form := { d := .ofQ q }

/-- 17 R317: A holds the site as a literal of 16 bits, or nothing. -/
def siteA : Slot := { v := true, l := true, w := .w 16 }
def drawV : Form := { d := .ofV (.w 32), a := siteA, k := true, extra := fun e => e.a.isLit || e.a == .v 0 }
def kdraw : Form :=
  { d := .ofM, a := siteA, b := { v := true, s := true, l := true, w := .w 16 }, k := true,
    extra := fun e => e.a.isLit || e.a == .v 0 }
def chsite : Form := { a := { s := true, l := true, w := .w 16 } }
def chrec : Form := { d := .ofQ 4, k := true }
def result : Form := { d := .ofQ 4, a := .ofVSL (.w 32), b := .ofVSL (.w 32), ty := (· == .f32), k := true }
def chmut : Form := { d := .ofQ 4, a := .ofVS (.w 64), k := true }
def chstat : Form := { d := .ofV (.w 32), k := true, xmask := 0b0000111, extra := fun e => decide (e.x.toNat ≤ 4) }
def chkey : Form := { d := .ofS (.w 64), xmask := 0b0000011, extra := fun e => decide (e.x.toNat ≤ 2) }

/-- 19 R340. -/
def tsamp : Form := { group 6 7 with ty := DType.isF, xmask := 0b0000011 }
def tids : Form := { group 6 7 with xmask := 0b0000001 }
def twatch : Form := { group 6 7 with xmask := 0b0000111 }

/-- 22 R380. -/
def asbeg : Form :=
  { d := .ofQ 12, a := .ofS (.grp 8 6), ty := fun t => t == .n32 || t == .n8, xmask := 0b0111111,
    extra := fun e => e.x.toNat / 2 % 4 != 3 && engSpace (e.x.toNat / 8) }
/-- The scalar form names six registers and the vector form eight, both from a multiple of 8. -/
def asseg : Form :=
  { d := .ofQ 12, a := .ofVS .seg, k := true, xmask := 0b0000111,
    extra := fun e => if e.x.toNat / 4 == 1 then e.a.isV && e.x.toNat % 4 != 0 else e.a.isS && e.k == 0 }

end Form

/-! ## Rows -/

/-- TWATCH by OPC; 110 and 111 meet BADDESC when the entry is performed (19 R341), and go with `.sync`, which keeps X. -/
def twatchInstr (e : Ext) : Instr :=
  match e.x.toNat with
  | 0 => .twatchSet e
  | 1 => .twatchClear e
  | 2 => .twatchOpen e
  | 3 => .twatchClose e
  | 4 => .twatchThaw e
  | _ => .twatchSync e

/-- ASSEG by X[2:0] (22 R380). -/
def assegInstr (e : Ext) : Instr :=
  match e.x.toNat with
  | 0 => .assegMove e
  | 1 => .assegLine e
  | 2 => .assegQuad e
  | 3 => .assegCubic e
  | _ => .assegV e

/-- The row of an extended instruction: its form, and the constructor its fields go to (03 R55).
TWATCH and ASSEG choose the constructor by their X field (19 R341, 22 R380). -/
def extRow (major minor : Nat) (e : Ext) : Option (Form × Instr) :=
  match major, minor with
  | 0x10, 0x0 => some (Form.int3 true, .iadd e)
  | 0x10, 0x1 => some (Form.int3 true, .isub e)
  | 0x10, 0x2 => some (Form.iaddc, .iaddc e)
  | 0x10, 0x3 => some (Form.int3 true, .imul e)
  | 0x10, 0x4 => some (Form.imulh, .imulh e)
  | 0x10, 0x5 => some (Form.imad, .imad e)
  | 0x10, 0x6 => some (Form.int3 false, .imin e)
  | 0x10, 0x7 => some (Form.int3 false, .imax e)
  | 0x10, 0x8 => some (Form.iabs, .iabs e)
  | 0x10, 0x9 => some (Form.ineg, .ineg e)
  | 0x10, 0xa => some (Form.shift DType.isInt, .ishl e)
  | 0x10, 0xb => some (Form.shift DType.isSigned, .ishr e)
  | 0x10, 0xc => some (Form.shift DType.isInt, .lshr e)
  | 0x10, 0xd => some (Form.logic3, .andX e)
  | 0x10, 0xe => some (Form.logic3, .orX e)
  | 0x10, 0xf => some (Form.logic3, .xorX e)
  | 0x10, 0x10 => some (Form.not1, .notX e)
  | 0x10, 0x11 => some (Form.count1, .popc e)
  | 0x10, 0x12 => some (Form.count1, .clz e)
  | 0x10, 0x13 => some (Form.brev, .brev e)
  | 0x10, 0x14 => some (Form.bfx, .bfx e)
  | 0x10, 0x15 => some (Form.bfi, .bfi e)
  | 0x10, 0x16 => some (Form.icmp, .icmp e)
  | 0x10, 0x17 => some (Form.sel, .selX e)
  | 0x11, 0x0 => some (Form.float3, .fadd e)
  | 0x11, 0x1 => some (Form.float3, .fsub e)
  | 0x11, 0x2 => some (Form.float3, .fmul e)
  | 0x11, 0x3 => some (Form.fma, .fma e)
  | 0x11, 0x4 => some (Form.fminmax, .fmin e)
  | 0x11, 0x5 => some (Form.fminmax, .fmax e)
  | 0x11, 0x6 => some (Form.fsign, .fabs e)
  | 0x11, 0x7 => some (Form.fsign, .fneg e)
  | 0x11, 0x8 => some (Form.fcmp, .fcmp e)
  | 0x11, 0x9 => some (Form.fclass, .fclass e)
  | 0x12, 0x0 => some (Form.fdiv, .fdiv e)
  | 0x12, 0x1 => some (Form.fsqrt, .fsqrt e)
  | 0x12, 0x2 => some (Form.ffun, .frcp e)
  | 0x12, 0x3 => some (Form.ffun, .frsq e)
  | 0x12, 0x4 => some (Form.ffun, .fex2 e)
  | 0x12, 0x5 => some (Form.ffun, .flg2 e)
  | 0x13, 0x0 => some (Form.dbl2, .dadd e)
  | 0x13, 0x1 => some (Form.dbl2, .dmul e)
  | 0x13, 0x2 => some (Form.dbl3, .dfma e)
  | 0x14, 0x0 => some (Form.cvt, .cvt e)
  | 0x14, 0x1 => some (Form.frnd, .frnd e)
  | 0x14, 0x2 => some (Form.pack, .pack e)
  | 0x14, 0x3 => some (Form.unpack, .unpack e)
  | 0x15, 0x0 => some (Form.mask2, .kand e)
  | 0x15, 0x1 => some (Form.mask2, .kor e)
  | 0x15, 0x2 => some (Form.mask2, .kxor e)
  | 0x15, 0x3 => some (Form.mask1, .knot e)
  | 0x15, 0x4 => some (Form.kmov, .kmov e)
  | 0x15, 0x5 => some (Form.maskToS, .kpopc e)
  | 0x15, 0x6 => some (Form.maskToS, .kfirst e)
  | 0x15, 0x7 => some (Form.maskToS, .kany e)
  | 0x15, 0x8 => some (Form.maskToS, .kall e)
  | 0x16, 0x0 => some (Form.shfl, .shfl e)
  | 0x16, 0x1 => some (Form.shfl, .shflx e)
  | 0x16, 0x2 => some (Form.shfl, .shflup e)
  | 0x16, 0x3 => some (Form.shfl, .shfldn e)
  | 0x16, 0x4 => some (Form.bcast, .bcast e)
  | 0x16, 0x5 => some (Form.redw, .redw e)
  | 0x16, 0x6 => some (Form.scanw, .scanw e)
  | 0x17, 0x0 => some (Form.movx, .movx e)
  | 0x17, 0x1 => some (Form.movxw, .movxw e)
  | 0x18, 0x0 => some (Form.ifF, .ifX e)
  | 0x18, 0x1 => some (Form.jump, .elseX e)
  | 0x18, 0x2 => some (Form.bare, .endif e)
  | 0x18, 0x3 => some (Form.jump, .loopX e)
  | 0x18, 0x4 => some (Form.jump, .endloop e)
  | 0x18, 0x5 => some (Form.breakF, .breakX e)
  | 0x18, 0x6 => some (Form.bare, .joinX e)
  | 0x19, 0x0 => some (Form.jump, .bra e)
  | 0x19, 0x1 => some (Form.bz, .bz e)
  | 0x19, 0x2 => some (Form.bz, .bnz e)
  | 0x19, 0x3 => some (Form.call, .call e)
  | 0x19, 0x4 => some (Form.calli, .calli e)
  | 0x19, 0x5 => some (Form.ret, .ret e)
  | 0x19, 0x6 => some (Form.bare, .exit e)
  | 0x19, 0x7 => some (Form.bare, .nop e)
  | 0x19, 0x8 => some (Form.bare, .yield e)
  | 0x1a, 0x0 => some (Form.ld, .ld e)
  | 0x1a, 0x1 => some (Form.ldb, .ldb e)
  | 0x1a, 0x2 => some (Form.ldc, .ldc e)
  | 0x1a, 0x3 => some (Form.lda, .lda e)
  | 0x1a, 0x4 => some (Form.prf, .prf e)
  | 0x1b, 0x0 => some (Form.st, .st e)
  | 0x1b, 0x1 => some (Form.stb, .stb e)
  | 0x1b, 0x2 => some (Form.stl, .stl e)
  | 0x1c, 0x0 => some (Form.fao, .fao e)
  | 0x1c, 0x1 => some (Form.cas, .cas e)
  | 0x1c, 0x2 => some (Form.red, .red e)
  | 0x1d, 0x0 => some (Form.fence, .fence e)
  | 0x1d, 0x1 => some (Form.qfence, .qfence e)
  | 0x1d, 0x2 => some (Form.bar, .barX e)
  | 0x1d, 0x3 => some (Form.bar, .bara e)
  | 0x1d, 0x4 => some (Form.bar, .barw e)
  | 0x1e, 0x0 => some (Form.qpush, .qpush e)
  | 0x1e, 0x1 => some (Form.qpop, .qpop e)
  | 0x1e, 0x2 => some (Form.qpeek, .qpeek e)
  | 0x1f, 0x0 => some (Form.code, .trapX e)
  | 0x1f, 0x1 => some (Form.bare, .tret e)
  | 0x1f, 0x2 => some (Form.code, .sysc e)
  | 0x1f, 0x3 => some (Form.code, .bkpt e)
  | 0x1f, 0x4 => some (Form.rds, .rds e)
  | 0x1f, 0x5 => some (Form.wrs, .wrs e)
  | 0x1f, 0x6 => some (Form.icf, .icf e)
  | 0x1f, 0x7 => some (Form.bare, .haltX e)
  | 0x20, 0x0 => some (Form.mma, .mma e)
  | 0x20, 0x1 => some (Form.mzero, .mzero e)
  | 0x20, 0x2 => some (Form.mld, .mlda e)
  | 0x20, 0x3 => some (Form.mld, .mldb e)
  | 0x20, 0x4 => some (Form.munf, .munf e)
  | 0x20, 0x5 => some (Form.mdrn, .mdrn e)
  | 0x20, 0x6 => some (Form.mld, .mhist e)
  | 0x20, 0x7 => some (Form.mstat, .mstat e)
  | 0x21, 0x0 => some (Form.copy, .cpy e)
  | 0x21, 0x1 => some (Form.copy, .cpy2d e)
  | 0x21, 0x2 => some (Form.gather, .gth e)
  | 0x21, 0x3 => some (Form.gather, .sct e)
  | 0x21, 0x4 => some (Form.xcode, .xcode e)
  | 0x21, 0x5 => some (Form.coll, .coll e)
  | 0x22, 0x0 => some (Form.trav, .trav e)
  | 0x22, 0x1 => some (Form.travc, .travc e)
  | 0x22, 0x2 => some (Form.tres, .tres e)
  | 0x22, 0x3 => some (Form.ttok, .ttok e)
  | 0x22, 0x4 => some (Form.smpl, .smpl e)
  | 0x22, 0x5 => some (Form.sres, .sres e)
  | 0x23, 0x0 => some (Form.group 14 7, .lnch e)
  | 0x23, 0x1 => some (Form.group 14 7, .armX e)
  | 0x23, 0x2 => some (Form.group 14 7, .sigh e)
  | 0x30, 0x0 => some (Form.drawV, .draw e)
  | 0x30, 0x1 => some (Form.drawV, .drawf e)
  | 0x30, 0x2 => some (Form.kdraw, .kdraw e)
  | 0x30, 0x3 => some (Form.chsite, .chsite e)
  | 0x30, 0x4 => some (Form.chrec, .chrec e)
  | 0x30, 0x5 => some (Form.result, .result e)
  | 0x30, 0x6 => some (Form.chmut, .chmut e)
  | 0x30, 0x7 => some (Form.chstat, .chstat e)
  | 0x30, 0x8 => some (Form.chkey, .chkey e)
  | 0x31, 0x0 => some (Form.tsamp, .tsamp e)
  | 0x31, 0x1 => some (Form.tids, .tdraft e)
  | 0x31, 0x2 => some (Form.group 6 7, .tconf e)
  | 0x31, 0x3 => some (Form.group 6 7, .trej e)
  | 0x31, 0x4 => some (Form.twatch, (twatchInstr e))
  | 0x31, 0x5 => some (Form.tids, .tinj e)
  | 0x31, 0x6 => some (Form.group 6 7, .tfork e)
  | 0x31, 0x7 => some (Form.popNb 7 4 4, .tstat e)
  | 0x32, 0x0 => some (Form.asbeg, .asbeg e)
  | 0x32, 0x1 => some (Form.asseg, (assegInstr e))
  | 0x32, 0x2 => some (Form.qOnly 12, .asend e)
  | 0x32, 0x3 => some (Form.qOnly 12, .asdrn e)
  | 0x32, 0x4 => some (Form.popNb 13 4 4, .asstat e)
  | 0x33, 0x0 => some (Form.vat, .vat e)
  | 0x33, 0x1 => some (Form.xacc, .xacc e)
  | 0x33, 0x2 => some (Form.xrd, .xrd e)
  | 0x33, 0x3 => some (Form.xclr, .xclr e)
  | 0x34, 0x0 => some (Form.xswap, .xswap e)
  | _, _ => none

/-- MAJOR, MINOR and fields of an extended instruction; none for the other constructors (03 R55). -/
def extOf : Instr → Option (Nat × Nat × Ext)
  | .iadd e => some (0x10, 0x0, e)
  | .isub e => some (0x10, 0x1, e)
  | .iaddc e => some (0x10, 0x2, e)
  | .imul e => some (0x10, 0x3, e)
  | .imulh e => some (0x10, 0x4, e)
  | .imad e => some (0x10, 0x5, e)
  | .imin e => some (0x10, 0x6, e)
  | .imax e => some (0x10, 0x7, e)
  | .iabs e => some (0x10, 0x8, e)
  | .ineg e => some (0x10, 0x9, e)
  | .ishl e => some (0x10, 0xa, e)
  | .ishr e => some (0x10, 0xb, e)
  | .lshr e => some (0x10, 0xc, e)
  | .andX e => some (0x10, 0xd, e)
  | .orX e => some (0x10, 0xe, e)
  | .xorX e => some (0x10, 0xf, e)
  | .notX e => some (0x10, 0x10, e)
  | .popc e => some (0x10, 0x11, e)
  | .clz e => some (0x10, 0x12, e)
  | .brev e => some (0x10, 0x13, e)
  | .bfx e => some (0x10, 0x14, e)
  | .bfi e => some (0x10, 0x15, e)
  | .icmp e => some (0x10, 0x16, e)
  | .selX e => some (0x10, 0x17, e)
  | .fadd e => some (0x11, 0x0, e)
  | .fsub e => some (0x11, 0x1, e)
  | .fmul e => some (0x11, 0x2, e)
  | .fma e => some (0x11, 0x3, e)
  | .fmin e => some (0x11, 0x4, e)
  | .fmax e => some (0x11, 0x5, e)
  | .fabs e => some (0x11, 0x6, e)
  | .fneg e => some (0x11, 0x7, e)
  | .fcmp e => some (0x11, 0x8, e)
  | .fclass e => some (0x11, 0x9, e)
  | .fdiv e => some (0x12, 0x0, e)
  | .fsqrt e => some (0x12, 0x1, e)
  | .frcp e => some (0x12, 0x2, e)
  | .frsq e => some (0x12, 0x3, e)
  | .fex2 e => some (0x12, 0x4, e)
  | .flg2 e => some (0x12, 0x5, e)
  | .dadd e => some (0x13, 0x0, e)
  | .dmul e => some (0x13, 0x1, e)
  | .dfma e => some (0x13, 0x2, e)
  | .cvt e => some (0x14, 0x0, e)
  | .frnd e => some (0x14, 0x1, e)
  | .pack e => some (0x14, 0x2, e)
  | .unpack e => some (0x14, 0x3, e)
  | .kand e => some (0x15, 0x0, e)
  | .kor e => some (0x15, 0x1, e)
  | .kxor e => some (0x15, 0x2, e)
  | .knot e => some (0x15, 0x3, e)
  | .kmov e => some (0x15, 0x4, e)
  | .kpopc e => some (0x15, 0x5, e)
  | .kfirst e => some (0x15, 0x6, e)
  | .kany e => some (0x15, 0x7, e)
  | .kall e => some (0x15, 0x8, e)
  | .shfl e => some (0x16, 0x0, e)
  | .shflx e => some (0x16, 0x1, e)
  | .shflup e => some (0x16, 0x2, e)
  | .shfldn e => some (0x16, 0x3, e)
  | .bcast e => some (0x16, 0x4, e)
  | .redw e => some (0x16, 0x5, e)
  | .scanw e => some (0x16, 0x6, e)
  | .movx e => some (0x17, 0x0, e)
  | .movxw e => some (0x17, 0x1, e)
  | .ifX e => some (0x18, 0x0, e)
  | .elseX e => some (0x18, 0x1, e)
  | .endif e => some (0x18, 0x2, e)
  | .loopX e => some (0x18, 0x3, e)
  | .endloop e => some (0x18, 0x4, e)
  | .breakX e => some (0x18, 0x5, e)
  | .joinX e => some (0x18, 0x6, e)
  | .bra e => some (0x19, 0x0, e)
  | .bz e => some (0x19, 0x1, e)
  | .bnz e => some (0x19, 0x2, e)
  | .call e => some (0x19, 0x3, e)
  | .calli e => some (0x19, 0x4, e)
  | .ret e => some (0x19, 0x5, e)
  | .exit e => some (0x19, 0x6, e)
  | .nop e => some (0x19, 0x7, e)
  | .yield e => some (0x19, 0x8, e)
  | .ld e => some (0x1a, 0x0, e)
  | .ldb e => some (0x1a, 0x1, e)
  | .ldc e => some (0x1a, 0x2, e)
  | .lda e => some (0x1a, 0x3, e)
  | .prf e => some (0x1a, 0x4, e)
  | .st e => some (0x1b, 0x0, e)
  | .stb e => some (0x1b, 0x1, e)
  | .stl e => some (0x1b, 0x2, e)
  | .fao e => some (0x1c, 0x0, e)
  | .cas e => some (0x1c, 0x1, e)
  | .red e => some (0x1c, 0x2, e)
  | .fence e => some (0x1d, 0x0, e)
  | .qfence e => some (0x1d, 0x1, e)
  | .barX e => some (0x1d, 0x2, e)
  | .bara e => some (0x1d, 0x3, e)
  | .barw e => some (0x1d, 0x4, e)
  | .qpush e => some (0x1e, 0x0, e)
  | .qpop e => some (0x1e, 0x1, e)
  | .qpeek e => some (0x1e, 0x2, e)
  | .trapX e => some (0x1f, 0x0, e)
  | .tret e => some (0x1f, 0x1, e)
  | .sysc e => some (0x1f, 0x2, e)
  | .bkpt e => some (0x1f, 0x3, e)
  | .rds e => some (0x1f, 0x4, e)
  | .wrs e => some (0x1f, 0x5, e)
  | .icf e => some (0x1f, 0x6, e)
  | .haltX e => some (0x1f, 0x7, e)
  | .mma e => some (0x20, 0x0, e)
  | .mzero e => some (0x20, 0x1, e)
  | .mlda e => some (0x20, 0x2, e)
  | .mldb e => some (0x20, 0x3, e)
  | .munf e => some (0x20, 0x4, e)
  | .mdrn e => some (0x20, 0x5, e)
  | .mhist e => some (0x20, 0x6, e)
  | .mstat e => some (0x20, 0x7, e)
  | .cpy e => some (0x21, 0x0, e)
  | .cpy2d e => some (0x21, 0x1, e)
  | .gth e => some (0x21, 0x2, e)
  | .sct e => some (0x21, 0x3, e)
  | .xcode e => some (0x21, 0x4, e)
  | .coll e => some (0x21, 0x5, e)
  | .trav e => some (0x22, 0x0, e)
  | .travc e => some (0x22, 0x1, e)
  | .tres e => some (0x22, 0x2, e)
  | .ttok e => some (0x22, 0x3, e)
  | .smpl e => some (0x22, 0x4, e)
  | .sres e => some (0x22, 0x5, e)
  | .lnch e => some (0x23, 0x0, e)
  | .armX e => some (0x23, 0x1, e)
  | .sigh e => some (0x23, 0x2, e)
  | .draw e => some (0x30, 0x0, e)
  | .drawf e => some (0x30, 0x1, e)
  | .kdraw e => some (0x30, 0x2, e)
  | .chsite e => some (0x30, 0x3, e)
  | .chrec e => some (0x30, 0x4, e)
  | .result e => some (0x30, 0x5, e)
  | .chmut e => some (0x30, 0x6, e)
  | .chstat e => some (0x30, 0x7, e)
  | .chkey e => some (0x30, 0x8, e)
  | .tsamp e => some (0x31, 0x0, e)
  | .tdraft e => some (0x31, 0x1, e)
  | .tconf e => some (0x31, 0x2, e)
  | .trej e => some (0x31, 0x3, e)
  | .twatchSet e => some (0x31, 0x4, e)
  | .twatchClear e => some (0x31, 0x4, e)
  | .twatchOpen e => some (0x31, 0x4, e)
  | .twatchClose e => some (0x31, 0x4, e)
  | .twatchThaw e => some (0x31, 0x4, e)
  | .twatchSync e => some (0x31, 0x4, e)
  | .tinj e => some (0x31, 0x5, e)
  | .tfork e => some (0x31, 0x6, e)
  | .tstat e => some (0x31, 0x7, e)
  | .asbeg e => some (0x32, 0x0, e)
  | .assegMove e => some (0x32, 0x1, e)
  | .assegLine e => some (0x32, 0x1, e)
  | .assegQuad e => some (0x32, 0x1, e)
  | .assegCubic e => some (0x32, 0x1, e)
  | .assegV e => some (0x32, 0x1, e)
  | .asend e => some (0x32, 0x2, e)
  | .asdrn e => some (0x32, 0x3, e)
  | .asstat e => some (0x32, 0x4, e)
  | .vat e => some (0x33, 0x0, e)
  | .xacc e => some (0x33, 0x1, e)
  | .xrd e => some (0x33, 0x2, e)
  | .xclr e => some (0x33, 0x3, e)
  | .xswap e => some (0x34, 0x0, e)
  | _ => none

/-- The constructor of a three-register base form (03 R34). -/
def baseRow (major minor : Nat) (b : Base3) : Option Instr :=
  match major, minor with
  | 0x1, 0x0 => some (.iaddBaseV b)
  | 0x1, 0x1 => some (.isubBaseV b)
  | 0x1, 0x2 => some (.imulBaseV b)
  | 0x1, 0x3 => some (.andBaseV b)
  | 0x1, 0x4 => some (.orBaseV b)
  | 0x1, 0x5 => some (.xorBaseV b)
  | 0x1, 0x6 => some (.ishlBaseV b)
  | 0x1, 0x7 => some (.lshrBaseV b)
  | 0x2, 0x0 => some (.iminI32BaseV b)
  | 0x2, 0x1 => some (.imaxI32BaseV b)
  | 0x2, 0x2 => some (.iminN32BaseV b)
  | 0x2, 0x3 => some (.imaxN32BaseV b)
  | 0x2, 0x4 => some (.imulhI32BaseV b)
  | 0x2, 0x5 => some (.imulhN32BaseV b)
  | 0x2, 0x6 => some (.ishrI32BaseV b)
  | 0x3, 0x0 => some (.faddBaseV b)
  | 0x3, 0x1 => some (.fsubBaseV b)
  | 0x3, 0x2 => some (.fmulBaseV b)
  | 0x3, 0x3 => some (.fminBaseV b)
  | 0x3, 0x4 => some (.fmaxBaseV b)
  | 0x4, 0x0 => some (.iaddBaseS b)
  | 0x4, 0x1 => some (.isubBaseS b)
  | 0x4, 0x2 => some (.imulBaseS b)
  | 0x4, 0x3 => some (.andBaseS b)
  | 0x4, 0x4 => some (.orBaseS b)
  | 0x4, 0x5 => some (.xorBaseS b)
  | 0x4, 0x6 => some (.ishlBaseS b)
  | 0x4, 0x7 => some (.lshrBaseS b)
  | 0x5, 0x0 => some (.iminI32BaseS b)
  | 0x5, 0x1 => some (.imaxI32BaseS b)
  | 0x5, 0x2 => some (.iminN32BaseS b)
  | 0x5, 0x3 => some (.imaxN32BaseS b)
  | 0x5, 0x4 => some (.imulhI32BaseS b)
  | 0x5, 0x5 => some (.imulhN32BaseS b)
  | 0x5, 0x6 => some (.ishrI32BaseS b)
  | 0x6, 0x0 => some (.faddBaseS b)
  | 0x6, 0x1 => some (.fsubBaseS b)
  | 0x6, 0x2 => some (.fmulBaseS b)
  | 0x6, 0x3 => some (.fminBaseS b)
  | 0x6, 0x4 => some (.fmaxBaseS b)
  | _, _ => none

/-- MAJOR, MINOR and fields of a three-register base form. -/
def baseOf : Instr → Option (Nat × Nat × Base3)
  | .iaddBaseV b => some (0x1, 0x0, b)
  | .isubBaseV b => some (0x1, 0x1, b)
  | .imulBaseV b => some (0x1, 0x2, b)
  | .andBaseV b => some (0x1, 0x3, b)
  | .orBaseV b => some (0x1, 0x4, b)
  | .xorBaseV b => some (0x1, 0x5, b)
  | .ishlBaseV b => some (0x1, 0x6, b)
  | .lshrBaseV b => some (0x1, 0x7, b)
  | .iminI32BaseV b => some (0x2, 0x0, b)
  | .imaxI32BaseV b => some (0x2, 0x1, b)
  | .iminN32BaseV b => some (0x2, 0x2, b)
  | .imaxN32BaseV b => some (0x2, 0x3, b)
  | .imulhI32BaseV b => some (0x2, 0x4, b)
  | .imulhN32BaseV b => some (0x2, 0x5, b)
  | .ishrI32BaseV b => some (0x2, 0x6, b)
  | .faddBaseV b => some (0x3, 0x0, b)
  | .fsubBaseV b => some (0x3, 0x1, b)
  | .fmulBaseV b => some (0x3, 0x2, b)
  | .fminBaseV b => some (0x3, 0x3, b)
  | .fmaxBaseV b => some (0x3, 0x4, b)
  | .iaddBaseS b => some (0x4, 0x0, b)
  | .isubBaseS b => some (0x4, 0x1, b)
  | .imulBaseS b => some (0x4, 0x2, b)
  | .andBaseS b => some (0x4, 0x3, b)
  | .orBaseS b => some (0x4, 0x4, b)
  | .xorBaseS b => some (0x4, 0x5, b)
  | .ishlBaseS b => some (0x4, 0x6, b)
  | .lshrBaseS b => some (0x4, 0x7, b)
  | .iminI32BaseS b => some (0x5, 0x0, b)
  | .imaxI32BaseS b => some (0x5, 0x1, b)
  | .iminN32BaseS b => some (0x5, 0x2, b)
  | .imaxN32BaseS b => some (0x5, 0x3, b)
  | .imulhI32BaseS b => some (0x5, 0x4, b)
  | .imulhN32BaseS b => some (0x5, 0x5, b)
  | .ishrI32BaseS b => some (0x5, 0x6, b)
  | .faddBaseS b => some (0x6, 0x0, b)
  | .fsubBaseS b => some (0x6, 0x1, b)
  | .fmulBaseS b => some (0x6, 0x2, b)
  | .fminBaseS b => some (0x6, 0x3, b)
  | .fmaxBaseS b => some (0x6, 0x4, b)
  | _ => none

/-- The constructor of a scalar-immediate form (03 R34). -/
def immRow (major : Nat) (b : BaseImm) : Option Instr :=
  match major with
  | 0x07 => some (.iaddi b)
  | 0x08 => some (.andi b)
  | 0x09 => some (.ori b)
  | 0x0A => some (.xori b)
  | 0x0B => some (.ishli b)
  | _ => none

/-- MAJOR and fields of a scalar-immediate form. -/
def immOf : Instr → Option (Nat × BaseImm)
  | .iaddi b => some (0x07, b)
  | .andi b => some (0x08, b)
  | .ori b => some (0x09, b)
  | .xori b => some (0x0A, b)
  | .ishli b => some (0x0B, b)
  | _ => none

/-! ## The decoder -/

/-- What a word sequence decodes to. -/
inductive Decoded where
  | instr (i : Instr)
  | unimpl
  | illegal
  deriving DecidableEq, Repr

/-- The number of words of an instruction, from LEN (03 R31). -/
def lenWords (w0 : Word) : Nat :=
  match w0.toNat % 4 with
  | 0 => 1
  | 3 => 5
  | _ => 3

/-- MAJOR (03 R31). -/
def majorOf (w0 : Word) : Nat := w0.toNat / 4 % 64

/-- Majors that are unassigned or reserved: UNIMPL_MAJOR (03 R54). -/
def unimplMajor (m : Nat) : Bool :=
  (0x0D ≤ m && m ≤ 0x0F) || (0x24 ≤ m && m ≤ 0x2F) || (0x35 ≤ m && m ≤ 0x3E)

/-- Bits [hi:lo] of a word as a number (02 R29). -/
def fieldOf (w : Word) (hi lo : Nat) : Nat := w.toNat / 2 ^ lo % 2 ^ (hi + 1 - lo)

/-- The 64-bit literal of two words, low word first (03 R31). -/
def litOf (lo hi : Word) : Dword := hi ++ lo

def ofInstr : Option Instr → Decoded
  | some i => .instr i
  | none => .illegal

/-- A base word (03 R33–R35). `lit` is the literal of LEN 10. -/
def decodeBase (w0 : Word) (lit : Option Dword) : Decoded :=
  let major := majorOf w0
  let litBad := match lit with
    | some l => decide (2 ^ 32 ≤ l.toNat)
    | none => false
  if litBad then .illegal
  else if major ≤ 0x06 then
    let b := fieldOf w0 31 25
    let src := match lit with
      | some l => BaseSrc.lit (l.setWidth 32)
      | none => BaseSrc.reg (BitVec.ofNat 7 b)
    if lit.isSome && b != 0 then .illegal
    else ofInstr (baseRow major (fieldOf w0 10 8)
      { d := BitVec.ofNat 7 (fieldOf w0 17 11), a := BitVec.ofNat 7 (fieldOf w0 24 18), b := src })
  else if major = 0x0C then
    if lit.isSome then .illegal
    else .instr (.shi { d := BitVec.ofNat 4 (fieldOf w0 11 8), imm := BitVec.ofNat 20 (fieldOf w0 31 12) })
  else
    let imm := fieldOf w0 31 20
    let src := match lit with
      | some l => ImmSrc.lit (l.setWidth 32)
      | none => ImmSrc.imm (BitVec.ofNat 12 imm)
    if lit.isSome && imm != 0 then .illegal
    else ofInstr (immRow major
      { d := BitVec.ofNat 6 (fieldOf w0 13 8), a := BitVec.ofNat 6 (fieldOf w0 19 14), i := src })

/-- The fields of an extended instruction (03 R36–R40). `lit` is the literal of LEN 11. -/
def decodeFields (w0 w1 w2 : Word) (lit : Option Dword) : Option Ext := do
  let ty ← DType.ofCode (fieldOf w1 24 20)
  let rnd ← Rnd.ofCode (fieldOf w1 27 25)
  let ord ← Ordr.ofCode (fieldOf w2 12 11)
  let scope ← Scope.ofCode (fieldOf w2 10 8)
  let d ← Opnd.ofCode (fieldOf w2 1 0) (fieldOf w0 23 16)
  let a ← Opnd.ofCode (fieldOf w2 3 2) (fieldOf w0 31 24)
  let b ← Opnd.ofCode (fieldOf w2 5 4) (fieldOf w1 7 0)
  let c ← Opnd.ofCode (fieldOf w2 7 6) (fieldOf w1 15 8)
  let e : Ext :=
    { d, a, b, c, ty, rnd, ord, scope,
      sat := fieldOf w1 28 28 == 1, ftz := fieldOf w1 29 29 == 1, fb := fieldOf w1 30 30 == 1,
      k := BitVec.ofNat 4 (fieldOf w1 19 16), x := BitVec.ofNat 7 (fieldOf w2 31 25),
      off := BitVec.ofNat 12 (fieldOf w2 24 13), lit := lit.getD 0 }
  if fieldOf w1 31 31 = 0 ∧ e.lits = lit.isSome.toNat then some e else none

/-- An extended instruction (03 R36–R41, R55). -/
def decodeExt (w0 w1 w2 : Word) (lit : Option Dword) : Decoded :=
  match decodeFields w0 w1 w2 lit with
  | none => .illegal
  | some e =>
    match extRow (majorOf w0) (fieldOf w0 15 8) e with
    | none => .illegal
    | some (f, i) => if f.accepts e then .instr i else .illegal

/-- The instruction at the head of a word sequence (03 R31, R35, R40, R42, R54–R56).
UNIMPL_MAJOR comes before every ILLEGAL_ENC. Missing words count as absent words of an illegal length. -/
def decodeWords (ws : List Word) : Decoded :=
  match ws with
  | [] => .illegal
  | w0 :: rest =>
    let major := majorOf w0
    let len := w0.toNat % 4
    if unimplMajor major then .unimpl
    else if major = 0 then .illegal
    else if major = 0x3F then
      if len = 0 then
        .instr (.clause {
          dcount := BitVec.ofNat 4 (fieldOf w0 31 28), setb := BitVec.ofNat 4 (fieldOf w0 27 24),
          seta := BitVec.ofNat 4 (fieldOf w0 23 20), wait := BitVec.ofNat 12 (fieldOf w0 19 8) })
      else .illegal
    else if major ≤ 0x0C then
      match len, rest with
      | 0, _ => decodeBase w0 none
      | 2, lo :: hi :: _ => decodeBase w0 (some (litOf lo hi))
      | _, _ => .illegal
    else
      match len, rest with
      | 1, w1 :: w2 :: _ => decodeExt w0 w1 w2 none
      | 3, w1 :: w2 :: lo :: hi :: _ => decodeExt w0 w1 w2 (some (litOf lo hi))
      | _, _ => .illegal

/-! ## Bytes (00 R2) -/

/-- The little-endian word of four bytes. -/
def wordOfBytes (b0 b1 b2 b3 : Byte) : Word := b3 ++ b2 ++ b1 ++ b0

/-- The words of a byte sequence; a tail of fewer than four bytes gives no word. -/
def wordsOfBytes : List Byte → List Word
  | b0 :: b1 :: b2 :: b3 :: rest => wordOfBytes b0 b1 b2 b3 :: wordsOfBytes rest
  | _ => []

/-- The bytes of a word, lowest first. -/
def bytesOfWord (w : Word) : List Byte :=
  [w.extractLsb' 0 8, w.extractLsb' 8 8, w.extractLsb' 16 8, w.extractLsb' 24 8]

/-- Decoding of bytes as they lie in memory. -/
def decodeBytes (bs : List Byte) : Decoded := decodeWords (wordsOfBytes bs)

/-! ## Dictionary codes (03 R49) -/

/-- A 16-bit code; 0xFFFF is a pad. -/
def decodeCode (c : BitVec 16) : Option DictCode :=
  if c = 0xFFFF then none
  else some { patch := c.extractLsb' 10 6, index := c.extractLsb' 0 10 }

/-- A code's 16 bits. -/
def encodeCode (c : DictCode) : BitVec 16 := c.patch ++ c.index

/-! ## The encoder -/

/-- The word of fields given from the high bits down as (value, width). -/
def packFields : List (Nat × Nat) → Nat
  | [] => 0
  | (v, n) :: rest => (v % 2 ^ n) * 2 ^ ((rest.map (·.2)).sum) + packFields rest

def litWords (l : Dword) : List Word := [l.setWidth 32, (l >>> 32).setWidth 32]

/-- The words of an extended instruction (03 R36). -/
def encodeExt (major minor : Nat) (e : Ext) : List Word :=
  let isLit := e.lits = 1
  [BitVec.ofNat 32 (packFields
      [(e.a.field, 8), (e.d.field, 8), (minor, 8), (major, 6), (if isLit then 3 else 1, 2)]),
   BitVec.ofNat 32 (packFields
      [(0, 1), (e.fb.toNat, 1), (e.ftz.toNat, 1), (e.sat.toNat, 1), (e.rnd.code, 3), (e.ty.code, 5), (e.k.toNat, 4),
       (e.c.field, 8), (e.b.field, 8)]),
   BitVec.ofNat 32 (packFields
      [(e.x.toNat, 7), (e.off.toNat, 12), (e.ord.code, 2), (e.scope.code, 3), (e.c.cls, 2), (e.b.cls, 2), (e.a.cls, 2),
       (e.d.cls, 2)])]
  ++ (if isLit then litWords e.lit else [])

/-- The words of a three-register base form (03 R33, R35). -/
def encodeBase3 (major minor : Nat) (b : Base3) : List Word :=
  match b.b with
  | .reg n => [BitVec.ofNat 32 (packFields
      [(n.toNat, 7), (b.a.toNat, 7), (b.d.toNat, 7), (minor, 3), (major, 6), (0, 2)])]
  | .lit w => BitVec.ofNat 32 (packFields
      [(0, 7), (b.a.toNat, 7), (b.d.toNat, 7), (minor, 3), (major, 6), (2, 2)]) :: [w, 0]

/-- The words of a scalar-immediate form (03 R33, R35). -/
def encodeImm (major : Nat) (b : BaseImm) : List Word :=
  match b.i with
  | .imm n => [BitVec.ofNat 32 (packFields [(n.toNat, 12), (b.a.toNat, 6), (b.d.toNat, 6), (major, 6), (0, 2)])]
  | .lit w => BitVec.ofNat 32 (packFields [(0, 12), (b.a.toNat, 6), (b.d.toNat, 6), (major, 6), (2, 2)]) :: [w, 0]

/-- The words of a decoded instruction; a step of the machine that no word stands for has none.
A dictionary code alone is no word either (03 R49). -/
def encode (i : Instr) : List Word :=
  match i with
  | .clause h => [BitVec.ofNat 32 (packFields
      [(h.dcount.toNat, 4), (h.setb.toNat, 4), (h.seta.toNat, 4), (h.wait.toNat, 12), (0x3F, 6), (0, 2)])]
  | .shi b => [BitVec.ofNat 32 (packFields [(b.imm.toNat, 20), (b.d.toNat, 4), (0x0C, 6), (0, 2)])]
  | i =>
    match extOf i with
    | some (maj, min, e) => encodeExt maj min e
    | none =>
      match baseOf i with
      | some (maj, min, b) => encodeBase3 maj min b
      | none =>
        match immOf i with
        | some (maj, b) => encodeImm maj b
        | none => []

/-- The words, one after another, as one number: bit 0 is the least significant bit of the first word. -/
def wordsOfNat : Nat → Nat → List Word
  | 0, _ => []
  | k + 1, n => BitVec.ofNat 32 (n % 2 ^ 32) :: wordsOfNat k (n / 2 ^ 32)

/-- The instruction read from an instruction whose bits are w, bit 0 of the first word first.
Every bit above nbits is zero. -/
def decodeTableWord (nbits w : Nat) : Option Instr :=
  match decodeWords (wordsOfNat 5 (w % 2 ^ nbits)) with
  | .instr i => some i
  | _ => none

end Sys2Proof
end

