-- ==== Sys2Proof/Machine/Num.lean ====
section
/-! DEFINITION. Exact arithmetic and rounding (04 R58–R66): floating-point formats, values taken exactly, one
rounding function for every mode, conversion to integers. -/

namespace Sys2Proof.Num

open Sys2Proof

/-! ## Status bits (04 R62) -/

abbrev Flags := BitVec 32
def IV : Flags := 1
def DZ : Flags := 2
def OF : Flags := 4
def UF : Flags := 8
def NX : Flags := 16
def FMT : Flags := 32

/-- A result's bits with the status bits it sets. -/
structure Res where
  bits : Nat
  fl : Flags := 0
  deriving DecidableEq, Repr

/-! ## Numbers -/

/-- The number of bits of a natural number, 0 for 0; at most `fuel`. -/
def bitLenAux : Nat → Nat → Nat
  | 0, _ => 0
  | f + 1, n => if n = 0 then 0 else bitLenAux f (n / 2) + 1

/-- The bit length of a natural number. -/
def bitLen (n : Nat) : Nat := if n = 0 then 0 else Nat.log2 n + 1

/-- Integer square root, bit by bit from bit k down. -/
def isqrtAux (n : Nat) : Nat → Nat → Nat
  | 0, r => r
  | k + 1, r =>
    let c := r + 2 ^ k
    isqrtAux n k (if c * c ≤ n then c else r)

/-- floor(√n). -/
def isqrt (n : Nat) : Nat := isqrtAux n (bitLen n / 2 + 1) 0

/-- The floor of the 2^k-th root of n. -/
def rootPow2 : Nat → Nat → Nat
  | 0, n => n
  | k + 1, n => rootPow2 k (isqrt n)

/-- ±mag × 2^exp, exactly; with `sticky`, plus something below one unit of mag. -/
structure Exact where
  neg : Bool
  mag : Nat
  exp : Int
  sticky : Bool := false
  deriving DecidableEq, Repr

/-- A floating-point datum. -/
inductive FVal where
  | nan (signalling : Bool)
  | inf (neg : Bool)
  | fin (x : Exact)
  deriving DecidableEq, Repr

/-- The exact value of an integer. -/
def Exact.ofInt (i : Int) : Exact := { neg := decide (i < 0), mag := i.natAbs, exp := 0 }

def Exact.isZero (x : Exact) : Bool := x.mag == 0 && !x.sticky

/-- The signed magnitude in units of 2^e, for e ≤ x.exp. -/
def Exact.scaled (x : Exact) (e : Int) : Int :=
  let m : Int := (x.mag * 2 ^ (x.exp - e).toNat : Nat)
  if x.neg then -m else m

/-- The exact value of i × 2^e, a zero taking the given sign. -/
def Exact.ofScaled (i : Int) (e : Int) (zeroNeg : Bool) : Exact :=
  { neg := if i = 0 then zeroNeg else decide (i < 0), mag := i.natAbs, exp := e }

/-- The sign of an exact zero sum (04 R60): −0 under RDN, else +0; two zeros of one sign keep it. -/
def zeroSign (mode : Rnd) (a b : Exact) : Bool :=
  if a.mag == 0 && b.mag == 0 && a.neg == b.neg then a.neg else mode == .rdn

/-- a + b, exactly. -/
def Exact.add (mode : Rnd) (a b : Exact) : Exact :=
  let e := min a.exp b.exp
  Exact.ofScaled (a.scaled e + b.scaled e) e (zeroSign mode a b)

/-- a × b, exactly. -/
def Exact.mul (a b : Exact) : Exact :=
  { neg := a.neg != b.neg, mag := a.mag * b.mag, exp := a.exp + b.exp }

/-- a / b to 160 bits and a sticky bit, for b not zero. -/
def Exact.div (a b : Exact) : Exact :=
  let k := 160 + bitLen b.mag
  let n := a.mag * 2 ^ k
  { neg := a.neg != b.neg, mag := n / b.mag, exp := a.exp - b.exp - k, sticky := n % b.mag != 0 }

/-- √a to 160 bits and a sticky bit, for a not negative. -/
def Exact.sqrt (a : Exact) : Exact :=
  let odd : Nat := (a.exp % 2).toNat
  let m := a.mag * 2 ^ (320 + odd)
  let r := isqrt m
  { neg := a.neg, mag := r, exp := (a.exp - odd) / 2 - 160, sticky := r * r != m }

/-- −1, 0 or 1 as a is less than, equal to or greater than b; neither is sticky. -/
def Exact.cmp (a b : Exact) : Int :=
  let e := min a.exp b.exp
  let d := a.scaled e - b.scaled e
  if d < 0 then -1 else if d = 0 then 0 else 1

/-- floor(log2 |x|) for x not zero. -/
def Exact.log2 (x : Exact) : Int := x.exp + (bitLen x.mag : Int) - 1

/-- x × 2^k. -/
def Exact.shift (x : Exact) (k : Int) : Exact := { x with exp := x.exp + k }

/-! ## Formats (04 R59) -/

/-- What the all-ones exponent means (04 R59). -/
inductive Top where
  | ieee
  | e4m3
  | normal
  deriving DecidableEq, Repr

structure Fmt where
  ebits : Nat
  fbits : Nat
  bias : Int
  top : Top
  deriving DecidableEq, Repr

def fp64 : Fmt := { ebits := 11, fbits := 52, bias := 1023, top := .ieee }
def fp32 : Fmt := { ebits := 8, fbits := 23, bias := 127, top := .ieee }
def fp16 : Fmt := { ebits := 5, fbits := 10, bias := 15, top := .ieee }
def bf16 : Fmt := { ebits := 8, fbits := 7, bias := 127, top := .ieee }
def e4m3 : Fmt := { ebits := 4, fbits := 3, bias := 7, top := .e4m3 }
def e5m2 : Fmt := { ebits := 5, fbits := 2, bias := 15, top := .ieee }
def e2m1 : Fmt := { ebits := 2, fbits := 1, bias := 1, top := .normal }

/-- The floating-point format of a type. -/
def fmtOf : DType → Option Fmt
  | .f64 => some fp64
  | .f32 => some fp32
  | .f16 => some fp16
  | .bf16 => some bf16
  | .e4m3 => some e4m3
  | .e5m2 => some e5m2
  | _ => none

def Fmt.width (f : Fmt) : Nat := 1 + f.ebits + f.fbits

/-- The all-ones exponent field. -/
def Fmt.eones (f : Fmt) : Nat := 2 ^ f.ebits - 1

/-- The exponent of the smallest normal. -/
def Fmt.emin (f : Fmt) : Int := 1 - f.bias

/-- The code of the largest finite magnitude. -/
def Fmt.maxCode (f : Fmt) : Nat :=
  match f.top with
  | .ieee => f.eones * 2 ^ f.fbits - 1
  | .e4m3 => f.eones * 2 ^ f.fbits + 6
  | .normal => f.eones * 2 ^ f.fbits + 2 ^ f.fbits - 1

/-- The code of an infinity's magnitude in a format that has one. -/
def Fmt.infCode (f : Fmt) : Nat := f.eones * 2 ^ f.fbits

/-- The canonical NaN (04 R59). -/
def Fmt.nanCode (f : Fmt) : Nat :=
  match f.top with
  | .ieee => f.eones * 2 ^ f.fbits + 2 ^ (f.fbits - 1)
  | _ => f.eones * 2 ^ f.fbits + 2 ^ f.fbits - 1

/-- A code with a sign. -/
def Fmt.signed (f : Fmt) (neg : Bool) (code : Nat) : Nat := (if neg then 2 ^ (f.width - 1) else 0) + code

/-- The datum of a bit pattern (04 R59).
A NaN is signalling when the top fraction bit is 0; E4M3 has quiet NaNs only. -/
def Fmt.decode (f : Fmt) (bits : Nat) : FVal :=
  let neg := bits / 2 ^ (f.width - 1) % 2 == 1
  let e := bits / 2 ^ f.fbits % 2 ^ f.ebits
  let m := bits % 2 ^ f.fbits
  let finite : FVal :=
    if e = 0 then .fin { neg, mag := m, exp := f.emin - f.fbits }
    else .fin { neg, mag := 2 ^ f.fbits + m, exp := (e : Int) - f.bias - f.fbits }
  if e = f.eones then
    match f.top with
    | .ieee => if m = 0 then .inf neg else .nan (m / 2 ^ (f.fbits - 1) % 2 == 0)
    | .e4m3 => if m = 2 ^ f.fbits - 1 then .nan false else finite
    | .normal => finite
  else finite

/-- Is a finite datum subnormal in the format? -/
def Fmt.isSubnormal (f : Fmt) (bits : Nat) : Bool :=
  bits / 2 ^ f.fbits % 2 ^ f.ebits == 0 && bits % 2 ^ f.fbits != 0

/-- The datum of an operand, a subnormal replaced by a zero of its sign under `.ftz` (04 R61). -/
def Fmt.input (f : Fmt) (ftz : Bool) (bits : Nat) : FVal :=
  if ftz && f.isSubnormal bits then
    .fin { neg := bits / 2 ^ (f.width - 1) % 2 == 1, mag := 0, exp := 0 }
  else f.decode (bits % 2 ^ f.width)

/-! ## Rounding (04 R63, R64) -/

/-- How an operation rounds: the mode with its draw for SR, `.sat` and `.ftz`. -/
structure RMode where
  rnd : Rnd := .rne
  u : Nat := 0
  sat : Bool := false
  ftz : Bool := false
  deriving DecidableEq, Repr

/-- |x| in units of 2^q, rounded to an integer by the mode; whether it was inexact. -/
def roundMag (m : RMode) (x : Exact) (q : Int) : Nat × Bool :=
  if q ≤ x.exp then (x.mag * 2 ^ (x.exp - q).toNat, x.sticky)
  else
    let s := (q - x.exp).toNat
    let t := x.mag / 2 ^ s
    let r := x.mag % 2 ^ s
    let inexact := r != 0 || x.sticky
    let up : Bool :=
      match m.rnd with
      | .rne =>
        let h := 2 ^ (s - 1)
        decide (h < r) || (r == h && (x.sticky || t % 2 == 1))
      | .rtz => false
      | .rup => inexact && !x.neg
      | .rdn => inexact && x.neg
      | .sr => decide (2 ^ 32 ≤ r * 2 ^ 32 / 2 ^ s + m.u)
    (if up then t + 1 else t, inexact)

/-- Does an overflow become the largest finite value in this mode (04 R63, R64)? -/
def overflowsToMax (m : RMode) (neg : Bool) : Bool :=
  match m.rnd with
  | .rtz => true
  | .rup => neg
  | .rdn => !neg
  | _ => false

/-- Round an exact value to a format (04 R61, R63, R64); tininess is detected after rounding (04 R60). -/
def Fmt.round (f : Fmt) (m : RMode) (x : Exact) : Res :=
  if x.isZero then { bits := f.signed x.neg 0 }
  else
    let e := x.log2
    let q := max e f.emin - f.fbits
    let (n, inexact) := roundMag m x q
    -- the exponent field and fraction of n units of 2^q; a carry moves into the next binade by itself
    let code : Nat :=
      if n < 2 ^ f.fbits then n
      else ((q + f.fbits + f.bias).toNat - 1) * 2 ^ f.fbits + n
    let nx : Flags := if inexact then NX else 0
    if f.maxCode < code then
      if m.sat || overflowsToMax m x.neg || f.top == .normal then
        { bits := f.signed x.neg f.maxCode, fl := OF ||| NX }
      else if f.top == .e4m3 then { bits := f.nanCode, fl := OF ||| NX }
      else { bits := f.signed x.neg f.infCode, fl := OF ||| NX }
    else
      let (n', _) := roundMag m x (e - f.fbits)
      let tiny := decide ((bitLen n' : Int) + (e - f.fbits) ≤ f.emin)
      let uf : Flags := if tiny && inexact then UF else 0
      if m.ftz && code < 2 ^ f.fbits && code != 0 then { bits := f.signed x.neg 0, fl := UF ||| NX }
      else { bits := f.signed x.neg code, fl := nx ||| uf }

/-- The canonical NaN of a format; E2M1 has none, and its block's scale says so instead (04 R71). -/
def Fmt.nan (f : Fmt) (fl : Flags) : Res := { bits := f.nanCode, fl }

/-- An infinite result that no overflow made (04 R63): an infinite operand, or the exact result of one. -/
def Fmt.infinity (f : Fmt) (m : RMode) (neg : Bool) : Res :=
  if m.sat || f.top == .normal then { bits := f.signed neg f.maxCode, fl := OF }
  else if f.top == .e4m3 then { bits := f.nanCode, fl := IV }
  else { bits := f.signed neg f.infCode }

def Fmt.result (f : Fmt) (m : RMode) (v : FVal) (fl : Flags := 0) : Res :=
  match v with
  | .nan s => f.nan (fl ||| if s then IV else 0)
  | .inf n => let r := f.infinity m n; { r with fl := r.fl ||| fl }
  | .fin x => let r := f.round m x; { r with fl := r.fl ||| fl }

/-! ## Arithmetic on data (04 R60, 08 R163–R167) -/

def FVal.isNan : FVal → Bool
  | .nan _ => true
  | _ => false

def FVal.isSnan : FVal → Bool
  | .nan s => s
  | _ => false

def FVal.neg : FVal → FVal
  | .nan s => .nan s
  | .inf n => .inf !n
  | .fin x => .fin { x with neg := !x.neg }

/-- IV for any signalling operand. -/
def snanFlag (vs : List FVal) : Flags := if vs.any FVal.isSnan then IV else 0

/-- The value of a + b and its invalid flag. -/
def FVal.add (mode : Rnd) (a b : FVal) : FVal × Flags :=
  match a, b with
  | .nan _, _ | _, .nan _ => (.nan false, snanFlag [a, b])
  | .inf p, .inf q => if p == q then (.inf p, 0) else (.nan false, IV)
  | .inf p, .fin _ => (.inf p, 0)
  | .fin _, .inf q => (.inf q, 0)
  | .fin x, .fin y => (.fin (x.add mode y), 0)

/-- The value of a × b and its invalid flag. -/
def FVal.mul (a b : FVal) : FVal × Flags :=
  match a, b with
  | .nan _, _ | _, .nan _ => (.nan false, snanFlag [a, b])
  | .inf p, .inf q => (.inf (p != q), 0)
  | .inf p, .fin y => if y.isZero then (.nan false, IV) else (.inf (p != y.neg), 0)
  | .fin x, .inf q => if x.isZero then (.nan false, IV) else (.inf (x.neg != q), 0)
  | .fin x, .fin y => (.fin (x.mul y), 0)

/-- Round(a + b). -/
def Fmt.add (f : Fmt) (m : RMode) (a b : Nat) : Res :=
  let (v, fl) := FVal.add m.rnd (f.input m.ftz a) (f.input m.ftz b)
  f.result m v fl

/-- Round(a − b). -/
def Fmt.sub (f : Fmt) (m : RMode) (a b : Nat) : Res :=
  let (v, fl) := FVal.add m.rnd (f.input m.ftz a) (f.input m.ftz b).neg
  f.result m v fl

/-- Round(a × b). -/
def Fmt.mul (f : Fmt) (m : RMode) (a b : Nat) : Res :=
  let (v, fl) := FVal.mul (f.input m.ftz a) (f.input m.ftz b)
  f.result m v fl

/-- Round(a × b + c), one rounding; ∞ × 0 + c sets IV whatever c is (08 R163). -/
def Fmt.fma (f : Fmt) (m : RMode) (a b c : Nat) : Res :=
  let (p, fl) := FVal.mul (f.input m.ftz a) (f.input m.ftz b)
  let vc := f.input m.ftz c
  let (v, fl') := FVal.add m.rnd p vc
  f.result m v (fl ||| fl')

/-- Round(a / b) (08 R167). -/
def Fmt.div (f : Fmt) (m : RMode) (a b : Nat) : Res :=
  match f.input m.ftz a, f.input m.ftz b with
  | .nan s, y => f.nan (snanFlag [.nan s, y])
  | x, .nan s => f.nan (snanFlag [x, .nan s])
  | .inf _, .inf _ => f.nan IV
  | .inf p, .fin y => f.infinity m (p != y.neg)
  | .fin x, .inf q => { bits := f.signed (x.neg != q) 0 }
  | .fin x, .fin y =>
    if y.isZero then
      if x.isZero then f.nan IV
      else let r := f.infinity m (x.neg != y.neg); { r with fl := r.fl ||| DZ }
    else if x.isZero then { bits := f.signed (x.neg != y.neg) 0 }
    else f.round m (x.div y)

/-- Round(√a) (08 R167). -/
def Fmt.sqrt (f : Fmt) (m : RMode) (a : Nat) : Res :=
  match f.input m.ftz a with
  | .nan s => f.nan (if s then IV else 0)
  | .inf n => if n then f.nan IV else f.infinity m false
  | .fin x =>
    if x.isZero then { bits := f.signed x.neg 0 }
    else if x.neg then f.nan IV
    else f.round m x.sqrt

/-- The order of two data that are no NaN: −1, 0 or 1, with −0 equal to +0 (08 R165). -/
def FVal.cmp (a b : FVal) : Int :=
  match a, b with
  | .inf p, .inf q => if p == q then 0 else if p then -1 else 1
  | .inf p, _ => if p then -1 else 1
  | _, .inf q => if q then 1 else -1
  | .fin x, .fin y => x.cmp y
  | _, _ => 0

/-- The sign bit of a pattern. -/
def Fmt.sign (f : Fmt) (bits : Nat) : Bool := bits / 2 ^ (f.width - 1) % 2 == 1

/-- The bits of an operand, a subnormal replaced by a zero of its sign under `.ftz`; no status bit is set. -/
def Fmt.flushBits (f : Fmt) (ftz : Bool) (v : Nat) : Nat :=
  if ftz && f.isSubnormal v then f.signed (f.sign v) 0 else v % 2 ^ f.width

/-- FMIN or FMAX (08 R164): −0 is less than +0; the result is an operand or the canonical NaN. -/
def Fmt.minMax (f : Fmt) (ftz greatest : Bool) (a b : Nat) : Res :=
  let a := f.flushBits ftz a
  let b := f.flushBits ftz b
  let x := f.decode a
  let y := f.decode b
  let fl := snanFlag [x, y]
  if x.isNan then (if y.isNan then f.nan fl else { bits := b, fl })
  else if y.isNan then { bits := a, fl }
  else
    let c := x.cmp y
    let less : Bool := if c = 0 then f.sign a && !f.sign b else decide (c < 0)
    { bits := if less != greatest then a else b, fl }

/-- FCMP under a condition code (08 R165). -/
def Fmt.compare (f : Fmt) (ftz : Bool) (cond : Nat) (a b : Nat) : Bool × Flags :=
  let x := f.input ftz a
  let y := f.input ftz b
  if x.isNan || y.isNan then
    let fl : Flags := if 2 ≤ cond ∧ cond ≤ 5 then IV else snanFlag [x, y]
    (cond == 1 || cond == 6, fl)
  else
    let c := x.cmp y
    let r : Bool :=
      match cond with
      | 0 => c == 0
      | 1 => c != 0
      | 2 => decide (c < 0)
      | 3 => decide (c ≤ 0)
      | 4 => decide (0 < c)
      | 5 => decide (0 ≤ c)
      | 6 => false
      | _ => true
    (r, 0)

/-- FCLASS (08 R166). -/
def Fmt.classify (f : Fmt) (bits : Nat) : Nat :=
  let bits := bits % 2 ^ f.width
  match f.decode bits with
  | .nan s => if s then 2 ^ 8 else 2 ^ 9
  | .inf n => if n then 2 ^ 0 else 2 ^ 7
  | .fin x =>
    if x.mag = 0 then (if x.neg then 2 ^ 3 else 2 ^ 4)
    else if f.isSubnormal bits then (if x.neg then 2 ^ 2 else 2 ^ 5)
    else if x.neg then 2 ^ 1 else 2 ^ 6

/-! ## Integers -/

/-- x read as a two's-complement number of n bits. -/
def sval (n x : Nat) : Int :=
  let x := x % 2 ^ n
  if 2 ^ (n - 1) ≤ x then (x : Int) - 2 ^ n else x

/-- x read under an integer type (04 R58). -/
def ival (t : DType) (x : Nat) : Int := if t.isSigned then sval t.bits x else (x % 2 ^ t.bits : Nat)

end Sys2Proof.Num
end

