-- ==== Sys2Proof/Machine/Convert.lean ====
section
/-! DEFINITION. Conversions between formats (04 R66), rounding to an integral value (08 R172), the four functions
FRCP, FRSQ, FEX2 and FLG2 (08 R168, R169), block formats (04 R67–R74) and the exact accumulator (04 R75–R77). -/

namespace Sys2Proof.Num

open Sys2Proof

/-! ## Conversions (04 R66) -/

/-- The least value of an integer type. -/
def intMin (t : DType) : Int := if t.isSigned then -(2 ^ (t.bits - 1) : Nat) else 0

/-- The greatest value of an integer type. -/
def intMax (t : DType) : Int := if t.isSigned then (2 ^ (t.bits - 1) : Nat) - 1 else (2 ^ t.bits : Nat) - 1

/-- The n-bit pattern of an integer, modulo 2^n (04 R58). -/
def wrapInt (n : Nat) (i : Int) : Nat := (i % (2 ^ n : Nat)).toNat

/-- Reduce to a type modulo 2^n, or clamp to its range under `.sat`, with OF when the clamp changes it
(04 R58, 08 R157). -/
def fitInt (t : DType) (sat : Bool) (i : Int) : Res :=
  if sat then
    let c := max (intMin t) (min (intMax t) i)
    { bits := wrapInt t.bits c, fl := if c = i then 0 else OF }
  else { bits := wrapInt t.bits i }

/-- x rounded to an integer by the mode; whether it was inexact. -/
def roundInt (m : RMode) (x : Exact) : Int × Bool :=
  let (n, inexact) := roundMag m x 0
  (if x.neg then -(n : Int) else n, inexact)

/-- A datum converted to an integer type (04 R66). -/
def toInt (t : DType) (m : RMode) (v : FVal) : Res :=
  match v with
  | .nan _ => { bits := 0, fl := IV }
  | .inf n => { bits := wrapInt t.bits (if n then intMin t else intMax t), fl := IV }
  | .fin x =>
    let (i, inexact) := roundInt m x
    if i < intMin t then { bits := wrapInt t.bits (intMin t), fl := IV }
    else if intMax t < i then { bits := wrapInt t.bits (intMax t), fl := IV }
    else { bits := wrapInt t.bits i, fl := if inexact then NX else 0 }

/-- The value of a pattern read under an integer or floating-point type; FTZ replaces a subnormal of any
floating-point format (04 R61). -/
def readAs (t : DType) (ftz : Bool) (bits : Nat) : FVal :=
  match fmtOf t with
  | some f => f.input ftz bits
  | none => .fin (Exact.ofInt (ival t bits))

/-- Convert a value read under `st` into `dt` (04 R66). -/
def convertVal (dt : DType) (m : RMode) (v : FVal) : Res :=
  match fmtOf dt with
  | some f => f.result m v
  | none => toInt dt m v

/-- CVT of a pattern (08 R171, 04 R66): integer to integer follows 04 R58. -/
def convert (dt st : DType) (m : RMode) (bits : Nat) : Res :=
  if dt.isInt && st.isInt then fitInt dt m.sat (ival st bits)
  else convertVal dt m (readAs st m.ftz bits)

/-- FRND: round to an integral value in the same format (08 R172). -/
def roundIntegral (f : Fmt) (m : RMode) (bits : Nat) : Res :=
  match f.decode bits with
  | .nan s => f.nan (if s then IV else 0)
  | .inf n => { bits := f.signed n f.infCode }
  | .fin x =>
    if x.isZero then { bits := f.signed x.neg 0 }
    else
      let (n, inexact) := roundMag m x 0
      let r := f.round { m with sat := false, ftz := false } { neg := x.neg, mag := n, exp := 0 }
      { bits := r.bits, fl := if inexact then NX else 0 }

/-! ## The four functions (08 R168, R169) -/

/-- M and e of a finite non-zero FP32 value: |x| = M × 2^(e−23) with 2^23 ≤ M < 2^24. -/
def normal24 (x : Exact) : Nat × Int :=
  let k := 24 - (bitLen x.mag : Int)
  (if 0 ≤ k then x.mag * 2 ^ k.toNat else x.mag / 2 ^ (-k).toNat, x.exp - k + 23)

/-- RNE of i × 2^e into FP32, i not negative unless the sign says so. -/
def rneScaled (ftz neg : Bool) (i : Nat) (e : Int) : Res :=
  fp32.round { ftz := ftz } { neg := neg, mag := i, exp := e }

def frcpSteps (ftz : Bool) (x : Exact) : Res :=
  let (M, e) := normal24 x
  let i := M / 2 ^ 16 % 128
  let den := 2 ^ 23 + 2 ^ 16 * i + 2 ^ 15
  let T := (2 ^ 40 + den) / (2 * den)
  let d : Int := (2 ^ 39 : Nat) - ((M * T : Nat) : Int)
  let y : Int := (T : Int) * ((2 ^ 78 : Nat) + (2 ^ 39 : Nat) * d + d * d) / (2 ^ 69 : Nat)
  rneScaled ftz x.neg y.toNat (-25 - e)

def frsqSteps (ftz : Bool) (x : Exact) : Res :=
  let (M, e) := normal24 x
  let odd := e % 2 = 1
  let N := if odd then 2 * M else M
  let k := if odd then (e - 1) / 2 else e / 2
  let j := N / 2 ^ 18
  -- floor(2^16 × sqrt(32 / (j + 1/2)) + 1/2), from the integer square root of 2^40 / (2j + 1)
  let T := (isqrt (2 ^ 40 / (2 * j + 1)) + 1) / 2
  let d : Int := (2 ^ 55 : Nat) - ((N * T * T : Nat) : Int)
  let y : Int := (T : Int) * ((2 ^ 113 : Nat) + (2 ^ 57 : Nat) * d + 3 * d * d) / (2 ^ 104 : Nat)
  rneScaled ftz false y.toNat (-25 - k)

/-- floor((ln 2)^k / k! × 2^32 + 1/2) for k = 1, 2, 3. -/
def expC1 : Nat := 2977044472
def expC2 : Nat := 1031764991
def expC3 : Nat := 238388332
/-- floor(2^32 / ln 2 + 1/2). -/
def logH : Nat := 6196328019

/-- floor(2^30 × 2^(i/128) + 1/2), from the 128th root of 2^(31 × 128 + i). -/
def expT (i : Nat) : Nat := (rootPow2 7 (2 ^ (31 * 128 + i)) + 1) / 2

def fex2Steps (ftz : Bool) (x : Exact) : Res :=
  -- x × 2^24 floored gives n and F together: n := floor(x), F := floor((x − n) × 2^24)
  let v : Int := if x.neg then -(x.mag : Int) else x.mag
  let t : Int := if 0 ≤ x.exp + 24 then v * (2 ^ (x.exp + 24).toNat : Nat) else v / (2 ^ (-(x.exp + 24)).toNat : Nat)
  let n := t / (2 ^ 24 : Nat)
  let F := (t % (2 ^ 24 : Nat)).toNat
  let i := F / 2 ^ 17
  let g := F - i * 2 ^ 17
  let P := 2 ^ 32 + expC1 * g / 2 ^ 24 + expC2 * g ^ 2 / 2 ^ 48 + expC3 * g ^ 3 / 2 ^ 72
  let Y := expT i * P / 2 ^ 37
  rneScaled ftz false Y (n - 25)

/-- L of FLG2 for each i: floor(−2^32 × log2(Q / 2^32) + 1/2), stored. -/
def logL : List Nat :=
  [0, 48220695, 96069026, 143550699, 190671291, 237436253, 283850911, 329920477] ++
  [375650043, 421044590, 466108992, 510848017, 555266330, 599368495, 643158981, 686642163] ++
  [729822323, 772703658, 815290272, 857586190, 899595356, 941321627, 982768793, 1023940559] ++
  [1064840562, 1105472367, 1145839468, 1185945289, 1225793196, 1265386481, 1304728378, 1343822061] ++
  [1382670639, 1421277170, 1459644647, 1497776017, 1535674166, 1573341929, 1610782093, 1647997388] ++
  [1684990501, 1721764068, 1758320682, 1794662886, 1830793181, 1866714024, 1902427828, 1937936968] ++
  [1973243777, 2008350545, 2043259528, 2077972941, 2112492963, 2146821737, 2180961373, 2214913939] ++
  [2248681479, 2282265995, 2315669461, 2348893819, 2381940980, 2414812825, 2447511201, 2480037931] ++
  [2512394809, 2544583599, 2576606038, 2608463836, 2640158678, 2671692221, 2703066100, 2734281924] ++
  [2765341279, 2796245721, 2826996792, 2857596004, 2888044852, 2918344805, 2948497313, 2978503802] ++
  [3008365681, 3038084338, 3067661140, 3097097433, 3126394547, 3155553790, 3184576458, 3213463819] ++
  [3242217134, 3270837638, 3299326552, 3327685082, 3355914416, 3384015726, 3411990165, 3439838878] ++
  [3467562987, 3495163602, 3522641821, 3549998722, 3577235372, 3604352825, 3631352118, 3658234278] ++
  [3685000314, 3711651230, 3738188006, 3764611620, 3790923030, 3817123189, 3843213028, 3869193478] ++
  [3895065448, 3920829844, 3946487554, 3972039459, 3997486426, 4022829317, 4048068977, 4073206244] ++
  [4098241947, 4123176903, 4148011916, 4172747790, 4197385311, 4221925255, 4246368396, 4270715491]

def flg2Steps (ftz : Bool) (x : Exact) : Res :=
  let (M, e) := normal24 x
  let i := M / 2 ^ 16 % 128
  let Q := (2 ^ 33 * 128 + (128 + i)) / (2 * (128 + i))
  let L := logL.getD i 0
  let u : Int := ((M * Q : Nat) : Int) - (2 ^ 55 : Nat)
  let num : Int := (logH : Int) * (u * (3 * 2 ^ 110 : Nat) - u * u * (3 * 2 ^ 54 : Nat) + u * u * u)
  let S : Int := num / (3 * 2 ^ 165 : Nat)
  let r : Int := e * (2 ^ 32 : Nat) + L + S
  fp32.round { ftz := ftz } (Exact.ofScaled r (-32) false)

/-- FRCP (08 R168, R169). -/
def frcp (ftz : Bool) (bits : Nat) : Res :=
  match fp32.input ftz bits with
  | .nan s => fp32.nan (if s then IV else 0)
  | .inf n => { bits := fp32.signed n 0 }
  | .fin x => if x.isZero then { bits := fp32.signed x.neg fp32.infCode, fl := DZ } else frcpSteps ftz x

/-- FRSQ. -/
def frsq (ftz : Bool) (bits : Nat) : Res :=
  match fp32.input ftz bits with
  | .nan s => fp32.nan (if s then IV else 0)
  | .inf n => if n then fp32.nan IV else { bits := 0 }
  | .fin x =>
    if x.isZero then { bits := fp32.signed x.neg fp32.infCode, fl := DZ }
    else if x.neg then fp32.nan IV
    else frsqSteps ftz x

/-- FEX2. -/
def fex2 (ftz : Bool) (bits : Nat) : Res :=
  match fp32.input ftz bits with
  | .nan s => fp32.nan (if s then IV else 0)
  | .inf n => if n then { bits := 0 } else { bits := fp32.infCode }
  | .fin x =>
    if x.isZero then { bits := 0x3F800000 }
    else if 0 ≤ x.cmp (Exact.ofInt 128) then { bits := fp32.infCode, fl := OF ||| NX }
    else if x.cmp (Exact.ofInt (-150)) < 0 then { bits := 0, fl := UF ||| NX }
    else fex2Steps ftz x

/-- FLG2. -/
def flg2 (ftz : Bool) (bits : Nat) : Res :=
  match fp32.input ftz bits with
  | .nan s => fp32.nan (if s then IV else 0)
  | .inf n => if n then fp32.nan IV else { bits := fp32.infCode }
  | .fin x =>
    if x.isZero then { bits := fp32.signed true fp32.infCode, fl := DZ }
    else if x.neg then fp32.nan IV
    else flg2Steps ftz x

/-! ## Block formats (04 R67–R74) -/

/-- The bytes of a block (04 R68). -/
def blockBytes : DType → Nat
  | .mxE4m3 | .mxE5m2 => 33
  | .mxfp4 => 17
  | .i4x => 18
  | _ => 0

/-- The element format of an MX block. -/
def blockElem : DType → Fmt
  | .mxE5m2 => e5m2
  | .mxfp4 => e2m1
  | _ => e4m3

def byteAt (bs : List Nat) (i : Nat) : Nat := bs.getD i 0

/-- Nibble j of bytes from `at` on: 2i low, 2i+1 high. -/
def nibbleAt (bs : List Nat) (base j : Nat) : Nat :=
  let b := byteAt bs (base + j / 2)
  if j % 2 = 0 then b % 16 else b / 16

/-- ±mag × 2^e of a signed nibble. -/
def nibbleVal (n : Nat) (e : Int) : FVal :=
  let i := sval 4 n
  .fin (Exact.ofScaled i e false)

/-- The values of an I4X block whose scale is no NaN (04 R73); whether an excess marker was met. -/
def decodeI4x (ftz : Bool) (bs : List Nat) : List FVal × Bool :=
  let e : Int := (byteAt bs 0 : Int) - 127
  let step (acc : List FVal × Nat × Bool) (i : Nat) : List FVal × Nat × Bool :=
    let (vs, n, bad) := acc
    let lo := nibbleAt bs 2 (2 * i)
    let hi := nibbleAt bs 2 (2 * i + 1)
    if lo != 8 && hi != 8 then (vs ++ [nibbleVal lo e, nibbleVal hi e], n, bad)
    else
      let oIsLo := lo == 8
      let p := if oIsLo then hi else lo
      let (vo, vp, n', bad') : FVal × FVal × Nat × Bool :=
        if n < 2 then
          let h := if n = 0 then byteAt bs 1 % 16 else byteAt bs 1 / 16
          let v : FVal :=
            match e4m3.input ftz (h * 16 + p) with
            | .fin x => .fin (x.shift e)
            | w => w
          (v, .fin (Exact.ofInt 0), n + 1, bad)
        else (.fin (Exact.ofInt 0), if p = 8 then .fin (Exact.ofInt 0) else nibbleVal p e, n, true)
      (vs ++ (if oIsLo then [vo, vp] else [vp, vo]), n', bad')
  let (vs, _, bad) := (List.range 16).foldl step ([], 0, false)
  (vs, bad)

/-- The 32 values of a block (04 R68, R69, R73), with FMT when an excess marker was met.
`ftz` replaces subnormal elements (04 R61). DEDUCED (log entry 101): a signalling E5M2 element NaN of a block whose scale is no
NaN stays signalling, so its conversion sets IV (04 R60); that no bit is set is said of the scale 0xFF. -/
def decodeBlock (t : DType) (ftz : Bool) (bs : List Nat) : List FVal × Flags :=
  let scale := byteAt bs 0
  if scale = 255 then (List.replicate 32 (.nan false), 0)
  else
    match t with
    | .i4x =>
      let (vs, bad) := decodeI4x ftz bs
      (vs, if bad then FMT else 0)
    | t =>
      let f := blockElem t
      let e : Int := (scale : Int) - 127
      ((List.range 32).map fun j =>
        let b := if t = .mxfp4 then nibbleAt bs 1 j else byteAt bs (1 + j)
        match f.input ftz b with
        | .fin x => .fin (x.shift e)
        | v => v, 0)

/-- The greatest magnitude among finite values, as an exact value; zero when all are zero. -/
def maxMag (xs : List Exact) : Exact :=
  xs.foldl (fun a x => if 0 < ({ x with neg := false } : Exact).cmp a then { x with neg := false } else a)
    (Exact.ofInt 0)

def Exact.abs (x : Exact) : Exact := { x with neg := false }

def finites (vs : List FVal) : Option (List Exact) :=
  vs.mapM fun v => match v with
    | .fin x => some x
    | _ => none

def clampScale (x : Int) : Int := max (-127) (min 127 x)

/-- Encode 32 values into an MX block (04 R70, R71): its bytes and status bits.
`us` holds the draws of the elements under SR. -/
def encodeMx (t : DType) (m : RMode) (us : List Nat) (vs : List FVal) : List Nat × Flags :=
  let f := blockElem t
  match finites vs with
  | none => (255 :: List.replicate (blockBytes t - 1) 0, IV)
  | some xs =>
    let a := maxMag xs
    let emax : Int := match t with
      | .mxE5m2 => 15
      | .mxfp4 => 2
      | _ => 8
    let X' : Int := if a.isZero then 0 else a.log2 - emax
    let X := clampScale X'
    let mode (j : Nat) : RMode := { m with u := us.getD j 0, sat := true }
    let rs := (List.range 32).map fun j => f.round (mode j) ((xs.getD j (Exact.ofInt 0)).shift (-X))
    let fl := rs.foldl (fun g r => g ||| r.fl) 0
    let bad := X != X' && (List.range 32).any fun j =>
      let x := xs.getD j (Exact.ofInt 0)
      !x.isZero &&
      match f.decode ((rs.getD j ⟨0, 0⟩).bits), f.decode ((f.round (mode j) (x.shift (-X'))).bits) with
      | .fin p, .fin q => (p.shift X).cmp (q.shift X') != 0
      | _, _ => false
    let codes := rs.map (·.bits)
    let body :=
      if t = .mxfp4 then (List.range 16).map fun i => codes.getD (2 * i) 0 + 16 * codes.getD (2 * i + 1) 0
      else codes
    ((X + 127).toNat :: body, fl ||| if bad then FMT else 0)

/-- Insert j into a list of indices by descending magnitude, equal magnitudes in ascending index. -/
def insertDesc (xs : List Exact) (j : Nat) : List Nat → List Nat
  | [] => [j]
  | i :: rest =>
    if 0 < ((xs.getD j (Exact.ofInt 0)).abs).cmp ((xs.getD i (Exact.ofInt 0)).abs) then j :: i :: rest
    else i :: insertDesc xs j rest

/-- The indices 0–31 by descending magnitude, equal magnitudes in ascending index. -/
def descending (xs : List Exact) : List Nat := (List.range 32).foldl (fun l j => insertDesc xs j l) []

/-- The smallest integer X with 7 × 2^X ≥ m, for m not zero. -/
def smallestX (m : Exact) : Int :=
  let e := m.log2
  let ok (x : Int) : Bool := decide (0 ≤ (({ neg := false, mag := 7, exp := x } : Exact).cmp m))
  if ok (e - 3) then e - 3 else if ok (e - 2) then e - 2 else if ok (e - 1) then e - 1 else e

/-- The E4M3 code of the same sign nearest to x whose low nibble is not 8; a tie goes to the smaller magnitude
(04 R74). -/
def nearestE4m3 (x : Exact) : Nat :=
  let dist (c : Nat) : Exact :=
    match e4m3.decode c with
    | .fin y => (x.abs.add .rne { y with neg := true }).abs
    | _ => { neg := false, mag := 1, exp := 1000 }
  let best := (List.range 127).foldl (fun b c =>
    if c % 16 = 8 then b else if (dist c).cmp (dist b) < 0 then c else b) 0
  e4m3.signed x.neg best

/-- Encode 32 values into an I4X block (04 R74): its bytes and status bits.
`us` holds the 34 draws under SR: one for each c[j], then two for the outliers. DESIGN CHOICE (log entry 78): NX stands for
the rounding of what is stored, a nibble or an outlier's b, and not for that of a c[j] which is not. -/
def encodeI4x (m : RMode) (us : List Nat) (vs : List FVal) : List Nat × Flags :=
  match finites vs with
  | none => (255 :: List.replicate 17 0, IV)
  | some xs =>
    let x (j : Nat) : Exact := xs.getD j (Exact.ofInt 0)
    let order := descending xs
    let m3 := (x (order.getD 2 0)).abs
    let X : Int := if m3.isZero then -127 else clampScale (smallestX m3)
    let cr (j : Nat) : Int × Bool := roundInt { m with u := us.getD j 0 } ((x j).shift (-X))
    let c (j : Nat) : Int := (cr j).1
    let isOut (j : Nat) : Bool := decide (7 < (c j).natAbs)
    let outl := order.foldl (fun o j =>
      if isOut j && decide (o.length < 2) && !(o.contains (if j % 2 = 0 then j + 1 else j - 1)) then o ++ [j] else o) []
    let sorted := (List.range 32).filter outl.contains
    let partner (j : Nat) : Nat := if j % 2 = 0 then j + 1 else j - 1
    let bOf (k : Nat) : Nat × Flags :=
      let o := sorted.getD k 0
      let r := e4m3.round { m with u := us.getD (32 + k) 0, sat := true } ((x o).shift (-X))
      if o % 2 = 1 && r.bits % 16 == 8 then (nearestE4m3 ((x o).shift (-X)), r.fl ||| FMT) else (r.bits, r.fl)
    let outIdx (j : Nat) : Option Nat :=
      if sorted.getD 0 99 = j then some 0 else if sorted.getD 1 99 = j then some 1 else none
    let nib (j : Nat) : Nat × Flags :=
      match outIdx j with
      | some k => (8, (bOf k).2)
      | none =>
        match outIdx (partner j) with
        | some k => ((bOf k).1 % 16, if (x j).isZero then 0 else FMT)
        | none =>
          let v := max (-7) (min 7 (c j))
          (wrapInt 4 v, (if v = c j then 0 else FMT) ||| if (cr j).2 then NX else 0)
    let nibs := (List.range 32).map nib
    let fl := nibs.foldl (fun g n => g ||| n.2) 0
    let high (k : Nat) : Nat := if k < sorted.length then (bOf k).1 / 16 else 0
    let body := (List.range 16).map fun i => (nibs.getD (2 * i) (0, 0)).1 + 16 * (nibs.getD (2 * i + 1) (0, 0)).1
    ((X + 127).toNat :: (high 0 + 16 * high 1) :: body, fl)

/-- Encode a block of any block format. -/
def encodeBlock (t : DType) (m : RMode) (us : List Nat) (vs : List FVal) : List Nat × Flags :=
  if t = .i4x then encodeI4x m us vs else encodeMx t m us vs

/-- The draws that one block takes under SR (04 R71, R74). -/
def blockDraws (t : DType) : Nat := if t = .i4x then 34 else 32

/-! ## The exact accumulator (04 R75–R77) -/

/-- The NaN pattern: only bit 511 set. -/
def accNan : Nat := 2 ^ 511

/-- XACC of an FP32 pattern into a 512-bit accumulator (04 R76). -/
def accAdd (A x : Nat) : Nat × Flags :=
  match fp32.decode x with
  | .nan _ => (accNan, IV)
  | .inf _ => (accNan, IV)
  | .fin v =>
    if A = accNan then (accNan, 0)
    else
      let s := v.scaled (-160)
      (((A : Int) + s) % (2 ^ 512 : Nat) |>.toNat, 0)

/-- XRD: the accumulator's value rounded once (04 R77). -/
def accRead (f : Fmt) (m : RMode) (A : Nat) : Res :=
  if A = accNan then f.nan IV
  else if A = 0 then { bits := 0 }
  else f.round m (Exact.ofScaled (sval 512 A) (-160) false)

/-- ln 2 × 2^512, floored. -/
def ln2Scaled : Nat := 9293584264128987901384440660653081117630633404975079641076009770578364573633075645167623918067512986930843040596952636663673675798576024949780480621393957

end Sys2Proof.Num
end

