-- ==== Sys2Proof/Machine/SMap.lean ====
section
/-! DEFINITION. Sparse data by key: a list of key and value pairs in one canonical form, keys strictly rising and
no entry equal to the value an unlisted key reads as. -/

namespace Sys2Proof

/-- Key and value pairs. -/
abbrev SMap (α : Type) := List (Nat × α)

/-- The listed value of a key. -/
def SMap.find {α : Type} (m : SMap α) (k : Nat) : Option α :=
  match m with
  | [] => none
  | (j, v) :: rest => if j = k then some v else SMap.find rest k

/-- The value of a key, `d` where none is listed. -/
def SMap.read {α : Type} (d : α) (m : SMap α) (k : Nat) : α := (SMap.find m k).getD d

/-- List a value for a key in its place. -/
def SMap.insert {α : Type} (m : SMap α) (k : Nat) (v : α) : SMap α :=
  match m with
  | [] => [(k, v)]
  | (j, w) :: rest =>
    if k < j then (k, v) :: (j, w) :: rest
    else if k = j then (k, v) :: rest
    else (j, w) :: SMap.insert rest k v

/-- Remove a key. -/
def SMap.erase {α : Type} (m : SMap α) (k : Nat) : SMap α := m.filter (fun p => p.1 != k)

/-- Write a value; writing what an unlisted key reads as removes the entry. -/
def SMap.write {α : Type} [DecidableEq α] (d : α) (m : SMap α) (k : Nat) (v : α) : SMap α :=
  if v = d then SMap.erase m k else SMap.insert m k v

/-- Keys at or above `lo` strictly rise. -/
def SMap.rising {α : Type} (lo : Nat) (m : SMap α) : Bool :=
  match m with
  | [] => true
  | (j, _) :: rest => decide (lo ≤ j) && SMap.rising (j + 1) rest

/-- The canonical form. -/
def SMap.wf {α : Type} [DecidableEq α] (d : α) (m : SMap α) : Bool :=
  SMap.rising 0 m && m.all (fun p => decide (p.2 ≠ d))

/-- Drop the keys from lo up to, not including, hi. -/
def SMap.dropRange {α : Type} (m : SMap α) (lo hi : Nat) : SMap α :=
  m.filter (fun p => p.1 < lo || hi ≤ p.1)

/-- Put rising pairs, none of which lists the default, in the place of the keys from lo up to, not including, hi. -/
def SMap.replaceRange {α : Type} (m : SMap α) (lo hi : Nat) (new : SMap α) : SMap α :=
  m.filter (fun p => decide (p.1 < lo)) ++ new ++ m.filter (fun p => decide (hi ≤ p.1))

/-- A byte memory: what an unlisted address reads as is `Memory.blank`. -/
abbrev Memory := List Host.Cell

/-- What a byte that nothing has written reads as.
DESIGN CHOICE (log entry 3): the spec gives no reset contents of memory. -/
def Memory.blank : Byte := 0

/-- Read one byte. -/
def Memory.byte (m : Memory) (a : Nat) : Byte := SMap.read Memory.blank m a

/-- Write one byte. -/
def Memory.setByte (m : Memory) (a : Nat) (b : Byte) : Memory := SMap.write Memory.blank m a b

/-- Read n bytes from an address up. -/
def Memory.bytes (m : Memory) (a n : Nat) : List Byte := (List.range n).map (fun i => Memory.byte m (a + i))

/-- Write bytes from an address up. -/
def Memory.setBytes (m : Memory) (a : Nat) (bs : List Byte) : Memory :=
  match bs with
  | [] => m
  | b :: rest => Memory.setBytes (Memory.setByte m a b) (a + 1) rest

/-- Write n zero bytes from an address up. -/
def Memory.zero (m : Memory) (a n : Nat) : Memory := SMap.dropRange m a (a + n)

/-- The canonical form of a memory. -/
def Memory.wf (m : Memory) : Bool := SMap.wf Memory.blank m

/-- The little-endian number of a byte list (00 R2). -/
def leNat (bs : List Byte) : Nat :=
  match bs with
  | [] => 0
  | b :: rest => b.toNat + 256 * leNat rest

/-- n bytes of a number, lowest first (00 R2). -/
def leBytes (n v : Nat) : List Byte :=
  match n with
  | 0 => []
  | n + 1 => BitVec.ofNat 8 v :: leBytes n (v / 256)

end Sys2Proof
end

