-- ==== Sys2Proof/Machine/State.lean ====
section
/-! DEFINITION. The machine's state as plain data, its value after reset, and the reasons a step can stop.
Every item the spec names stands here (INVENTORY.md lists them); a field marked MODEL is the model's own. -/

namespace Sys2Proof.Machine

open Sys2Proof

/-! ## Why a step stops -/

/-- Faults. -/
inductive Fault where
  /-- Raised by a host processor's or a remote package's access to a physical address outside every range of
  06 R116, which names no memory. Safe: no memory exists there that a value could come from. -/
  | noSuchMemory (pa : Nat)
  deriving DecidableEq, Repr

/-- Refusals. -/
inductive Refusal where
  /-- Raised by an arm of `exec` that has no meaning yet. Safe: nothing is claimed of such an instruction. -/
  | notModelled (mnemonic : String)
  deriving DecidableEq, Repr

/-! ## Places in memory (05 R82) -/

/-- The memory instances a byte may stand in; `hole` is a byte of a sparse hole (06 R123). -/
inductive MemK where
  | sp | qm | cal | m | slice | hole
  deriving DecidableEq, Repr

/-- A byte: in SP and in the lane slices by core × 2^40 + place, in QM by quad × 2^40 + place, in CAL by die × 32 MiB +
place, in M by physical address. Places of windows are numbers that no two workgroups share; what a core holds at a
time is bounded by 06 R110 and 23 R398. -/
structure Loc where
  k : MemK
  a : Nat
  deriving DecidableEq, Repr

/-! ## A wave -/

/-- What placement fixes of a wave (07 R134, R138). `uid` is a serial number, MODEL. -/
structure WaveId where
  uid : Nat := 0
  tenant : Nat := 0
  die : Nat := 0
  core : Nat := 0
  slot : Nat := 0
  gang : Nat := 0
  grid : Nat := 0
  group : Nat := 0
  wg : Nat := 0
  wave : Nat := 0
  nwaves : Nat := 1
  ngrid : Nat := 1
  deriving DecidableEq, Repr

/-- Why a split does not issue, beyond what its next instruction itself finds (07 R148). -/
inductive Wait where
  | ready
  /-- arrived at a BAR or BARA; a BAR departs afterwards (09 R218) -/
  | arriving (net : Nat) (depart : Bool)
  /-- arrival's release is being performed -/
  | released (net : Nat) (depart : Bool)
  /-- waits for the instance to complete -/
  | departing (net : Nat)
  /-- departure's acquire is being performed -/
  | leaving (net : Nat)
  /-- waits for an exchange (08 R181) -/
  | xswap (op : Nat)
  /-- waits for instruction caches (09 R225) -/
  | icf (scope : Scope) (ls : Nat)
  /-- not ready before a clock (08 R192) -/
  | until (clock : Nat)
  deriving DecidableEq, Repr

/-- A split-table entry (07 R141) with its clause state (03 R48); an invalid entry is not listed. DESIGN CHOICE (log entry
75): SETA and SETB of a wave's first split are 15, none, until a clause header runs. -/
structure Split where
  pc : Dword := 0
  members : Mask := 0
  cd : Nat := 0
  park : Bool := false
  seta : BitVec 4 := 15
  setb : BitVec 4 := 15
  codePc : Dword := 0
  codes : Nat := 0
  /-- a resolved dictionary code's words, to be executed next -/
  latch : Option (List Word) := none
  wait : Wait := .ready
  lastIssue : Nat := 0
  /-- a PCMATCH resumes its instruction without matching it again (10 R238) -/
  noMatch : Bool := false
  deriving DecidableEq, Repr

/-- What a pending scalar register waits for (01 R15, 03 R46). -/
inductive SbMark where
  | op (id : Nat)
  | token (id : Nat)
  deriving DecidableEq, Repr

/-- A trap as the frame reports it (10 R229, R233). -/
structure Trap where
  cause : Nat := 0
  sub : Nat := 0
  lane : Nat := 0
  split : Nat := 0
  pc : Dword := 0
  resume : Dword := 0
  active : Mask := 0
  addr : Dword := 0
  site : Dword := 0
  seq : Word := 0
  queue : Nat := 0
  deriving DecidableEq, Repr

/-- An engine fault held for the wave (10 R231, R237). -/
structure EngineFault where
  queue : Nat
  sub : Nat
  addr : Dword
  site : Dword
  seq : Word
  deriving DecidableEq, Repr

/-- The on-chip shadow of a handler or a debug stop (10 R232, R235, R238). -/
structure Shadow where
  trap : Trap
  debug : Bool
  clock : Nat
  splits : SMap Split
  depth : SMap Nat
  marks : SMap Nat
  held : SMap SbMark
  /-- s0–s7 at or beyond the allocation, which exist while the handler runs (10 R234) -/
  extra : SMap Word
  /-- a debugger's RESUME waits for the wave's ls entries -/
  leaving : Bool := false
  deriving DecidableEq, Repr

/-- A resident wave, or a ganged half (07 R136, R145). -/
structure Wave where
  id : WaveId := {}
  a : Nat := 8
  b : Nat := 0
  v : SMap Word := []
  s : SMap Word := []
  k : SMap Mask := []
  depth : SMap Nat := []
  splits : SMap Split := []
  flags : SMap Nat := []
  marks : SMap Nat := []
  sb : SMap SbMark := []
  fpstat : Word := 0
  resmiss : Mask := 0
  cursor : Word := 0
  seqno : Word := 0
  prio : Nat := 0
  born : Nat := 0
  /-- the clock after that of its last issue (07 R146) -/
  lastIssue : Nat := 0
  guard : Nat := 0
  expired : Option Nat := none
  trap : Option Trap := none
  /-- precise traps held while another is being taken or a handler runs (10 R231) -/
  heldTraps : List Trap := []
  shadow : Option Shadow := none
  haltReq : Bool := false
  engFaults : List EngineFault := []
  halted : Bool := false
  /-- arrival bits by scope × 4 + id, each with the instance arrived at plus one (09 R218) -/
  arrived : SMap Nat := []
  /-- splits that have arrived and not yet departed, by scope × 4 + id (09 R218) -/
  owed : SMap (List Nat) := []
  /-- queue caps and minimums it was placed with (23 R400), (256, 2) where not listed: endpoint ↦ (CAP, MIN) -/
  qpol : SMap (Nat × Nat) := []
  /-- register words that hold poison, none once they are written (25 R428) -/
  bad : List RegWord := []
  deriving DecidableEq, Repr

/-! ## The ordering machine -/

/-- What an ls entry does to the bytes of one lane (09). -/
inductive LsKind where
  /-- a load, LDA when acquiring -/
  | load
  | store
  | fao (op : Nat)
  | cas
  | red (op : Nat) (rnd : Rnd) (ftz : Bool)
  | vat (op : Nat) (ret : Bool) (rnd : Rnd) (ftz : Bool)
  | xacc
  | xrd (rnd : Rnd)
  | xclr
  | fence
  /-- the release of a barrier's arrival -/
  | arrive (net : Nat)
  /-- the acquire of a barrier's departure -/
  | depart (net : Nat)
  deriving DecidableEq, Repr

/-- One lane's part of an ls entry: its bytes' places, its operand, and the decoding of `.dec` (EFMT). -/
structure LsLane where
  lane : Nat
  locs : List Loc
  data : List Byte := []
  efmt : Nat := 0
  uncached : Bool := false
  /-- a store through the lane's page goes on at once (06 R127) -/
  through : Bool := false
  /-- no first-level cache may hold the lane's line (06 R127) -/
  bypass : Bool := false
  /-- virtual address, for the feedback ring (06 R125) and drill records (13 R259) -/
  va : Dword := 0
  u : Nat := 0
  /-- the acting lane met a sparse hole in some byte -/
  hole : Bool := false
  /-- FAO: the old value, once the lane's step has been taken -/
  old : Option Nat := none
  deriving DecidableEq, Repr

/-- Where a long-latency result lands. -/
inductive Dest where
  | none
  | vec (reg : Nat)
  | scal (reg : Nat)
  deriving DecidableEq, Repr

/-- How a loaded value becomes register contents. -/
inductive LoadForm where
  | raw
  | dec (rnd : Rnd) (sat ftz : Bool)
  | rows (n : Nat)
  deriving DecidableEq, Repr

/-- An issued, unperformed ls entry (05 R85). -/
structure LsEntry where
  id : Nat
  uid : Nat
  die : Nat
  core : Nat
  tenant : Nat
  age : Nat
  split : Nat
  kind : LsKind
  ty : DType := .none
  form : LoadForm := .raw
  ord : Ordr := .plain
  scope : Scope := .core
  lanes : List LsLane := []
  dest : Dest := .none
  /-- the long-latency operation it completes, if any -/
  op : Option Nat := none
  pc : Dword := 0
  /-- the locations at which a request of it has joined another at a combining point (13 R252) -/
  comb : List Loc := []
  /-- the release of its scope has been performed (05 R92) -/
  released : Bool := false
  deriving DecidableEq, Repr

/-- An outstanding long-latency operation (03 R44): once its results are known it may land. -/
structure LongOp where
  id : Nat
  uid : Nat
  flag : Option Nat
  ready : Bool
  vw : List (Nat × Nat × Word) := []
  sw : List (Nat × Word) := []
  sregs : List Nat := []
  /-- marks that an XSWAP's timeout takes back -/
  vregs : List Nat := []
  pc : Dword := 0
  va : Dword := 0
  kind : Nat := 0
  fl : Word := 0
  deriving DecidableEq, Repr

/-- A buffered store of one single-copy-atomic unit (05 R84, R85). -/
structure BufEnt where
  id : Nat
  own : Nat
  loc : Loc
  bytes : List Byte
  uncached : Bool := false
  /-- what it holds is poison (25 R428) -/
  bad : Bool := false
  deriving DecidableEq, Repr

/-- An update-only partial (05 R96). -/
structure Partial where
  core : Nat
  pa : Nat
  op : Nat
  ty : DType
  rnd : Rnd
  ftz : Bool
  val : Nat
  deriving DecidableEq, Repr

/-- A request for a location: the lanes of one FAO (an ls entry's number) or a pair already formed (13 R251, R252). -/
inductive Req where
  | lanes (entry : Nat)
  | pair (comb : Nat)
  deriving DecidableEq, Repr

/-- A wait-buffer entry of a combining output: a pair of FAO requests to one location, first before second, with
what the first carries and what the pair carries (13 R252–R254). -/
structure Comb where
  id : Nat
  point : Output
  first : Req
  second : Req
  loc : Loc
  op : Nat
  ty : DType
  /-- operand and count of the first request, and of the pair -/
  opA : Nat
  cntA : Nat
  opP : Nat
  cntP : Nat
  /-- the old value of the pair, once returned -/
  old : Option Nat := none
  deriving DecidableEq, Repr

/-- Where a fetch-and-operate request that an engine or another package makes in one step meets another request: the
output; the waiting ls entry or pair, none for a request that another such step makes; that both arrive in one clock;
else, that the named one was waiting and not the other; the requests that stand behind the waiting one (13 R252). -/
structure Meeting where
  out : Output
  other : Option Nat := none
  same : Bool := false
  waited : Bool := true
  behind : List Nat := []
  deriving DecidableEq, Repr

/-- A QFENCE still in force (05 R105): bit n of `set` names qn, bit 16 names ls.
`drain` holds the LQ entries that must leave first, once the ls entries before it are performed. -/
structure QFence where
  uid : Nat
  age : Nat
  set : BitVec 17
  drain : Option (List Nat) := none
  deriving DecidableEq, Repr

/-- An implicit entry of the q4 stream (17 R322): a recorded draw, or the build of a lane's M. -/
inductive Implicit where
  | draw (lane thread slot index : Nat) (word : Dword)
  | build (lane : Nat)
  deriving DecidableEq, Repr

/-- An entry of M or of a record slot: value, site, occurrence. -/
structure Draw where
  value : Word
  site : BitVec 16
  occ : BitVec 16
  deriving DecidableEq, Repr

/-- How far a build of M has come (17 R316). -/
structure Build where
  m : List Draw := []
  /-- the source of the thread's own slot has been read -/
  sourced : Bool := false
  nosrc : Bool := false
  miss : Bool := false
  badmut : Bool := false
  /-- entries of the mutation list applied -/
  done : Nat := 0
  /-- the list has ended -/
  ended : Bool := false
  /-- readings of the present source that found its VERS odd -/
  tries : Nat := 0
  deriving DecidableEq, Repr

/-- The choice state of one lane (17 R306). `slot` none is NOTHREAD.
`id` tells the thread from those before it, MODEL; `t` is the thread index. -/
structure Thread where
  id : Nat := 0
  t : Nat := 0
  slot : Option Nat := none
  stream : Dword := 0
  list : Option Dword := none
  draws : Word := 0
  occ : SMap Nat := []
  m : List Draw := []
  consumed : List Nat := []
  novel : Nat := 0
  finished : Bool := false
  f : Word := 0
  tr : Word := 0
  ovf : Bool := false
  nosrc : Bool := false
  badmut : Bool := false
  miss : Bool := false
  lost : Bool := false
  /-- M is still to be built (17 R318) -/
  building : Bool := false
  deriving DecidableEq, Repr

/-- The draw that chose a token: its index, site, occurrence, and the thread's slot, none being NOTHREAD (19 R339). -/
structure Chosen where
  index : Nat
  site : Nat
  occ : Nat
  slot : Option Nat
  deriving DecidableEq, Repr

/-- An entry of a queue of a wave (01 R12, 10 R237), with what the push latched. -/
structure QEntry where
  id : Nat
  uid : Nat
  q : Nat
  data : BitVec 256
  seq : Word := 0
  pc : Dword := 0
  age : Nat := 0
  raw : Bool := false
  /-- acting lanes of the push -/
  mask : Mask := 0
  /-- the lowest active lane of the pushing split (04 R65) -/
  lane : Nat := 0
  /-- words latched per lane (ASSEG vector form, RESULT, TRAV, SMPL) -/
  latch : List (Nat × List Word) := []
  /-- an MMA's join instance, when it stands in one (15 R280) -/
  inst : Option Nat := none
  /-- the clock of the push -/
  clock : Nat := 0
  imp : Option Implicit := none
  /-- the threads of the lanes that a q4 entry concerns, as they stood when it was pushed (17 R319) -/
  threads : SMap Thread := []
  /-- how far an implicit build has come, once a source whose VERS was odd made it wait (17 R316) -/
  build : Option Build := none
  /-- the clock at which an entry of q0 or q3 came to head its queue (14 R270, 15 R280) -/
  began : Option Nat := none
  /-- the draw that TSAMP took at issue: its value, and what it was (19 R339) -/
  draw : Option (Word × Chosen) := none
  /-- performed up to its posting, which waits for room (15 R295, 17 R320, 19 R344, 22 R383) -/
  post : Option (BitVec 256) := none
  /-- the issuer's SPAN, and whether this member was the issuer, once a join instance took the entry (15 R295) -/
  joined : Option (Nat × Bool) := none
  /-- the status bits that the entry has set so far (15 R295) -/
  fst : Nat := 0
  /-- the home die that performed a token command, kept with its result (19 R346) -/
  home : Option Nat := none
  /-- a word of it holds poison (25 R428) -/
  bad : Bool := false
  deriving DecidableEq, Repr

/-- A queue of a wave that an engine fault has stopped (10 R237), with the age of the faulting entry: what was pushed
before it is still performed. -/
structure StopRec where
  uid : Nat
  q : Nat
  sub : Nat
  addr : Dword
  age : Nat := 0
  /-- the fault was found in a TRAV or TRAVC whose rays have left the queue (21 R371) -/
  job : Option Nat := none
  deriving DecidableEq, Repr

/-- A token write that a performed copy entry owes (14 R264). -/
structure TokenWrite where
  id : Nat
  uid : Nat
  reg : Nat
  val : Word
  deriving DecidableEq, Repr

/-- A waiting exchange (08 R181). -/
structure XSwap where
  op : Nat
  uid : Nat
  tenant : Nat
  die : Nat
  core : Nat
  slot : Nat
  split : Nat
  partner : Nat
  tag : Nat
  wide : Bool
  dreg : Nat
  vals : List (Nat × List Word)
  clock : Nat
  pc : Dword
  /-- a dictionary code held the XSWAP -/
  code : Bool := false
  /-- a handler's split issued it -/
  hand : Bool := false
  deriving DecidableEq, Repr

/-- A barrier of one scope and id (09 R218): `net` is scope × 4 + id, `owner` the workgroup or the grid, `place` the
core or the die where the participants stand, `done` the number of completed instances. -/
structure Barrier where
  net : Nat
  owner : Nat
  place : Nat
  done : Nat
  deriving DecidableEq, Repr

/-! ## Translation and instruction memory -/

/-- A leaf with its attributes (06 R118). -/
structure Leaf where
  pa : Nat
  size : Nat
  hole : Bool
  r : Bool
  w : Bool
  x : Bool
  d : Bool
  efmt : Nat
  geom : Nat
  bsize : Nat
  uncached : Bool
  clevel : Nat := 0
  wpol : Nat := 0
  evp : Nat := 0
  comp : Bool := false
  pte : Nat
  deriving DecidableEq, Repr

/-- A translation entry (06 R130): die, address-space id, page; of a core's first-level TLB, or of the die's. -/
structure TlbEnt where
  die : Nat
  core : Option Nat := none
  /-- the die TLB's slice that holds it -/
  slice : Nat := 0
  asid : Nat
  va : Nat
  leaf : Leaf
  /-- its frame holds poison (25 R428) -/
  bad : Bool := false
  deriving DecidableEq, Repr

/-! ## Choice engine (17) -/

/-- A choice descriptor (17 R305). -/
structure ChoiceDesc where
  key : Dword := 0
  rkey : Dword := 0
  ckey : Dword := 0
  reca : Dword := 0
  srca : Dword := 0
  muta : Dword := 0
  rqa : Dword := 0
  rqn : Nat := 0
  nslot : Nat := 0
  rmode : Nat := 0
  cmp : Nat := 0
  recording : Bool := false
  listMap : Bool := false
  deriving DecidableEq, Repr

/-- A dictionary table resident on a core (03 R51, R53): each entry's words and control word. -/
structure DictTab where
  core : Nat
  tenant : Nat
  addr : Dword
  entries : List (List Word × Word)
  /-- the entries that hold poison (25 R428) -/
  bad : List Nat := []
  deriving DecidableEq, Repr

/-! ## Work -/

/-- A kernel descriptor (23 R386). -/
structure KernelDesc where
  entry : Dword := 0
  consta : Dword := 0
  constn : Nat := 0
  dictn : Nat := 0
  dicta : Dword := 0
  chda : Dword := 0
  vregs : Nat := 0
  sregs : Nat := 0
  nargs : Nat := 0
  lanesz : Nat := 0
  coresz : Nat := 0
  quadsz : Nat := 0
  nwaves : Nat := 1
  quadwg : Bool := false
  gang : Bool := false
  cor : Bool := false
  idemp : Bool := false
  prio : Nat := 0
  macc : Nat := 0
  diemask : BitVec 8 := 0
  compat : Bool := false
  /-- the dictionary table as it was read at the grid's start -/
  table : List (List Word × Word) := []
  deriving DecidableEq, Repr

/-- A resident workgroup with its windows (06 R110, 23 R398), until nothing that its waves pushed is left.
`core` is its first core; the bases are the same on each core of a quad workgroup. -/
structure Group where
  id : Nat := 0
  grid : Nat := 0
  tenant : Nat := 0
  wg : Nat := 0
  die : Nat := 0
  core : Nat := 0
  kd : KernelDesc := {}
  spBase : Nat := 0
  qmBase : Nat := 0
  tileBase : Nat := 0
  idemp : Bool := false
  /-- the lane slices of its waves on a core stand one after another from this place (06 R110) -/
  sliceBase : Nat := 0
  /-- a continuation batch's slot (21 R365) -/
  batch : Option Nat := none
  live : Bool := true
  /-- the rotation counters RQ, RP0, RP1 (15 R279) -/
  rq : Nat := 0
  rp0 : Nat := 0
  rp1 : Nat := 0
  deriving DecidableEq, Repr

/-! ## Rings, tenants and the host's registers (25) -/

/-- A ring's registers (25 R418). -/
structure Ring where
  base : Dword := 0
  n : Word := 0
  head : Word := 0
  tail : Word := 0
  ovf : Word := 0
  deriving DecidableEq, Repr

/-- TLCTL.STATE (23 R400). -/
inductive RunState where
  | run | drain | stopped
  deriving DecidableEq, Repr

/-- A Geyser tag of a tenant (23 R393): its binding when armed, and its pending messages. -/
structure Tag where
  armed : Bool := false
  ra : Dword := 0
  rsize : Nat := 0
  gbase : Dword := 0
  target : Nat := 0
  pending : List (List Byte) := []
  deriving DecidableEq, Repr

/-- A context-error record (25 R424). -/
structure CErr where
  ovf : Bool := false
  first : Nat := 0
  queue : Nat := 0
  sub : Nat := 0
  die : Nat := 0
  core : Nat := 0
  half : Bool := false
  slot : Nat := 0
  cause : Nat := 0
  b : Dword := 0
  c : Dword := 0
  deriving DecidableEq, Repr

/-- A tenant's block (25 R415) and launch block (23 R400), with what the part keeps for the tenant. -/
structure Tenant where
  cfgerr : Bool := false
  dbgen : Bool := false
  errvec : Nat := 0
  nvec : Nat := 1
  root : Dword := 0
  invalPage : BitVec 48 := 0
  invalKind : Nat := 0
  invalBusy : Bool := false
  /-- page and kind of the invalidation in progress (25 R416) -/
  invalRun : Nat × Nat := (0, 0)
  hentry : Dword := 0
  trapbase : Dword := 0
  wdog : Word := 0x200000
  seqb : Dword := 0
  seqn : Nat := 0
  /-- die ↦ (SIZE, BASE) -/
  calw : SMap (Nat × Nat) := []
  feedback : Ring := {}
  drill : Ring := {}
  receive : Ring := {}
  debug : Ring := {}
  cerr : CErr := {}
  dselCore : Nat := 0
  dselHalf : Bool := false
  dselSlot : Nat := 0
  dvec : Nat := 0
  dcmdBusy : Bool := false
  /-- the wave that a waiting SEND acts on (25 R421) -/
  sendTo : Nat := 0
  dqout : BitVec 256 := 0
  weight : Nat := 1
  state : RunState := .stopped
  en : Bool := false
  slice : Word := 0
  dead : Word := 3400000
  lerrNode : Nat := 0
  lerrOvf : Bool := false
  lerrCode : Nat := 0
  gdrop : Word := 0
  /-- endpoint ↦ (CAP, MIN), (256, 2) where not listed -/
  qpol : SMap (Nat × Nat) := []
  notify : SMap Dword := []
  notifyPend : BitVec 256 := 0
  msgHead : BitVec 128 := 0
  msgBody : SMap Byte := []
  sendBusy : Bool := false
  /-- MSI-X vectors raised and pending (25 R425) -/
  vectors : BitVec 64 := 0
  tags : SMap Tag := []
  /-- the clock at which STATE last became RUN (23 R401) -/
  runClock : Nat := 0
  /-- deadline clocks left while draining (10 R241) -/
  deadline : Option Nat := none
  /-- stopped by slice expiry: the tenants that were waiting then (23 R401) -/
  yieldTo : Option (List Nat) := none
  /-- pages whose feedback entries each die wrote last, newest first: (die, page) (06 R125) -/
  logged : List (Nat × Nat) := []
  deriving DecidableEq, Repr

/-! ## Grids and graphs (23) -/

/-- A started grid (23 R390, R398, R399). -/
structure Grid where
  id : Nat := 0
  tenant : Nat := 0
  gbase : Dword := 0
  node : Nat := 0
  next : Nat := 0xFFFFFF
  kd : KernelDesc := {}
  cd : ChoiceDesc := {}
  args : List Word := []
  nwg : Nat := 0
  placed : Nat := 0
  /-- %wg numbers to be placed again after a discard (10 R243) -/
  again : List Nat := []
  /-- retired workgroups by instance: core, quad + 2000, die + 3000, package 4000 -/
  retired : SMap Nat := []
  /-- placed and not yet retired, by instance -/
  open_ : SMap Nat := []
  /-- instances that have written their event -/
  done : List Nat := []
  eva : Dword := 0
  evval : Word := 0
  evw : BitVec 4 := 0
  irq : BitVec 4 := 0
  vec : Nat := 0
  /-- records of its TRAVCs not yet run (21 R365) -/
  records : Nat := 0
  deriving DecidableEq, Repr

/-- A node's state at its address (23 R389): held starts keep the node as it was read, and their fired argument
words. -/
structure NodeState where
  running : Bool := false
  held : List (Nat × Option (List Word)) := []
  cnt : Nat := 0
  deriving DecidableEq, Repr

/-- A release waiting for the walker (23 R389); `fired` holds Geyser's argument words (23 R394). -/
structure Release where
  tenant : Nat
  gbase : Dword
  node : Nat
  fired : Option (List Word) := none
  clock : Nat := 0
  deriving DecidableEq, Repr

/-- A message on its way to a Geyser (23 R391): `bytes` is the header and the payload; source 0 is the message window,
1 + p the Adit port p, 17 a SIGH of the same package (23 R393). -/
structure Message where
  tenant : Nat
  source : Nat
  bytes : List Byte
  clock : Nat := 0
  deriving DecidableEq, Repr

/-! ## What a wave leaves behind (01 R14) -/

/-- An operand descriptor of the matrix engine (15 R276): a plain share, or an unfolding of a tensor by its five
parameter words (15 R288). -/
inductive MatDesc where
  | invalid
  | plain (off pitch : Nat)
  | virtual (w1 w2 w3 w4 w5 : Nat)
  deriving DecidableEq, Repr

/-- An open sequence on its home die (19 R329, R330, R332, R336): the header and the watch entries as numbers, the KV
page list, the last eight committed tokens, newest last, and the drafts with the draws that chose them. -/
structure OpenSeq where
  tenant : Nat
  id : Nat
  home : Nat
  hdr : Nat
  watch : List Nat
  kv : List Nat
  recent : List Nat
  drafts : List (Nat × Option Chosen) := []
  /-- a word that the home holds of it holds poison (25 R428) -/
  bad : Bool := false
  deriving DecidableEq, Repr

/-- A formed instance of a joint matrix operation (15 R279–R282): the workgroup, the group (0 quad, 1 and 2 the pairs),
the matched entries by member index, and the index of the issuer. -/
structure JoinInst where
  id : Nat
  group : Nat
  kind : Nat
  members : List Nat
  issuer : Nat
  clock : Nat := 0
  deriving DecidableEq, Repr

/-- What the engines keep for a wave, from its start until its last pushed entry is performed. -/
structure Ctx where
  id : WaveId := {}
  b : Nat := 0
  /-- the wave is resident -/
  live : Bool := true
  sb : BitVec 16 := 0
  cd : ChoiceDesc := {}
  /-- the cursor of the last thread start, the number of thread starts before it, and the threads of the lanes that
  have changed since; the others stand as the start left them (17 R307) -/
  cursor : Nat := 0
  starts : Nat := 0
  threads : SMap Thread := []
  /-- COLLs done with, by key (14 R270) -/
  colls : SMap Nat := []
  /-- ADESC, BDESC, and HDESC: offset and EB (15 R276) -/
  adesc : MatDesc := .invalid
  bdesc : MatDesc := .invalid
  hdesc : Option (Nat × Int) := none
  /-- the die at which the wave's last q6 entry was performed (05 R104) -/
  tokHome : Option Nat := none
  deriving DecidableEq, Repr

/-! ## Traversal and sampling (21) -/

/-- A ratio of an integer and a natural number; ±1 over 0 stands for ±∞. -/
structure Ratio where
  n : Int
  d : Nat
  deriving DecidableEq, Repr

/-- An object-space ray: the instance, and origin and direction as FP32 data (21 R354). -/
structure ObjRay where
  inst : Nat
  o : List Nat
  d : List Nat
  deriving DecidableEq, Repr

/-- A part of a structure that a ray has still to visit; `near` is where the ray enters the last of its ancestors. -/
inductive RayPart where
  | top (at_ : Dword) (near : Ratio)
  | inst (at_ : Dword) (near : Ratio)
  | bottom (obj : ObjRay) (root at_ : Dword) (near : Ratio)
  | leaf (obj : ObjRay) (at_ : Dword) (proc : Bool) (near : Ratio)
  deriving DecidableEq, Repr

/-- A candidate or a result: t, u, v as FP32 data, and the key. -/
structure Hit where
  t : Nat
  u : Nat := 0
  v : Nat := 0
  back : Bool := false
  inst : Nat
  geom : Nat
  prim : Nat
  deriving DecidableEq, Repr

/-- What suspends a ray (21 R362, R363): a candidate of KIND 1 or 2, or the part whose read met a sparse hole. -/
inductive Offer where
  | candidate (kind : Nat) (h : Hit)
  | hole (part : RayPart) (va : Dword)
  deriving DecidableEq, Repr

/-- A ray of a TRAV or a TRAVC from its issue on (21 R353, R359). -/
structure Ray where
  id : Nat
  /-- the q8 entry that pushed it -/
  job : Nat
  lane : Nat
  regs : List Word
  pay : List Word := []
  todo : List RayPart := []
  best : Option Hit := none
  offer : Option Offer := none
  /-- the resume token, 0 while none has been posted -/
  token : Nat := 0
  /-- STATUS, once the ray has ended, and the missing node's address under STATUS 3 -/
  ended : Option Nat := none
  va : Dword := 0
  /-- its continuation record waits in a bin -/
  binned : Bool := false
  deriving DecidableEq, Repr

/-- A performed TRAV or TRAVC, some of whose rays are unfinished; a TRAVC's continuation pool (21 R365). -/
structure RayJob where
  e : QEntry
  hits : Nat := 0
  base : Dword := 0
  nslot : Nat := 0
  fl : Nat := 0
  deriving DecidableEq, Repr

/-- A continuation record in a bin: its ray, its bytes, the grid that pushed it, the die's clock at its arrival. -/
structure BinRecord where
  ray : Nat
  job : Nat
  grid : Nat
  clock : Nat := 0
  bytes : List Byte
  deriving DecidableEq, Repr

/-- The records of one pool and one resume PC on a die, in arrival order. -/
structure Bin where
  die : Nat
  tenant : Nat
  pool : Dword
  base : Dword
  nslot : Nat
  fl : Nat
  pc : Dword
  records : List BinRecord
  deriving DecidableEq, Repr

/-- A batch in a pool slot, waiting for its wave or running (21 R365): `grids` names the launch of each record. -/
structure Batch where
  id : Nat
  die : Nat
  tenant : Nat
  pool : Dword
  slot : Nat
  at_ : Dword
  pc : Dword
  grids : List Nat
  placed : Bool := false
  /-- its %wg, once it has been placed and discarded (10 R243) -/
  wg : Option Nat := none
  deriving DecidableEq, Repr

/-- An open path (22 R372, R373, R377): its window and surface, the subpath's start and the current point while they
are defined, and for each cell that received a piece, by 4,096 × row + column, AREA and COVER; the next element of a
composite that a fault has interrupted, and the elements that it has written (22 R385). -/
structure Path where
  uid : Nat
  base : Dword
  pitch : Nat
  x0 : Nat
  y0 : Nat
  w : Nat
  h : Nat
  rule : Bool
  op : Nat
  space : Nat
  wide : Bool
  point : Option ((Int × Int) × (Int × Int)) := none
  cells : SMap (Int × Int) := []
  next : Nat := 0
  pixels : Nat := 0
  deriving DecidableEq, Repr

/-! ## Scheduling, MODEL -/

/-- The split that issues: the wave's key 96 × package core + 2 × slot + half, its entry, the instruction's PC and
the PC after it, and whether the instruction is a dictionary code. -/
structure Issue where
  key : Nat
  split : Nat
  pc : Dword := 0
  npc : Dword := 0
  code : Bool := false
  deriving DecidableEq, Repr

/-! ## Management (25) -/

/-- A PC comparator (10 R239). -/
structure Comparator where
  pc : Dword := 0
  tenant : Nat := 0
  anyten : Bool := false
  en : Bool := false
  wg : Dword := 0
  deriving DecidableEq, Repr

/-- A core's debug block (10 R239, 13 R258). -/
structure DebugBlock where
  cmp : SMap Comparator := []
  drTenant : Nat := 0
  drPeriod : Nat := 0
  drEn : Bool := false
  drCount : Nat := 0
  deriving DecidableEq, Repr

/-- Issue slots of a core held beyond the clock of an issue: the FP64 instructions with a vector destination that issued in
clock `wideAt` hold their vector slots for one clock more (08 R170), and the passes of memory instructions hold the memory
slot up to clock `memTo` (06 R113, 07 R147). -/
structure Hold where
  wide : Nat := 0
  wideAt : Nat := 0
  memTo : Nat := 0
  deriving DecidableEq, Repr

/-- A die's power state (25 R426). -/
structure PState where
  cmd : Nat := 0
  cur : Nat := 0
  busy : Bool := false
  /-- D4 has cleared the die's READY bit, which sets again on the return to D0, D1 or D2 -/
  off : Bool := false
  deriving DecidableEq, Repr

/-- The management function, the hubs and the security engine (25 R413–R432, 13 R250). -/
structure Mgmt where
  ready : BitVec 45 := 0
  fail : BitVec 45 := 0
  /-- both hubs' route tables: hub × 32 + package ↦ (V, PORT) -/
  routes : SMap (Bool × Nat) := []
  self : Nat := 0
  dbgsel : Nat := 0
  pstate : SMap PState := []
  pwrcap : Nat := 3600
  alarmPower : Bool := false
  alarmTherm : Bool := false
  alarmEcc : Bool := false
  alarmCrit : Bool := false
  temp : SMap (BitVec 16) := []
  talarm : BitVec 16 := 760
  /-- cores whose CFENCE bit is clear -/
  fencedCores : List Nat := []
  /-- fenced line frames: (die, level × 2^32 + frame) -/
  fencedFrames : List (Nat × Nat) := []
  /-- times of the last two corrected errors of a location (25 R429) -/
  history : List (ErrLoc × List Nat) := []
  errRing : Ring := {}
  timer : Dword := 0
  vectors : BitVec 64 := 0
  /-- MEAS0 to MEAS15 -/
  meas : SMap (BitVec 512) := []
  mextLen : Nat := 0
  mextData : SMap Byte := []
  nonce : BitVec 512 := 0
  attgo : Bool := false
  report : SMap Byte := []
  replays : SMap Nat := []
  /-- every die is stopped by a critical temperature -/
  critical : Bool := false
  deriving DecidableEq, Repr

/-! ## The state -/

/-- The whole machine. -/
structure State where
  /-- MODEL: steps of the machine to be taken next, in order, and the subject of the one being taken.
  An entry that is an instruction, not a step, lets the next issue go first. -/
  agenda : List (Instr × Subject) := []
  subject : Subject := .none
  /-- MODEL: the issues chosen for this clock and core, the core looked at, and the split issuing -/
  picks : List Issue := []
  focus : Nat := 0
  cur : Option Issue := none
  /-- MODEL: the counter that the free values are applied to, and the next serial number -/
  fresh : Nat := 0
  nextId : Nat := 1
  /-- clocks since reset; a die's own %clock (07 R138) leaves out those for which its clock has been stopped -/
  clock : Nat := 0
  /-- die ↦ the clocks for which its clock has been stopped; 8 ↦ those for which every die's was (25 R426) -/
  paused : SMap Nat := []
  /-- MODEL: the step being taken has reached a memory stack that is not ready, so it has no effect (25 R414) -/
  stalled : Bool := false
  waves : SMap Wave := []
  ctxs : SMap Ctx := []
  groups : SMap Group := []
  grids : SMap Grid := []
  mem : Memory := []
  sp : Memory := []
  qm : Memory := []
  cal : Memory := []
  slice : Memory := []
  ls : List LsEntry := []
  ops : List LongOp := []
  lq : List BufEnt := []
  cb : List BufEnt := []
  dw : List BufEnt := []
  pq : List BufEnt := []
  /-- copies of single-copy-atomic units: die × 2^52 + PA of its first byte ↦ its bytes; none is listed empty -/
  ds : SMap (List Byte) := []
  parts : List Partial := []
  combs : List Comb := []
  /-- MODEL: the meetings of the next fetch-and-operate requests that engines and other packages make, request by
  request -/
  meets : List (List Meeting) := []
  fences : List QFence := []
  entries : List QEntry := []
  stops : List StopRec := []
  tokens : List TokenWrite := []
  /-- accumulator tiles (15 R275): ((core × 2^20 + tile) × 64 + row) × 64 + column ↦ element -/
  tiles : SMap Word := []
  /-- formed instances of joint matrix operations that have not started, in the order they formed (15 R282) -/
  joins : List JoinInst := []
  seqs : List OpenSeq := []
  rays : List Ray := []
  jobs : List RayJob := []
  bins : List Bin := []
  batches : List Batch := []
  paths : List Path := []
  xswaps : List XSwap := []
  barriers : List Barrier := []
  /-- instruction words held by a core: core × 2^50 + PA / 4 -/
  icache : SMap Word := []
  tlb : List TlbEnt := []
  dicts : List DictTab := []
  tenants : SMap Tenant := []
  nodes : SMap NodeState := []
  releases : List Release := []
  messages : List Message := []
  /-- messages handed to the Adit links, with the package each goes to -/
  outbound : List (Nat × Message) := []
  /-- the tenant whose turn it is on each die, with the workgroups placed in this turn (23 R398) -/
  turns : SMap (Nat × Nat) := []
  blocks : SMap DebugBlock := []
  /-- slots that an instruction of an earlier clock still holds, by package core number -/
  held : SMap Hold := []
  mgmt : Mgmt := {}
  /-- what the part answered to the last read from outside: a host access, a remote load or a register read -/
  answer : List Byte := []
  /-- the answer carried the CXL poison indication (25 R412) -/
  answerPoison : Bool := false
  /-- bytes that hold poison (25 R428), and the tenants that have consumed some, with the location kind of 25 R429 -/
  poison : List Loc := []
  /-- protected words and line frames that hold poison and in which nothing stands that the machine keeps elsewhere, the
  tiles' words apart (25 R428): a step says when one is consumed or rewritten -/
  badWords : List ErrLoc := []
  /-- copies of lines and cached instruction words that hold poison, by their keys in `ds` and `icache` (25 R428) -/
  badCopies : List Nat := []
  badFetch : List Nat := []
  /-- tenants with a buffered store to a stack that was neither ready nor failed when it was performed, with the stack's bit
  of READY and FAIL (25 R414) -/
  awaited : List (Nat × Nat) := []
  struck : List (Nat × Nat) := []
  deriving DecidableEq, Repr

/-- The machine right after reset: no wave is resident, the tenants' and the management registers hold the reset
values of 23 R400 and 25 R413–R431, and memory lists nothing (log entries 1 to 4 name what the spec leaves open). -/
def State.reset : State := {}

end Sys2Proof.Machine
end

