-- ==== Sys2Proof/Machine/Ops.lean ====
section
/-! DEFINITION. The named operations over waves, registers, splits and queues; taking a trap (10 R228–R233) and the
issue-time checks that every instruction shares (03 R56). -/

namespace Sys2Proof.Machine

open Sys2Proof

/-! ## Numbers of places (01 R9, 10 R232) -/

/-- The package core number. -/
def WaveId.pcore (w : WaveId) : Nat := Config.coresPerDie * w.die + w.core
/-- 1 for a high legacy half, else 0. -/
def WaveId.half (w : WaveId) : Nat := if w.gang = 2 then 1 else 0
/-- The key of a wave: 96 × package core number + 2 × %slot + h. -/
def WaveId.key (w : WaveId) : Nat := 96 * w.pcore + 2 * w.slot + w.half
/-- The key of the other half of a ganged slot. -/
def WaveId.partner (w : WaveId) : Nat := if w.gang = 2 then w.key - 1 else w.key + 1
/-- W: lanes of the wave (08 R156). -/
def WaveId.width (w : WaveId) : Nat := if w.gang = 0 then 64 else 32
/-- All lanes of the wave. -/
def WaveId.full (w : WaveId) : Mask := if w.gang = 0 then 0xFFFFFFFFFFFFFFFF else 0xFFFFFFFF
/-- The package quad number. -/
def WaveId.pquad (w : WaveId) : Nat := w.pcore / 4

/-! ## Lanes -/

/-- The lanes of a mask, ascending. -/
def lanesOf (m : Mask) : List Nat := (List.range 64).filter (fun l => m.getLsbD l)

/-- The mask of one lane. -/
def laneBit (l : Nat) : Mask := BitVec.ofNat 64 (2 ^ l)

/-- The lowest lane of a mask, 0 when it is empty. -/
def lowLane (m : Mask) : Nat := (lanesOf m).headD 0

/-- The number of 1 bits. -/
def popCount (m : Mask) : Nat := (lanesOf m).length

/-- A mask from a predicate over its lanes. -/
def maskOf (ls : List Nat) (p : Nat → Bool) : Mask :=
  ls.foldl (fun m l => if p l then m ||| laneBit l else m) 0

/-! ## Registers of a wave (07 R136) -/

def Wave.getV (w : Wave) (r l : Nat) : Word := SMap.read 0 w.v (r * 64 + l)
/-- The 64 bits that a register word stands in (25 R428). DESIGN CHOICE (log entry 92): lanes 2j and 2j + 1 of a vector
register, the even and odd scalar registers of a pair, one mask register. -/
def regUnit : RegWord → RegWord
  | .v r l => .v r (l / 2)
  | .s r => .s (r / 2)
  | .k r => .k r

/-- The words of the unit of a word. -/
def regWords : RegWord → List RegWord
  | .v r l => [.v r (l / 2 * 2), .v r (l / 2 * 2 + 1)]
  | .s r => [.s (r / 2 * 2), .s (r / 2 * 2 + 1)]
  | .k r => [.k r]

/-- Does a word's unit hold poison: a word of it has not been written since? -/
def Wave.holdsBad (w : Wave) (x : RegWord) : Bool := w.bad.any fun y => regUnit y == regUnit x

/-- The words that hold poison once one has been written (25 R428). -/
def Wave.lift (w : Wave) (x : RegWord) : List RegWord := w.bad.filter (· != x)
def Wave.setV (w : Wave) (r l : Nat) (x : Word) : Wave :=
  { w with v := SMap.write 0 w.v (r * 64 + l) x, bad := w.lift (.v r l) }

/-- Is a scalar register one of those that exist only while a handler runs (10 R234)? -/
def Wave.isExtra (w : Wave) (r : Nat) : Bool :=
  match w.shadow with
  | some sh => !sh.debug && r < 8 && w.b ≤ r
  | none => false

def Wave.getS (w : Wave) (r : Nat) : Word :=
  if w.isExtra r then
    match w.shadow with
    | some sh => SMap.read 0 sh.extra r
    | none => 0
  else SMap.read 0 w.s r

def Wave.setS (w : Wave) (r : Nat) (x : Word) : Wave :=
  if w.isExtra r then
    { w with shadow := w.shadow.map fun sh => { sh with extra := SMap.write 0 sh.extra r x } }
  else { w with s := SMap.write 0 w.s r x, bad := w.lift (.s r) }

/-- k0 reads as all lanes of the wave (03 R36, 07 R136, R145). -/
def Wave.getK (w : Wave) (r : Nat) : Mask :=
  if r = 0 then w.id.full else SMap.read 0 w.k r

/-- A write to k0 is ignored; a ganged half has bits [31:0] only (08 R156). -/
def Wave.setK (w : Wave) (r : Nat) (x : Mask) : Wave :=
  if r = 0 then w else { w with k := SMap.write 0 w.k r (x &&& w.id.full), bad := w.lift (.k r) }

def Wave.depthOf (w : Wave) (l : Nat) : Nat := SMap.read 0 w.depth l
def Wave.setDepth (w : Wave) (l n : Nat) : Wave := { w with depth := SMap.write 0 w.depth l n }

/-- The even/odd pair from register r up (02 R21). -/
def Wave.getV64 (w : Wave) (r l : Nat) : Dword := w.getV (r + 1) l ++ w.getV r l
def Wave.getS64 (w : Wave) (r : Nat) : Dword := w.getS (r + 1) ++ w.getS r
def Wave.setV64 (w : Wave) (r l : Nat) (x : Dword) : Wave :=
  (w.setV r l (x.setWidth 32)).setV (r + 1) l ((x >>> 32).setWidth 32)
def Wave.setS64 (w : Wave) (r : Nat) (x : Dword) : Wave :=
  (w.setS r (x.setWidth 32)).setS (r + 1) ((x >>> 32).setWidth 32)

/-- n registers from r up, as one number, the first lowest. -/
def Wave.getVs (w : Wave) (r n l : Nat) : Nat :=
  (List.range n).foldr (fun i acc => (w.getV (r + i) l).toNat + 2 ^ 32 * acc) 0
def Wave.getSs (w : Wave) (r n : Nat) : Nat :=
  (List.range n).foldr (fun i acc => (w.getS (r + i)).toNat + 2 ^ 32 * acc) 0
def Wave.setVs (w : Wave) (r n l x : Nat) : Wave :=
  (List.range n).foldl (fun w i => w.setV (r + i) l (BitVec.ofNat 32 (x / 2 ^ (32 * i)))) w
def Wave.setSs (w : Wave) (r n x : Nat) : Wave :=
  (List.range n).foldl (fun w i => w.setS (r + i) (BitVec.ofNat 32 (x / 2 ^ (32 * i)))) w

/-- The active lanes of a split (07 R135): members whose depth counter is zero. -/
def Wave.active (w : Wave) (sp : Split) : Mask :=
  maskOf (lanesOf sp.members) (fun l => w.depthOf l == 0)

/-- The acting lanes under K (03 R47). -/
def Wave.acting (w : Wave) (sp : Split) (k : BitVec 4) : Mask := w.active sp &&& w.getK k.toNat

/-- The lanes that have not exited. -/
def Wave.members (w : Wave) : Mask := w.splits.foldl (fun m p => m ||| p.2.members) 0

/-! ## The state's parts -/

def State.wave (s : State) (key : Nat) : Option Wave := SMap.find s.waves key
def State.setWave (s : State) (key : Nat) (w : Wave) : State := { s with waves := SMap.insert s.waves key w }
def State.mapWave (s : State) (key : Nat) (f : Wave → Wave) : State :=
  match s.wave key with
  | some w => s.setWave key (f w)
  | none => s

/-- The resident wave of a serial number, with its key. -/
def State.waveOf (s : State) (uid : Nat) : Option (Nat × Wave) := s.waves.find? (fun p => p.2.id.uid == uid)

/-- Change the wave of a serial number, if it is resident. -/
def State.mapUid (s : State) (uid : Nat) (f : Wave → Wave) : State :=
  match s.waveOf uid with
  | some (k, w) => s.setWave k (f w)
  | none => s

def State.ctx (s : State) (uid : Nat) : Ctx := SMap.read {} s.ctxs uid
def State.setCtx (s : State) (uid : Nat) (c : Ctx) : State := { s with ctxs := SMap.insert s.ctxs uid c }
def State.mapCtx (s : State) (uid : Nat) (f : Ctx → Ctx) : State :=
  match SMap.find s.ctxs uid with
  | some c => s.setCtx uid (f c)
  | none => s

def State.group (s : State) (id : Nat) : Group := SMap.read {} s.groups id
def State.grid (s : State) (id : Nat) : Grid := SMap.read {} s.grids id
def State.tenant (s : State) (t : Nat) : Tenant := SMap.read {} s.tenants t
def State.setTenant (s : State) (t : Nat) (x : Tenant) : State := { s with tenants := SMap.write {} s.tenants t x }
def State.mapTenant (s : State) (t : Nat) (f : Tenant → Tenant) : State := s.setTenant t (f (s.tenant t))

/-- A die's clock counts, which stand still while it is stopped; 8 is the package, whose counts stand still while every
die is stopped (25 R426). -/
def State.dieClock (s : State) (d : Nat) : Nat := s.clock - SMap.read 0 s.paused d

/-- Does a die's clock run (25 R426, R427)? -/
def State.dieRuns (s : State) (d : Nat) : Bool :=
  decide ((SMap.read {} s.mgmt.pstate d).cur < 3) && !s.mgmt.critical

/-- Take a serial number. -/
def State.bump (s : State) : State := { s with nextId := s.nextId + 1 }

/-- Change the issuing split. -/
def Wave.setSplit (w : Wave) (i : Nat) (sp : Split) : Wave := { w with splits := SMap.insert w.splits i sp }
def Wave.mapSplit (w : Wave) (i : Nat) (f : Split → Split) : Wave :=
  match SMap.find w.splits i with
  | some sp => w.setSplit i (f sp)
  | none => w

/-- Change every split, those that a handler or a debug stop has set aside too. -/
def Wave.mapSplits (w : Wave) (f : Nat → Split → Split) : Wave :=
  { w with
    splits := w.splits.map fun p => (p.1, f p.1 p.2)
    shadow := w.shadow.map fun sh => { sh with splits := sh.splits.map fun p => (p.1, f p.1 p.2) } }

/-- The splits, set aside or not, whose wait meets a condition. -/
def Wave.waiters (w : Wave) (p : Wait → Bool) : List Nat :=
  let set : SMap Split := match w.shadow with
    | some sh => sh.splits
    | none => []
  ((set ++ w.splits).filter fun x => p x.2.wait).map (·.1)

/-- IDEMP ends for the whole workgroup at the first instruction that 10 R243 lists. -/
def State.clearIdemp (s : State) (w : WaveId) : State :=
  match SMap.find s.groups w.group with
  | some g => { s with groups := SMap.insert s.groups w.group { g with idemp := false } }
  | none => s

/-- The PC of a split's next instruction or code (03 R48). -/
def Split.at (sp : Split) : Dword := if sp.codes = 0 then sp.pc else sp.codePc

/-! ## Going on to the next instruction -/

/-- A split that has executed a dictionary code stands at the next one; otherwise at `npc`. -/
def Split.next (sp : Split) (i : Issue) : Split :=
  if i.code then { sp with codePc := sp.codePc + 2, codes := sp.codes - 1, latch := none, noMatch := false }
  else { sp with pc := i.npc, noMatch := false }

/-- A transfer of control: no codes are left (03 R48). -/
def Split.goto (sp : Split) (pc : Dword) : Split := { sp with pc := pc, codes := 0, latch := none, noMatch := false }

/-- The wave has issued (07 R148, R150). -/
def Wave.issued (w : Wave) (i : Nat) (clock : Nat) : Wave :=
  { w.mapSplit i (fun sp => { sp with lastIssue := clock + 1 }) with lastIssue := clock + 1, guard := 0, expired := none }

/-- Put a changed wave back, its issuing split at the next instruction. -/
def State.done (s : State) (i : Issue) (w : Wave) : State :=
  s.setWave i.key ((w.mapSplit i.split (fun sp => sp.next i)).issued i.split s.clock)

/-- Put a changed wave back, its issuing split at a target. -/
def State.jump (s : State) (i : Issue) (w : Wave) (pc : Dword) : State :=
  s.setWave i.key ((w.mapSplit i.split (fun sp => sp.goto pc)).issued i.split s.clock)

/-- The issuing split with its wave. -/
def State.withCur (s : State) (f : Issue → Wave → Split → State) : State :=
  match s.cur with
  | none => s
  | some i =>
    match s.wave i.key with
    | none => s
    | some w =>
      match SMap.find w.splits i.split with
      | none => s
      | some sp => f i w sp

/-! ## Taking a trap (10 R228–R232)

The trap is recorded here, at its boundary; TRAP_ENTRY enters the handler once the outstanding operations are
done. -/

/-- The trap causes of 10 R229. -/
def tIllegalEnc : Nat := 1
def tUnimplMajor : Nat := 2
def tQueueDir : Nat := 3
def tRegBounds : Nat := 4
def tFlagHazard : Nat := 5
def tSpaceBounds : Nat := 6
def tPageFault : Nat := 7
def tDecFormat : Nat := 8
def tMisaligned : Nat := 9
def tDepthOverflow : Nat := 10
def tCallDepth : Nat := 11
def tXswapTimeout : Nat := 12
def tBarScope : Nat := 13
def tBarSeq : Nat := 14
def tSwTrap : Nat := 15
def tSyscall : Nat := 16
def tPrivOp : Nat := 17
def tEngineFault : Nat := 18
def tBreakpoint : Nat := 32
def tPcMatch : Nat := 33
def tDebugHalt : Nat := 34

/-- Record a precise trap of the issuing split: every split of the wave stops, the split stays where it is, and an
instruction that a dictionary code held is dropped, to be resolved again (10 R229, R232). -/
def State.trapAt (s : State) (i : Issue) (cause sub lane : Nat) (addr : Dword) : State :=
  s.mapWave i.key fun w =>
    let sp := SMap.read {} w.splits i.split
    { w.mapSplit i.split (fun sp => { sp with latch := none }) with
      trap := some { cause, sub, lane, split := i.split, pc := i.pc, resume := i.pc, active := w.active sp, addr } }

/-- Take a precise trap with no lane and no address. -/
def State.takeTrap (s : State) (cause : Nat) (sub : Nat := 0) : State :=
  match s.cur with
  | some i => s.trapAt i cause sub 0 0
  | none => s

/-- Record a trap that resumes after its instruction (10 R229: SWTRAP, SYSCALL, BREAKPOINT). -/
def State.trapAfter (s : State) (i : Issue) (w : Wave) (cause sub : Nat) : State :=
  let sp := SMap.read {} w.splits i.split
  let w := (w.mapSplit i.split (fun sp => sp.next i)).issued i.split s.clock
  let sp' := SMap.read {} w.splits i.split
  s.setWave i.key
    { w with trap := some { cause, sub, split := i.split, pc := i.pc, resume := sp'.at, active := w.active sp } }

/-- Put a split back at an instruction that it has issued. -/
def Split.rewind (sp : Split) (pc : Dword) (code : Bool) : Split :=
  if code then { sp with codePc := pc, codes := sp.codes + 1, latch := none, wait := .ready }
  else { sp with pc := pc, wait := .ready }

/-- Change a split of the program (`hand` false) or of the handler, wherever its table stands now. -/
def Wave.mapSplitIn (w : Wave) (hand : Bool) (i : Nat) (f : Split → Split) : Wave :=
  match hand, w.shadow with
  | false, some sh =>
    match SMap.find sh.splits i with
    | some sp => { w with shadow := some { sh with splits := SMap.insert sh.splits i (f sp) } }
    | none => w
  | _, _ => w.mapSplit i f

/-- The trap of a split of the program or of the handler: taken at once, or held while a handler runs or another
trap is being taken (10 R231). -/
def Wave.raise (w : Wave) (hand : Bool) (t : Trap) : Wave :=
  if w.trap.isNone && hand == w.shadow.isSome then { w with trap := some t }
  else { w with heldTraps := w.heldTraps ++ [t] }

/-! ## Checks at issue (03 R56 orders 4 and 5, 01 R15) -/

/-- The registers an instruction names: vector registers, scalar registers; and the flag-select bit of a
long-latency instruction with whether its destination is a vector register. -/
structure Uses where
  vr : List Nat := []
  sr : List Nat := []
  long : Option (Bool × Bool) := none
  deriving DecidableEq, Repr

/-- The registers of an operand. -/
def regRange (r n : Nat) : List Nat := (List.range n).map (r + ·)

def Uses.add (u : Uses) (o : Opnd) (n : Nat) : Uses :=
  match o with
  | .v r => { u with vr := u.vr ++ regRange r.toNat n }
  | .s r => { u with sr := u.sr ++ regRange r.toNat n }
  | _ => u

/-- A slot's operand, unless the slot is unused. -/
def Uses.slot (u : Uses) (t : Slot) (e : Ext) (o : Opnd) : Uses :=
  if t.isUnused then u else u.add o (t.w.regs e)

/-- The registers that a form's operands name. -/
def usesOf (f : Form) (e : Ext) : Uses :=
  ((({ : Uses }.slot f.d e e.d).slot f.a e e.a).slot (if f.bUsed e then f.b else .unused) e e.b).slot f.c e e.c

/-- The completion flag that a long-latency instruction attaches to (03 R42, R45). -/
def Split.flagOf (sp : Split) (fb : Bool) : Option Nat :=
  let f := if fb then sp.setb else sp.seta
  if f.toNat < 12 then some f.toNat else none

/-- Is a register field beyond the allocation (03 R37)? In a handler s0–s7 exist whatever the allocation (10 R234). -/
def Wave.outOfBounds (w : Wave) (u : Uses) : Bool :=
  u.vr.any (fun r => decide (w.a ≤ r)) || u.sr.any (fun r => decide (w.b ≤ r) && !w.isExtra r)

/-- FLAG_HAZARD: a named vector register is pending, or a vector destination would attach to no flag (03 R45, R46). -/
def Wave.hazard (w : Wave) (sp : Split) (u : Uses) : Bool :=
  u.vr.any (fun r => (SMap.find w.marks r).isSome) ||
  match u.long with
  | some (fb, true) => (sp.flagOf fb).isNone
  | _ => false

/-- A named scalar register is pending on the scoreboard or a token (01 R15, 03 R46). -/
def Wave.scoreboard (w : Wave) (u : Uses) : Bool := u.sr.any (fun r => (SMap.find w.sb r).isSome)

/-- The checks every instruction passes before its effect: REG_BOUNDS, then FLAG_HAZARD, then the scoreboard, on
which the split stalls. -/
def State.checked (s : State) (u : Uses) (f : Issue → Wave → Split → State) : State :=
  s.withCur fun i w sp =>
    if w.outOfBounds u then s.trapAt i tRegBounds 0 0 0
    else if w.hazard sp u then s.trapAt i tFlagHazard 0 0 0
    else if w.scoreboard u then s
    else f i w sp

/-- An instruction that acts once for its split, and has no effect when the split has no active lane (07 R144). -/
def State.once (s : State) (u : Uses) (f : Issue → Wave → Split → State) : State :=
  s.checked u fun i w sp => if w.active sp = 0 then s.done i w else f i w sp

end Sys2Proof.Machine
end

