-- ==== Sys2Proof/Machine/Draws.lean ====
section
/-! DEFINITION. Draws of the choice engine as every lane instruction takes them (17 R306–R312, 04 R65). -/

namespace Sys2Proof.Machine

open Sys2Proof

/-- Tephra (17 R309). -/
def tephra (key stream : Dword) (ctr : Word) : Word :=
  let x := key ^^^ (stream * 0x8F1BC4E95A73D261) ^^^ (ctr.setWidth 64 * 0x6C072E93B5D841AF)
  let x := (x ^^^ (x >>> 31)) * 0xD1A53C6B8E27F94D
  let x := (x ^^^ (x >>> 27)) * 0x7F3B0A95E6C12D87
  let x := (x ^^^ (x >>> 33)) * 0xA68E5F12C3B97B35
  (x >>> 32).setWidth 32

/-- The thread that a start gives a lane (17 R307). Under list mapping the build of M finds its slot. -/
def Ctx.fresh (c : Ctx) (lane : Nat) : Thread :=
  let t := c.cursor + lane
  { id := c.starts * 64 + lane, t
    slot := if c.cd.listMap then none else some t
    stream := if c.cd.listMap then BitVec.ofNat 64 (2 ^ 63 + t) else BitVec.ofNat 64 t
    list := if c.cd.listMap || c.cd.muta = 0 || c.cd.rmode = 0 then none else some (c.cd.muta + BitVec.ofNat 64 (128 * t))
    building := c.cd.rmode != 0 }

/-- The thread of a lane. -/
def Ctx.thread (c : Ctx) (lane : Nat) : Thread := (SMap.find c.threads lane).getD (c.fresh lane)

/-- The record of one draw: its value, index, site, occurrence, and the slot it is recorded in. -/
structure DrawRec where
  u : Word
  index : Nat
  site : BitVec 16
  occ : BitVec 16
  slot : Option Nat
  deriving DecidableEq, Repr

/-- The entry of M that a replay serves: index i in linear mode, the lowest unconsumed entry with the site and the
occurrence in keyed mode (17 R311). -/
def Thread.serve (th : Thread) (rmode : Nat) (site occ : BitVec 16) : Option Nat :=
  if rmode = 1 then (if th.draws.toNat < th.m.length then some th.draws.toNat else none)
  else
    (List.range th.m.length).find? fun j =>
      match th.m[j]? with
      | some d => d.site == site && d.occ == occ && !th.consumed.contains j
      | none => false

/-- One draw of a lane at a site (17 R310, R311). -/
def Thread.draw (th : Thread) (cd : ChoiceDesc) (site : BitVec 16) : Thread × DrawRec :=
  let occN := SMap.read 0 th.occ site.toNat
  let occ : BitVec 16 := BitVec.ofNat 16 occN
  let fkey := if cd.rmode = 0 then cd.key else cd.rkey
  let fresh := tephra fkey th.stream th.draws
  let (u, th) : Word × Thread :=
    if th.slot.isNone || th.finished || cd.rmode = 0 then (fresh, th)
    else
      match th.serve cd.rmode site occ with
      | some j => (((th.m[j]?).map (·.value)).getD 0, { th with consumed := th.consumed ++ [j] })
      | none => (fresh, { th with novel := th.novel + 1 })
  let recorded := cd.recording && th.slot.isSome && !th.finished && decide (th.draws.toNat < 1024)
  ({ th with
      draws := th.draws + 1
      occ := SMap.write 0 th.occ site.toNat ((occN + 1) % 65536)
      ovf := th.ovf || (decide (1024 ≤ th.draws.toNat) && !th.finished) },
   { u, index := th.draws.toNat, site, occ, slot := if recorded then th.slot else none })

/-- Is the M of one of these lanes still being built (17 R318)? -/
def State.builds (s : State) (uid : Nat) (ls : List Nat) : Bool := ls.any fun l => ((s.ctx uid).thread l).building

/-- Does a thread's draw need what its build has still to give? DEDUCED (log entry 110): a finished thread's needs no M (17
R311), but its stream is that of T, which list mapping reads in the build (17 R307). -/
def Thread.waits (th : Thread) (cd : ChoiceDesc) : Bool :=
  th.building && (!th.finished || (cd.listMap && th.slot.isNone))

/-- Must the draw of one of these lanes wait for the build of its M (17 R318)? -/
def State.drawsBlocked (s : State) (uid : Nat) (ls : List Nat) : Bool :=
  ls.any fun l => ((s.ctx uid).thread l).waits (s.ctx uid).cd

/-- The base of a site from a PC (17 R310). -/
def siteOfPc (pc : Dword) : BitVec 16 := (pc >>> 2).setWidth 16

/-- One draw of a lane of a wave: the thread moves on, and a recorded draw forms an implicit entry of q4
(17 R311, R322). -/
def State.takeDraw (s : State) (uid lane : Nat) (base : BitVec 16) (pc : Dword) (seq : Word) : State × DrawRec :=
  let c := s.ctx uid
  let (th, d) := (c.thread lane).draw c.cd (base ^^^ c.sb)
  let s := s.setCtx uid { c with threads := SMap.insert c.threads lane th }
  match d.slot with
  | some slot =>
    ({ s.bump with
        entries := s.entries ++
          [{ id := s.nextId, uid, q := 4, data := 0, seq, pc, lane, clock := s.clock,
             imp := some (.draw lane th.id slot d.index (d.occ ++ d.site ++ d.u)), age := s.nextId }] }, d)
  | none => (s, d)

/-- n draws of one lane, one after another. -/
def State.takeDrawN (s : State) (uid lane : Nat) (base : BitVec 16) (pc : Dword) (seq : Word) :
    Nat → State × List DrawRec
  | 0 => (s, [])
  | n + 1 =>
    let (s, d) := s.takeDraw uid lane base pc seq
    let (s, ds) := s.takeDrawN uid lane base pc seq n
    (s, d :: ds)

/-- n draws of each listed lane of the issuing wave, in ascending lane order, from a site's base; answers the drawn
values by lane number. -/
def State.takeDrawsAt (s : State) (w : Wave) (i : Issue) (base : BitVec 16) (n : Nat) (ls : List Nat) :
    State × List (List Nat) :=
  if n = 0 then (s, [])
  else
    let (s, m) := ls.foldl
      (fun acc l =>
        let (s, ds) := acc.1.takeDrawN w.id.uid l base i.pc w.seqno n
        (s, SMap.insert acc.2 l (ds.map (·.u.toNat))))
      (s, ([] : SMap (List Nat)))
    (s, (List.range 64).map fun l => SMap.read [] m l)

/-- Draws at the site of an instruction's PC. -/
def State.takeDraws (s : State) (w : Wave) (i : Issue) (n : Nat) (ls : List Nat) : State × List (List Nat) :=
  s.takeDrawsAt w i (siteOfPc i.pc) n ls

end Sys2Proof.Machine
end

