-- ==== Sys2Proof/Machine/Flags.lean ====
section
/-! DEFINITION. The status register (04 R62), and the completion flags with the pending marks and the scoreboard
(01 R15, R16, 03 R44–R46). -/

namespace Sys2Proof.Machine

open Sys2Proof

/-- Set bits of %fpstat (04 R62). -/
def Wave.addStatus (w : Wave) (fl : Word) : Wave := { w with fpstat := w.fpstat ||| (fl &&& 0x3F) }

/-- Set bits of the %fpstat of the wave of a serial number, if it is still resident. -/
def State.addStatus (s : State) (uid : Nat) (fl : Word) : State := s.mapUid uid (·.addStatus fl)

/-- One more operation attached to a flag (03 R44). -/
def Wave.flagUp (w : Wave) (f : Option Nat) : Wave :=
  match f with
  | some n => { w with flags := SMap.write 0 w.flags n (SMap.read 0 w.flags n + 1) }
  | none => w

/-- One attached operation is complete. -/
def Wave.flagDown (w : Wave) (f : Option Nat) : Wave :=
  match f with
  | some n => { w with flags := SMap.write 0 w.flags n (SMap.read 0 w.flags n - 1) }
  | none => w

/-- Mark vector registers pending on a flag (03 R46). -/
def Wave.markAll (w : Wave) (rs : List Nat) (f : Option Nat) : Wave :=
  match f with
  | some n => { w with marks := rs.foldl (fun m r => SMap.insert m r n) w.marks }
  | none => w

/-- Mark scalar registers on the scoreboard (01 R15). -/
def Wave.sbMark (w : Wave) (rs : List Nat) (m : SbMark) : Wave :=
  { w with sb := rs.foldl (fun b r => SMap.insert b r m) w.sb }

/-- Take back the scoreboard marks of one operation or token. -/
def Wave.sbClear (w : Wave) (m : SbMark) : Wave := { w with sb := w.sb.filter (fun p => p.2 != m) }

/-- Issue a long-latency operation: it attaches to SETA or SETB, its vector destinations are marked pending, its
scalar destinations stand on the scoreboard (03 R45, R46). Answers the operation's number. -/
def State.attach (s : State) (w : Wave) (sp : Split) (fb : Bool) (vregs sregs : List Nat) (o : LongOp) :
    State × Wave × Nat :=
  let id := s.nextId
  let f := sp.flagOf fb
  let w := ((w.flagUp f).markAll vregs f).sbMark sregs (.op id)
  ({ s.bump with ops := s.ops ++ [{ o with id, uid := w.id.uid, flag := f, sregs, vregs }] }, w, id)

/-- A clause header's WAIT has passed when every named flag is clear (03 R43). -/
def Wave.waitClear (w : Wave) (wait : BitVec 12) : Bool :=
  (List.range 12).all fun n => !wait.getLsbD n || SMap.read 0 w.flags n == 0

/-- Drop the pending marks attached to the waited flags (03 R43). -/
def Wave.dropMarks (w : Wave) (wait : BitVec 12) : Wave :=
  { w with marks := w.marks.filter fun p => !wait.getLsbD p.2 }

end Sys2Proof.Machine
end

