-- ==== Sys2Proof/Machine/Operands.lean ====
section
/-! DEFINITION. Operands: reading a source for a lane, writing a destination, and the shape that every lane
instruction shares (08 R154, R155, 04 R65). -/

namespace Sys2Proof.Machine

open Sys2Proof

/-- The value of a source operand of n bits for a lane (08 R154, R155): a vector register gives the lane's value, a
scalar register or the literal the same value to every lane. -/
def Wave.src (w : Wave) (lit : Dword) (o : Opnd) (n l : Nat) : Nat :=
  match o with
  | .v r => if n ≤ 32 then (w.getV r.toNat l).toNat % 2 ^ n else w.getVs r.toNat (n / 32) l
  | .s r => if n ≤ 32 then (w.getS r.toNat).toNat % 2 ^ n else w.getSs r.toNat (n / 32)
  | .k r => (w.getK r.toNat).toNat
  | .lit => lit.toNat % 2 ^ n
  | .q _ => 0

/-- A result of n bits as its register holds it: a narrow signed integer sign-extended, any other narrow value
zero-extended (04 R58, 08 R155). -/
def widen (t : DType) (n x : Nat) : Nat :=
  if n < 32 ∧ t.isSigned then Num.wrapInt 32 (Num.sval n x) else x % 2 ^ n

/-- Write a register destination of n bits, in a lane when it is a vector register. -/
def Wave.put (w : Wave) (o : Opnd) (n l x : Nat) : Wave :=
  match o with
  | .v r => if n ≤ 32 then w.setV r.toNat l (BitVec.ofNat 32 x) else w.setVs r.toNat (n / 32) l x
  | .s r => if n ≤ 32 then w.setS r.toNat (BitVec.ofNat 32 x) else w.setSs r.toNat (n / 32) x
  | _ => w

/-- The vector registers of a destination, and its scalar registers. -/
def vregsOf (o : Opnd) (n : Nat) : List Nat :=
  match o with
  | .v r => regRange r.toNat n
  | _ => []
def sregsOf (o : Opnd) (n : Nat) : List Nat :=
  match o with
  | .s r => regRange r.toNat n
  | _ => []

/-- The lanes in which an instruction with a destination acts, each with the lane whose choice vector it draws from:
the acting lanes, or once for the split (08 R154, 04 R65). -/
def Wave.actors (w : Wave) (sp : Split) (e : Ext) : List Nat :=
  if e.d.isS then (if w.active sp = 0 then [] else [lowLane (w.active sp)])
  else lanesOf (w.acting sp e.k)

/-- The results of a lane instruction: one for each acting lane. -/
abbrev LaneResults := List (Nat × Num.Res)

/-- Write the results into the destination: a register in the acting lanes, or every bit of a mask register, the bits
of lanes that do not act becoming 0 (08 R155). -/
def Wave.putAll (w : Wave) (e : Ext) (n : Nat) (rs : LaneResults) : Wave :=
  match e.d with
  | .k r => w.setK r.toNat (rs.foldl (fun m p => if p.2.bits % 2 = 1 then m ||| laneBit p.1 else m) 0)
  | d => rs.foldl (fun w p => w.put d n p.1 (widen e.ty n p.2.bits)) w

/-- The status bits of all acting lanes together (04 R62). -/
def statusOf (rs : LaneResults) : Word := rs.foldl (fun f p => f ||| p.2.fl) 0

/-- Does the operand of a used slot name a vector register? -/
def vecSlot (t : Slot) (o : Opnd) : Bool := !t.isUnused && o.isV

/-- An extended instruction with a vector operand. -/
def hasVector (f : Form) (e : Ext) : Bool := vecSlot f.d e.d || vecSlot f.a e.a || (f.bUsed e && vecSlot f.b e.b) || vecSlot f.c e.c

/-- A lane instruction: after the checks of 03 R56, `op` gives the result of each acting lane from the wave, the lane
and the draws it takes under SR (`nd` of them, 04 R65). One with no vector operand has no effect in a split with no active
lane (07 R144). -/
def State.alu (s : State) (f : Form) (e : Ext) (nd : Nat) (op : Wave → Nat → List Nat → Num.Res) : State :=
  s.checked (usesOf f e) fun i w sp =>
    let ls := w.actors sp e
    let nd := if e.rnd = .sr then nd else 0
    if !hasVector f e ∧ w.active sp = 0 then s.done i w
    else if s.drawsBlocked w.id.uid (if nd = 0 then [] else ls) then s
    else
      let (s, draws) := s.takeDraws w i nd ls
      let rs : LaneResults := ls.map fun l => (l, op w l (draws.getD l []))
      s.done i ((w.putAll e (f.d.w.bits e) rs).addStatus (statusOf rs))

/-- A long-latency lane instruction: the same results, landing later (03 R45, R46). -/
def State.aluLong (s : State) (f : Form) (e : Ext) (op : Wave → Nat → List Nat → Num.Res) : State :=
  s.checked { usesOf f e with long := some (e.fb, e.d.isV) } fun i w sp =>
    let ls := w.actors sp e
    let nd := if e.rnd = .sr then 1 else 0
    if s.drawsBlocked w.id.uid (if nd = 0 then [] else ls) then s
    else if e.d.isS ∧ ls = [] then s.done i w
    else
      let (s, draws) := s.takeDraws w i nd ls
      let rs : LaneResults := ls.map fun l => (l, op w l (draws.getD l []))
      let n := f.d.w.bits e
      let k := max 1 (n / 32)
      let words (x : Nat) : List Word := (List.range k).map fun j => BitVec.ofNat 32 (x / 2 ^ (32 * j))
      let vw := match e.d with
        | .v r => rs.flatMap fun p => (words p.2.bits).zipIdx.map fun q => (r.toNat + q.2, p.1, q.1)
        | _ => []
      let sw := match e.d with
        | .s r => rs.flatMap fun p => (words p.2.bits).zipIdx.map fun q => (r.toNat + q.2, q.1)
        | _ => []
      let (s, w, _) := s.attach w sp e.fb (vregsOf e.d k) (sregsOf e.d k)
        { id := 0, uid := 0, flag := none, ready := true, vw, sw, fl := statusOf rs }
      s.done i w

/-- The draw of a lane that takes one. -/
def drawOf (us : List Nat) (k : Nat := 0) : Nat := us.getD k 0

/-- The rounding of an instruction's fields (03 R39, 04 R63–R65). -/
def rmodeOf (e : Ext) (us : List Nat) (k : Nat := 0) : Num.RMode :=
  { rnd := e.rnd, u := drawOf us k, sat := e.sat, ftz := e.ftz }

/-! ## The base forms as extended ones (03 R34, R35: same effect) -/

/-- A three-register base form as the extended form of the same mnemonic. -/
def extOfBase (b : Base3) (vec : Bool) (t : DType) : Ext :=
  let r (n : BitVec 7) : Opnd := if vec then .v (n.setWidth 8) else .s n
  match b.b with
  | .reg n => { d := r b.d, a := r b.a, b := r n, ty := t }
  | .lit x => { d := r b.d, a := r b.a, b := .lit, ty := t, lit := x.setWidth 64 }

/-- The 32-bit value of a scalar-immediate operand (08 R162): IMM12 sign-extended, or the literal. -/
def immSigned : ImmSrc → Word
  | .imm n => n.signExtend 32
  | .lit w => w

/-- The count of ISHLI (08 R162): IMM12 as a natural number, or the literal. -/
def immCount : ImmSrc → Nat
  | .imm n => n.toNat
  | .lit w => w.toNat

/-- A scalar-immediate instruction (03 R34, 07 R144). -/
def State.immOp (s : State) (b : BaseImm) (op : Word → Word) : State :=
  s.once { sr := [b.d.toNat, b.a.toNat] } fun i w _ => s.done i (w.setS b.d.toNat (op (w.getS b.a.toNat)))

end Sys2Proof.Machine
end

