-- ==== Sys2Proof/Machine/IntegerOps.lean ====
section
/-! DEFINITION. Integer and bit instructions: majors 0x01, 0x02, 0x04, 0x05, 0x07–0x0C and 0x10 (03 R34, 08 R157–R162). -/

namespace Sys2Proof.Machine

open Sys2Proof

/-! ## Results (08 R157–R161) -/

/-- The active lanes of the issuing split. -/
def State.activeNow (s : State) : Mask :=
  match s.cur with
  | some i =>
    match s.wave i.key with
    | some w => w.active (SMap.read {} w.splits i.split)
    | none => 0
  | none => 0

/-- What a lane instruction computes: from the wave, the lane and its draws. -/
abbrev LaneOp := Wave → Nat → List Nat → Num.Res

/-- The operands as the bits of TYPE's width. -/
def rawA (e : Ext) (w : Wave) (l : Nat) : Nat := w.src e.lit e.a e.ty.bits l
def rawB (e : Ext) (w : Wave) (l : Nat) : Nat := w.src e.lit e.b e.ty.bits l
def rawC (e : Ext) (w : Wave) (l : Nat) : Nat := w.src e.lit e.c e.ty.bits l

/-- Fit of an exact integer function of a and b. -/
def intOp2 (e : Ext) (g : Int → Int → Int) : LaneOp := fun w l _ =>
  Num.fitInt e.ty e.sat (g (Num.ival e.ty (rawA e w l)) (Num.ival e.ty (rawB e w l)))

/-- Fit of an exact integer function of a. -/
def intOp1 (e : Ext) (g : Int → Int) : LaneOp := fun w l _ =>
  Num.fitInt e.ty e.sat (g (Num.ival e.ty (rawA e w l)))

/-- A function of the operands' bits, reduced modulo 2^n. -/
def bitOp2 (e : Ext) (g : Nat → Nat → Nat) : LaneOp := fun w l _ =>
  { bits := g (rawA e w l) (rawB e w l) % 2 ^ e.ty.bits }
def bitOp1 (e : Ext) (g : Nat → Nat) : LaneOp := fun w l _ => { bits := g (rawA e w l) % 2 ^ e.ty.bits }

/-- A count in a 32-bit register. -/
def countOp (e : Ext) (g : Nat → Nat) : LaneOp := fun w l _ => { bits := g (rawA e w l) }

def opAdd (e : Ext) : LaneOp := intOp2 e (· + ·)
def opSub (e : Ext) : LaneOp := intOp2 e (· - ·)
def opMul (e : Ext) : LaneOp := intOp2 e (· * ·)
/-- floor(a × b / 2^n). -/
def opMulh (e : Ext) : LaneOp := intOp2 e fun a b => a * b / (2 ^ e.ty.bits : Nat)
def opMad (e : Ext) : LaneOp := fun w l _ =>
  Num.fitInt e.ty e.sat (Num.ival e.ty (rawA e w l) * Num.ival e.ty (rawB e w l) + Num.ival e.ty (rawC e w l))
def opMin (e : Ext) : LaneOp := intOp2 e min
def opMax (e : Ext) : LaneOp := intOp2 e max
def opAbs (e : Ext) : LaneOp := intOp1 e fun a => (a.natAbs : Int)
def opNeg (e : Ext) : LaneOp := intOp1 e fun a => -a
def opAnd (e : Ext) : LaneOp := bitOp2 e (· &&& ·)
def opOr (e : Ext) : LaneOp := bitOp2 e (· ||| ·)
def opXor (e : Ext) : LaneOp := bitOp2 e (· ^^^ ·)
def opNot (e : Ext) : LaneOp := bitOp1 e fun a => 2 ^ e.ty.bits - 1 - a

/-- A shift count: B as a 32-bit natural number, whatever the type (08 R158). -/
def shiftCount (e : Ext) (w : Wave) (l : Nat) : Nat := w.src e.lit e.b 32 l
def opShl (e : Ext) : LaneOp := fun w l _ =>
  let c := shiftCount e w l
  { bits := if e.ty.bits ≤ c then 0 else rawA e w l * 2 ^ c % 2 ^ e.ty.bits }
/-- floor(a / 2^s) of the signed value; a count of n or more leaves 0 or −1. -/
def opShr (e : Ext) : LaneOp := fun w l _ =>
  Num.fitInt e.ty false (Num.ival e.ty (rawA e w l) / (2 ^ min (shiftCount e w l) e.ty.bits : Nat))
def opLshr (e : Ext) : LaneOp := fun w l _ =>
  let c := shiftCount e w l
  { bits := if e.ty.bits ≤ c then 0 else rawA e w l / 2 ^ c }

/-- The number of 1 bits among the low n bits. -/
def onesIn (n a : Nat) : Nat := ((List.range n).filter fun i => a.testBit i).length
/-- Bit i of the result is bit n − 1 − i of a. -/
def reverseBits (n a : Nat) : Nat :=
  (List.range n).foldl (fun acc i => if a.testBit i then acc + 2 ^ (n - 1 - i) else acc) 0

/-- o′ and w′ of a field descriptor (08 R160). -/
def fieldDesc (n d : Nat) : Nat × Nat :=
  let o := min (d % 256) n
  (o, min (d / 256 % 256) (n - o))

def opBfx (e : Ext) : LaneOp := fun w l _ =>
  let (o, wd) := fieldDesc e.ty.bits (w.src e.lit e.b 32 l)
  let x := rawA e w l / 2 ^ o % 2 ^ wd
  { bits := if wd = 0 then 0 else if e.ty.isSigned then Num.wrapInt e.ty.bits (Num.sval wd x) else x }

def opBfi (e : Ext) : LaneOp := fun w l _ =>
  let (o, wd) := fieldDesc e.ty.bits (w.src e.lit e.c 32 l)
  let a := rawA e w l
  let low := a % 2 ^ o
  let high := a / 2 ^ (o + wd)
  { bits := low + (rawB e w l % 2 ^ wd) * 2 ^ o + high * 2 ^ (o + wd) }

/-- The integer conditions of 08 R161. -/
def intCond (c : Nat) (a b : Int) : Bool :=
  match c with
  | 0 => a == b
  | 1 => a != b
  | 2 => decide (a < b)
  | 3 => decide (a ≤ b)
  | 4 => decide (b < a)
  | _ => decide (b ≤ a)

def opIcmp (e : Ext) : LaneOp := fun w l _ =>
  { bits := (intCond (e.x.toNat % 8) (Num.ival e.ty (rawA e w l)) (Num.ival e.ty (rawB e w l))).toNat }

/-- SEL: lane l's bit of kC, or for a scalar D whether kC has a 1 in any active lane's bit. -/
def opSel (e : Ext) (active : Mask) : LaneOp := fun w l _ =>
  let k := match e.c with
    | .k n => w.getK n.toNat
    | _ => 0
  let sel := if e.d.isS then k &&& active != 0 else k.getLsbD l
  { bits := if sel then rawA e w l else rawB e w l }

/-- IADDC (08 R159): the carry of lane l is bit l of kC, of a scalar D bit 0; only the carry bits of acting lanes
change. -/
def State.addCarry (s : State) (f : Form) (e : Ext) : State :=
  s.checked (usesOf f e) fun i w sp =>
    let n := e.ty.bits
    let kc := match e.c with
      | .k r => r.toNat
      | _ => 0
    let bitOf (l : Nat) : Nat := if e.d.isS then 0 else l
    let ls := w.actors sp e
    let sum (l : Nat) : Nat := rawA e w l + rawB e w l + ((w.getK kc).getLsbD (bitOf l)).toNat
    let carries : Mask := ls.foldl (fun m l => if 2 ^ n ≤ sum l then m ||| laneBit (bitOf l) else m) 0
    let touched : Mask := ls.foldl (fun m l => m ||| laneBit (bitOf l)) 0
    let rs : LaneResults := ls.map fun l => (l, { bits := sum l % 2 ^ n })
    let w' := w.putAll e n rs
    s.done i (w'.setK kc ((w'.getK kc &&& ~~~touched) ||| carries))

/-! ## Base forms (03 R34, 08 R158) -/
def execIaddBaseV (b : Base3) (s : State) : Host.Outcome State Fault Refusal :=
  .next (s.alu (Form.int3 true) (extOfBase b true .i32) 0 (opAdd (extOfBase b true .i32)))
def execIsubBaseV (b : Base3) (s : State) : Host.Outcome State Fault Refusal :=
  .next (s.alu (Form.int3 true) (extOfBase b true .i32) 0 (opSub (extOfBase b true .i32)))
def execImulBaseV (b : Base3) (s : State) : Host.Outcome State Fault Refusal :=
  .next (s.alu (Form.int3 true) (extOfBase b true .i32) 0 (opMul (extOfBase b true .i32)))
def execAndBaseV (b : Base3) (s : State) : Host.Outcome State Fault Refusal :=
  .next (s.alu (Form.logic3) (extOfBase b true .b32) 0 (opAnd (extOfBase b true .b32)))
def execOrBaseV (b : Base3) (s : State) : Host.Outcome State Fault Refusal :=
  .next (s.alu (Form.logic3) (extOfBase b true .b32) 0 (opOr (extOfBase b true .b32)))
def execXorBaseV (b : Base3) (s : State) : Host.Outcome State Fault Refusal :=
  .next (s.alu (Form.logic3) (extOfBase b true .b32) 0 (opXor (extOfBase b true .b32)))
def execIshlBaseV (b : Base3) (s : State) : Host.Outcome State Fault Refusal :=
  .next (s.alu (Form.shift DType.isInt) (extOfBase b true .n32) 0 (opShl (extOfBase b true .n32)))
def execLshrBaseV (b : Base3) (s : State) : Host.Outcome State Fault Refusal :=
  .next (s.alu (Form.shift DType.isInt) (extOfBase b true .n32) 0 (opLshr (extOfBase b true .n32)))
def execIminI32BaseV (b : Base3) (s : State) : Host.Outcome State Fault Refusal :=
  .next (s.alu (Form.int3 false) (extOfBase b true .i32) 0 (opMin (extOfBase b true .i32)))
def execImaxI32BaseV (b : Base3) (s : State) : Host.Outcome State Fault Refusal :=
  .next (s.alu (Form.int3 false) (extOfBase b true .i32) 0 (opMax (extOfBase b true .i32)))
def execIminN32BaseV (b : Base3) (s : State) : Host.Outcome State Fault Refusal :=
  .next (s.alu (Form.int3 false) (extOfBase b true .n32) 0 (opMin (extOfBase b true .n32)))
def execImaxN32BaseV (b : Base3) (s : State) : Host.Outcome State Fault Refusal :=
  .next (s.alu (Form.int3 false) (extOfBase b true .n32) 0 (opMax (extOfBase b true .n32)))
def execImulhI32BaseV (b : Base3) (s : State) : Host.Outcome State Fault Refusal :=
  .next (s.alu (Form.imulh) (extOfBase b true .i32) 0 (opMulh (extOfBase b true .i32)))
def execImulhN32BaseV (b : Base3) (s : State) : Host.Outcome State Fault Refusal :=
  .next (s.alu (Form.imulh) (extOfBase b true .n32) 0 (opMulh (extOfBase b true .n32)))
def execIshrI32BaseV (b : Base3) (s : State) : Host.Outcome State Fault Refusal :=
  .next (s.alu (Form.shift DType.isSigned) (extOfBase b true .i32) 0 (opShr (extOfBase b true .i32)))
def execIaddBaseS (b : Base3) (s : State) : Host.Outcome State Fault Refusal :=
  .next (s.alu (Form.int3 true) (extOfBase b false .i32) 0 (opAdd (extOfBase b false .i32)))
def execIsubBaseS (b : Base3) (s : State) : Host.Outcome State Fault Refusal :=
  .next (s.alu (Form.int3 true) (extOfBase b false .i32) 0 (opSub (extOfBase b false .i32)))
def execImulBaseS (b : Base3) (s : State) : Host.Outcome State Fault Refusal :=
  .next (s.alu (Form.int3 true) (extOfBase b false .i32) 0 (opMul (extOfBase b false .i32)))
def execAndBaseS (b : Base3) (s : State) : Host.Outcome State Fault Refusal :=
  .next (s.alu (Form.logic3) (extOfBase b false .b32) 0 (opAnd (extOfBase b false .b32)))
def execOrBaseS (b : Base3) (s : State) : Host.Outcome State Fault Refusal :=
  .next (s.alu (Form.logic3) (extOfBase b false .b32) 0 (opOr (extOfBase b false .b32)))
def execXorBaseS (b : Base3) (s : State) : Host.Outcome State Fault Refusal :=
  .next (s.alu (Form.logic3) (extOfBase b false .b32) 0 (opXor (extOfBase b false .b32)))
def execIshlBaseS (b : Base3) (s : State) : Host.Outcome State Fault Refusal :=
  .next (s.alu (Form.shift DType.isInt) (extOfBase b false .n32) 0 (opShl (extOfBase b false .n32)))
def execLshrBaseS (b : Base3) (s : State) : Host.Outcome State Fault Refusal :=
  .next (s.alu (Form.shift DType.isInt) (extOfBase b false .n32) 0 (opLshr (extOfBase b false .n32)))
def execIminI32BaseS (b : Base3) (s : State) : Host.Outcome State Fault Refusal :=
  .next (s.alu (Form.int3 false) (extOfBase b false .i32) 0 (opMin (extOfBase b false .i32)))
def execImaxI32BaseS (b : Base3) (s : State) : Host.Outcome State Fault Refusal :=
  .next (s.alu (Form.int3 false) (extOfBase b false .i32) 0 (opMax (extOfBase b false .i32)))
def execIminN32BaseS (b : Base3) (s : State) : Host.Outcome State Fault Refusal :=
  .next (s.alu (Form.int3 false) (extOfBase b false .n32) 0 (opMin (extOfBase b false .n32)))
def execImaxN32BaseS (b : Base3) (s : State) : Host.Outcome State Fault Refusal :=
  .next (s.alu (Form.int3 false) (extOfBase b false .n32) 0 (opMax (extOfBase b false .n32)))
def execImulhI32BaseS (b : Base3) (s : State) : Host.Outcome State Fault Refusal :=
  .next (s.alu (Form.imulh) (extOfBase b false .i32) 0 (opMulh (extOfBase b false .i32)))
def execImulhN32BaseS (b : Base3) (s : State) : Host.Outcome State Fault Refusal :=
  .next (s.alu (Form.imulh) (extOfBase b false .n32) 0 (opMulh (extOfBase b false .n32)))
def execIshrI32BaseS (b : Base3) (s : State) : Host.Outcome State Fault Refusal :=
  .next (s.alu (Form.shift DType.isSigned) (extOfBase b false .i32) 0 (opShr (extOfBase b false .i32)))

/-! ## Scalar immediates (08 R162) and SHI (03 R34) -/

def execIaddi (b : BaseImm) (s : State) : Host.Outcome State Fault Refusal :=
  .next (s.immOp b (· + immSigned b.i))
def execAndi (b : BaseImm) (s : State) : Host.Outcome State Fault Refusal :=
  .next (s.immOp b (· &&& immSigned b.i))
def execOri (b : BaseImm) (s : State) : Host.Outcome State Fault Refusal :=
  .next (s.immOp b (· ||| immSigned b.i))
def execXori (b : BaseImm) (s : State) : Host.Outcome State Fault Refusal :=
  .next (s.immOp b (· ^^^ immSigned b.i))
def execIshli (b : BaseImm) (s : State) : Host.Outcome State Fault Refusal :=
  .next (s.immOp b (fun x => if 32 ≤ immCount b.i then 0 else x <<< immCount b.i))
/-- sD := imm[19:0] : 0x000. -/
def execShi (b : BaseShi) (s : State) : Host.Outcome State Fault Refusal :=
  .next (s.once { sr := [b.d.toNat] } fun i w _ => s.done i (w.setS b.d.toNat (b.imm ++ (0 : BitVec 12))))

/-! ## Major 0x10 -/

def execIaddc (e : Ext) (s : State) : Host.Outcome State Fault Refusal := .next (s.addCarry Form.iaddc e)
def execIadd (e : Ext) (s : State) : Host.Outcome State Fault Refusal :=
  .next (s.alu (Form.int3 true) e 0 (opAdd e))
def execIsub (e : Ext) (s : State) : Host.Outcome State Fault Refusal :=
  .next (s.alu (Form.int3 true) e 0 (opSub e))
def execImul (e : Ext) (s : State) : Host.Outcome State Fault Refusal :=
  .next (s.alu (Form.int3 true) e 0 (opMul e))
def execImulh (e : Ext) (s : State) : Host.Outcome State Fault Refusal :=
  .next (s.alu (Form.imulh) e 0 (opMulh e))
def execImad (e : Ext) (s : State) : Host.Outcome State Fault Refusal :=
  .next (s.alu (Form.imad) e 0 (opMad e))
def execImin (e : Ext) (s : State) : Host.Outcome State Fault Refusal :=
  .next (s.alu (Form.int3 false) e 0 (opMin e))
def execImax (e : Ext) (s : State) : Host.Outcome State Fault Refusal :=
  .next (s.alu (Form.int3 false) e 0 (opMax e))
def execIabs (e : Ext) (s : State) : Host.Outcome State Fault Refusal :=
  .next (s.alu (Form.iabs) e 0 (opAbs e))
def execIneg (e : Ext) (s : State) : Host.Outcome State Fault Refusal :=
  .next (s.alu (Form.ineg) e 0 (opNeg e))
def execIshl (e : Ext) (s : State) : Host.Outcome State Fault Refusal :=
  .next (s.alu (Form.shift DType.isInt) e 0 (opShl e))
def execIshr (e : Ext) (s : State) : Host.Outcome State Fault Refusal :=
  .next (s.alu (Form.shift DType.isSigned) e 0 (opShr e))
def execLshr (e : Ext) (s : State) : Host.Outcome State Fault Refusal :=
  .next (s.alu (Form.shift DType.isInt) e 0 (opLshr e))
def execAndX (e : Ext) (s : State) : Host.Outcome State Fault Refusal :=
  .next (s.alu (Form.logic3) e 0 (opAnd e))
def execOrX (e : Ext) (s : State) : Host.Outcome State Fault Refusal :=
  .next (s.alu (Form.logic3) e 0 (opOr e))
def execXorX (e : Ext) (s : State) : Host.Outcome State Fault Refusal :=
  .next (s.alu (Form.logic3) e 0 (opXor e))
def execNotX (e : Ext) (s : State) : Host.Outcome State Fault Refusal :=
  .next (s.alu (Form.not1) e 0 (opNot e))
def execPopc (e : Ext) (s : State) : Host.Outcome State Fault Refusal :=
  .next (s.alu (Form.count1) e 0 (countOp e (onesIn e.ty.bits)))
def execClz (e : Ext) (s : State) : Host.Outcome State Fault Refusal :=
  .next (s.alu (Form.count1) e 0 (countOp e fun a => e.ty.bits - Num.bitLen a))
def execBrev (e : Ext) (s : State) : Host.Outcome State Fault Refusal :=
  .next (s.alu (Form.brev) e 0 (bitOp1 e (reverseBits e.ty.bits)))
def execBfx (e : Ext) (s : State) : Host.Outcome State Fault Refusal :=
  .next (s.alu (Form.bfx) e 0 (opBfx e))
def execBfi (e : Ext) (s : State) : Host.Outcome State Fault Refusal :=
  .next (s.alu (Form.bfi) e 0 (opBfi e))
def execIcmp (e : Ext) (s : State) : Host.Outcome State Fault Refusal :=
  .next (s.alu (Form.icmp) e 0 (opIcmp e))
def execSelX (e : Ext) (s : State) : Host.Outcome State Fault Refusal :=
  .next (s.alu (Form.sel) e 0 (opSel e s.activeNow))

end Sys2Proof.Machine
end

