-- ==== Sys2Proof/Machine/FloatOps.lean ====
section
/-! DEFINITION. Floating point, FP64, conversion and packing: majors 0x03, 0x06, 0x11–0x14 (08 R163–R173). -/

namespace Sys2Proof.Machine

open Sys2Proof

/-- The format of TYPE, FP32 for a type that is none (no form of this file has one). -/
def fmtNow (e : Ext) : Num.Fmt := (Num.fmtOf e.ty).getD Num.fp32

def fop2 (e : Ext) (g : Num.Fmt → Num.RMode → Nat → Nat → Num.Res) : LaneOp := fun w l us =>
  g (fmtNow e) (rmodeOf e us) (rawA e w l) (rawB e w l)
def fop1 (e : Ext) (g : Num.Fmt → Num.RMode → Nat → Num.Res) : LaneOp := fun w l us =>
  g (fmtNow e) (rmodeOf e us) (rawA e w l)
def opFadd (e : Ext) : LaneOp := fop2 e Num.Fmt.add
def opFsub (e : Ext) : LaneOp := fop2 e Num.Fmt.sub
def opFmul (e : Ext) : LaneOp := fop2 e Num.Fmt.mul
def opFma (e : Ext) : LaneOp := fun w l us =>
  (fmtNow e).fma (rmodeOf e us) (rawA e w l) (rawB e w l) (rawC e w l)
def opFmin (e : Ext) : LaneOp := fun w l _ => (fmtNow e).minMax e.ftz false (rawA e w l) (rawB e w l)
def opFmax (e : Ext) : LaneOp := fun w l _ => (fmtNow e).minMax e.ftz true (rawA e w l) (rawB e w l)
/-- a with its sign bit cleared. -/
def opFabs (e : Ext) : LaneOp := bitOp1 e fun a => a % 2 ^ (e.ty.bits - 1)
/-- a with its sign bit inverted. -/
def opFneg (e : Ext) : LaneOp := bitOp1 e fun a => a ^^^ 2 ^ (e.ty.bits - 1)
def opFcmp (e : Ext) : LaneOp := fun w l _ =>
  let (r, fl) := (fmtNow e).compare e.ftz (e.x.toNat % 8) (rawA e w l) (rawB e w l)
  { bits := r.toNat, fl }
def opFclass (e : Ext) : LaneOp := fun w l _ => { bits := (fmtNow e).classify (rawA e w l) }
def opFdiv (e : Ext) : LaneOp := fop2 e Num.Fmt.div
def opFsqrt (e : Ext) : LaneOp := fop1 e Num.Fmt.sqrt
def opFun (e : Ext) (g : Bool → Nat → Num.Res) : LaneOp := fun w l _ => g e.ftz (rawA e w l)

/-- The source type of CVT (08 R171). -/
def cvtFrom (e : Ext) : DType := (DType.ofCode (e.x.toNat % 32)).getD .none
def opCvt (e : Ext) : LaneOp := fun w l us =>
  Num.convert e.ty (cvtFrom e) (rmodeOf e us) (w.src e.lit e.a (cvtFrom e).bits l)
def opFrnd (e : Ext) : LaneOp := fop1 e Num.roundIntegral

/-- The wide side of PACK and UNPACK (08 R173). -/
def wideOf (t : DType) : DType := if t.isSigned then .i32 else if t.isNatural then .n32 else .f32

/-- The two conversions of PACK, a before b. -/
def packOne (e : Ext) (us : List Nat) (k x : Nat) : Num.Res := Num.convert e.ty (wideOf e.ty) (rmodeOf e us k) x
def opPack (e : Ext) : LaneOp := fun w l us =>
  let a := packOne e us 0 (w.src e.lit e.a 32 l)
  let b := packOne e us 1 (w.src e.lit e.b 32 l)
  let n := e.ty.bits
  let pair := a.bits + 2 ^ n * b.bits
  let old := w.src e.lit e.d 32 l
  let bits :=
    if n = 16 then pair
    else if e.x.toNat % 2 = 0 then old / 2 ^ 16 * 2 ^ 16 + pair
    else old % 2 ^ 16 + 2 ^ 16 * pair
  { bits, fl := a.fl ||| b.fl }
def opUnpack (e : Ext) : LaneOp := fun w l us =>
  let n := e.ty.bits
  let x := w.src e.lit e.a 32 l / 2 ^ (n * (e.x.toNat % 4)) % 2 ^ n
  Num.convert (wideOf e.ty) e.ty (rmodeOf e us) x

def execFaddBaseV (b : Base3) (s : State) : Host.Outcome State Fault Refusal :=
  .next (s.alu Form.float3 (extOfBase b true .f32) 0 (opFadd (extOfBase b true .f32)))
def execFsubBaseV (b : Base3) (s : State) : Host.Outcome State Fault Refusal :=
  .next (s.alu Form.float3 (extOfBase b true .f32) 0 (opFsub (extOfBase b true .f32)))
def execFmulBaseV (b : Base3) (s : State) : Host.Outcome State Fault Refusal :=
  .next (s.alu Form.float3 (extOfBase b true .f32) 0 (opFmul (extOfBase b true .f32)))
def execFminBaseV (b : Base3) (s : State) : Host.Outcome State Fault Refusal :=
  .next (s.alu Form.fminmax (extOfBase b true .f32) 0 (opFmin (extOfBase b true .f32)))
def execFmaxBaseV (b : Base3) (s : State) : Host.Outcome State Fault Refusal :=
  .next (s.alu Form.fminmax (extOfBase b true .f32) 0 (opFmax (extOfBase b true .f32)))
def execFaddBaseS (b : Base3) (s : State) : Host.Outcome State Fault Refusal :=
  .next (s.alu Form.float3 (extOfBase b false .f32) 0 (opFadd (extOfBase b false .f32)))
def execFsubBaseS (b : Base3) (s : State) : Host.Outcome State Fault Refusal :=
  .next (s.alu Form.float3 (extOfBase b false .f32) 0 (opFsub (extOfBase b false .f32)))
def execFmulBaseS (b : Base3) (s : State) : Host.Outcome State Fault Refusal :=
  .next (s.alu Form.float3 (extOfBase b false .f32) 0 (opFmul (extOfBase b false .f32)))
def execFminBaseS (b : Base3) (s : State) : Host.Outcome State Fault Refusal :=
  .next (s.alu Form.fminmax (extOfBase b false .f32) 0 (opFmin (extOfBase b false .f32)))
def execFmaxBaseS (b : Base3) (s : State) : Host.Outcome State Fault Refusal :=
  .next (s.alu Form.fminmax (extOfBase b false .f32) 0 (opFmax (extOfBase b false .f32)))

/-! ## Majors 0x11 to 0x14 -/

def execFadd (e : Ext) (s : State) : Host.Outcome State Fault Refusal :=
  .next (s.alu Form.float3 e 1 (opFadd e))
def execFsub (e : Ext) (s : State) : Host.Outcome State Fault Refusal :=
  .next (s.alu Form.float3 e 1 (opFsub e))
def execFmul (e : Ext) (s : State) : Host.Outcome State Fault Refusal :=
  .next (s.alu Form.float3 e 1 (opFmul e))
def execFma (e : Ext) (s : State) : Host.Outcome State Fault Refusal :=
  .next (s.alu Form.fma e 1 (opFma e))
def execFmin (e : Ext) (s : State) : Host.Outcome State Fault Refusal :=
  .next (s.alu Form.fminmax e 0 (opFmin e))
def execFmax (e : Ext) (s : State) : Host.Outcome State Fault Refusal :=
  .next (s.alu Form.fminmax e 0 (opFmax e))
def execFabs (e : Ext) (s : State) : Host.Outcome State Fault Refusal :=
  .next (s.alu Form.fsign e 0 (opFabs e))
def execFneg (e : Ext) (s : State) : Host.Outcome State Fault Refusal :=
  .next (s.alu Form.fsign e 0 (opFneg e))
def execFcmp (e : Ext) (s : State) : Host.Outcome State Fault Refusal :=
  .next (s.alu Form.fcmp e 0 (opFcmp e))
def execFclass (e : Ext) (s : State) : Host.Outcome State Fault Refusal :=
  .next (s.alu Form.fclass e 0 (opFclass e))
def execFdiv (e : Ext) (s : State) : Host.Outcome State Fault Refusal :=
  .next (s.aluLong Form.fdiv e (opFdiv e))
def execFsqrt (e : Ext) (s : State) : Host.Outcome State Fault Refusal :=
  .next (s.aluLong Form.fsqrt e (opFsqrt e))
def execFrcp (e : Ext) (s : State) : Host.Outcome State Fault Refusal :=
  .next (s.alu Form.ffun e 0 (opFun e Num.frcp))
def execFrsq (e : Ext) (s : State) : Host.Outcome State Fault Refusal :=
  .next (s.alu Form.ffun e 0 (opFun e Num.frsq))
def execFex2 (e : Ext) (s : State) : Host.Outcome State Fault Refusal :=
  .next (s.alu Form.ffun e 0 (opFun e Num.fex2))
def execFlg2 (e : Ext) (s : State) : Host.Outcome State Fault Refusal :=
  .next (s.alu Form.ffun e 0 (opFun e Num.flg2))
def execDadd (e : Ext) (s : State) : Host.Outcome State Fault Refusal :=
  .next (s.alu Form.dbl2 e 1 (opFadd e))
def execDmul (e : Ext) (s : State) : Host.Outcome State Fault Refusal :=
  .next (s.alu Form.dbl2 e 1 (opFmul e))
def execDfma (e : Ext) (s : State) : Host.Outcome State Fault Refusal :=
  .next (s.alu Form.dbl3 e 1 (opFma e))
def execCvt (e : Ext) (s : State) : Host.Outcome State Fault Refusal :=
  .next (s.alu Form.cvt e 1 (opCvt e))
def execFrnd (e : Ext) (s : State) : Host.Outcome State Fault Refusal :=
  .next (s.alu Form.frnd e 1 (opFrnd e))
def execPack (e : Ext) (s : State) : Host.Outcome State Fault Refusal :=
  .next (s.alu Form.pack e 2 (opPack e))
def execUnpack (e : Ext) (s : State) : Host.Outcome State Fault Refusal :=
  .next (s.alu Form.unpack e 1 (opUnpack e))

end Sys2Proof.Machine
end

