-- ==== Sys2Proof/Machine/Masks.lean ====
section
/-! DEFINITION. The mask instructions of major 0x15 (08 R174). -/

namespace Sys2Proof.Machine

open Sys2Proof

/-- The value of a mask operand, or the 64 bits of a scalar pair or the literal (KMOV). -/
def Wave.mask64 (w : Wave) (e : Ext) (o : Opnd) : Mask := BitVec.ofNat 64 (w.src e.lit o 64 0)

/-- Write a mask register, or a scalar pair (KMOV). -/
def Wave.putMask (w : Wave) (o : Opnd) (x : Mask) : Wave :=
  match o with
  | .k n => w.setK n.toNat x
  | .s n => w.setS64 n.toNat x
  | _ => w

/-- A mask instruction: executed once, for a split with an active lane (07 R144). -/
def State.maskOp (s : State) (f : Form) (e : Ext) (g : Wave → Split → Mask) : State :=
  s.once (usesOf f e) fun i w sp => s.done i (w.putMask e.d (g w sp))

/-- A mask instruction that writes a 32-bit scalar register. -/
def State.maskCount (s : State) (e : Ext) (g : Wave → Split → Nat) : State :=
  s.once (usesOf Form.maskToS e) fun i w sp => s.done i (w.put e.d 32 0 (g w sp))

def execKand (e : Ext) (s : State) : Host.Outcome State Fault Refusal :=
  .next (s.maskOp Form.mask2 e fun w _ => w.mask64 e e.a &&& w.mask64 e e.b)
def execKor (e : Ext) (s : State) : Host.Outcome State Fault Refusal :=
  .next (s.maskOp Form.mask2 e fun w _ => w.mask64 e e.a ||| w.mask64 e e.b)
def execKxor (e : Ext) (s : State) : Host.Outcome State Fault Refusal :=
  .next (s.maskOp Form.mask2 e fun w _ => w.mask64 e e.a ^^^ w.mask64 e e.b)
/-- In a ganged half the bits beyond the half are discarded (08 R156). -/
def execKnot (e : Ext) (s : State) : Host.Outcome State Fault Refusal :=
  .next (s.maskOp Form.mask1 e fun w _ => ~~~(w.mask64 e e.a))
def execKmov (e : Ext) (s : State) : Host.Outcome State Fault Refusal :=
  .next (s.maskOp Form.kmov e fun w _ => w.mask64 e e.a)
def execKpopc (e : Ext) (s : State) : Host.Outcome State Fault Refusal :=
  .next (s.maskCount e fun w _ => popCount (w.mask64 e e.a))

/-- Does the grid of a wave run with COMPAT (24 R410)? -/
def State.compat (s : State) (w : Wave) : Bool := (s.grid w.id.grid).kd.compat

/-- The index of the lowest 1 bit, or 64; under COMPAT 63 for a zero mask (erratum 0x6021 of 24 R410). -/
def execKfirst (e : Ext) (s : State) : Host.Outcome State Fault Refusal :=
  .next (s.maskCount e fun w _ =>
    (lanesOf (w.mask64 e e.a)).headD (if s.compat w then 63 else 64))
def execKany (e : Ext) (s : State) : Host.Outcome State Fault Refusal :=
  .next (s.maskCount e fun w sp => (w.mask64 e e.a &&& w.active sp != 0).toNat)
def execKall (e : Ext) (s : State) : Host.Outcome State Fault Refusal :=
  .next (s.maskCount e fun w sp => (w.mask64 e e.a &&& w.active sp == w.active sp).toNat)

end Sys2Proof.Machine
end

