-- ==== Sys2Proof/Machine/CrossLane.lean ====
section
/-! DEFINITION. Cross-lane instructions, register-relative moves and the cross-core exchange: majors 0x16, 0x17 and
0x34 (08 R175–R181, 07 R139). -/

namespace Sys2Proof.Machine

open Sys2Proof

/-! ## Shuffles and broadcasts (08 R175, R176) -/

/-- A shuffle: lane l receives vA of lane j, when j is a lane of the wave.
`outside` is what a lane with no source receives. -/
def opShuffle (e : Ext) (j : Nat → Nat → Option Nat) (outside : Wave → Nat → Nat) : LaneOp := fun w l _ =>
  let b := w.src e.lit e.b 32 l
  match j l b with
  | some k => { bits := if k < w.id.width then rawA e w k else outside w l }
  | none => { bits := outside w l }

/-- Under COMPAT a lane of SHFLUP or SHFLDN whose source lies outside receives 0 (erratum 0x7012 of 24 R410). -/
def State.outsideUpDown (s : State) (e : Ext) (w : Wave) (l : Nat) : Nat := if s.compat w then 0 else rawA e w l

def execShfl (e : Ext) (s : State) : Host.Outcome State Fault Refusal :=
  .next (s.alu Form.shfl e 0 (opShuffle e (fun _ b => some b) (rawA e)))
def execShflx (e : Ext) (s : State) : Host.Outcome State Fault Refusal :=
  .next (s.alu Form.shfl e 0 (opShuffle e (fun l b => some (l ^^^ b)) (rawA e)))
def execShflup (e : Ext) (s : State) : Host.Outcome State Fault Refusal :=
  .next (s.alu Form.shfl e 0 (opShuffle e (fun l b => if b ≤ l then some (l - b) else none) (s.outsideUpDown e)))
def execShfldn (e : Ext) (s : State) : Host.Outcome State Fault Refusal :=
  .next (s.alu Form.shfl e 0 (opShuffle e (fun l b => some (l + b)) (s.outsideUpDown e)))
def execBcast (e : Ext) (s : State) : Host.Outcome State Fault Refusal :=
  .next (s.alu Form.bcast e 0 (fun w l _ =>
    { bits := rawA e w (w.src e.lit e.b 32 l % w.id.width) }))

/-! ## Reduction and scan (08 R177, R178) -/

/-- Combine of 08 R177 by X[2:0]; the status bits of the two sides go along. -/
def combineOf (e : Ext) (x y : Num.Res) : Num.Res :=
  let f := fmtNow e
  let m : Num.RMode := { rnd := e.rnd, sat := false, ftz := e.ftz }
  let n := e.ty.bits
  let ints (g : Int → Int → Int) : Num.Res := Num.fitInt e.ty e.sat (g (Num.ival e.ty x.bits) (Num.ival e.ty y.bits))
  let r : Num.Res :=
    match e.x.toNat % 8 with
    | 0 => if e.ty.isInt then ints (· + ·) else f.add m x.bits y.bits
    | 1 => if e.ty.isInt then ints min else f.minMax e.ftz false x.bits y.bits
    | 2 => if e.ty.isInt then ints max else f.minMax e.ftz true x.bits y.bits
    | 3 => { bits := (x.bits &&& y.bits) % 2 ^ n }
    | 4 => { bits := (x.bits ||| y.bits) % 2 ^ n }
    | _ => { bits := (x.bits ^^^ y.bits) % 2 ^ n }
  { r with fl := r.fl ||| x.fl ||| y.fl }

/-- Combine of two nodes, either of which may be absent. -/
def joinNode (e : Ext) : Option Num.Res → Option Num.Res → Option Num.Res
  | x, none => x
  | none, y => y
  | some x, some y => some (combineOf e x y)

/-- node(m, i) over the lanes of a mask. -/
def treeNode (e : Ext) (w : Wave) (lanes : Mask) : Nat → Nat → Option Num.Res
  | 0, i => if lanes.getLsbD i then some { bits := rawA e w i } else none
  | m + 1, i => joinNode e (treeNode e w lanes m (2 * i)) (treeNode e w lanes m (2 * i + 1))

/-- log2 of the number of lanes. -/
def log2W (w : Wave) : Nat := if w.id.width = 64 then 6 else 5

/-- The blocks of 08 R178 for the first n lanes: (level, start), by decreasing powers of two from 2^p down. -/
def scanBlocks : Nat → Nat → Nat → List (Nat × Nat)
  | 0, n, start => if 1 ≤ n then [(0, start)] else []
  | p + 1, n, start =>
    if 2 ^ (p + 1) ≤ n then (p + 1, start) :: scanBlocks p (n - 2 ^ (p + 1)) (start + 2 ^ (p + 1))
    else scanBlocks p n start

/-- The combination over lanes 0 to l. -/
def scanAt (e : Ext) (w : Wave) (lanes : Mask) (l : Nat) : Option Num.Res :=
  (scanBlocks (log2W w) (l + 1) 0).foldl
    (fun acc b => joinNode e acc (treeNode e w lanes b.1 (b.2 / 2 ^ b.1))) none

/-- REDW: the tree over the active lanes, its result in the scalar D. -/
def execRedw (e : Ext) (s : State) : Host.Outcome State Fault Refusal :=
  .next (s.alu Form.redw e 0 (fun w _ _ => (treeNode e w s.activeNow (log2W w) 0).getD { bits := 0 }))
/-- SCANW: the tree over the acting lanes; a lane's status bits are those of the nodes its result uses. -/
def execScanw (e : Ext) (s : State) : Host.Outcome State Fault Refusal :=
  .next (s.alu Form.scanw e 0 (fun w l _ =>
    (scanAt e w (s.activeNow &&& w.getK e.k.toNat) l).getD { bits := 0 }))

/-! ## Register-relative moves (07 R139, 08 R179) -/

/-- e(l) of 07 R139, as a signed number. -/
def effReg (e : Ext) (base : Opnd) (w : Wave) (l : Nat) : Int :=
  let b : Nat := match base with
    | .v n => n.toNat
    | _ => 0
  (b : Int) + Num.sval 32 (w.src e.lit e.b 32 l)

/-- Is the effective register of a lane outside the allocation, or odd in a 64-bit access (07 R139)? -/
def Wave.badReg (w : Wave) (e : Ext) (base : Opnd) (l : Nat) : Bool :=
  let r := effReg e base w l
  let n := e.ty.bits / 32
  decide (r < 0) || decide ((w.a : Int) < r + n) || decide (n = 2 ∧ r % 2 ≠ 0)

/-- Is an effective register of a lane pending? -/
def Wave.pendReg (w : Wave) (e : Ext) (base : Opnd) (l : Nat) : Bool :=
  (regRange (effReg e base w l).toNat (e.ty.bits / 32)).any fun r => (SMap.find w.marks r).isSome

/-- MOVX and MOVXW: once a pending scalar index has landed, the acting lanes' effective registers are checked for
REG_BOUNDS, which reports the lowest failing lane (12 R247), and then for FLAG_HAZARD, before any effect. DESIGN CHOICE
(log entry 79): a vector index register that is itself pending is checked on the value it holds before its write lands. -/
def State.relMove (s : State) (f : Form) (e : Ext) (base : Opnd) (g : Wave → Nat → Nat → Wave) : State :=
  s.withCur fun i w sp =>
    let u := usesOf f e
    let ls := lanesOf (w.acting sp e.k)
    if w.outOfBounds u then s.trapAt i tRegBounds 0 0 0
    else if w.scoreboard u then s
    else
      match ls.find? (w.badReg e base) with
      | some l => s.trapAt i tRegBounds 0 l 0
      | none =>
        if w.hazard sp u || ls.any (w.pendReg e base) then s.trapAt i tFlagHazard 0 0 0
        else s.done i (ls.foldl (fun w' l => g w' l (effReg e base w l).toNat) w)

def execMovx (e : Ext) (s : State) : Host.Outcome State Fault Refusal :=
  .next (s.relMove Form.movx e e.a fun w l r => w.put e.d e.ty.bits l (w.getVs r (e.ty.bits / 32) l))
def execMovxw (e : Ext) (s : State) : Host.Outcome State Fault Refusal :=
  .next (s.relMove Form.movxw e e.d fun w l r => w.setVs r (e.ty.bits / 32) l (rawA e w l))

/-! ## Cross-core exchange (08 R180, R181) -/

/-- The core index that sB names within the bench. -/
def benchIndex (w : Wave) (e : Ext) : Nat := w.src e.lit e.b 32 0 % 8

/-- XSWAP: ILLEGAL_ENC in a ganged half, no effect with no active lane (log entry 62), XSWAP_TIMEOUT at once for the
issuing core's own index; otherwise vA of the acting lanes enters the exchange list, vD is marked pending and the split waits. -/
def execXswap (e : Ext) (s : State) : Host.Outcome State Fault Refusal :=
  .next (s.withCur fun i w _ =>
    if w.id.gang ≠ 0 then s.trapAt i tIllegalEnc 0 0 0
    else s.checked { usesOf Form.xswap e with long := some (e.fb, true) } fun i w sp =>
      let me := w.id.core % 8
      if w.active sp = 0 then s.done i w
      else if benchIndex w e = me then s.trapAt i tXswapTimeout 0 0 0
      else
        let n := e.ty.bits / 32
        let dreg := match e.d with
          | .v r => r.toNat
          | _ => 0
        let words (l : Nat) : List Word := (List.range n).map fun j => BitVec.ofNat 32 (rawA e w l / 2 ^ (32 * j))
        let vals := (lanesOf (w.acting sp e.k)).map fun l => (l, words l)
        let (s, w, id) := s.attach w sp e.fb (vregsOf e.d n) [] { id := 0, uid := 0, flag := none, ready := false, pc := i.pc }
        let x : XSwap :=
          { op := id, uid := w.id.uid, tenant := w.id.tenant, die := w.id.die, core := w.id.core, slot := w.id.slot,
            split := i.split, partner := w.id.core / 8 * 8 + benchIndex w e, tag := e.x.toNat, wide := n == 2, dreg,
            vals, clock := s.dieClock w.id.die, pc := i.pc, code := i.code, hand := w.shadow.isSome }
        let s := ({ s with xswaps := s.xswaps ++ [x] }).clearIdemp w.id
        s.done i (w.mapSplit i.split fun p => { p with wait := .xswap id }))

/-- May two waiting exchanges pair? -/
def XSwap.meets (x y : XSwap) : Bool :=
  x.uid != y.uid && x.die == y.die && x.partner == y.core && y.partner == x.core && x.tenant == y.tenant &&
  x.tag == y.tag && x.wide == y.wide

/-- The order in which candidates are taken: issue clock, core, slot. -/
def XSwap.rank (x : XSwap) : Nat := (x.clock * 256 + x.core) * 64 + x.slot

/-- The first of some exchanges by rank. -/
def firstRank : List XSwap → Option XSwap
  | [] => none
  | x :: rest =>
    match firstRank rest with
    | some y => if y.rank < x.rank then some y else some x
    | none => some x

/-- The partner of x with the least rank. -/
def bestPartner (xs : List XSwap) (x : XSwap) : Option XSwap := firstRank (xs.filter x.meets)

/-- The pair that forms next: the waiting exchange of least rank that has a candidate, with its first candidate. -/
def nextPair (xs : List XSwap) : Option (XSwap × XSwap) :=
  match firstRank (xs.filter fun x => xs.any x.meets) with
  | some x => (bestPartner xs x).map fun y => (x, y)
  | none => none

/-- One side of a pairing: vD takes the partner's value in every lane that acted on both sides, the operation is
complete and its flag count falls, and the split goes on. -/
def State.xswapLand (s : State) (x y : XSwap) : State :=
  let f := ((s.ops.find? fun o => o.id == x.op).map (·.flag)).getD none
  let s := s.mapUid x.uid fun w =>
    let w := x.vals.foldl (fun w p =>
      match y.vals.find? fun q => q.1 == p.1 with
      | some q => q.2.zipIdx.foldl (fun w r => w.setV (x.dreg + r.2) p.1 r.1) w
      | none => w) w
    (w.mapSplitIn x.hand x.split fun sp => { sp with wait := .ready }).flagDown f
  { s with ops := s.ops.filter fun o => o.id != x.op, xswaps := s.xswaps.filter fun z => z.op != x.op }

/-- XSWAP_PAIR: the next pair on a die whose clock runs exchanges, and both complete together. -/
def execXswapPair (s : State) : Host.Outcome State Fault Refusal :=
  .next (match nextPair (s.xswaps.filter fun x => s.dieRuns x.die) with
    | some (x, y) => (s.xswapLand x y).xswapLand y x
    | none => s)

/-- Clocks that an unpaired exchange waits (08 R181). -/
def xswapLimit : Nat := 2 ^ 20

/-- XSWAP_TIMEOUT: the first exchange older than 2^20 clocks leaves the list with no pending mark, and its split
traps at the XSWAP. -/
def execXswapTimeout (s : State) : Host.Outcome State Fault Refusal :=
  .next (match firstRank (s.xswaps.filter fun x => decide (x.clock + xswapLimit ≤ s.dieClock x.die) && s.dieRuns x.die) with
    | none => s
    | some x =>
      let op := s.ops.find? fun o => o.id == x.op
      let f := (op.map (·.flag)).getD none
      let vregs := (op.map (·.vregs)).getD []
      let s := { s with ops := s.ops.filter fun o => o.id != x.op, xswaps := s.xswaps.filter fun z => z.op != x.op }
      s.mapUid x.uid fun w =>
        let unmark (m : SMap Nat) : SMap Nat := m.filter fun p => !vregs.contains p.1
        let w := { w.flagDown f with
          marks := unmark w.marks, shadow := w.shadow.map fun (sh : Shadow) => { sh with marks := unmark sh.marks } }
        let w := w.mapSplitIn x.hand x.split fun sp => sp.rewind x.pc x.code
        w.raise x.hand { cause := tXswapTimeout, split := x.split, pc := x.pc, resume := x.pc })

end Sys2Proof.Machine
end

