-- ==== Sys2Proof/Machine/Mem.lean ====
section
/-! DEFINITION. The ordering machine's memory (05 R82–R96, R103): reading a location, storing to it, moving buffered
stores, partials, atomic steps, releases and acquires. -/

namespace Sys2Proof.Machine

open Sys2Proof

/-! ## Who accesses, and where (05 R81, R90, R103, 06 R116) -/

/-- An agent by the level it starts at. -/
inductive Agent where
  /-- a wave, by package core number -/
  | wave (core : Nat)
  /-- a core's engine, by package core number -/
  | engine (core : Nat)
  | die (d : Nat)
  | hub
  deriving DecidableEq, Repr

def Agent.core : Agent → Option Nat
  | .wave c => some c
  | .engine c => some c
  | _ => none

def Agent.dieOf : Agent → Option Nat
  | .wave c => some (c / Config.coresPerDie)
  | .engine c => some (c / Config.coresPerDie)
  | .die d => some d
  | .hub => none

/-- The ranges of physical addresses (06 R116). -/
inductive PaKind where
  | hbm | lpddr | host | remote | outside
  deriving DecidableEq, Repr

def paKind (pa : Nat) : PaKind :=
  if pa < 0x10000000000 then .hbm
  else if 0x20000000000 ≤ pa && pa < 0x40000000000 then .lpddr
  else if 0x4000000000000 ≤ pa && pa < 0x5000000000000 then .host
  else if 0x8000000000000 ≤ pa && pa < 0xC000000000000 then .remote
  else .outside

/-- The home die of a physical address: PA[14:12] for device memory, none otherwise. -/
def homeDie (pa : Nat) : Option Nat :=
  match paKind pa with
  | .hbm | .lpddr => some (pa / 4096 % 8)
  | _ => none

/-- The package field of a remote window, PA[49:45]. -/
def remotePackage (pa : Nat) : Nat := pa / 2 ^ 45 % 32

/-- The location n bytes further. -/
def Loc.plus (l : Loc) (n : Nat) : Loc := { l with a := l.a + n }

/-- n locations from one up. -/
def Loc.range (l : Loc) (n : Nat) : List Loc := (List.range n).map l.plus

/-! ## Readiness of the memories (25 R413, R414) -/

/-- The bit of READY and FAIL of the stack or tier that holds a device address. -/
def memBit (pa : Nat) : Option Nat :=
  match paKind pa with
  | .hbm => some (11 + 2 * (pa / 4096 % 8) + pa / 32768 % 2)
  | .lpddr => some 27
  | _ => none

/-- The stack or tier of a device address is neither ready nor failed. -/
def State.memWaits (s : State) (pa : Nat) : Bool :=
  match memBit pa with
  | some b => !s.mgmt.ready.getLsbD b && !s.mgmt.fail.getLsbD b
  | none => false

/-- A hub is ready: until one is, the walker, the Geyser and the engine of q14 do nothing (25 R413). DEDUCED: either hub
serves them, since the spec names none. -/
def State.hubUp (s : State) : Bool := s.mgmt.ready.getLsbD 1 || s.mgmt.ready.getLsbD 2

/-- An access to n bytes of M: one to a stack or tier that is not ready waits, so the step that makes it has no effect.
The granules of 4 KiB are looked at, each of which stands in one stack. -/
def State.reach (s : State) (a n : Nat) : State :=
  if (List.range (n / 4096 + 2)).any fun i => s.memWaits (min (a + 4096 * i) (a + n - 1)) then { s with stalled := true }
  else s

/-- The stack or tier of a device address has failed. -/
def State.memFailed (s : State) (pa : Nat) : Bool :=
  match memBit pa with
  | some b => s.mgmt.fail.getLsbD b && !s.mgmt.ready.getLsbD b
  | none => false

/-- The bytes of a protected unit (25 R428). -/
def protBytes (l : Loc) : Nat := if l.k = .m ∧ paKind l.a = .hbm then 32 else 8

/-- A byte of an array that an access finds poisoned: some byte of its protected unit still holds poison (25 R428), or its
stack has failed (25 R414). DEDUCED: writes that together cover the unit are its complete write. -/
def State.poisoned (s : State) (l : Loc) : Bool :=
  (s.poison.any fun p => p.k == l.k && p.a / protBytes l == l.a / protBytes l) ||
  (s.mgmt.fail != 0 && l.k == .m && s.memFailed l.a)

/-- The location kind of a byte (25 R430). -/
def locKind (l : Loc) : Nat :=
  match l.k with
  | .m => if paKind l.a = .lpddr then 6 else 5
  | _ => 7

/-- Does a protected word hold elements of the tiles from a key on (15 R275, 25 R428)? -/
def errInTile (key n : Nat) : ErrLoc → Bool
  | .tiles c w => decide (key ≤ c * 2 ^ 32 + 2 * w) && decide (c * 2 ^ 32 + 2 * w < key + n)
  | _ => false

/-- Note that a tenant's engine has read a tile with a poisoned word. -/
def State.strikeTile (s : State) (tenant key : Nat) : State :=
  if s.badWords.any (errInTile key 4096) then { s with struck := s.struck ++ [(tenant, 7)] } else s

/-- Tiles that are written whole hold no poison any longer. -/
def State.cleanseTiles (s : State) (key n : Nat) : State :=
  if s.badWords = [] then s else { s with badWords := s.badWords.filter fun e => !errInTile key n e }

/-- Keep the stacks that a tenant's store waits for (25 R414). -/
def State.await (s : State) (tenant : Nat) (ls : List Loc) : State :=
  match ls.filter fun l => l.k == .m && s.memWaits l.a with
  | [] => s
  | ws => { s with awaited := (s.awaited ++ (ws.filterMap fun l => memBit l.a).map fun b => (tenant, b)).eraseDups }

/-- Note that a tenant's store names a failed stack, or that it waits for one in a buffer (25 R414). -/
def State.strikeStore (s : State) (tenant : Nat) (ls : List Loc) : State :=
  let s := s.await tenant ls
  if s.mgmt.fail = 0 then s
  else match ls.find? fun l => l.k == .m && s.memFailed l.a with
    | some l => { s with struck := s.struck ++ [(tenant, locKind l)] }
    | none => s

/-! ## Single-copy-atomic units (05 R84) -/

/-- Consecutive locations of one memory. -/
def contiguous : List Loc → Bool
  | a :: b :: rest => b == a.plus 1 && contiguous (b :: rest)
  | _ => true

/-- The units of an access: one for an aligned 1, 2, 4 or 8 bytes, two for an aligned 16, single bytes otherwise. -/
def unitsOf (ls : List Loc) : List (List Loc) :=
  let n := ls.length
  let al : Bool := match ls.head? with
    | some l => contiguous ls && l.a % n == 0
    | none => false
  if al && (n == 1 || n == 2 || n == 4 || n == 8) then [ls]
  else if al && n == 16 then [ls.take 8, ls.drop 8]
  else ls.map fun l => [l]

/-- The units of a wide access that is a sequence of aligned 8-byte parts (XACC, XRD, XCLR, engine accesses). -/
def chunks : Nat → List Loc → List (List Loc)
  | 0, _ => []
  | f + 1, ls => if ls.isEmpty then [] else ls.take 8 :: chunks f (ls.drop 8)

/-! ## The arrays -/

/-- The byte that the array of a location holds. -/
def State.peek (s : State) (l : Loc) : Byte :=
  match l.k with
  | .sp => s.sp.byte l.a
  | .qm => s.qm.byte l.a
  | .cal => s.cal.byte l.a
  | .slice => s.slice.byte l.a
  | .m => s.mem.byte l.a
  | .hole => 0

/-- What is written holds no poison any longer (25 R428). -/
def State.cleanse (s : State) (k : MemK) (a n : Nat) : State :=
  if s.poison = [] then s else { s with poison := s.poison.filter fun p => !(p.k == k && a ≤ p.a && p.a < a + n) }

/-- Write consecutive bytes of an array. -/
def State.poke (s : State) (l : Loc) (bs : List Byte) : State :=
  let s := s.cleanse l.k l.a bs.length
  match l.k with
  | .sp => { s with sp := s.sp.setBytes l.a bs }
  | .qm => { s with qm := s.qm.setBytes l.a bs }
  | .cal => { s with cal := s.cal.setBytes l.a bs }
  | .slice => { s with slice := s.slice.setBytes l.a bs }
  | .m => { s with mem := s.mem.setBytes l.a bs }
  | .hole => s

/-! ## Buffers -/

/-- The byte that a buffered store holds for a location. -/
def BufEnt.byteAt (e : BufEnt) (own : Nat) (l : Loc) : Option Byte :=
  if e.own = own ∧ e.loc.k = l.k ∧ e.loc.a ≤ l.a then e.bytes[l.a - e.loc.a]? else none

/-- The newest value that a buffer holds for a location (05 R86). -/
def newestIn (buf : List BufEnt) (own : Nat) (l : Loc) : Option Byte :=
  buf.foldl (fun acc e => (e.byteAt own l).orElse fun _ => acc) none

/-- Do a buffered store and a location range overlap? -/
def BufEnt.covers (e : BufEnt) (own : Nat) (ls : List Loc) : Bool := ls.any fun l => (e.byteAt own l).isSome

/-- The locations that a buffered store writes. -/
def BufEnt.locs (e : BufEnt) : List Loc := e.loc.range e.bytes.length

/-- Is an entry the oldest of its buffer for every location it writes (05 R87)? -/
def oldestIn : List BufEnt → Nat → Bool
  | [], _ => false
  | e :: rest, id =>
    if e.id = id then true
    else match rest.find? fun x => x.id == id with
      | some x => !(e.covers x.own x.locs) && oldestIn rest id
      | none => false

/-! ## The arithmetic of atomic steps (09 R207, R209, R210) -/

/-- New(o, b) of an operation: 0 add, 1 sub, 2 and, 3 or, 4 xor, 5 min, 6 max, 7 swap, 8 incw. -/
def atomNew (op : Nat) (t : DType) (m : Num.RMode) (o b : Nat) : Num.Res :=
  let n := t.bits
  match op with
  | 0 => match Num.fmtOf t with
    | some f => f.add m o b
    | none => { bits := (o + b) % 2 ^ n }
  | 1 => { bits := (o + 2 ^ n - b % 2 ^ n) % 2 ^ n }
  | 2 => { bits := o &&& b }
  | 3 => { bits := o ||| b }
  | 4 => { bits := o ^^^ b }
  | 5 => match Num.fmtOf t with
    | some f => f.minMax m.ftz false o b
    | none => { bits := if Num.ival t o ≤ Num.ival t b then o else b }
  | 6 => match Num.fmtOf t with
    | some f => f.minMax m.ftz true o b
    | none => { bits := if Num.ival t o ≤ Num.ival t b then b else o }
  | 7 => { bits := b }
  | _ => { bits := if b ≤ o then 0 else o + 1 }

/-- The operation by which a partial merges: `.sub` partials add up (05 R96). -/
def mergeOp (op : Nat) : Nat := if op = 1 then 0 else op

/-! ## Partials (05 R96) -/

/-- Does a partial stand for some byte of the range? -/
def Partial.hits (p : Partial) (a n : Nat) : Bool := p.pa < a + n && a < p.pa + p.ty.bytes

def Partial.mode (p : Partial) : Num.RMode := { rnd := p.rnd, ftz := p.ftz }

/-- Apply one partial to its home. -/
def applyPartial (m : Memory) (p : Partial) : Memory :=
  let o := leNat (m.bytes p.pa p.ty.bytes)
  m.setBytes p.pa (leBytes p.ty.bytes (atomNew p.op p.ty p.mode o p.val).bits)

/-- The partials by ascending core number. -/
def insertByCore (p : Partial) : List Partial → List Partial
  | [] => [p]
  | q :: rest => if q.core ≤ p.core then q :: insertByCore p rest else p :: q :: rest

/-- Reach a range of M and fold its partials, in ascending package core number. -/
def State.fold (s : State) (a n : Nat) : State :=
  let s := s.reach a n
  match s.parts.filter fun p => p.hits a n with
  | [] => s
  | ps =>
    { s with
      mem := (ps.foldl (fun acc p => insertByCore p acc) []).foldl applyPartial s.mem
      parts := s.parts.filter fun p => !p.hits a n }

/-- Write M at the home after Fold. -/
def State.homeWrite (s : State) (a : Nat) (bs : List Byte) : State :=
  (s.fold a bs.length).poke ⟨.m, a⟩ bs

/-! ## Copies of lines homed off a die (DS) -/

/-- The key of a copy. -/
def copyKey (d pa : Nat) : Nat := d * 2 ^ 52 + pa

/-- The copies of a die that overlap a range of at most 8 bytes: their first addresses and bytes. -/
def State.copiesAt (s : State) (d a n : Nat) : List (Nat × List Byte) :=
  let base := a / 8 * 8
  (List.range (n + 8)).filterMap fun i =>
    match SMap.find s.ds (copyKey d (base + i)) with
    | some bs => if base + i < a + n ∧ a < base + i + bs.length then some (base + i, bs) else none
    | none => none

/-- Drop the copies of a die that overlap a range (05 R87, Drop copy). -/
def State.dropCopies (s : State) (d a n : Nat) : State :=
  (s.copiesAt d a n).foldl (fun s p => { s with ds := SMap.erase s.ds (copyKey d p.1) }) s

/-- The bytes of a range when one copy holds all of it. -/
def State.copyBytes (s : State) (d a n : Nat) : Option (List Byte) :=
  match (s.copiesAt d a n).find? fun p => p.1 ≤ a && a + n ≤ p.1 + p.2.length with
  | some (b, bs) => some ((bs.drop (a - b)).take n)
  | none => none

/-- What a copy holds has been replaced, so it is no poison (25 R428). -/
def State.freshCopy (s : State) (key : Nat) : State :=
  if s.badCopies = [] then s else { s with badCopies := s.badCopies.filter (· != key) }

/-- DS(d) takes a value (05 R87, R95): a copy that holds the range is updated, otherwise the value becomes a copy. -/
def State.copyTakes (s : State) (d a : Nat) (bs : List Byte) : State :=
  match (s.copiesAt d a bs.length).find? fun p => p.1 ≤ a && a + bs.length ≤ p.1 + p.2.length with
  | some (b, old) =>
    let s := if old.length = bs.length then s.freshCopy (copyKey d b) else s
    { s with ds := SMap.insert s.ds (copyKey d b) (old.take (a - b) ++ bs ++ old.drop (a - b + bs.length)) }
  | none =>
    let s := (s.dropCopies d a bs.length).freshCopy (copyKey d a)
    { s with ds := SMap.insert s.ds (copyKey d a) bs }

/-- What the copies of a range hold is poison, where what they have taken was (25 R428). -/
def State.spoilCopies (s : State) (d a n : Nat) (bad : Bool) : State :=
  if !bad then s else { s with badCopies := s.badCopies ++ (s.copiesAt d a n).map fun p => copyKey d p.1 }

/-- Drop every copy of a die (05 R93). -/
def State.dropAllCopies (s : State) (d : Nat) : State :=
  { s with
    ds := SMap.dropRange s.ds (copyKey d 0) (copyKey (d + 1) 0)
    badCopies := s.badCopies.filter fun k => !(decide (copyKey d 0 ≤ k) && decide (k < copyKey (d + 1) 0)) }

/-! ## What a read finds poisoned (25 R428) -/

/-- The newest entry of a buffer for a location, whether it holds poison. -/
def newestBad (buf : List BufEnt) (own : Nat) (l : Loc) : Option Bool :=
  buf.foldl (fun acc e => if (e.byteAt own l).isSome then some e.bad else acc) none

/-- Whether what a die's copies hold of a byte is poison, where one holds it. -/
def State.copyBad (s : State) (d : Nat) (l : Loc) : Option Bool :=
  match s.copiesAt d l.a 1 with
  | [] => none
  | p :: _ => some (s.badCopies.contains (copyKey d p.1))

/-- Does what an agent's read of a byte finds, on its path or in the array, hold poison (05 R86, 25 R428)? -/
def State.findsBad (s : State) (ag : Agent) (l : Loc) : Bool :=
  let near : Option Bool :=
    match l.k, ag, ag.core with
    | .sp, .wave c, _ => newestBad s.lq c l
    | .qm, _, some c | .cal, _, some c | .m, _, some c => newestBad s.cb c l
    | _, _, _ => none
  let far : Option Bool :=
    match l.k, ag.dieOf with
    | .m, some d => ((newestBad s.dw d l).orElse fun _ => newestBad s.pq d l).orElse fun _ => s.copyBad d l
    | _, _ => none
  (near.orElse fun _ => far).getD (s.poisoned l)

/-- No memory, buffer or copy holds poison, and no function has failed. -/
def State.clean (s : State) : Bool :=
  s.poison.isEmpty && s.mgmt.fail == 0 && s.badCopies.isEmpty &&
  s.lq.all (!·.bad) && s.cb.all (!·.bad) && s.dw.all (!·.bad) && s.pq.all (!·.bad)

/-- Note that a tenant's read reached poisoned bytes: its context is to be reset (25 R428). -/
def State.strike (s : State) (tenant : Nat) (ag : Agent) (ls : List Loc) : State :=
  if s.clean then s
  else match ls.find? (s.findsBad ag) with
    | some l => { s with struck := s.struck ++ [(tenant, locKind l)] }
    | none => s

/-! ## Reading (05 R86) -/

/-- Is an address homed off a die? Host memory is homed off every die. -/
def offDie (d pa : Nat) : Bool := homeDie pa != some d

/-- Read a unit of M from where R86 finds it beyond the core: PQ or DW, then a copy, then the home after Fold.
A copy is taken as a whole: where copies hold only part of the unit they are dropped first. An uncached page has no copy,
so one that another mapping of the frame left is dropped (05 R102, 06 R127). -/
def State.readHome (s : State) (ag : Agent) (uncached : Bool) (a n : Nat) : State × List Byte :=
  match ag.dieOf with
  | none => let s := s.fold a n; (s, s.mem.bytes a n)
  | some d =>
    match paKind a with
    | .remote =>
      (s, (List.range n).map fun i => (newestIn s.pq d ⟨.m, a + i⟩).getD (s.mem.byte (a + i)))
    | _ =>
      if offDie d a then
        match if uncached then none else s.copyBytes d a n with
        | some bs => (s, bs)
        | none =>
          let s := (s.dropCopies d a n).fold a n
          let bs := s.mem.bytes a n
          let bad := (Loc.range ⟨.m, a⟩ n).any s.poisoned
          (if uncached then s else (s.copyTakes d a bs).spoilCopies d a n bad, bs)
      else let s := s.fold a n; (s, s.mem.bytes a n)

/-- The byte of M that the buffers on the agent's path hold: CB, then DW. -/
def State.inPath (s : State) (ag : Agent) (l : Loc) : Option Byte :=
  let cb := match ag.core with
    | some c => newestIn s.cb c l
    | none => none
  cb.orElse fun _ =>
    match ag.dieOf with
    | some d => newestIn s.dw d l
    | none => none

/-- Read one unit (05 R86). -/
def State.readUnit (s : State) (ag : Agent) (uncached : Bool) (ls : List Loc) : State × List Byte :=
  match ls with
  | [] => (s, [])
  | l :: _ =>
    let cbOr (l : Loc) : Byte :=
      match ag.core with
      | some c => (newestIn s.cb c l).getD (s.peek l)
      | none => s.peek l
    match l.k with
    | .hole => (s, ls.map fun _ => 0)
    | .slice => (s, ls.map s.peek)
    | .sp =>
      (s, ls.map fun l =>
        match ag with
        | .wave c => (newestIn s.lq c l).getD (s.peek l)
        | _ => s.peek l)
    | .qm | .cal => (s, ls.map cbOr)
    | .m =>
      let found := ls.map fun l => s.inPath ag l
      if found.all Option.isSome then (s, found.map fun o => o.getD 0)
      else if found.all Option.isNone then s.readHome ag uncached l.a ls.length
      else
        -- the unit is read as one, and what the path holds of it stands before what lies beyond (05 R84)
        let (s, bs) := s.readHome ag uncached l.a ls.length
        (s, (found.zip bs).map fun p => p.1.getD p.2)

/-- Read the units of an access, one after another. -/
def State.readUnits (s : State) (ag : Agent) (uncached : Bool) (us : List (List Loc)) : State × List Byte :=
  us.foldl
    (fun acc u =>
      let (s, bs) := acc.1.readUnit ag uncached u
      (s, acc.2 ++ bs))
    (s, [])

/-- Drop what a die's copies hold of a unit where none of them holds all of it, or where its page keeps none: what a read of
the unit will do (05 R87). -/
def State.dropPartial (s : State) (ag : Agent) (uncached : Bool) (u : List Loc) : State :=
  match u, ag.dieOf with
  | l :: _, some d =>
    if l.k = .m ∧ paKind l.a ≠ .remote ∧ offDie d l.a = true ∧ (uncached = true ∨ s.copyBytes d l.a u.length = none) then
      s.dropCopies d l.a u.length
    else s
  | _, _ => s

/-- Read an access (05 R84, R86). -/
def State.readLocs (s : State) (ag : Agent) (uncached : Bool) (ls : List Loc) : State × List Byte :=
  s.readUnits ag uncached (unitsOf ls)

/-! ## Storing (05 R82, R103) -/

/-- Append to a buffer. -/
def State.bufAdd (s : State) (buf : State → List BufEnt) (put : State → List BufEnt → State) (own : Nat)
    (l : Loc) (bs : List Byte) (uncached : Bool) : State :=
  put s.bump (buf s ++ [{ id := s.nextId, own, loc := l, bytes := bs, uncached }])

def State.addLq (s : State) (c : Nat) (l : Loc) (bs : List Byte) : State :=
  s.bufAdd (·.lq) (fun s b => { s with lq := b }) c l bs false
def State.addCb (s : State) (c : Nat) (l : Loc) (bs : List Byte) (uncached : Bool) : State :=
  s.bufAdd (·.cb) (fun s b => { s with cb := b }) c l bs uncached
def State.addDw (s : State) (d : Nat) (l : Loc) (bs : List Byte) (uncached : Bool) : State :=
  s.bufAdd (·.dw) (fun s b => { s with dw := b }) d l bs uncached
def State.addPq (s : State) (d : Nat) (l : Loc) (bs : List Byte) (uncached : Bool) : State :=
  s.bufAdd (·.pq) (fun s b => { s with pq := b }) d l bs uncached

/-- A store to M that has left its core: to PQ for a remote window, to DW off its home die, else to the home. -/
def State.storeBelow (s : State) (d : Option Nat) (l : Loc) (bs : List Byte) (uncached : Bool) : State :=
  match d with
  | none => s.homeWrite l.a bs
  | some d =>
    match paKind l.a with
    | .remote => s.addPq d l bs uncached
    | _ => if offDie d l.a then s.addDw d l bs uncached else s.homeWrite l.a bs

/-- Perform the store of one unit: it enters the first buffer or array on its path. -/
def State.storeUnit (s : State) (ag : Agent) (uncached : Bool) (ls : List Loc) (bs : List Byte) : State :=
  match ls with
  | [] => s
  | l :: _ =>
    match l.k with
    | .hole => s
    | .slice => s.poke l bs
    | .sp =>
      match ag with
      | .wave c => s.addLq c l bs
      | _ => s.poke l bs
    | .qm | .cal =>
      match ag.core with
      | some c => s.addCb c l bs uncached
      | none => s.poke l bs
    | .m =>
      match ag.core with
      | some c => s.addCb c l bs uncached
      | none => s.storeBelow ag.dieOf l bs uncached

/-- Store the units of an access. -/
def State.storeUnits (s : State) (ag : Agent) (uncached : Bool) : List (List Loc) → List Byte → State
  | [], _ => s
  | u :: us, bs => (s.storeUnit ag uncached u (bs.take u.length)).storeUnits ag uncached us (bs.drop u.length)

/-- Store an access (05 R82, R84). -/
def State.storeLocs (s : State) (ag : Agent) (uncached : Bool) (ls : List Loc) (bs : List Byte) : State :=
  s.storeUnits ag uncached (unitsOf ls) bs

/-! ## Moving buffered stores (05 R87) -/

/-- What a buffered store has brought on is poison where the store held poison (25 R428): the entries made since a number, or
else the bytes written, with the die's copy of them. -/
def State.carry (s : State) (since : Nat) (e : BufEnt) : State :=
  if !e.bad then s
  else
    let mark (x : BufEnt) : BufEnt := if since ≤ x.id then { x with bad := true } else x
    if s.dw.any (fun x => decide (since ≤ x.id)) || s.pq.any (fun x => decide (since ≤ x.id)) then
      { s with dw := s.dw.map mark, pq := s.pq.map mark }
    else { s with poison := s.poison ++ e.locs.filter fun l => !s.poison.contains l }

/-- LQ to SP. -/
def State.moveLq (s : State) (e : BufEnt) : State :=
  (({ s with lq := s.lq.filter fun x => x.id != e.id }).poke e.loc e.bytes).carry s.nextId e

/-- CB to the next level: QM, CAL, or below. -/
def State.moveCb (s : State) (e : BufEnt) : State :=
  let s := { s with cb := s.cb.filter fun x => x.id != e.id }
  let t := match e.loc.k with
    | .qm | .cal => s.poke e.loc e.bytes
    | _ => s.storeBelow (some (e.own / Config.coresPerDie)) e.loc e.bytes e.uncached
  t.carry s.nextId e

/-- The copy of a die takes a value that has reached the home, or goes when the page is uncached (05 R87, R95, R102). -/
def State.copyAfter (s : State) (d : Nat) (uncached : Bool) (a : Nat) (bs : List Byte) : State :=
  if uncached then s.dropCopies d a bs.length else s.copyTakes d a bs

/-- DW to M after Fold; the die's copy follows. -/
def State.moveDw (s : State) (e : BufEnt) : State :=
  let s := { s with dw := s.dw.filter fun x => x.id != e.id }
  (((s.homeWrite e.loc.a e.bytes).copyAfter e.own e.uncached e.loc.a e.bytes).spoilCopies e.own e.loc.a e.bytes.length
    e.bad).carry s.nextId e

/-- PQ to the remote M. -/
def State.movePq (s : State) (e : BufEnt) : State :=
  (({ s with pq := s.pq.filter fun x => x.id != e.id }).poke e.loc e.bytes).carry s.nextId e

/-- Move every entry of a buffer that a condition picks, oldest first. -/
def State.moveAll (s : State) (buf : State → List BufEnt) (move : State → BufEnt → State) (p : BufEnt → Bool) : State :=
  ((buf s).filter p).foldl move s

/-- Which entries of a buffer, newest first, move with those for some locations: with an entry goes every older one for
any of its locations, so that entries for one location keep their order (05 R85). -/
def mustMove (own : Nat) : List Loc → List BufEnt → List Nat
  | _, [] => []
  | ls, e :: older =>
    if e.covers own ls then e.id :: mustMove own (e.locs ++ ls) older else mustMove own ls older

/-- Move what a buffer holds for some locations. -/
def State.moveFor (s : State) (buf : State → List BufEnt) (move : State → BufEnt → State) (own : Nat) (ls : List Loc) :
    State :=
  let ids := mustMove own ls (buf s).reverse
  s.moveAll buf move fun e => ids.contains e.id

def State.drainLq (s : State) (c : Nat) : State := s.moveAll (·.lq) State.moveLq fun e => e.own == c
def State.propagateCb (s : State) (c : Nat) : State := s.moveAll (·.cb) State.moveCb fun e => e.own == c
def State.writeBackDw (s : State) (d : Nat) : State := s.moveAll (·.dw) State.moveDw fun e => e.own == d
def State.deliverPq (s : State) (d : Nat) : State := s.moveAll (·.pq) State.movePq fun e => e.own == d

/-! ## Release and acquire (05 R92, R93, R108) -/

/-- The moves of a release at a scope by an agent, once its earlier ls entries are performed.
A host-memory write is globally observed once it is in M. -/
def State.release (s : State) (ag : Agent) (sc : Scope) : State :=
  let s := match ag.core, sc with
    | some c, .quad | some c, .die | some c, .pkg | some c, .pod | some c, .sys => s.propagateCb c
    | _, _ => s
  match ag.dieOf, sc with
  | some d, .pkg | some d, .sys => s.writeBackDw d
  | some d, .pod => (s.writeBackDw d).deliverPq d
  | _, _ => s

/-- The dropping of copies of an acquire at a scope. -/
def State.acquire (s : State) (ag : Agent) (sc : Scope) : State :=
  match ag.dieOf, sc with
  | some d, .pkg | some d, .pod | some d, .sys => s.dropAllCopies d
  | _, _ => s

/-! ## Atomic steps at the home (05 R95, R96, R103, 09 R205) -/

/-- Move what the agent's buffers hold for a range on its way home. -/
def State.settle (s : State) (ag : Agent) (ls : List Loc) : State :=
  match ls with
  | [] => s
  | l :: _ =>
    match l.k, ag with
    | .sp, .wave c => s.moveFor (·.lq) State.moveLq c ls
    | .sp, _ => s
    | _, _ =>
      let s := match ag.core with
        | some c => s.moveFor (·.cb) State.moveCb c ls
        | none => s
      match l.k, ag.dieOf with
      | .m, some d => (s.moveFor (·.dw) State.moveDw d ls).moveFor (·.pq) State.movePq d ls
      | _, _ => s

/-- A store whose page does not let it stay behind goes to the next level at once; one to an uncached page goes home
(06 R127). PQ keeps a store to a remote window until it is acknowledged. -/
def State.forward (s : State) (ag : Agent) (uncached : Bool) (ls : List Loc) : State :=
  let s := match ag.core with
    | some c => s.moveFor (·.cb) State.moveCb c ls
    | none => s
  match uncached, ag.dieOf with
  | true, some d => s.moveFor (·.dw) State.moveDw d ls
  | _, _ => s

/-- Store an access through a page: it enters the first buffer on its path, and goes on from there when it may not stay. -/
def State.storeThrough (s : State) (ag : Agent) (uncached through : Bool) (ls : List Loc) (bs : List Byte) : State :=
  let s := s.storeLocs ag uncached ls bs
  if through then s.forward ag uncached ls else s

/-- Read one aligned part of at most 8 bytes at its home, after settling and Fold. -/
def State.homePart (s : State) (ls : List Loc) : State × List Byte :=
  match ls with
  | [] => (s, [])
  | l :: _ =>
    let n := ls.length
    match l.k with
    | .hole => (s, ls.map fun _ => 0)
    | .m => let s := s.fold l.a n; (s, s.mem.bytes l.a n)
    | _ => (s, (l.range n).map s.peek)

/-- Read aligned parts at their home. -/
def State.homeBytes (s : State) (ls : List Loc) : State × List Byte :=
  (chunks (ls.length / 8 + 1) ls).foldl
    (fun acc c => let (s, bs) := acc.1.homePart c; (s, acc.2 ++ bs)) (s, [])

/-- After an atomic step on a part, the copy of the agent's die takes its value (05 R95). -/
def State.copyPart (s : State) (ag : Agent) (uncached : Bool) (ls : List Loc) (bs : List Byte) : State :=
  match ls with
  | [] => s
  | l :: _ =>
    match l.k, ag.dieOf with
    | .m, some d => if paKind l.a != .remote && offDie d l.a then s.copyAfter d uncached l.a bs else s
    | _, _ => s

/-- Write one aligned part of at most 8 bytes at its home. -/
def State.homeStore (s : State) (ls : List Loc) (bs : List Byte) : State :=
  match ls with
  | [] => s
  | l :: _ =>
    match l.k with
    | .hole => s
    | .slice | .sp | .qm | .cal => s.poke l bs
    | .m => s.homeWrite l.a bs

/-- Write one aligned part at its home; the copy of the agent's die takes the new value. -/
def State.homePutPart (s : State) (ag : Agent) (uncached : Bool) (ls : List Loc) (bs : List Byte) : State :=
  (s.homeStore ls bs).copyPart ag uncached ls bs

/-- Write aligned parts at their home. -/
def State.homePut (s : State) (ag : Agent) (uncached : Bool) (ls : List Loc) (bs : List Byte) : State :=
  (chunks (ls.length / 8 + 1) ls).zipIdx.foldl
    (fun s c => s.homePutPart ag uncached c.1 ((bs.drop (8 * c.2)).take 8)) s

/-- Every part's copy takes the value that was read at the home. -/
def State.copyAll (s : State) (ag : Agent) (uncached : Bool) (ls : List Loc) (bs : List Byte) : State :=
  (chunks (ls.length / 8 + 1) ls).zipIdx.foldl
    (fun s c => s.copyPart ag uncached c.1 ((bs.drop (8 * c.2)).take 8)) s

/-- One atomic step: settle, read at the home, and write what `f` gives, if it gives anything. -/
def State.atomic (s : State) (ag : Agent) (uncached : Bool) (ls : List Loc) (f : List Byte → Option (List Byte)) :
    State × List Byte :=
  let (s, old) := (s.settle ag ls).homeBytes ls
  match f old with
  | some bs => (s.homePut ag uncached ls bs, old)
  | none => (s.copyAll ag uncached ls old, old)

/-- One atomic operation on a number of TYPE's width; answers the old value and the status bits. -/
def State.atomOp (s : State) (ag : Agent) (uncached : Bool) (ls : List Loc) (op : Nat) (t : DType) (m : Num.RMode)
    (b : Nat) : State × Nat × Num.Flags :=
  let (s, old) := s.atomic ag uncached ls fun bs => some (leBytes t.bytes (atomNew op t m (leNat bs) b).bits)
  (s, leNat old, (atomNew op t m (leNat old) b).fl)

/-- One RED step (05 R96): in `.g` from a core it merges into U(c,x); elsewhere, and for an agent without a core, it
is an atomic step at the home. -/
def State.red (s : State) (ag : Agent) (uncached : Bool) (ls : List Loc) (op : Nat) (t : DType) (m : Num.RMode)
    (b : Nat) : State :=
  match ls.head?, ag.core with
  | some ⟨.m, a⟩, some c =>
    let s := s.settle ag ls
    if paKind a = .remote then (s.atomOp ag uncached ls op t m b).1
    else
      let n := t.bytes
      let mine (p : Partial) : Bool := p.core == c && p.hits a n
      let same (p : Partial) : Bool :=
        p.pa == a && p.op == op && p.ty == t && (t != .f32 || op != 0 || (p.rnd == m.rnd && p.ftz == m.ftz))
      match s.parts.find? mine with
      | some p =>
        if same p && (s.parts.filter mine).length == 1 then
          { s with parts := s.parts.map fun q =>
              if mine q then { q with val := (atomNew (mergeOp op) t p.mode q.val b).bits } else q }
        else
          let s := s.fold a n
          { s with parts := s.parts ++ [{ core := c, pa := a, op, ty := t, rnd := m.rnd, ftz := m.ftz, val := b }] }
      | none => { s with parts := s.parts ++ [{ core := c, pa := a, op, ty := t, rnd := m.rnd, ftz := m.ftz, val := b }] }
  | _, _ => (s.atomOp ag uncached ls op t m b).1

end Sys2Proof.Machine
end

