-- ==== Sys2Proof/Machine/Signals.lean ====
section
/-! DEFINITION. What the part signals to the host: interrupt vectors (25 R425) and context errors (25 R424). -/

namespace Sys2Proof.Machine

open Sys2Proof

/-- Raise a vector of a tenant's function; two events share a pending message (25 R425). -/
def State.raiseVec (s : State) (t v : Nat) : State :=
  s.mapTenant t fun x => { x with vectors := x.vectors ||| BitVec.ofNat 64 (2 ^ (v % 64)) }

/-- Raise a vector of the management function. -/
def State.raiseMgmt (s : State) (v : Nat) : State :=
  { s with mgmt := { s.mgmt with vectors := s.mgmt.vectors ||| BitVec.ofNat 64 (2 ^ (v % 64)) } }

/-- The causes of a context error. -/
def cHalt : BitVec 8 := 1
def cDouble : BitVec 8 := 2
def cForced : BitVec 8 := 3
def cEngine : BitVec 8 := 4
def cUncorr : BitVec 8 := 5

/-- Record a context error, or set OVF when one stands already; in both cases ERRVEC is raised (25 R424). -/
def State.contextError (s : State) (e : CtxError) : State :=
  let s := s.mapTenant e.tenant fun x =>
    if x.cerr.cause = 0 then
      { x with
        cerr := { ovf := x.cerr.ovf, first := e.first.toNat, queue := e.queue.toNat, sub := e.sub.toNat, die := e.die,
                  core := e.core, half := e.half == 1, slot := e.slot, cause := e.cause.toNat, b := e.pcB, c := e.pcC } }
    else { x with cerr := { x.cerr with ovf := true } }
  s.raiseVec e.tenant (s.tenant e.tenant).errvec

/-- A context error that names a wave. -/
def waveError (w : WaveId) (cause sub first : BitVec 8) (b c : Dword) : CtxError :=
  { tenant := w.tenant, cause, sub, first, die := w.die, core := w.core, slot := w.slot, half := w.half, pcB := b, pcC := c }

end Sys2Proof.Machine
end

