-- ==== Sys2Proof/Machine/Translate.lean ====
section
/-! DEFINITION. Windows and translation (06 R110, R115–R133): from the address a lane or an engine forms to the
locations of its bytes. -/

namespace Sys2Proof.Machine

open Sys2Proof

/-! ## What an access may do -/

/-- The kinds of an access by its permission, its effect on the dirty bit and its feedback KIND (06 R120, R125). The store
of a trap frame demands a page with R and W (10 R232), and so does an engine's update, which reads and then writes (22 R384). -/
inductive Acc where
  | load | store | red | atomic | fetch | engRead | engWrite | sampler | frame | engUpdate
  deriving DecidableEq, Repr

def Acc.writes : Acc → Bool
  | .store | .red | .atomic | .engWrite | .frame | .engUpdate => true
  | _ => false

/-- Does a leaf permit the access (06 R120, PERM)? -/
def Acc.permitted (k : Acc) (r w x : Bool) : Bool :=
  match k with
  | .fetch => x
  | .load | .engRead | .sampler => r
  | .frame | .engUpdate => r && w
  | _ => w

/-- KIND of a feedback entry (06 R125); a fetch is logged like a load, and an update, which reads first, like an engine's read
(DEDUCED, log entry 43). -/
def Acc.code : Acc → Nat
  | .load | .fetch => 0
  | .store | .frame => 1
  | .red => 2
  | .atomic => 3
  | .engRead | .engUpdate => 4
  | .engWrite => 5
  | .sampler => 6

/-- The PAGE_FAULT causes of 06 R120. -/
def pNonCanon : Nat := 1
def pNotMapped : Nat := 2
def pBadPte : Nat := 3
def pBadPa : Nat := 4
def pPerm : Nat := 5
def pSparseAtom : Nat := 6

/-! ## Page-table entries (06 R118–R123) -/

/-- A field of a number: bits [hi:lo]. -/
def bitsOf (n hi lo : Nat) : Nat := n / 2 ^ lo % 2 ^ (hi + 1 - lo)

/-- The attributes of an entry as a leaf or hole. -/
def leafOf (e size pte : Nat) : Leaf :=
  { pa := bitsOf e 51 9 * 512, size, hole := !e.testBit 0, r := e.testBit 2, w := e.testBit 3, x := e.testBit 4,
    d := e.testBit 6, efmt := bitsOf e 75 71, geom := bitsOf e 77 76, bsize := bitsOf e 80 78,
    uncached := bitsOf e 65 64 == 2 || paKind (bitsOf e 51 9 * 512) == .remote, clevel := bitsOf e 65 64,
    wpol := bitsOf e 67 66, evp := bitsOf e 70 69, comp := e.testBit 68, pte }

/-- Does a store through the leaf go on to the next level at once (06 R127): no first-level cache may hold its line, or
it is written through or around? -/
def Leaf.through (l : Leaf) : Bool := l.uncached || l.clevel != 0 || l.wpol != 0

/-- May no first-level cache hold a line of the leaf (06 R127)? -/
def Leaf.bypass (l : Leaf) : Bool := l.uncached || l.clevel != 0

/-- A non-zero reserved field or a reserved attribute value of a leaf or a hole. -/
def badAttr (e : Nat) : Bool :=
  bitsOf e 127 83 != 0 || bitsOf e 63 52 != 0 || bitsOf e 8 7 != 0 || 2 ≤ bitsOf e 77 76 || 0x18 ≤ bitsOf e 75 71
  || bitsOf e 70 69 == 3 || bitsOf e 67 66 == 3 || bitsOf e 65 64 == 3

/-- The page size of a leaf at a level (06 R119). -/
def pageSize (level : Nat) : Nat :=
  match level with
  | 0 => 0x10000
  | 1 => 0x200000
  | _ => 0x40000000

/-- The index into the table of a level. -/
def walkIndex (level va : Nat) : Nat :=
  match level with
  | 0 => bitsOf va 20 16
  | 1 => bitsOf va 29 21
  | 2 => bitsOf va 38 30
  | 3 => bitsOf va 47 39
  | _ => bitsOf va 56 48

/-- Does TIER agree with the frame's range? It is judged only for a frame inside a range. -/
def badTier (e pa : Nat) : Bool :=
  match paKind pa with
  | .outside => false
  | .lpddr => !e.testBit 82
  | _ => e.testBit 82

/-- Does a route serve? An Adit port that is not ready acts as V = 0 (13 R250, 25 R414). -/
def State.routeUp (s : State) (r : Bool × Nat) : Bool := r.1 && s.mgmt.ready.getLsbD (28 + r.2)

/-- Is a remote window reachable: another package with a valid route (06 R116, 13 R250)? DESIGN CHOICE (log entry 82): while
the two hubs' tables differ, the entry of hub 0 decides. -/
def State.remoteOk (s : State) (pa : Nat) : Bool :=
  remotePackage pa != s.mgmt.self && s.routeUp (SMap.read (false, 0) s.mgmt.routes (remotePackage pa))

/-- The result of the entry at one level: a fault's cause, a leaf or hole, or the next table. -/
inductive WalkStep where
  | fault (cause : Nat)
  | leaf (l : Leaf)
  | table (pa : Nat)
  deriving DecidableEq, Repr

/-- Read one entry (06 R118–R123). DESIGN CHOICE (log entry 70): an entry that is both BADPTE and BADPA is BADPTE.
DEDUCED (log entry 103): a V = 1 leaf that is BADPTE or BADPA is no valid leaf of R121, so the walk sets neither A nor D in it. -/
def State.readEntry (s : State) (level e pte : Nat) : WalkStep :=
  let addr := bitsOf e 51 9 * 512
  if !e.testBit 0 then
    if e.testBit 1 && e.testBit 81 then
      if 3 ≤ level || badAttr e then .fault pBadPte else .leaf (leafOf e (pageSize level) pte)
    else .fault pNotMapped
  else if e.testBit 1 then
    if 3 ≤ level || badAttr e || addr % pageSize level != 0 || badTier e addr then .fault pBadPte
    else
      match paKind addr with
      | .outside => .fault pBadPa
      | .remote => if s.remoteOk addr then .leaf (leafOf e (pageSize level) pte) else .fault pBadPa
      | _ => .leaf (leafOf e (pageSize level) pte)
  else
    let align := if level = 1 then 512 else 8192
    if level = 0 || e != addr + 1 || addr % align != 0 then .fault pBadPte
    else
      match paKind addr with
      | .outside | .remote => .fault pBadPa
      | _ => .table addr

/-- The walk from a table at a level down, for a tenant; an entry is read at its home.
DEDUCED: 06 R133 lets no walk after an invalidation find an old entry, so no copy of one is read. -/
def State.walkFrom (s : State) (tenant va : Nat) : Nat → Nat → State × WalkStep
  | level, table =>
    let pte := table + 16 * walkIndex level va
    let s := (s.strike tenant .hub (Loc.range ⟨.m, pte⟩ 16)).fold pte 16
    match s.readEntry level (leNat (s.mem.bytes pte 16)) pte, level with
    | .table t, l + 1 => s.walkFrom tenant va l t
    | .table _, 0 => (s, .fault pBadPte)
    | r, _ => (s, r)

/-- The whole walk of a virtual address (06 R115, R119). -/
def State.walk (s : State) (tenant : Nat) (va : Dword) : State × WalkStep :=
  let v := va.toNat
  if v / 2 ^ 56 = 0 then
    let root := (s.tenant tenant).root.toNat
    match paKind root with
    | .outside | .remote => (s, .fault pBadPa)
    | _ => s.walkFrom tenant v 4 root
  else if v / 2 ^ 56 = 255 then (s, .fault pNotMapped)
  else (s, .fault pNonCanon)

/-- Set A, and D for a write, by an atomic OR of the entry's low word at its home (06 R121). -/
def State.touchLeaf (s : State) (l : Leaf) (writes : Bool) : State :=
  if l.hole then s
  else
    let s := s.fold l.pte 8
    let old := leNat (s.mem.bytes l.pte 8)
    let new := old ||| 0x20 ||| (if writes then 0x40 else 0)
    if new = old then s else s.poke ⟨.m, l.pte⟩ (leBytes 8 new)

/-- The slice of the die TLB that an address selects (06 R130). -/
def tlbSlice (va : Nat) : Nat := bitsOf va 28 21 ^^^ bitsOf va 20 16

/-- The translation entries that may serve an address: those of the core's TLB, then those of the die TLB's slice. -/
def State.cached (s : State) (die : Nat) (core : Option Nat) (tenant va : Nat) : List TlbEnt :=
  let fits (t : TlbEnt) : Bool := t.die == die && t.asid == tenant && t.va ≤ va && va < t.va + t.leaf.size
  (s.tlb.filter fun t => core.isSome && t.core == core && fits t) ++
    s.tlb.filter fun t => t.core.isNone && t.slice == tlbSlice va && fits t

/-- Two leaves that translate alike. -/
def Leaf.same (a b : Leaf) : Bool := { a with d := false } == { b with d := false }

/-- Keep the first n elements that meet a condition, and all others. -/
def keepFirst {α : Type} (p : α → Bool) : Nat → List α → List α
  | _, [] => []
  | 0, x :: xs => if p x then keepFirst p 0 xs else x :: keepFirst p 0 xs
  | n + 1, x :: xs => if p x then x :: keepFirst p n xs else x :: keepFirst p (n + 1) xs

/-- Hold a leaf in one TLB: it replaces an entry that translates alike, and the oldest entry beyond the TLB's size goes. -/
def tlbPut (tlb : List TlbEnt) (e : TlbEnt) (n : Nat) : List TlbEnt :=
  let here (t : TlbEnt) : Bool := t.die == e.die && t.core == e.core && t.slice == e.slice
  keepFirst here n
    (e :: tlb.filter fun t => !(here t && t.asid == e.asid && t.va == e.va && t.leaf.same e.leaf))

/-- The frames of the TLB that an entry stands in: the first by the model's numbering of 25 R428's locations, and how many. -/
def TlbEnt.frames (e : TlbEnt) : Nat × Nat :=
  match e.core with
  | some c => (c % Config.coresPerDie * Config.coreTlb, Config.coreTlb)
  | none => (Config.coresPerDie * Config.coreTlb + e.slice * Config.sliceTlb, Config.sliceTlb)

/-- The frames of an entry's TLB that are not fenced off, so that entries may stand in them (06 R128, 25 R429). -/
def State.tlbRoom (s : State) (e : TlbEnt) : Nat :=
  let (a, n) := e.frames
  n - (s.mgmt.fencedFrames.filter fun p =>
    p.1 == e.die && decide (4 * 2 ^ 32 + a ≤ p.2) && decide (p.2 < 4 * 2 ^ 32 + a + n)).length

/-- A walk's leaf enters the die TLB and the TLB of the core that asked (06 R130). -/
def State.tlbFill (s : State) (die : Nat) (core : Option Nat) (tenant va : Nat) (l : Leaf) : State :=
  let e : TlbEnt := { die, asid := tenant, va := va / l.size * l.size, leaf := l, slice := tlbSlice va }
  let tlb := tlbPut s.tlb e (s.tlbRoom e)
  { s with tlb := match core with
      | some c =>
        let f := { e with core := some c, slice := 0 }
        tlbPut tlb f (s.tlbRoom f)
      | none => tlb }

/-- The entries that the frames left to their TLBs hold, the newest of each: a frame that is fenced off gives its entry
up. -/
def State.tlbTrim (s : State) : State :=
  { s with tlb := s.tlb.zipIdx.filterMap fun p =>
      let older := (s.tlb.take p.2).filter fun t => t.die == p.1.die && t.core == p.1.core && t.slice == p.1.slice
      if older.length < s.tlbRoom p.1 then some p.1 else none }

/-- The leaf that an access uses, once it is found: a hole, a remote window's route, permission (06 R120, R123, 13 R250). -/
def State.judge (s : State) (k : Acc) (l : Leaf) : Except Nat Leaf :=
  if l.hole then (if k = .atomic then .error pSparseAtom else .ok l)
  else if paKind l.pa = .remote && !s.remoteOk l.pa then .error pBadPa
  else if !k.permitted l.r l.w l.x then .error pPerm
  else .ok l

/-- Use the leaf that the tables give. A walk, which happens when no TLB holds the leaf or a write finds D clear, sets A
and D before the permission check (06 R121), and the TLBs then hold the leaf unless the access faults. -/
def State.useWalked (s : State) (die : Nat) (core : Option Nat) (tenant : Nat) (k : Acc) (va : Nat) (held : List TlbEnt)
    (l : Leaf) : State × Except Nat Leaf :=
  if held.any fun t => t.leaf.same l && (t.leaf.d || !k.writes) then (s, s.judge k l)
  else
    let s := s.touchLeaf l k.writes
    match s.judge k l with
    | .ok m => (if l.hole then s else s.tlbFill die core tenant va { l with d := l.d || k.writes }, .ok m)
    | r => (s, r)

/-- A lookup that finds an entry whose frame holds poison has consumed it (25 R428). -/
def State.strikeTlb (s : State) (tenant : Nat) (held : List TlbEnt) : State :=
  if held.any (·.bad) then { s with struck := s.struck ++ [(tenant, 4)] } else s

/-- Translate one address for an access (06 R119–R121, R130, R133).
Where a TLB still holds another entry than the tables now give, which of them is used is free, until an invalidation or
a replacement takes the old one away. -/
def State.translate (s : State) (die : Nat) (core : Option Nat) (tenant : Nat) (k : Acc) (va : Dword) :
    State × Except Nat Leaf :=
  let (s, now) := s.walk tenant va
  let held := s.cached die core tenant va.toNat
  let s := s.strikeTlb tenant held
  let old := held.filter fun t => match now with
    | .leaf l => !t.leaf.same l
    | _ => true
  let fresh := s.fresh
  let s := if old = [] then s else { s with fresh := s.fresh + 1 }
  match if old = [] then none else old[Config.freeNat fresh % (old.length + 1)]? with
  | some t => (s, s.judge k t.leaf)
  | none =>
    match now with
    | .fault c => (s, .error c)
    | .table _ => (s, .error pBadPte)
    | .leaf l => s.useWalked die core tenant k va.toNat held l

/-- The place of a page offset (06 R126). -/
def swizzle (geom bsize o : Nat) : Nat :=
  if geom = 1 then o ^^^ ((o / 2 ^ (7 + bsize) % 8) * 16) else o

/-- The location of a byte through a leaf. -/
def Leaf.loc (l : Leaf) (va : Nat) : Loc :=
  if l.hole then ⟨.hole, va⟩ else ⟨.m, l.pa + swizzle l.geom l.bsize (va % l.size)⟩

/-! ## Bytes at virtual addresses, for engines and hub agents -/

/-- Pieces of at most 64 bytes that no 64-byte line of addresses is cut by: (address, length). -/
def pieces : Nat → Dword → Nat → List (Dword × Nat)
  | 0, _, _ => []
  | f + 1, va, n =>
    if n = 0 then []
    else
      let k := min n (64 - va.toNat % 64)
      (va, k) :: pieces f (va + BitVec.ofNat 64 k) (n - k)

/-- The die number under which the hubs' own translations are tagged. -/
def hubDie : Nat := 8

/-- Translate every page of a range for a hub agent, without feedback; none when a page faults. -/
def State.hubLocs (s : State) (tenant : Nat) (k : Acc) (va : Dword) (n : Nat) : State × Option (List Loc) :=
  (pieces (n / 64 + 2) va n).foldl
    (fun acc p =>
      match acc with
      | (s, none) => (s, none)
      | (s, some ls) =>
        match s.translate hubDie none tenant k p.1 with
        | (s, .error _) => (s, none)
        | (s, .ok l) => (s, some (ls ++ (List.range p.2).map fun i => l.loc (p.1.toNat + i))))
    (s, some [])

/-- Write bytes at the home, one location after another. -/
def State.hubWrite (s : State) (ls : List Loc) (bs : List Byte) : State :=
  (ls.zip bs).foldl (fun s p => s.storeUnit .hub true [p.1] [p.2]) s

/-- Read bytes at the home. -/
def State.hubRead (s : State) (ls : List Loc) : State × List Byte :=
  s.readUnits .hub true (ls.map fun l => [l])

/-! ## Rings (25 R418) -/

/-- A ring's registers. -/
def State.ring (s : State) (r : RingId) : Ring :=
  match r with
  | .feedback t => (s.tenant t).feedback
  | .drill t => (s.tenant t).drill
  | .receive t => (s.tenant t).receive
  | .debug t => (s.tenant t).debug
  | .error => s.mgmt.errRing

def State.setRing (s : State) (r : RingId) (x : Ring) : State :=
  match r with
  | .feedback t => s.mapTenant t fun y => { y with feedback := x }
  | .drill t => s.mapTenant t fun y => { y with drill := x }
  | .receive t => s.mapTenant t fun y => { y with receive := x }
  | .debug t => s.mapTenant t fun y => { y with debug := x }
  | .error => { s with mgmt := { s.mgmt with errRing := x } }

/-- The bytes of an entry. -/
def ringEntry : RingId → Nat
  | .feedback _ => 16
  | .receive _ => 4160
  | .error => 32
  | _ => 64

/-- Drop an entry: OVF counts it, saturating. -/
def Ring.drop (r : Ring) : Ring := { r with ovf := if r.ovf = 0xFFFFFFFF then r.ovf else r.ovf + 1 }

/-- The tenant of a ring. -/
def ringTenant : RingId → Option Nat
  | .feedback t | .drill t | .receive t | .debug t => some t
  | .error => none

/-- Append an entry: drop it when the ring is full or has no entries, else write it, release at sys and only then advance HEAD.
A tenant's ring lies at a virtual address of the tenant, the management ring at a physical address; an entry whose
page faults is dropped (log entry 6). A store to a stack that has failed is an uncorrectable error of the ring's tenant
(25 R414). Answers whether the entry was written. -/
def State.ringAppend (s : State) (id : RingId) (bytes : List Byte) : State × Bool :=
  let r := s.ring id
  let n := ringEntry id
  let bs := (bytes ++ List.replicate n 0).take n
  if r.n = 0 ∨ r.head - r.tail = r.n then (s.setRing id r.drop, false)
  else
    let va := r.base + BitVec.ofNat 64 (n * (r.head.toNat % r.n.toNat))
    let (s, ls) : State × Option (List Loc) :=
      match ringTenant id with
      | some t => s.hubLocs t .engWrite va n
      | none => (s, some (Loc.range ⟨.m, va.toNat⟩ n))
    match ls with
    | none => (s.setRing id r.drop, false)
    | some ls =>
      let s := match ringTenant id with
        | some t => s.strikeStore t ls
        | none => s
      let s := (s.hubWrite ls bs).release .hub .sys
      (s.setRing id { r with head := r.head + 1 }, true)

/-! ## Feedback (06 R125) -/

/-- Log a hole's page: once among the last 256 that the die wrote for the tenant. -/
def State.logHole (s : State) (die tenant core : Nat) (k : Acc) (seq : Word) (va : Dword) : State :=
  let page := va.toNat / 65536 % 2 ^ 48
  let t := s.tenant tenant
  let mine := t.logged.filter fun p => p.1 == die
  if (mine.take 256).contains (die, page) then s
  else
    let bytes := leBytes 16 (core + k.code * 2 ^ 12 + page * 2 ^ 16 + seq.toNat * 2 ^ 64)
    let (s, written) := s.ringAppend (.feedback tenant) bytes
    if written then
      s.mapTenant tenant fun t =>
        { t with logged := (die, page) :: (((mine.take 255) ++ t.logged.filter fun p => p.1 != die)) }
    else s

/-- Log several holes. -/
def State.logHoles (s : State) (die tenant core : Nat) (k : Acc) (seq : Word) (vas : List Dword) : State :=
  vas.foldl (fun s va => s.logHole die tenant core k seq va) s

/-! ## Places of an access -/

/-- Where the bytes of an access stand, its virtual address or offset, and the addresses at which it met sparse holes. -/
structure Place where
  va : Dword := 0
  locs : List Loc := []
  uncached : Bool := false
  through : Bool := false
  bypass : Bool := false
  efmt : Nat := 0
  holes : List Dword := []
  deriving DecidableEq, Repr

/-- The place of n bytes through one leaf. -/
def Leaf.place (l : Leaf) (va : Dword) (n : Nat) : Place :=
  { va, locs := (List.range n).map fun i => l.loc (va.toNat + i), uncached := l.uncached, through := l.through
    bypass := l.bypass, efmt := l.efmt, holes := if l.hole then [va] else [] }

/-- n bytes at a virtual address; each page touched is translated once (06 R133, 09 R196).
A fault names its cause and the address that faulted. -/
def State.locate (s : State) (die : Nat) (core : Option Nat) (tenant : Nat) (k : Acc) (va : Dword) (n : Nat) :
    State × Except (Nat × Dword) Place :=
  let last := va + BitVec.ofNat 64 (n - 1)
  let holeAt (l : Leaf) (a : Dword) : List Dword := if l.hole then [a] else []
  match s.translate die core tenant k va with
  | (s, .error c) => (s, .error (c, va))
  | (s, .ok l) =>
    if va.toNat / l.size = last.toNat / l.size then
      (s, .ok (l.place va n))
    else
      match s.translate die core tenant k last with
      | (s, .error c) => (s, .error (c, last))
      | (s, .ok l2) =>
        (s, .ok {
          va, locs := (List.range n).map fun i =>
            let a := (va + BitVec.ofNat 64 i).toNat
            if a / l.size = va.toNat / l.size then l.loc a else l2.loc a
          uncached := l.uncached || l2.uncached, through := l.through || l2.through, bypass := l.bypass || l2.bypass
          efmt := l.efmt, holes := holeAt l va ++ holeAt l2 last })

/-! ## Explicit windows (06 R110) -/

/-- The spaces of an address. -/
inductive Space where
  | g | lane | core | quad | cald
  deriving DecidableEq, Repr

/-- X[2:0] of the memory majors and of the engine commands (09 R194). -/
def Space.ofCode (n : Nat) : Space :=
  match n with
  | 1 => .lane
  | 2 => .core
  | 3 => .quad
  | 4 => .cald
  | _ => .g

/-- ASPACE (09 R194). -/
def Space.ofAtom (n : Nat) : Space :=
  match n with
  | 1 => .core
  | 2 => .quad
  | 3 => .cald
  | _ => .g

/-- The start and size of a window for a wave's place: memory, first place, bytes. -/
def State.window (s : State) (w : WaveId) (lane : Nat) (sp : Space) : MemK × Nat × Nat :=
  let g := s.group w.group
  match sp with
  | .lane =>
    (.slice, w.pcore * Config.placeSpan + g.sliceBase + (if g.kd.quadwg then w.wave / 4 else w.wave) * (g.kd.lanesz * 1024)
      + lane * (g.kd.lanesz * 16), g.kd.lanesz * 16)
  | .core => (.sp, w.pcore * Config.placeSpan + g.spBase, g.kd.coresz * 4096)
  | .quad => (.qm, w.pquad * Config.placeSpan + g.qmBase, if g.kd.quadwg then g.kd.quadsz * 4096 else 0)
  | .cald =>
    let (size, base) := SMap.read (0, 0) (s.tenant w.tenant).calw w.die
    (.cal, w.die * Config.calBytes + base * 65536, size * 65536)
  | .g => (.m, 0, 0)

/-- The place of n bytes at an offset of a window, none beyond its bounds. DESIGN CHOICE (log entry 108): the offset stands
for the address in a drill record, since a `.cald` request has no virtual address (13 R259). -/
def State.windowPlace (s : State) (w : WaveId) (lane : Nat) (sp : Space) (off : Dword) (n : Nat) : Option Place :=
  let (k, base, size) := s.window w lane sp
  if off.toNat + n ≤ size then some { va := off, locs := Loc.range ⟨k, base + off.toNat⟩ n } else none

/-- Why an address faults: the trap cause, its SUB, and the address that faulted. -/
structure AddrFault where
  cause : Nat
  sub : Nat := 0
  at_ : Dword := 0
  deriving DecidableEq, Repr

/-- The core whose first-level TLB an agent at a wave's place uses; a die-level or hub agent, which stands at no core,
is given a core number beyond the die's. -/
def WaveId.tlbCore (w : WaveId) : Option Nat := if w.core < Config.coresPerDie then some w.pcore else none

/-- An address of a wave or of its engines: the place, or the fault (09 R196, orders 1 and 2). -/
def State.place (s : State) (w : WaveId) (lane : Nat) (sp : Space) (k : Acc) (a : Dword) (n : Nat) :
    State × Except AddrFault Place :=
  match sp with
  | .g =>
    match s.locate w.die w.tlbCore w.tenant k a n with
    | (s, .ok p) => (s, .ok p)
    | (s, .error (c, va)) => (s, .error { cause := tPageFault, sub := c, at_ := va })
  | sp =>
    match s.windowPlace w lane sp a n with
    | some p => (s, .ok p)
    | none => (s, .error { cause := tSpaceBounds, at_ := a })

end Sys2Proof.Machine
end

