-- ==== Sys2Proof/Machine/Access.lean ====
section
/-! DEFINITION. Memory instructions at issue (09 R193–R196, 06 R132): addresses, the checks of every acting lane, and
the ls entry they enter. -/

namespace Sys2Proof.Machine

open Sys2Proof

/-! ## Addresses -/

/-- Addr(l) of 09 R193: the scalar pair A, the vector offset when OFFV is set, and OFF sign-extended. -/
def memAddr (w : Wave) (e : Ext) (offv : Bool) (l : Nat) : Dword :=
  let base := BitVec.ofNat 64 (w.src e.lit e.a 64 l)
  let off : Dword := if offv then BitVec.ofNat 64 (w.src e.lit e.b 32 l) else 0
  base + off + e.off.signExtend 64

/-- The lanes in which a memory instruction acts: its acting lanes, or the lowest active lane when it acts once for
the split (09 R195). -/
def Wave.memLanes (w : Wave) (sp : Split) (e : Ext) (per : Bool) : List Nat :=
  if per then lanesOf (w.acting sp e.k) else (lanesOf (w.active sp)).take 1

/-! ## Checking every lane (09 R196) -/

/-- What a lane's access asks for: place, permission, bytes, and the alignment demanded (1 for none). -/
structure MemOp where
  space : Space
  acc : Acc
  bytes : Nat
  align : Nat := 1
  /-- a decoding load takes its element's width from the leaf (09 R197) -/
  dec : Option DType := none
  /-- the constant segment (09 R199): its base and size -/
  const : Option (Dword × Nat) := none
  deriving DecidableEq, Repr

/-- The width in bytes of the element that EFMT names; none for a block format. -/
def efmtBytes (efmt : Nat) (ty : DType) : Option Nat :=
  match DType.ofCode efmt with
  | some t => if t.isBlock then none else if efmt ≤ 5 then some ty.bytes else some t.bytes
  | none => none

/-- One access of one lane, through all four checks. DEDUCED (log entry 106): every byte of the access is placed before the
alignment is checked, but for a decoding load, whose size its first page gives: that is MISALIGNED before it touches a
second page (09 R196, R197). -/
def State.checkAccess (s : State) (w : WaveId) (lane : Nat) (m : MemOp) (a : Dword) : State × Except AddrFault Place :=
  let aligned (n : Nat) (p : Place) : Except AddrFault Place :=
    if a.toNat % n = 0 then .ok p else .error { cause := tMisaligned, at_ := a }
  match m.const with
  | some (base, size) =>
    if size < a.toNat + m.bytes then (s, .error { cause := tSpaceBounds, at_ := a })
    else
      match s.place w lane .g .load (base + a) m.bytes with
      | (s, .ok p) => (s, aligned m.align p)
      | r => r
  | none =>
    match m.dec with
    | none =>
      match s.place w lane m.space m.acc a m.bytes with
      | (s, .ok p) => (s, aligned m.align p)
      | r => r
    | some ty =>
      match s.place w lane m.space m.acc a 1 with
      | (s, .ok p) =>
        match efmtBytes p.efmt ty with
        | none => if p.holes = [] then (s, .error { cause := tDecFormat, at_ := a }) else (s, .ok { p with locs := p.locs.flatMap fun l => Loc.range l ty.bytes })
        | some n =>
          if a.toNat % n = 0 then
            (s, .ok { p with locs := match p.locs with
              | l :: _ => Loc.range l n
              | [] => [] })
          else (s, .error { cause := tMisaligned, at_ := a })
      | r => r

/-- The place of a trap in the order of 09 R196. -/
def faultOrder (cause : Nat) : Nat :=
  if cause = tSpaceBounds then 1 else if cause = tPageFault then 2 else if cause = tDecFormat then 3 else 4

/-- All places of some accesses of a lane, or the fault that comes first in the order of 09 R196; among equal
ones, that of the earliest access. -/
def State.checkAll (s : State) (w : WaveId) (lane : Nat) (m : MemOp) (as : List Dword) :
    State × Except (AddrFault × Dword) (List Place) :=
  as.foldl
    (fun acc a =>
      match acc.1.checkAccess w lane m a, acc.2 with
      | (s, .ok p), .ok ps => (s, .ok (ps ++ [p]))
      | (s, .ok _), .error g => (s, .error g)
      | (s, .error f), .ok _ => (s, .error (f, a))
      | (s, .error f), .error g => (s, .error (if faultOrder f.cause < faultOrder g.1.cause then (f, a) else g)))
    (s, .ok [])

/-- A lane's checked access: the lane, its address, and a place for each of its accesses. -/
structure Checked where
  lane : Nat
  addr : Dword
  places : List Place
  deriving DecidableEq, Repr

/-- Log the page of an atomic that a sparse hole faults (06 R123). -/
def State.logSparse (s : State) (w : WaveId) (k : Acc) (f : AddrFault) : State :=
  if f.cause = tPageFault ∧ f.sub = pSparseAtom then s.logHole w.die w.tenant w.core k 0 f.at_ else s

/-- The checks of all lanes, each with its addresses: every lane's places, or the fault of the lowest lane that has
one, with the lane and the address it reports. -/
def State.checkLanes (s : State) (w : WaveId) (m : MemOp) (addrs : Nat → List Dword) (ls : List Nat) :
    State × Except (AddrFault × Nat × Dword) (List Checked) :=
  ls.foldl
    (fun acc l =>
      let as := addrs l
      match acc.1.checkAll w l m as, acc.2 with
      | (s, .ok _), .error f => (s, .error f)
      | (s, .error (g, _)), .error f => (s.logSparse w m.acc g, .error f)
      | (s, .error (f, a)), .ok _ => (s.logSparse w m.acc f, .error (f, l, a))
      | (s, .ok ps), .ok cs => (s, .ok (cs ++ [{ lane := l, addr := as.headD 0, places := ps }])))
    (s, .ok [])

/-- Set bits of %resmiss (06 R124). -/
def Wave.missed (w : Wave) (m : Mask) : Wave := { w with resmiss := w.resmiss ||| m }

/-! ## Passes of the scratchpad (06 R112–R114) -/

/-- The bank words that a lane's bytes take: (slice, bank, word), the slice being 0 in a scratchpad. -/
def bankWords (quad : Bool) (ls : List Loc) : List (Nat × Nat) :=
  (ls.map fun l =>
    if quad then
      let o := l.a % Config.placeSpan
      let p := o / 1024 * 256 + o % 256
      (o / 256 % 4 * 32 + p / 4 % 32, o / 4)
    else (l.a % Config.placeSpan / 4 % 32, l.a / 4)).eraseDups

/-- Passes of one half in one slice: the most distinct words that one bank serves, at least one. -/
def halfPasses (ws : List (Nat × Nat)) : Nat :=
  max 1 ((ws.map fun p => (ws.filter fun q => q.1 == p.1).length).foldl max 0)

/-- Passes of an access whose two halves name some bytes: a scratchpad serves the halves one after the other; the four
slices of quad memory do so in parallel, and the busiest decides. -/
def bothPasses (quad : Bool) (lo hi : List (List Loc)) : Nat :=
  let words (h : List (List Loc)) : List (Nat × Nat) := (h.flatMap (bankWords quad)).eraseDups
  let wl := words lo
  let wh := words hi
  let share (j : Nat) (ws : List (Nat × Nat)) : List (Nat × Nat) := ws.filter fun p => p.1 / 32 == j
  ((List.range 4).map fun j =>
    if share j wl = [] ∧ share j wh = [] then 0 else halfPasses (share j wl) + halfPasses (share j wh)).foldl max 0

/-- The bytes of the other half of a ganged pair that has issued its part of the same instruction in this clock: only
that can hold the memory slot already (07 R146). -/
def State.otherHalf (s : State) (w : WaveId) : List (List Loc) :=
  if w.gang = 0 ∨ (SMap.read {} s.held w.pcore).memTo ≤ s.dieClock w.die then []
  else match s.wave w.partner with
    | none => []
    | some o =>
      match (s.ls.filter fun x => x.uid == o.id.uid).getLast? with
      | some x => x.lanes.map (·.locs)
      | none => []

/-- The clocks for which an access holds the memory slot (06 R113, R114, 07 R147): in the scratchpad and in quad
memory the passes of both halves, none when no lane acts, elsewhere the one of its issue. -/
def State.passes (s : State) (w : WaveId) (sp : Space) (cs : List Checked) : Nat :=
  let locs (p : Nat → Bool) : List (List Loc) := (cs.filter fun c => p c.lane).map fun c => c.places.flatMap (·.locs)
  let hi := if w.gang = 0 then locs (32 ≤ ·) else s.otherHalf w
  match sp with
  | .core => if cs = [] then 0 else bothPasses false (locs (· < 32)) hi
  | .quad => if cs = [] then 0 else bothPasses true (locs (· < 32)) hi
  | _ => 1

/-- Hold the memory slot of the wave's core. -/
def State.holdMem (s : State) (w : WaveId) (n : Nat) : State :=
  let h : Hold := SMap.read {} s.held w.pcore
  { s with held := SMap.write {} s.held w.pcore { h with memTo := max h.memTo (s.dieClock w.die + n) } }

/-- Memory requests of a core that are outstanding: the accesses of its unperformed ls entries (03 R44, 06 R131). -/
def State.outstanding (s : State) (pcore : Nat) : Nat :=
  ((s.ls.filter fun x => x.core == pcore).map fun x => x.lanes.length).foldl (· + ·) 0

/-! ## Entering the ls stream (05 R81, R83) -/

/-- The completion of a memory instruction: where a load's result lands and whether it attaches to a flag. -/
structure Landing where
  fb : Bool := false
  vregs : List Nat := []
  sregs : List Nat := []
  long : Bool := false
  deriving DecidableEq, Repr

/-- Issue an ls entry; a long-latency instruction attaches to its flag (03 R45, R46). -/
def State.pushLs (s : State) (i : Issue) (w : Wave) (sp : Split) (ld : Landing) (x : LsEntry) : State :=
  let x := { x with uid := w.id.uid, die := w.id.die, core := w.id.pcore, tenant := w.id.tenant, split := i.split, pc := i.pc }
  if ld.long then
    let va := ((x.lanes.head?).map (·.va)).getD 0
    let (s, w, op) := s.attach w sp ld.fb ld.vregs ld.sregs
      { id := 0, uid := 0, flag := none, ready := false, pc := i.pc, va }
    let s := { s.bump with ls := s.ls ++ [{ x with id := s.nextId, age := s.nextId, op := some op }] }
    s.done i w
  else
    let s := { s.bump with ls := s.ls ++ [{ x with id := s.nextId, age := s.nextId }] }
    s.done i w

/-- A store or an atomic to `.g` or `.cald` ends a workgroup's IDEMP (10 R243). -/
def Acc.endsIdemp (k : Acc) (sp : Space) : Bool := k.writes && (sp == .g || sp == .cald)

/-- A memory instruction: the checks of 03 R56, then every acting lane's address checks, and on success the ls entry
that `mk` builds from the checked lanes. It stalls while its requests would take its core beyond those that may be
outstanding. -/
def State.memInstr (s : State) (u : Uses) (e : Ext) (per : Bool) (m : MemOp) (addrs : Wave → Nat → List Dword)
    (mk : State → Issue → Wave → Split → List Checked → State) : State :=
  s.checked u fun i w sp =>
    let ls := w.memLanes sp e per
    if !per && ls = [] then s.done i w
    else
      match s.checkLanes w.id m (addrs w) ls with
      | (s, .error (f, l, a)) => s.trapAt i f.cause f.sub l a
      | (t, .ok cs) =>
        if Config.coreRequests < s.outstanding w.id.pcore + (cs.map fun c => c.places.length).foldl (· + ·) 0 then s else
        let s := t
        let holes := cs.flatMap fun c => c.places.flatMap (·.holes)
        let s := s.logHoles w.id.die w.id.tenant w.id.core m.acc 0 holes
        let s := if m.acc.endsIdemp m.space then s.clearIdemp w.id else s
        let s := s.holdMem w.id (s.passes w.id m.space cs)
        let met := (cs.filter fun c => c.places.any fun p => p.holes != []).foldl (fun k c => k ||| laneBit c.lane) 0
        let w := if m.acc = .load then w.missed met else w
        mk s i w sp cs

/-- The lane records of an ls entry from the checked lanes, each with the address and the data of its lane and row. -/
def lsLanes (cs : List Checked) (data : Nat → Nat → List Byte) (u : Nat → Nat := fun _ => 0) : List LsLane :=
  cs.flatMap fun c =>
    c.places.zipIdx.map fun p =>
      { lane := c.lane, locs := p.1.locs, data := data c.lane p.2, efmt := p.1.efmt, uncached := p.1.uncached,
        through := p.1.through, bypass := p.1.bypass, va := p.1.va, u := u c.lane, hole := p.1.holes != [] }

end Sys2Proof.Machine
end

