-- ==== Sys2Proof/Machine/MemoryOps.lean ====
section
/-! DEFINITION. Loads, stores, atomics and exact accumulators at issue: majors 0x1A–0x1C and 0x33 (09 R197–R214). -/

namespace Sys2Proof.Machine

open Sys2Proof

/-- OFFV of majors 0x1A and 0x1B, and their SPACE. -/
def offvA (e : Ext) : Bool := e.x.getLsbD 3
def spaceA (e : Ext) : Space := Space.ofCode (e.x.toNat % 8)
/-- OFFV of majors 0x1C and 0x33, and their ASPACE. -/
def offvB (e : Ext) : Bool := e.x.getLsbD 2
def spaceB (e : Ext) : Space := Space.ofAtom (e.x.toNat % 4)

/-- Does the instruction act per lane (09 R195)? -/
def perLaneA (e : Ext) (d c : Bool) : Bool := offvA e || (d && e.d.isV) || (c && e.c.isV)
def perLaneB (e : Ext) (d c : Bool) : Bool := offvB e || (d && e.d.isV) || (c && e.c.isV)

/-- One address a lane. -/
def oneAddr (e : Ext) (offv : Bool) (w : Wave) (l : Nat) : List Dword := [memAddr w e offv l]

/-- The registers of a destination of n bytes. -/
def destOf (e : Ext) : Dest :=
  match e.d with
  | .v r => .vec r.toNat
  | .s r => .scal r.toNat
  | _ => .none

/-- The landing of a long-latency memory instruction that writes n registers. -/
def landingOf (e : Ext) (n : Nat) : Landing :=
  { fb := e.fb, vregs := vregsOf e.d n, sregs := sregsOf e.d n, long := true }

def longUses (f : Form) (e : Ext) : Uses := { usesOf f e with long := some (e.fb, e.d.isV) }

/-- The registers that a value of n bytes takes. -/
def regsFor (n : Nat) : Nat := max 1 (n / 4)

/-- The operand C of a lane as n bytes. -/
def dataC (w : Wave) (e : Ext) (n l : Nat) : List Byte := leBytes n (w.src e.lit e.c (8 * n) l)

/-! ## Loads -/

/-- A plain or acquiring load. -/
def State.loadInstr (s : State) (f : Form) (e : Ext) (m : MemOp) (ord : Ordr) : State :=
  s.memInstr (longUses f e) e (perLaneA e true false) m (oneAddr e (offvA e)) fun s i w sp cs =>
    s.pushLs i w sp (landingOf e (regsFor m.bytes))
      { id := 0, uid := 0, die := 0, core := 0, tenant := 0, age := 0, split := 0, kind := .load, ty := e.ty, ord,
        scope := e.scope, lanes := lsLanes cs fun _ _ => [], dest := destOf e }

/-- A decoding load; under SR every acting lane takes one draw (04 R65). -/
def State.loadDec (s : State) (e : Ext) : State :=
  s.withCur fun _ w sp =>
    let per := perLaneA e true false
    let ls := w.memLanes sp e per
    if e.rnd = .sr && s.drawsBlocked w.id.uid ls then s
    else
      let m : MemOp := { space := .g, acc := .load, bytes := e.ty.bytes, dec := some e.ty }
      s.memInstr (longUses Form.ld e) e per m (oneAddr e (offvA e)) fun s i w sp cs =>
        let (s, us) := s.takeDraws w i (if e.rnd = .sr then 1 else 0) (cs.map (·.lane))
        s.pushLs i w sp (landingOf e (regsFor e.ty.bytes))
          { id := 0, uid := 0, die := 0, core := 0, tenant := 0, age := 0, split := 0, kind := .load, ty := e.ty,
            form := .dec e.rnd e.sat e.ftz, lanes := lsLanes cs (fun _ _ => []) fun l => drawOf (us.getD l []),
            dest := destOf e }

/-- LD (09 R197). -/
def execLd (e : Ext) (s : State) : Host.Outcome State Fault Refusal :=
  .next (if e.x.getLsbD 4 then s.loadDec e
    else s.loadInstr Form.ld e { space := spaceA e, acc := .load, bytes := e.ty.bytes } .plain)

/-- The rows of LDB and STB: n of them, w bytes for each lane (09 R198). -/
def rowCount (e : Ext) : Nat := e.x.toNat / 16 % 8 + 1
def rowAddrs (e : Ext) (w : Wave) (l : Nat) : List Dword :=
  let b := e.ty.bytes
  (List.range (rowCount e)).map fun i => memAddr w e false l + BitVec.ofNat 64 (64 * b * i + b * l)

/-- LDB (09 R198). -/
def execLdb (e : Ext) (s : State) : Host.Outcome State Fault Refusal :=
  let b := e.ty.bytes
  .next (s.memInstr (longUses Form.ldb e) e true { space := spaceA e, acc := .load, bytes := b, align := b } (rowAddrs e)
    fun s i w sp cs =>
      s.pushLs i w sp (landingOf e (rowCount e * (b / 4)))
        { id := 0, uid := 0, die := 0, core := 0, tenant := 0, age := 0, split := 0, kind := .load, ty := e.ty,
          form := .rows (rowCount e), lanes := lsLanes cs fun _ _ => [], dest := destOf e })

/-- LDC (09 R199): an offset into the constant segment of the kernel. -/
def execLdc (e : Ext) (s : State) : Host.Outcome State Fault Refusal :=
  .next (s.withCur fun _ w _ =>
    let kd := (s.group w.id.group).kd
    s.loadInstr Form.ldc e
      { space := .g, acc := .load, bytes := e.ty.bytes, align := e.ty.bytes, const := some (kd.consta, kd.constn) } .plain)

/-- LDA (09 R200). -/
def execLda (e : Ext) (s : State) : Host.Outcome State Fault Refusal :=
  .next (s.loadInstr Form.lda e
    { space := spaceA e, acc := .load, bytes := e.ty.bytes, align := e.ty.bytes } .acq)

/-- PRF (09 R201): fills caches, which hold no architected state, and never faults.
A line off its home die may become a copy; which lines do is a timing matter, and none is taken here. -/
def execPrf (e : Ext) (s : State) : Host.Outcome State Fault Refusal :=
  .next (s.checked (usesOf Form.prf e) fun i w _ => s.done i w)

/-! ## Stores -/

def State.storeInstr (s : State) (f : Form) (e : Ext) (m : MemOp) (ord : Ordr) : State :=
  s.memInstr (usesOf f e) e (perLaneA e false true) m (oneAddr e (offvA e)) fun s i w sp cs =>
    s.pushLs i w sp {}
      { id := 0, uid := 0, die := 0, core := 0, tenant := 0, age := 0, split := 0, kind := .store, ty := e.ty, ord,
        scope := e.scope, lanes := lsLanes cs fun l _ => dataC w e m.bytes l }

/-- ST (09 R202). -/
def execSt (e : Ext) (s : State) : Host.Outcome State Fault Refusal :=
  .next (s.storeInstr Form.st e { space := spaceA e, acc := .store, bytes := e.ty.bytes } .plain)

/-- STB (09 R203). -/
def execStb (e : Ext) (s : State) : Host.Outcome State Fault Refusal :=
  let b := e.ty.bytes
  let c := match e.c with
    | .v r => r.toNat
    | _ => 0
  .next (s.memInstr (usesOf Form.stb e) e true { space := spaceA e, acc := .store, bytes := b, align := b } (rowAddrs e)
    fun s i w sp cs =>
      s.pushLs i w sp {}
        { id := 0, uid := 0, die := 0, core := 0, tenant := 0, age := 0, split := 0, kind := .store, ty := e.ty,
          lanes := lsLanes cs fun l j => leBytes b (w.getVs (c + j * (b / 4)) (b / 4) l) })

/-- STL (09 R204). -/
def execStl (e : Ext) (s : State) : Host.Outcome State Fault Refusal :=
  .next (s.storeInstr Form.stl e
    { space := spaceA e, acc := .store, bytes := e.ty.bytes, align := e.ty.bytes } .rel)

/-! ## Atomics -/

/-- An atomic with one address a lane; `ret` holds the number of registers when it returns a value to D, and `useC`
says whether it has an operand C. -/
def State.atomInstr (s : State) (f : Form) (e : Ext) (kind : LsKind) (m : MemOp) (ret : Option Nat) (useC : Bool)
    (data : Wave → Nat → List Byte) : State :=
  s.memInstr (if ret.isSome then longUses f e else usesOf { f with d := .unused } e) e (perLaneB e ret.isSome useC) m
    (oneAddr e (offvB e))
    fun s i w sp cs =>
      s.pushLs i w sp (match ret with
        | some n => landingOf e n
        | none => {})
        { id := 0, uid := 0, die := 0, core := 0, tenant := 0, age := 0, split := 0, kind, ty := e.ty, ord := e.ord,
          scope := e.scope, lanes := lsLanes cs fun l _ => data w l, dest := if ret.isSome then destOf e else .none }

/-- FAO (09 R207). -/
def execFao (e : Ext) (s : State) : Host.Outcome State Fault Refusal :=
  let n := e.ty.bytes
  .next (s.atomInstr Form.fao e (.fao (e.x.toNat / 8)) { space := spaceB e, acc := .atomic, bytes := n, align := n }
    (some (regsFor n)) true fun w l => dataC w e n l)

/-- CAS (09 R208): the compare value and the new value stand in C one after the other. -/
def execCas (e : Ext) (s : State) : Host.Outcome State Fault Refusal :=
  let n := e.ty.bytes
  .next (s.atomInstr Form.cas e .cas { space := spaceB e, acc := .atomic, bytes := n, align := n }
    (some (regsFor n)) true fun w l => dataC w e (2 * n) l)

/-- RED (09 R209). -/
def execRed (e : Ext) (s : State) : Host.Outcome State Fault Refusal :=
  let n := e.ty.bytes
  .next (s.atomInstr Form.red e (.red (e.x.toNat / 8) e.rnd e.ftz)
    { space := spaceB e, acc := .red, bytes := n, align := n } none true fun w l => dataC w e n l)

/-- The atomic operation that VAT's OP names (09 R210), in the codes of 09 R207. -/
def vatOp (e : Ext) : Nat :=
  match e.x.toNat / 8 % 8 with
  | 0 => 0
  | 1 => 5
  | 2 => 6
  | 3 => 2
  | 4 => 3
  | 5 => 4
  | _ => 7

/-- VAT (09 R210). -/
def execVat (e : Ext) (s : State) : Host.Outcome State Fault Refusal :=
  let c := match e.c with
    | .v r => r.toNat
    | _ => 0
  let ret := e.x.getLsbD 6
  .next (s.atomInstr Form.vat e (.vat (vatOp e) ret e.rnd e.ftz)
    { space := spaceB e, acc := .atomic, bytes := 32, align := 32 } (if ret then some 8 else none) true
    fun w l => leBytes 32 (w.getVs c 8 l))

/-- XACC (09 R211). -/
def execXacc (e : Ext) (s : State) : Host.Outcome State Fault Refusal :=
  .next (s.atomInstr Form.xacc e .xacc { space := spaceB e, acc := .atomic, bytes := 64, align := 64 } none true
    fun w l => dataC w e 4 l)

/-- XRD (09 R212). -/
def execXrd (e : Ext) (s : State) : Host.Outcome State Fault Refusal :=
  .next (s.withCur fun _ w sp =>
    let per := perLaneB e true false
    let ls := w.memLanes sp e per
    if e.rnd = .sr && s.drawsBlocked w.id.uid ls then s
    else
      s.memInstr (longUses Form.xrd e) e per { space := spaceB e, acc := .load, bytes := 64, align := 64 }
        (oneAddr e (offvB e)) fun s i w sp cs =>
          let (s, us) := s.takeDraws w i (if e.rnd = .sr then 1 else 0) (cs.map (·.lane))
          s.pushLs i w sp (landingOf e (regsFor e.ty.bytes))
            { id := 0, uid := 0, die := 0, core := 0, tenant := 0, age := 0, split := 0, kind := .xrd e.rnd, ty := e.ty,
              form := .dec e.rnd e.sat e.ftz, ord := e.ord, scope := e.scope,
              lanes := lsLanes cs (fun _ _ => []) fun l => drawOf (us.getD l []), dest := destOf e })

/-- XCLR (09 R213): a write of 64 zero bytes; on a sparse hole it writes nothing. -/
def execXclr (e : Ext) (s : State) : Host.Outcome State Fault Refusal :=
  .next (s.atomInstr Form.xclr e .xclr { space := spaceB e, acc := .store, bytes := 64, align := 64 } none false
    fun _ _ => List.replicate 64 0)

end Sys2Proof.Machine
end

