-- ==== Sys2Proof/Machine/Keccak.lean ====
section
/-! DEFINITION. SHAKE256, by which the security engine extends a measurement register (25 R431): a sponge over 200
bytes, 136 of which take in a block. The step constants come from their defining recurrences, not from tables. -/

namespace Sys2Proof.Keccak

/-- The sponge's 1,600 bits as five sheets, sheet x holding the 64-bit lanes (x, 0) to (x, 4). -/
abbrev Sponge := List (List (BitVec 64))

def lane (a : Sponge) (x y : Nat) : BitVec 64 := ((a.getD (x % 5) []).getD (y % 5) 0)

/-- A sponge by the value of each lane. -/
def build (f : Nat → Nat → BitVec 64) : Sponge := (List.range 5).map fun x => (List.range 5).map (f x)

/-- The walk that visits every lane but (0, 0) once, with the rotation of each: the triangular numbers. -/
def rotations : Nat → Nat → Nat → Nat → List ((Nat × Nat) × Nat)
  | 0, _, _, _ => []
  | n + 1, x, y, r => ((x, y), (r + 24 - n) % 64) :: rotations n y ((2 * x + 3 * y) % 5) (r + 24 - n)

def rotation (x y : Nat) : Nat := (((rotations 24 1 0 0).find? fun p => p.1 == (x, y)).map (·.2)).getD 0

/-- The feedback register of eight bits that the round constants are taken from. -/
def feedback : Nat → Nat
  | 0 => 1
  | n + 1 => let r := 2 * feedback n; if r < 256 then r else r ^^^ 0x171

/-- The constant of a round: bit 2^j − 1 is the register's low bit after 7 × round + j steps. -/
def constant (round : Nat) : BitVec 64 :=
  (List.range 7).foldl (fun c j => if (feedback (7 * round + j)).testBit 0 then c ||| BitVec.ofNat 64 (2 ^ (2 ^ j - 1)) else c) 0

def constants : List (BitVec 64) := (List.range 24).map constant

/-- Every lane takes the parities of the sheet before it and, rotated, of the sheet after it. -/
def mixSheets (a : Sponge) : Sponge :=
  let parity := a.map fun sheet => sheet.foldl (· ^^^ ·) 0
  build fun x y => lane a x y ^^^ parity.getD ((x + 4) % 5) 0 ^^^ (parity.getD ((x + 1) % 5) 0).rotateLeft 1

/-- Lane (x, y) comes, rotated, from the lane that the walk steps to it from. -/
def scatter (a : Sponge) : Sponge :=
  build fun x y => (lane a (x + 3 * y) x).rotateLeft (rotation ((x + 3 * y) % 5) x)

/-- The one non-linear step, along the rows. -/
def mixRows (a : Sponge) : Sponge :=
  build fun x y => lane a x y ^^^ (lane a (x + 2) y &&& ~~~ lane a (x + 1) y)

def permute (a : Sponge) : Sponge :=
  constants.foldl
    (fun a c => (mixRows (scatter (mixSheets a))).modify 0 fun sheet => sheet.modify 0 (· ^^^ c)) a

/-- Bytes of a block. -/
def rate : Nat := 136

/-- Take in a block given as a number of 136 bytes. -/
def absorb (a : Sponge) (block : Nat) : Sponge :=
  permute (build fun x y => lane a x y ^^^ BitVec.ofNat 64 (block / 2 ^ (64 * (x + 5 * y))))

/-- Take in bytes; the last block, which may hold no byte of them, ends with SHAKE's suffix 1111 and the padding. -/
def absorbAll (bs : List Byte) : Sponge :=
  let full := bs.length / rate
  let a := (List.range full).foldl (fun a i => absorb a (leNat ((bs.drop (rate * i)).take rate))) (build fun _ _ => 0)
  let rest := bs.drop (rate * full)
  absorb a (leNat rest + (0x1F * 2 ^ (8 * rest.length) ^^^ 2 ^ (8 * rate - 1)))

/-- SHAKE256 taken to 64 bytes. -/
def shake256 (bs : List Byte) : List Byte :=
  let a := absorbAll bs
  (List.range 8).flatMap fun i => leBytes 8 (lane a i (i / 5)).toNat

end Sys2Proof.Keccak
end

