-- ==== Sys2Proof/Machine/Perform.lean ====
section
/-! DEFINITION. What the ordering machine does of its own accord (05 R83–R105, 03 R44, 01 R15, 13 R249–R259): an ls entry
is performed, a buffered store moves, a long-latency result lands, and accesses from outside reach M. -/

namespace Sys2Proof.Machine

open Sys2Proof

/-! ## When an ls entry may be performed (05 R83, R92, R93, R105) -/

def LsEntry.isFence (e : LsEntry) : Bool := e.kind == .fence
def LsEntry.releases (e : LsEntry) : Bool :=
  e.ord == .rel || e.ord == .ar || (match e.kind with
    | .arrive _ => true
    | _ => false)
def LsEntry.isDepart (e : LsEntry) : Bool :=
  match e.kind with
  | .depart _ => true
  | _ => false
def LsEntry.acquires (e : LsEntry) : Bool := e.ord == .acq || e.ord == .ar || e.isDepart

/-- Does the entry read memory? -/
def LsEntry.reads (e : LsEntry) : Bool :=
  match e.kind with
  | .load | .fao _ | .cas | .xrd _ | .xacc => true
  | .vat _ _ _ _ => true
  | _ => false

/-- A store or an atomic. DEDUCED (log entry 102): XRD, which writes nothing, is none of the atomics that a FENCE.rel holds
back, as 05 R95 and 06 R123 leave it out. -/
def LsEntry.stores (e : LsEntry) : Bool :=
  match e.kind with
  | .load | .fence | .arrive _ | .depart _ | .xrd _ => false
  | _ => true

/-- The locations of an entry, holes left out. -/
def LsEntry.locs (e : LsEntry) : List Loc := (e.lanes.flatMap (·.locs)).filter fun l => l.k != .hole

/-- The locations of which an entry takes the value that stands there: those of a read, and those of a RED that forms no
partial (05 R96, 09 R205); a partial takes the value only as it folds. -/
def LsEntry.takes (e : LsEntry) : List Loc :=
  match e.kind with
  | .red _ _ _ => e.locs.filter fun l => l.k != .m || paKind l.a == .remote
  | _ => if e.reads then e.locs else []

/-- Do two entries name a common location? -/
def LsEntry.meets (x y : LsEntry) : Bool :=
  let b := y.locs
  x.locs.any b.contains

/-- Must e wait for the earlier entry x of its wave? DEDUCED (log entry 95): an acquire that reads nothing itself waits for
every earlier entry that reads, the atomics among them. -/
def LsEntry.waitsFor (e x : LsEntry) : Bool :=
  e.releases || x.acquires || (x.isFence && x.releases && e.stores) ||
  ((e.isFence || e.isDepart) && e.acquires && x.reads) || x.meets e

/-- Is a QFENCE of the wave in force for a stream, before an age (05 R105)? Bit 16 names ls. -/
def State.fenced (s : State) (uid stream age : Nat) : Bool :=
  s.fences.any fun f => f.uid == uid && f.age < age && f.set.getLsbD stream

/-- May the entry be performed now: nothing before it holds it, and its die's clock runs? -/
def State.performable (s : State) (e : LsEntry) : Bool :=
  s.dieRuns e.die && !s.fenced e.uid 16 e.age && s.ls.all fun x => x.uid != e.uid || e.age ≤ x.age || !e.waitsFor x

/-- An entry whose accesses are all performed and whose posting waits for room. Only a member of a joint instance counts as
performed no sooner than at its posting (15 R283). DEDUCED (log entry 72): of any other entry 05 R103 asks no more. -/
def QEntry.performed (e : QEntry) : Bool := e.post.isSome && e.joined.isNone

/-- Bring the fences up to date: the LQ entries that must leave are noted once the ls entries before a fence are
performed, and a fence ends when everything before it is done (05 R105). DEDUCED (log entry 72): an entry whose result only
waits for room is done, but for a joint member. -/
def State.settleFences (s : State) : State :=
  match s.fences with
  | [] => s
  | fs =>
    let coreOf (uid : Nat) : Nat := (s.ctx uid).id.pcore
    let lsLeft (f : QFence) : Bool := f.set.getLsbD 16 && s.ls.any fun x => x.uid == f.uid && x.age < f.age
    let qLeft (f : QFence) : Bool :=
      s.entries.any fun x => x.uid == f.uid && x.age < f.age && decide (x.q < 16) && f.set.getLsbD x.q && !x.performed
    let noted := fs.map fun f =>
      if f.drain.isNone && !lsLeft f then
        { f with drain := some (if f.set.getLsbD 16 then
            (s.lq.filter fun x => x.own == coreOf f.uid).map (·.id) else []) }
      else f
    let drained (f : QFence) : Bool :=
      match f.drain with
      | none => false
      | some ids => s.lq.all fun x => !ids.contains x.id
    { s with fences := noted.filter fun f => qLeft f || !drained f }

/-! ## Values of loads -/

/-- The words of loaded bytes under a type: narrow values extended to one register (09 R197). -/
def loadWords (ty : DType) (bs : List Byte) : List Word :=
  let v := leNat bs
  if bs.length < 4 then [BitVec.ofNat 32 (widen ty (8 * bs.length) v)]
  else (List.range (bs.length / 4)).map fun j => BitVec.ofNat 32 (v / 2 ^ (32 * j))

/-- A decoded element under EFMT: raw widths are placed as they stand (09 R197). -/
def decodeElem (ty : DType) (efmt : Nat) (m : Num.RMode) (v : Nat) : Num.Res :=
  match DType.ofCode efmt with
  | some t =>
    if efmt ≤ 5 || t.isBlock then { bits := v }
    else if t = ty then
      match Num.fmtOf t with
      | some f => f.result m (f.input m.ftz v)
      | none => { bits := v }
    else Num.convert ty t m v
  | none => { bits := v }

/-- The words of a value of TYPE. -/
def valueWords (ty : DType) (v : Nat) : List Word :=
  (List.range (max 1 (ty.bits / 32))).map fun j => BitVec.ofNat 32 (widen ty ty.bits v / 2 ^ (32 * j))

/-- Words for the registers of a destination, lane by lane. -/
structure Landed where
  vw : List (Nat × Nat × Word) := []
  sw : List (Nat × Word) := []
  fl : Word := 0
  deriving DecidableEq, Repr

/-- One lane's words at the destination. DEDUCED (log entry 105): the lanes of an FAO or CAS with a scalar D write it in
ascending order (09 R207), so the old value of the highest acting lane stays. -/
def landAt (d : Dest) (l : Nat) (ws : List Word) (fl : Word) : Landed :=
  match d with
  | .none => { fl }
  | .vec r => { vw := ws.zipIdx.map fun p => (r + p.2, l, p.1), fl }
  | .scal r => { sw := ws.zipIdx.map fun p => (r + p.2, p.1), fl }

def Landed.app (a b : Landed) : Landed := { vw := a.vw ++ b.vw, sw := a.sw ++ b.sw, fl := a.fl ||| b.fl }

/-! ## Drill records (13 R258, R259) -/

/-- What a request's record holds, apart from the times; `beyond`: no first-level cache may have served it, since its page
keeps none (06 R127) or an atomic is performed at its home (05 R95). -/
structure DrillReq where
  pc : Dword
  va : Dword
  die : Nat
  core : Nat
  slot : Nat
  kind : Nat
  comb : Bool
  loc : Loc
  uncached : Bool
  beyond : Bool
  deriving DecidableEq, Repr

/-- SRC of a record: caches where one may have served, else the memory behind. Which one served is free, and so is what
is said of a sparse hole, which nothing serves. -/
def drillSrc (fresh : Nat) (r : DrillReq) : Nat :=
  let back := match r.loc.k with
    | .cal => 2
    | .hole => Config.freeNat fresh % 7
    | _ => match paKind r.loc.a with
      | .hbm => 3
      | .lpddr => 4
      | .host => 5
      | _ => 6
  if r.loc.k != .m || paKind r.loc.a = .remote || r.uncached then back
  else if Config.freeNat fresh % 3 = 0 && !r.beyond then 0 else if Config.freeNat fresh % 3 = 1 then 1 else back

/-- May a request have waited in the queues of time field j, L1Q to MCQ in the order of 13 R259? One that a first-level cache
served passed no switch; a bridge leads to another home die, a hub to the host and other packages, a link to the latter,
unless a cache before it served; memory controllers stand before HBM and LPDDR, in another package too. What a request to a
hole passed is free. -/
def DrillReq.passed (r : DrillReq) (src j : Nat) : Bool :=
  let kind := paKind r.loc.a
  let away (k : PaKind) : Bool := r.loc.k == .m && kind == k
  r.loc.k == .hole || match j with
    | 0 => true
    | 4 => src != 0 && r.loc.k == .m && (match homeDie r.loc.a with
      | some k => k != r.die
      | none => false)
    | 5 => decide (2 < src) && (away .host || away .remote)
    | 6 => decide (2 < src) && away .remote
    | 7 => decide (2 < src) && src != 5
    | _ => src != 0

/-- The 64 bytes of a record; the times of the queues it may have waited in are measured, so they are free values (log
entry 4). -/
def drillBytes (fresh : Nat) (r : DrillReq) : List Byte :=
  let src := drillSrc (fresh + 9) r
  let t (j : Nat) : Nat := if r.passed src j then min 0xFFFF (Config.freeNat (fresh + j)) else 0
  let total := min 0xFFFFFFFF (Config.freeNat (fresh + 8))
  let lo := r.slot * 2 ^ 200 + src * 2 ^ 208 + r.comb.toNat * 2 ^ 211 + r.kind * 2 ^ 212 + r.core * 2 ^ 216
    + total * 2 ^ 224
  let times := (List.range 8).foldl (fun acc j => acc + t j * 2 ^ (368 - 16 * j)) 0
  leBytes 64 (lo + times + r.va.toNat * 2 ^ 384 + r.pc.toNat * 2 ^ 448)

/-- Count some requests of a core and answer the records of the marked ones. DESIGN CHOICE (log entry 91): only the
requests of tenant TENANT advance the count. -/
def State.drill (s : State) (pcore tenant : Nat) (rs : List DrillReq) : State × List (List Byte) :=
  match SMap.find s.blocks pcore with
  | none => (s, [])
  | some b =>
    if !b.drEn || b.drTenant ≠ tenant then (s, [])
    else
      rs.foldl
        (fun acc r =>
          let (s, out) := acc
          let b := SMap.read ({} : DebugBlock) s.blocks pcore
          let n := b.drCount + 1
          let s := { s with blocks := SMap.insert s.blocks pcore { b with drCount := n % 2 ^ b.drPeriod } }
          if n % 2 ^ b.drPeriod = 0 then ({ s with fresh := s.fresh + 10 }, out ++ [drillBytes s.fresh r]) else (s, out))
        (s, [])

/-- Append drill records to the tenant's ring. -/
def State.drillAppend (s : State) (tenant : Nat) (rs : List (List Byte)) : State :=
  rs.foldl (fun s r => (s.ringAppend (.drill tenant) r).1) s

/-- Is a location one that a core's memory port counts: `.g`, sparse holes among it, or `.cald`? -/
def drillable (l : Loc) : Bool := l.k == .m || l.k == .cal || l.k == .hole

/-- KIND of a drill record. -/
def LsKind.drillKind : LsKind → Nat
  | .load => 0
  | .store => 1
  | .fao _ => 2
  | .red _ _ _ => 4
  | _ => 3

/-- Was a lane's access served beyond the first-level cache: through a page that it keeps no line of, a store that goes on at
once, an atomic? -/
def LsEntry.beyond (e : LsEntry) (x : LsLane) : Bool :=
  match e.kind with
  | .load => x.bypass
  | .store => x.through
  | .red _ _ _ => x.bypass
  | _ => true

/-- The requests of an entry: one for each access, FAO lanes of one address gathered (13 R251). -/
def LsEntry.requests (e : LsEntry) (slot dieCore : Nat) : List DrillReq :=
  let firsts := e.lanes.filterMap fun x => (x.locs.head?).map fun l => (l, x)
  let firsts := firsts.filter fun p => drillable p.1
  let firsts : List (Loc × LsLane) := match e.kind with
    | .fao _ => firsts.foldl (fun (acc : List (Loc × LsLane)) (p : Loc × LsLane) =>
        if acc.any (fun q => q.1 == p.1) then acc else acc ++ [p]) []
    | _ => firsts
  firsts.map fun p =>
    { pc := e.pc, va := p.2.va, die := e.core / Config.coresPerDie, core := dieCore, slot, kind := e.kind.drillKind
      comb := e.comb.contains p.1, loc := p.1, uncached := p.2.uncached, beyond := e.beyond p.2 }

/-! ## Performing an ls entry (05 R82, R86, R95, R96) -/

/-- What performing the lanes of an entry gives: the state, the results, and the lanes with their old values. -/
structure Done where
  s : State
  out : Landed := {}

/-- The rounding of an entry's form. -/
def formMode (f : LoadForm) (u : Nat) : Num.RMode :=
  match f with
  | .dec rnd sat ftz => { rnd, sat, ftz, u }
  | _ => {}

/-- One lane of a load; the registers of a row follow those of the rows before it. DESIGN CHOICE (log entry 84): a word of the
constant segment that software rewrites while its launch is resident is read as the ordering machine holds it. -/
def loadLane (e : LsEntry) (s : State) (x : LsLane) (row : Nat) : State × Landed :=
  let (s, bs) := s.readLocs (.wave e.core) x.uncached x.locs
  match e.form with
  | .raw => (s, landAt e.dest x.lane (loadWords e.ty bs) 0)
  | .dec _ _ _ =>
    let r := decodeElem e.ty x.efmt (formMode e.form x.u) (leNat bs)
    (s, landAt e.dest x.lane (valueWords e.ty r.bits) r.fl)
  | .rows _ =>
    let d := match e.dest with
      | .vec r => .vec (r + row * (bs.length / 4))
      | d => d
    (s, landAt d x.lane (loadWords e.ty bs) 0)

/-- The row number of each lane record: how many records of the same lane stand before it. -/
def rowOf (xs : List LsLane) (j : Nat) : Nat :=
  match xs[j]? with
  | some x => ((xs.take j).filter fun y => y.lane == x.lane).length
  | none => 0

/-- One lane of VAT: one atomic step per element (09 R210). -/
def vatLane (e : LsEntry) (op : Nat) (m : Num.RMode) (s : State) (x : LsLane) : State × List Byte × Word :=
  let n := e.ty.bytes
  (List.range (32 / n)).foldl
    (fun acc j =>
      let (s, old, fl) := acc
      let (s, o, f) := s.atomOp (.wave e.core) x.uncached ((x.locs.drop (j * n)).take n) op e.ty m
        (leNat ((x.data.drop (j * n)).take n))
      (s, old ++ leBytes n o, fl ||| f))
    (s, [], 0)

/-- Do two records of an instruction name a common byte? -/
def LsLane.shares (x y : LsLane) : Bool := x.locs.any y.locs.contains

/-- The byte of a place once the later records of its instruction have been stored too (06 R113). -/
def lastByte (later : List LsLane) (l : Loc) (b : Byte) : Byte :=
  later.foldl (fun b y => (((y.locs.zip y.data).find? fun p => p.1 == l).map (·.2)).getD b) b

/-- Is a unit of a record stored with another record of its instruction: with a later one that writes the same unit, or,
for a byte, with a later one that writes it or with an earlier one whose wider unit holds it? -/
def unitLeft (earlier later : List LsLane) (u : List Loc) : Bool :=
  match u with
  | [l] => later.any (·.locs.contains l) || earlier.any fun y => (unitsOf y.locs).any fun v => v.length != 1 && v.contains l
  | _ => later.any fun y => (unitsOf y.locs).contains u

/-- Store one record of an instruction unit by unit: of bytes that lanes share only the last writer's is stored, and no
aligned unit is split for it (05 R84, 06 R113). -/
def storeRecord (e : LsEntry) (s : State) (x : LsLane) (earlier later : List LsLane) : State :=
  let ag := Agent.wave e.core
  if (earlier ++ later).any x.shares then
    ((unitsOf x.locs).foldl
      (fun (acc : State × List Byte) u =>
        (if unitLeft earlier later u then acc.1
          else acc.1.storeThrough ag x.uncached x.through u ((u.zip acc.2).map fun p => lastByte later p.1 p.2),
         acc.2.drop u.length))
      (s, x.data)).1
  else s.storeThrough ag x.uncached x.through x.locs x.data

/-- One lane of an entry that is no FAO, with the records before it and after it. -/
def performLane (e : LsEntry) (s : State) (x : LsLane) (row : Nat) (earlier later : List LsLane) : State × Landed :=
  let ag := Agent.wave e.core
  match e.kind with
  | .load => loadLane e s x row
  | .store => (storeRecord e s x earlier later, {})
  | .cas =>
    let n := e.ty.bytes
    let (s, old) := s.atomic ag x.uncached x.locs fun o => if o = x.data.take n then some (x.data.drop n) else none
    (s, landAt e.dest x.lane (loadWords e.ty old) 0)
  | .red op rnd ftz => (if x.hole then s else s.red ag x.uncached x.locs op e.ty { rnd, ftz } (leNat x.data), {})
  | .vat op ret rnd ftz =>
    let (s, old, fl) := vatLane e op { rnd, ftz } s x
    (s, if ret then landAt e.dest x.lane (loadWords .none old) fl else { fl })
  | .xacc =>
    let v := leNat x.data
    let (s, old) := s.atomic ag x.uncached x.locs fun o => some (leBytes 64 (Num.accAdd (leNat o) v).1)
    (s, { fl := (Num.accAdd (leNat old) v).2 })
  | .xrd _ =>
    let (s, bs) := s.atomic ag x.uncached x.locs fun _ => none
    let r := Num.accRead ((Num.fmtOf e.ty).getD Num.fp32) (formMode e.form x.u) (leNat bs)
    (s, landAt e.dest x.lane (valueWords e.ty r.bits) r.fl)
  | .xclr => if x.hole then (s, {}) else ((s.atomic ag x.uncached x.locs fun _ => some x.data).1, {})
  | _ => (s, {})

/-- A load drops its partial copies before any lane reads, so that lanes that read one location read one store (05 R84). -/
def LsEntry.dropPartials (e : LsEntry) (s : State) : State :=
  match e.kind with
  | .load => e.lanes.foldl (fun s x => (unitsOf x.locs).foldl (fun s u => s.dropPartial (.wave e.core) x.uncached u) s) s
  | _ => s

/-- All lanes of an entry that is no FAO, in ascending order. -/
def performLanes (e : LsEntry) (s : State) : State × Landed :=
  e.lanes.zipIdx.foldl
    (fun acc p =>
      let (s, r) := performLane e acc.1 p.1 (rowOf e.lanes p.2) (e.lanes.take p.2) (e.lanes.drop (p.2 + 1))
      (s, acc.2.app r))
    (e.dropPartials s, {})

/-! ### FAO and its requests (13 R251–R256) -/

/-- Does some wait entry still hold the lanes of an entry at a location? It does until their old values return, also once
the pair has been applied. -/
def State.inComb (s : State) (entry : Nat) (l : Loc) : Bool :=
  s.combs.any fun c => c.loc == l && (c.first == .lanes entry || c.second == .lanes entry)

/-- One FAO step of a lane. -/
def faoLane (e : LsEntry) (op : Nat) (s : State) (x : LsLane) : State × LsLane :=
  let (s, o, _) := s.atomOp (.wave e.core) x.uncached x.locs op e.ty {} (leNat x.data)
  (s, { x with old := some o })

/-- The lanes of an FAO that have neither been taken nor left in a pair. -/
def performFao (e : LsEntry) (op : Nat) (s : State) : State × List LsLane :=
  e.lanes.foldl
    (fun acc x =>
      let waits := match x.locs.head? with
        | some l => s.inComb e.id l
        | none => false
      if x.old.isSome || waits then (acc.1, acc.2 ++ [x])
      else
        let (s, x) := faoLane e op acc.1 x
        (s, acc.2 ++ [x]))
    (s, [])

/-- The results of an FAO whose lanes have all been taken. -/
def faoResults (e : LsEntry) (xs : List LsLane) : Landed :=
  xs.foldl (fun acc x => acc.app (landAt e.dest x.lane (valueWords e.ty (x.old.getD 0)) 0)) {}

/-! ### The step -/

/-- The barrier that a wave takes part in under a scope and id: one of the workgroup on a core or on its quad, or one
of the grid on a die or on the package (09 R217). -/
def State.barrierKey (s : State) (w : WaveId) (net : Nat) : Nat × Nat :=
  (if net / 4 ≤ 1 then w.group * 2 else w.grid * 2 + 1,
   if net / 4 = 0 || (!(s.group w.group).kd.quadwg && net / 4 = 1) then w.pcore else if net / 4 = 2 then w.die else 0)

/-- The number of completed instances of a barrier. -/
def State.barrierDone (s : State) (net : Nat) (key : Nat × Nat) : Nat :=
  ((s.barriers.find? fun b => b.net == net && b.owner == key.1 && b.place == key.2).map (·.done)).getD 0

/-- A barrier's arrival is done: the wave's arrival bit is set and it counts at the current instance (09 R218). -/
def State.arriveAt (s : State) (uid net : Nat) : State :=
  match s.waveOf uid with
  | none => s
  | some (k, w) =>
    let inst := s.barrierDone net (s.barrierKey w.id net)
    let wake (sp : Split) : Split :=
      match sp.wait with
      | .released n dep => if n = net then { sp with wait := if dep then .departing net else .ready } else sp
      | _ => sp
    let w := { w with arrived := SMap.insert w.arrived net (inst + 1)
                      owed := SMap.insert w.owed net (w.waiters fun t => match t with
                        | .released n _ => n == net
                        | _ => false) }
    s.setWave k (w.mapSplits fun _ sp => wake sp)

/-- A barrier's departure is done: the arrival bit is clear and the split that waited goes on. -/
def State.departFrom (s : State) (uid net split : Nat) : State :=
  s.mapUid uid fun w =>
    let owed := (SMap.read [] w.owed net).filter (· != split)
    let w := { w with arrived := SMap.erase w.arrived net, owed := SMap.write [] w.owed net owed }
    w.mapSplits fun i sp => if i = split ∧ sp.wait = .leaving net then { sp with wait := .ready } else sp

/-- Finish an entry: its long-latency operation may land, or its status bits are set; the records of its marked requests
are written (13 R259). -/
def State.finish (s : State) (e : LsEntry) (r : Landed) (drills : List (List Byte)) : State :=
  let s := { s with ls := s.ls.filter fun x => x.id != e.id }
  match e.op with
  | some op =>
    let ready (o : LongOp) : LongOp :=
      if o.id = op then { o with ready := true, vw := r.vw, sw := r.sw, fl := o.fl ||| r.fl } else o
    ({ s with ops := s.ops.map ready }).drillAppend e.tenant drills
  | none => (s.addStatus e.uid r.fl).drillAppend e.tenant drills

/-- Perform an ls entry: release, accesses, acquire (05 R87, R92, R93). DESIGN CHOICE (log entry 96): the accesses of all
its lanes and elements are one step, so no other agent reads between the elements of a VAT or the parts of an XACC.
DESIGN CHOICE (log entry 108): the requests are counted and marked (13 R258) when the entry completes. -/
def State.performLs (s : State) (e : LsEntry) : State :=
  let ag := Agent.wave e.core
  let done : Bool := match e.kind with
    | .fao _ => e.released
    | _ => false
  let s := if e.releases && !done then s.release ag e.scope else s
  let s := (s.strike e.tenant ag e.takes).strikeStore e.tenant (if e.stores then e.locs else [])
  let slot := (s.ctx e.uid).id.slot
  let s' := match e.kind with
    | .fao op =>
      let (s, xs) := performFao e op s
      let e' := { e with lanes := xs, released := true }
      if xs.all fun x => x.old.isSome then
        let s := if e.acquires then s.acquire ag e.scope else s
        let (s, dr) := s.drill e.core e.tenant (e'.requests slot (e.core % Config.coresPerDie))
        s.finish e' (faoResults e xs) dr
      else { s with ls := s.ls.map fun (x : LsEntry) => if x.id = e.id then e' else x }
    | .arrive net => (s.arriveAt e.uid net).finish e {} []
    | .depart net => ((s.acquire ag e.scope).departFrom e.uid net e.split).finish e {} []
    | _ =>
      let (s, r) := performLanes e s
      let s := if e.acquires then s.acquire ag e.scope else s
      let (s, dr) := s.drill e.core e.tenant (e.requests slot (e.core % Config.coresPerDie))
      s.finish e r dr
  s'.settleFences

/-- Has an FAO something to do by itself: a lane that no wait entry holds, or, its lanes all taken, its end? -/
def State.faoDue (s : State) (e : LsEntry) : Bool :=
  (e.lanes.all fun x => x.old.isSome) || e.lanes.any fun x => x.old.isNone && (match x.locs.head? with
    | some l => !s.inComb e.id l
    | none => true)

/-- The entry that PERFORM_LS_ENTRY takes: the one its subject names, or the oldest that may be performed. -/
def State.pickLs (s : State) : Option LsEntry :=
  match s.subject with
  | .ids id _ _ => s.ls.find? fun e => e.id == id && s.performable e
  | _ => s.ls.find? fun e => s.performable e && (match e.kind with
      | .fao _ => s.faoDue e
      | _ => true)

def execPerformLsEntry (s : State) : Host.Outcome State Fault Refusal :=
  .next (match s.pickLs with
    | some e => s.performLs e
    | none => s)

/-! ## Buffered stores move (05 R87) -/

/-- The entry a buffer step takes: the one the subject names if it is the oldest for its locations, else the first. -/
def State.pickBuf (s : State) (buf : List BufEnt) (p : BufEnt → Bool := fun _ => true) : Option BufEnt :=
  match s.subject with
  | .ids id _ _ => buf.find? fun e => e.id == id && oldestIn buf id && p e
  | _ => buf.find? p

/-- The core of a buffered store stands on a die whose clock runs (25 R426). -/
def State.coreRuns (s : State) (e : BufEnt) : Bool := s.dieRuns (e.own / Config.coresPerDie)

def execDrainLq (s : State) : Host.Outcome State Fault Refusal :=
  .next (match s.pickBuf s.lq s.coreRuns with
    | some e => (s.moveLq e).settleFences
    | none => s)
def execPropagateCb (s : State) : Host.Outcome State Fault Refusal :=
  .next (match s.pickBuf s.cb s.coreRuns with
    | some e => s.moveCb e
    | none => s)
def execWriteBackDw (s : State) : Host.Outcome State Fault Refusal :=
  .next (match s.pickBuf s.dw with
    | some e => s.moveDw e
    | none => s)
def execDeliverPq (s : State) : Host.Outcome State Fault Refusal :=
  .next (match s.pickBuf s.pq with
    | some e => s.movePq e
    | none => s)

/-- DROP_COPY: the copy whose die and address the subject gives, or the first. -/
def execDropCopy (s : State) : Host.Outcome State Fault Refusal :=
  .next (match s.subject with
    | .ids d pa _ => { s with ds := SMap.erase s.ds (copyKey d pa) }
    | _ => { s with ds := s.ds.drop 1 })

/-- Merge an entry into a later one for the same bytes, with no entry for them between (05 R87, R88). -/
def mergeBuf (buf : List BufEnt) (first second : Nat) : List BufEnt :=
  match buf.find? fun e => e.id == first, buf.find? fun e => e.id == second with
  | some a, some b =>
    let after := (buf.dropWhile fun e => e.id != first).drop 1
    let between := after.takeWhile fun e => e.id != second
    if first ≠ second ∧ after.any (fun e => e.id == second) ∧ a.own = b.own ∧ a.loc = b.loc
        ∧ a.bytes.length = b.bytes.length ∧ between.all (fun e => !e.covers a.own a.locs) then
      buf.filter fun e => e.id != first
    else buf
  | _, _ => buf

/-- The later entry stands for the merged one: a fence that waits for the earlier waits for it (05 R105). -/
def State.mergeLq (s : State) (a b : Nat) : State :=
  let lq := mergeBuf s.lq a b
  if lq.length = s.lq.length then s
  else
    let renamed (f : QFence) : QFence :=
      { f with drain := f.drain.map fun ids => ids.map fun x => if x = a then b else x }
    ({ s with lq, fences := s.fences.map renamed }).settleFences

def execBufferMerge (s : State) : Host.Outcome State Fault Refusal :=
  .next (match s.subject with
    | .merge .lq a b => s.mergeLq a b
    | .merge .cb a b => { s with cb := mergeBuf s.cb a b }
    | .merge .dw a b => { s with dw := mergeBuf s.dw a b }
    | .merge .pq a b => { s with pq := mergeBuf s.pq a b }
    | _ => s)

/-! ## Results land (03 R44, 01 R15, 05 R107) -/

/-- Land the results of an operation in its wave's registers: its flag count and its scoreboard marks fall. -/
def State.land (s : State) (o : LongOp) : State :=
  let s := { s with ops := s.ops.filter fun x => x.id != o.id }
  let s := s.mapUid o.uid fun w =>
    let w := o.vw.foldl (fun w p => w.setV p.1 p.2.1 p.2.2) w
    let w := o.sw.foldl (fun w p => w.setS p.1 p.2) w
    ((w.flagDown o.flag).sbClear (.op o.id)).addStatus o.fl
  s

/-- The die on which a wave stands or stood runs. -/
def State.waveRuns (s : State) (uid : Nat) : Bool := s.dieRuns (s.ctx uid).id.die

def execLongLatencyComplete (s : State) : Host.Outcome State Fault Refusal :=
  .next (match (match s.subject with
      | .ids id _ _ => s.ops.find? fun o => o.id == id && o.ready && s.waveRuns o.uid
      | _ => s.ops.find? fun o => o.ready && s.waveRuns o.uid) with
    | some o => s.land o
    | none => s)

/-- A token lands: the register takes the value and its mark falls. A handler's held mark falls too (10 R232). -/
def State.landToken (s : State) (t : TokenWrite) : State :=
  let s := { s with tokens := s.tokens.filter fun x => x.id != t.id }
  s.mapUid t.uid fun w =>
    let w := (w.setS t.reg t.val).sbClear (.token t.id)
    { w with shadow := w.shadow.map fun sh => { sh with held := sh.held.filter fun p => p.2 != .token t.id } }

def execTokenWrite (s : State) : Host.Outcome State Fault Refusal :=
  .next (match (match s.subject with
      | .ids id _ _ => s.tokens.find? fun t => t.id == id && s.waveRuns t.uid
      | _ => s.tokens.find? fun t => s.waveRuns t.uid) with
    | some t => s.landToken t
    | none => s)

/-! ## Combining (13 R252–R254) -/

/-- What a request carries: operand and count (13 R253). -/
def compose (op : Nat) (t : DType) (a b : Nat × Nat) : Nat × Nat :=
  match op with
  | 1 => ((atomNew 0 t {} a.1 b.1).bits, a.2 + b.2)
  | 8 => (a.1, a.2 + b.2)
  | _ => ((atomNew op t {} a.1 b.1).bits, a.2 + b.2)

/-- k steps of `.incw` with bound w. -/
def incTimes (w o k : Nat) : Nat := (min o w + k) % (w + 1)

/-- The value after a request has been applied to v. -/
def afterReq (op : Nat) (t : DType) (v : Nat) (c : Nat × Nat) : Nat :=
  if op = 8 then incTimes c.1 v c.2 else (atomNew op t {} v c.1).bits

/-- The operand and count of a request at a location, none when it is not there, when it has already been taken, or when
its lanes have different `.incw` bounds, so that no composition stands for them (13 R251, R253). -/
def State.carried (s : State) (r : Req) (l : Loc) : Option (Nat × DType × Nat × Nat) :=
  match r with
  | .pair id =>
    match s.combs.find? fun c => c.id == id with
    | some c => if c.loc = l ∧ c.old = none ∧
        (s.combs.all fun d => d.first != .pair id && d.second != .pair id) then some (c.op, c.ty, c.opP, c.cntP) else none
    | none => none
  | .lanes id =>
    match s.ls.find? fun e => e.id == id with
    | some e =>
      match e.kind with
      | .fao op =>
        let xs := e.lanes.filter fun x => x.locs.head? == some l && x.old.isNone
        if s.performable e && !s.inComb id l then
          match xs with
          | [] => none
          | x :: rest =>
            if op = 8 ∧ rest.any (fun y => y.data != x.data) then none
            else
              let (a, k) := rest.foldl (fun acc y => compose op e.ty acc (leNat y.data, 1)) (leNat x.data, 1)
              some (op, e.ty, a, k)
        else none
      | _ => none
    | none => none

/-- The request that a number names: an ls entry or a pair. -/
def State.reqOf (s : State) (id : Nat) : Req := if s.combs.any fun c => c.id == id then .pair id else .lanes id

/-- The locations at which a request stands. -/
def State.reqLocs (s : State) (r : Req) : List Loc :=
  match r with
  | .pair id => (s.combs.filter fun c => c.id == id).map (·.loc)
  | .lanes id => (s.ls.filter fun e => e.id == id).flatMap fun e => e.lanes.filterMap fun x => x.locs.head?

/-- A release that a request owes is performed before it leaves its wave (13 R252). -/
def State.releaseFor (s : State) (r : Req) : State :=
  match r with
  | .pair _ => s
  | .lanes id =>
    match s.ls.find? fun e => e.id == id with
    | some e =>
      if e.releases && !e.released then
        let s := s.release (.wave e.core) e.scope
        { s with ls := s.ls.map fun x => if x.id = id then { x with released := true } else x }
      else s
    | none => s

/-- The slice that holds a physical address on its home die. -/
def sliceOf (pa : Nat) : Nat := bitsOf pa 17 15 * 32 + bitsOf pa 11 7

/-- The outputs from a port of a die's central crossbar to a location, each with the number of the port where a request
arrives (13 R249); what stands beyond a remote package's links is that package's. -/
def State.crossing (s : State) (d port : Nat) (l : Loc) : List (Output × Nat) :=
  match l.k with
  | .cal => [(.caldera d, port)]
  | .m =>
    match paKind l.a, homeDie l.a with
    | .remote, _ =>
      let p := (SMap.read (false, 0) s.mgmt.routes (remotePackage l.a)).2
      [(.toHub d (p / 8), port), (.adit (p / 8) p, d)]
    | .host, _ => []
    | _, some k => if k = d then [(.slice d (sliceOf l.a), port)] else [(.bridge d k, port), (.slice k (sliceOf l.a), 24 + d)]
    | _, none => []
  | _ => []

/-- The outputs that a request from a core passes: its bench's, then those of the central crossbar. -/
def State.outputs (s : State) (core : Nat) (l : Loc) : List (Output × Nat) :=
  let d := core / Config.coresPerDie
  let c := core % Config.coresPerDie
  (.bench d (c / 8), c % 8) :: s.crossing d (c / 8) l

/-- The outputs that an agent's request passes; a core's engines share its port, and a die's agents stand at port 34. -/
def State.agentWay (s : State) (ag : Agent) (l : Loc) : List (Output × Nat) :=
  match ag with
  | .wave c | .engine c => s.outputs c l
  | .die d => s.crossing d 34 l
  | .hub => []

/-- The outputs that a request from another package passes: the hub of its Adit port, then the home die's crossbar. -/
def State.aditWay (s : State) (port : Nat) (l : Loc) : List (Output × Nat) :=
  match homeDie l.a with
  | some d => (.hubDie (port / 8) d, 8 + port) :: s.crossing d (32 + port / 8) l
  | none => []

/-- The ls entries whose lanes a request carries, in the order of the combining tree. -/
def State.members (s : State) : Nat → Req → List Nat
  | 0, _ => []
  | f + 1, r =>
    match r with
    | .lanes id => [id]
    | .pair id =>
      match s.combs.find? fun c => c.id == id with
      | some c => s.members f c.first ++ s.members f c.second
      | none => []

/-- The outputs that a request has still to pass. A pair goes on from the output at which it formed. -/
def State.wayOf (s : State) (r : Req) (l : Loc) : List (Output × Nat) :=
  match s.ls.find? fun e => some e.id == (s.members (s.combs.length + 1) r).head? with
  | none => []
  | some e =>
    let way := s.outputs e.core l
    match r with
    | .lanes _ => way
    | .pair id =>
      match s.combs.find? fun c => c.id == id with
      | some c => (way.dropWhile fun p => p.1 != c.point).drop 1
      | none => []

/-- Does a request name a location: an ls entry in any of its lanes, a pair, a buffered store on its way? An engine's entry
that is said to stand behind a request stands there with an access to its location. -/
def State.touches (s : State) (id : Nat) (l : Loc) : Bool :=
  let holds (b : BufEnt) : Bool := b.id == id && b.locs.contains l
  (s.combs.any fun c => c.id == id && c.loc == l) || (s.ls.any fun e => e.id == id && e.locs.contains l)
    || s.lq.any holds || s.cb.any holds || s.dw.any holds || s.pq.any holds || s.entries.any fun e => e.id == id

/-- A location whose requests may pair: one in `.g` outside host memory, or in `.cald` (13 R257). -/
def combinable (l : Loc) : Bool := l.k == .cal || (l.k == .m && paKind l.a != .host)

/-- May a request pair as a member at an output (13 R249, R257)? -/
def State.pairsAt (s : State) (out : Output) (r : Req) (l : Loc) : Bool :=
  combinable l && (s.wayOf r l).any fun p => p.1 == out

/-- The port at which a request arrives at an output. -/
def State.portAt (s : State) (out : Output) (r : Req) (l : Loc) : Nat :=
  (((s.wayOf r l).find? fun p => p.1 == out).map (·.2)).getD 0

/-- Does a request that stands behind another name a location (13 R252)? -/
def State.hindered (s : State) (behind : List Nat) (l : Loc) : Bool := behind.any fun x => s.touches x l

/-- Every wait entry of an output is taken (13 R254). -/
def State.outputFull (s : State) (out : Output) : Bool :=
  decide (Config.waitEntries ≤ (s.combs.filter fun c => c.point == out).length)

/-- What two requests carry at a location where they may pair at an output (13 R252): operation, type, and the operand and
count of each. -/
def State.pairing (s : State) (out : Output) (ra rb : Req) (same : Bool) (behind : List Nat) (l : Loc) :
    Option (Nat × DType × (Nat × Nat) × (Nat × Nat)) :=
  match s.carried ra l, s.carried rb l with
  | some (op, t, a), some (op', t', b) =>
    if s.pairsAt out ra l ∧ s.pairsAt out rb l ∧ op = op' ∧ t = t' ∧ (op ≠ 8 ∨ a.1 = b.1) ∧
        (if same then s.portAt out ra l < s.portAt out rb l else !s.hindered behind l) then some (op, t, a, b)
    else none
  | _, _ => none

/-- Two requests pair at a location: their releases are done, and a wait entry of the output is taken. -/
def State.pairUp (s : State) (out : Output) (ra rb : Req) (l : Loc) (op : Nat) (t : DType) (a b : Nat × Nat) : State :=
  let s := (s.releaseFor ra).releaseFor rb
  let p := compose op t a b
  { s.bump with
    combs := s.combs ++ [{ id := s.nextId, point := out, first := ra, second := rb, loc := l, op, ty := t,
                           opA := a.1, cntA := a.2, opP := p.1, cntP := p.2 }]
    ls := s.ls.map fun e => if ra = .lanes e.id ∨ rb = .lanes e.id then { e with comb := l :: e.comb } else e }

/-- COMBINE_PAIR: two requests for one physical address with the same operation, type and `.incw` bound meet at an output
that both have to pass and pair when a wait-buffer entry is free (13 R252, R254). The subject gives the output and the
requests; that they arrive in one clock, the lower port first, or that the second arrives while the first still waits;
and the requests that stand behind the waiting one, none of which names the address. -/
def execCombinePair (s : State) : Host.Outcome State Fault Refusal :=
  .next (match s.subject with
    | .meet out a b same behind =>
      let ra := s.reqOf a
      let rb := s.reqOf b
      if a = b || s.outputFull out then s
      else
        match (s.reqLocs ra).filterMap fun l => (s.pairing out ra rb same behind l).map fun p => (l, p) with
        | (l, op, t, x, y) :: _ => s.pairUp out ra rb l op t x y
        | [] => s
    | _ => s)

/-- Give a request its old value: a pair's wait entry keeps it, the lanes of an instruction take theirs one after
another. -/
def State.giveOld (s : State) (r : Req) (l : Loc) (v : Nat) : State :=
  match r with
  | .pair id => { s with combs := s.combs.map fun c => if c.id = id then { c with old := some v } else c }
  | .lanes id =>
    { s with ls := s.ls.map fun e =>
        if e.id = id then
          match e.kind with
          | .fao op =>
            let (xs, _) := e.lanes.foldl
              (fun (acc : List LsLane × Nat) x =>
                if x.locs.head? = some l && x.old.isNone then
                  (acc.1 ++ [{ x with old := some acc.2 }], (atomNew op e.ty {} acc.2 (leNat x.data)).bits)
                else (acc.1 ++ [x], acc.2))
              ([], v)
            { e with lanes := xs }
          | _ => e
        else e }

/-- A member of a request: who accesses, for which tenant of this package, and whether its page is uncached. -/
structure Member where
  ag : Agent
  tenant : Option Nat
  uncached : Bool
  deriving DecidableEq, Repr

/-- The members of a request to a location. -/
def State.memberLanes (s : State) (r : Req) (l : Loc) : List Member :=
  (s.members (s.combs.length + 1) r).filterMap fun id =>
    (s.ls.find? fun e => e.id == id).map fun e =>
      ⟨.wave e.core, some e.tenant, e.lanes.any fun x => x.uncached && x.locs.head? == some l⟩

/-- Apply a request at the home as one step and answer the old value: what any member's buffers hold for the location goes
home first, and the copies of the members' dies take the new value (05 R95, 13 R256). -/
def State.applyFor (s : State) (ms : List Member) (ls : List Loc) (f : Nat → Nat) : State × Nat :=
  let strike (s : State) (m : Member) : State :=
    match m.tenant with
    | some t => s.strike t m.ag ls
    | none => s
  let s := ms.foldl (fun s m => (strike s m).settle m.ag ls) s
  let (s, old) := s.homePart ls
  let new := leBytes ls.length (f (leNat old))
  (ms.foldl (fun s m => s.copyPart m.ag m.uncached ls new) (s.homeStore ls new), leNat old)

/-- COMBINE_RETURN: the outermost pair is applied at the home and keeps the old value. A pair that holds its old value gives it to its first member and After(v, a) to its second, and its wait entry is free. -/
def State.combineReturn (s : State) (c : Comb) : State :=
  match c.old with
  | some v =>
    let s := { s with combs := s.combs.filter fun d => d.id != c.id }
    (s.giveOld c.first c.loc v).giveOld c.second c.loc (afterReq c.op c.ty v (c.opA, c.cntA))
  | none =>
    let (s, old) := s.applyFor (s.memberLanes (.pair c.id) c.loc) (c.loc.range c.ty.bytes)
      fun v => afterReq c.op c.ty v (c.opP, c.cntP)
    { s with combs := s.combs.map fun d => if d.id = c.id then { d with old := some old } else d }

/-- Is a pair part of another? -/
def State.nested (s : State) (id : Nat) : Bool := s.combs.any fun d => d.first == .pair id || d.second == .pair id

def execCombineReturn (s : State) : Host.Outcome State Fault Refusal :=
  .next (match s.combs.find? fun c => (c.old.isSome || !s.nested c.id) && (match s.subject with
      | .ids id _ _ => c.id == id
      | _ => true) with
    | some c => s.combineReturn c
    | none => s)

/-! ## Requests made in one step: those of engines and of other packages (13 R249, R252–R255)

Such a request leaves its agent, meets others on its way, is applied and returns in one step; the wait entry of each pair
that it forms is taken and freed within it. -/

/-- A fetch-and-operate request on its way: the outputs still before it, what it carries, and the requests that have
become its partners, those that come before it and those that come after it in the order of the tree. -/
structure Going where
  way : List (Output × Nat)
  op : Nat
  ty : DType
  operand : Nat
  count : Nat := 1
  before : List Req := []
  after : List Req := []
  paired : Bool := false
  deriving DecidableEq, Repr

/-- May the waiting request that a meeting names pair with one that is on its way, and does it come first? -/
def State.partner (s : State) (l : Loc) (g : Going) (port : Nat) (m : Meeting) (id : Nat) : Option (Req × Bool) :=
  let r := s.reqOf id
  match s.carried r l with
  | some (op, t, v, _) =>
    let theirs := s.portAt m.out r l
    if s.pairsAt m.out r l && !(g.before ++ g.after).contains r && op == g.op && t == g.ty && (op != 8 || v == g.operand)
        && (if m.same then theirs != port else !s.hindered m.behind l) then
      some (r, if m.same then decide (theirs < port) else m.waited)
    else none
  | none => none

/-- A meeting takes place where the request still has to pass the output, while a wait entry is free there. -/
def State.meet (s : State) (l : Loc) (g : Going) (m : Meeting) : Going :=
  match g.way.find? fun p => p.1 == m.out with
  | none => g
  | some p =>
    let left := (g.way.dropWhile fun q => q.1 != m.out).drop 1
    if !combinable l || s.outputFull m.out then g
    else
      match m.other with
      | none => if !m.same && s.hindered m.behind l then g else { g with way := left, paired := true }
      | some id =>
        match s.partner l g p.2 m id with
        | some (r, true) => { g with way := left, paired := true, before := r :: g.before }
        | some (r, false) => { g with way := left, paired := true, after := g.after ++ [r] }
        | none => g

/-- Give some requests their old values one after another from a value on, and answer the value after them. -/
def State.giveAll (s : State) (l : Loc) (rs : List Req) (v : Nat) : State × Nat :=
  rs.foldl
    (fun acc r =>
      match acc.1.carried r l with
      | some (op, t, a) => (acc.1.giveOld r l acc.2, afterReq op t acc.2 a)
      | none => acc)
    (s, v)

/-- The ls entries of some requests have paired at a location. -/
def State.markPaired (s : State) (l : Loc) (rs : List Req) : State :=
  if rs = [] then s
  else { s with ls := s.ls.map fun e => if rs.contains (.lanes e.id) then { e with comb := l :: e.comb } else e }

/-- Apply a request with its partners as one step: the old values follow the order of the tree (13 R255). -/
def State.applyGoing (s : State) (me : Member) (ls : List Loc) (l : Loc) (g : Going) : State × Nat :=
  let rs := g.before ++ g.after
  let s := rs.foldl State.releaseFor s
  let step (v : Nat) : Nat := afterReq g.op g.ty v (g.operand, g.count)
  let ms := me :: rs.flatMap fun r => s.memberLanes r l
  let ends (v : Nat) : Nat := (s.giveAll l g.after (step (s.giveAll l g.before v).2)).2
  let (s, old) := s.applyFor ms ls ends
  let (s, mine) := (s.markPaired l rs).giveAll l g.before old
  ((s.giveAll l g.after (step mine)).1, mine)

/-- A fetch-and-operate request that its agent makes in one step, with the meetings that are next; answers the old value and
whether it paired. -/
def State.faoRequest (s : State) (me : Member) (ls : List Loc) (g : Going) : State × Nat × Bool :=
  let ms := s.meets.head?.getD []
  let s := { s with meets := s.meets.drop 1 }
  match ls.head? with
  | none => (s, 0, false)
  | some l =>
    let g := ms.foldl (s.meet l) g
    let (s, old) := s.applyGoing me ls l g
    (s, old, g.paired)

/-! ## Accesses from outside (05 R100, R101) -/

/-- A physical address that a host processor or a remote package may name here. -/
def inDevice (pa n : Nat) : Bool :=
  (paKind pa == .hbm || paKind pa == .lpddr) && paKind (pa + n - 1) == paKind pa

/-- HOST_MEM_ACCESS: a host processor reads or writes at M after Fold (05 R100, 25 R412). -/
def execHostMemAccess (s : State) : Host.Outcome State Fault Refusal :=
  match s.subject with
  | .host (.read pa n) =>
    if inDevice pa n || paKind pa = .host then
      let s := s.fold pa n
      .next { s with answer := s.mem.bytes pa n, answerPoison := (Loc.range ⟨.m, pa⟩ n).any s.poisoned }
    else .fault (.noSuchMemory pa)
  | .host (.write pa bs) =>
    if inDevice pa bs.length || paKind pa = .host then .next (s.homeWrite pa bs) else .fault (.noSuchMemory pa)
  | _ => .next s

/-- REMOTE_REQUEST: a store or an atomic from another package, applied at its home as a hub agent's; a RED forms no
partial (05 R96, R101). What goes back is the old value, for an XACC the status bits that its wave takes. -/
def execRemoteRequest (s : State) : Host.Outcome State Fault Refusal :=
  match s.subject with
  | .remote (.store pa bs) =>
    if inDevice pa bs.length then .next (s.homeWrite pa bs) else .fault (.noSuchMemory pa)
  | .remote (.fao port pa op ty b k) =>
    if inDevice pa ty.bytes then
      let l : Loc := ⟨.m, pa⟩
      let (s, o, _) := s.faoRequest ⟨.hub, none, true⟩ (l.range ty.bytes)
        { way := s.aditWay port.toNat l, op := op.toNat, ty, operand := b.toNat, count := k.toNat }
      .next { s with answer := leBytes ty.bytes o }
    else .fault (.noSuchMemory pa)
  | .remote (.atomic pa op ty rnd ftz b) =>
    if inDevice pa ty.bytes then
      let (s, o, _) := s.atomOp .hub true (Loc.range ⟨.m, pa⟩ ty.bytes) op.toNat ty { rnd, ftz } b.toNat
      .next { s with answer := leBytes ty.bytes o }
    else .fault (.noSuchMemory pa)
  | .remote (.cas pa ty old new) =>
    if inDevice pa ty.bytes then
      let (s, o) := s.atomic .hub true (Loc.range ⟨.m, pa⟩ ty.bytes) fun o =>
        if o = leBytes ty.bytes old.toNat then some (leBytes ty.bytes new.toNat) else none
      .next { s with answer := o }
    else .fault (.noSuchMemory pa)
  | .remote (.xacc pa v) =>
    if inDevice pa 64 then
      let (s, o) := s.atomic .hub true (Loc.range ⟨.m, pa⟩ 64) fun o => some (leBytes 64 (Num.accAdd (leNat o) v.toNat).1)
      .next { s with answer := leBytes 4 (Num.accAdd (leNat o) v.toNat).2.toNat }
    else .fault (.noSuchMemory pa)
  | .remote (.red pa op ty rnd ftz b) =>
    if inDevice pa ty.bytes then
      .next (s.red .hub true (Loc.range ⟨.m, pa⟩ ty.bytes) op.toNat ty { rnd, ftz } b.toNat)
    else .fault (.noSuchMemory pa)
  | _ => .next s

/-- REMOTE_LOAD: a load from another package reads this package's M after Fold (05 R86, R101). -/
def execRemoteLoad (s : State) : Host.Outcome State Fault Refusal :=
  match s.subject with
  | .remote (.load pa n) =>
    if inDevice pa n then
      let s := s.fold pa n
      .next { s with answer := s.mem.bytes pa n }
    else .fault (.noSuchMemory pa)
  | _ => .next s

/-- PAGE_WALK: a walker of a die takes a translation (06 R119–R121). -/
def execPageWalk (s : State) : Host.Outcome State Fault Refusal :=
  .next (match s.subject with
    | .walk r => (s.translate r.die none r.tenant (if r.write then .store else .load) r.va).1
    | _ => s)

end Sys2Proof.Machine
end

