-- ==== Sys2Proof/Machine/Queues.lean ====
section
/-! DEFINITION. Queues (01 R10–R17, 05 R104–R106): room in a core's pool, pushes, pops, the entry an engine performs
next, results, and the stop of a queue at an engine fault (10 R237). -/

namespace Sys2Proof.Machine

open Sys2Proof

/-! ## Entries and the pool (01 R11–R13) -/

def pushOnly (q : Nat) : Bool := [0, 2, 3, 4, 6, 8, 10, 12, 14].contains q
def popOnly (q : Nat) : Bool := [1, 5, 7, 9, 11, 13].contains q

/-- The queue whose entries a wave pops: the inbound side of q15 is kept under number 16. -/
def popSide (q : Nat) : Nat := if q = 15 then 16 else q

/-- The entries of a queue of a wave, oldest first; implicit entries of q4 take no pool entry (17 R322). -/
def State.queue (s : State) (uid q : Nat) : List QEntry :=
  s.entries.filter fun e => e.uid == uid && e.q == q && e.imp.isNone

/-- Pool entries that an endpoint of a wave takes. DEDUCED (log entry 72): an entry whose result waits for room holds
none, since its engine has taken it and itself keeps the posting (15 R295). -/
def State.taken (s : State) (uid q : Nat) : Nat :=
  ((s.queue uid q).filter (·.post.isNone)).length + if q = 15 then (s.queue uid 16).length else 0

/-- CAP and MIN of an endpoint as they act (23 R400). -/
def actingQpol (m : SMap (Nat × Nat)) (q : Nat) : Nat × Nat :=
  let (cap, low) := SMap.read (256, 2) m q
  (max cap 1, min low (max cap 1))

/-- Entries of a core's pool that no queue holds or has reserved (01 R13). -/
def State.poolFree (s : State) (pcore : Nat) : Nat :=
  let here := s.ctxs.filter fun p => p.2.id.pcore == pcore
  let used := here.foldl
    (fun n p =>
      match s.waveOf p.1 with
      | some (_, w) => (List.range 16).foldl (fun n q => n + max (s.taken p.1 q) (actingQpol w.qpol q).2) n
      | none => n + (s.entries.filter fun e => e.uid == p.1 && e.imp.isNone && e.post.isNone).length)
    0
  Config.poolEntries - used

/-- May one more entry enter an endpoint of a resident wave (01 R12, R13)? -/
def State.room (s : State) (w : Wave) (q : Nat) : Bool :=
  let (cap, low) := actingQpol w.qpol q
  let n := s.taken w.id.uid q
  decide (n < cap) && (decide (n < low) || decide (0 < s.poolFree w.id.pcore))

/-! ## Pushing (01 R12, 10 R237) -/

/-- Is debugging enabled for a wave's context? -/
def State.debugOn (s : State) (w : WaveId) : Bool := (s.tenant w.tenant).dbgen

/-- Every push to q0–q14 first adds one to the wave's sequence number, 0xFFFFFFFF being followed by 1. -/
def nextSeq (n : Word) : Word := if n = 0xFFFFFFFF then 1 else n + 1

/-- The entry that a push makes: sequence number, PC, age, the lowest of the pushing split's active lanes. DESIGN CHOICE
(log entry 80): a push with no active lane draws, under SR, from lane 0. -/
def State.pushed (s : State) (i : Issue) (w : Wave) (sp : Split) (q : Nat) (x : QEntry) : QEntry :=
  { x with
    id := s.nextId, age := s.nextId, uid := w.id.uid, q, pc := i.pc, clock := s.clock
    seq := if q < 15 then nextSeq w.seqno else 0
    lane := lowLane (w.active sp) }

/-- Put an entry into a queue of the issuing wave. -/
def State.enqueue (s : State) (i : Issue) (w : Wave) (sp : Split) (q : Nat) (x : QEntry) : State × Wave :=
  let e := s.pushed i w sp q x
  let s := if q < 15 then s.clearIdemp w.id else s
  ({ s.bump with entries := s.entries ++ [e] }, { w with seqno := if q < 15 then nextSeq w.seqno else w.seqno })

/-- Push an entry and go on. -/
def State.push (s : State) (i : Issue) (w : Wave) (sp : Split) (q : Nat) (x : QEntry) : State :=
  let (s, w) := s.enqueue i w sp q x
  s.done i w

/-- An engine command: the checks of 03 R56, then the split stalls until the queue has room, and then `f` acts.
The command has no effect when its split has no active lane (09 R195). -/
def State.command (s : State) (f : Form) (e : Ext) (q : Nat) (g : Issue → Wave → Split → State) : State :=
  s.checked (usesOf f e) fun i w sp =>
    if w.active sp = 0 then s.done i w
    else if !s.room w q then s
    else g i w sp

/-! ## Popping -/

/-- Take an entry out of the machine. -/
def State.dropEntry (s : State) (id : Nat) : State :=
  ({ s with entries := s.entries.filter fun e => e.id != id }).settleFences

/-- A popped token result orders its command's writes before the wave's later ls entries (19 R346): those that still
stand in the buffers of a home on another die go on to M, here or in another package, and the wave's die gives up its
copies. -/
def State.meetHome (s : State) (e : QEntry) : State :=
  match e.home with
  | none => s
  | some h =>
    let d := (s.ctx e.uid).id.die
    if h = d then s else (s.release (.die h) .pod).acquire (.die d) .pkg

/-- The head of a pop queue, with the state after its entry has been taken. -/
def State.pop (s : State) (uid q : Nat) : Option (QEntry × State) :=
  match s.queue uid q with
  | [] => none
  | e :: _ => some (e, (s.meetHome e).dropEntry e.id)

/-! ## What an engine performs next (05 R104, R105) -/

/-- Is a queue of a wave stopped at an engine fault? -/
def State.stopped (s : State) (uid q : Nat) : Bool := s.stops.any fun x => x.uid == uid && x.q == q

/-- Does a stop of its queue hold an entry: does it stand at the faulting entry or behind it? -/
def State.stoppedAt (s : State) (e : QEntry) : Bool := s.stops.any fun x => x.uid == e.uid && x.q == e.q && decide (x.age ≤ e.age)

/-- The head of a push queue of a wave. -/
def State.headOf (s : State) (uid q : Nat) : Option QEntry := s.entries.find? fun e => e.uid == uid && e.q == q

/-- Can an engine look at an entry: no stop holds it, its die's clock runs, and an engine on the hubs has one that is
ready? -/
def State.seen (s : State) (e : QEntry) : Bool :=
  s.dieRuns (s.ctx e.uid).id.die && (e.q != 14 || s.hubUp) && !s.stoppedAt e

/-- Does an entry stand at the head of its queue, whether or not a QFENCE still holds it? -/
def State.standsFirst (s : State) (e : QEntry) : Bool := s.seen e && ((s.headOf e.uid e.q).map (·.id)) == some e.id

/-- May an entry be performed now: it heads its queue, and no QFENCE holds it? -/
def State.heads (s : State) (e : QEntry) : Bool := s.standsFirst e && !s.fenced e.uid e.q e.age

/-- The entry that a step takes: the one its subject names, or the first of which a condition holds. -/
def State.pickOf (s : State) (p : QEntry → Bool) : Option QEntry :=
  match s.subject with
  | .ids id _ _ => s.entries.find? fun e => e.id == id && p e
  | _ => s.entries.find? p

/-- The entry that a step of an engine takes: the one its subject names, or the first it can. -/
def State.pickEntry (s : State) (p : QEntry → Bool) : Option QEntry := s.pickOf fun e => p e && s.heads e

/-- A step of an engine on its next entry. -/
def State.engineStep (s : State) (p : QEntry → Bool) (f : QEntry → State) : State :=
  match s.pickEntry p with
  | some e => f e
  | none => s

/-- The opcode of an entry is its word 0 bits [7:0] in every engine; bits [hi:lo] of an entry. -/
def QEntry.bits (e : QEntry) (hi lo : Nat) : Nat := bitsOf e.data.toNat hi lo

/-! ## Engine faults (10 R237) -/

/-- The wave of a serial number is resident and no context reset is discarding it. -/
def State.alive (s : State) (uid : Nat) : Bool := (s.waveOf uid).isSome

/-- Discard the held entries of a queue from an age on, with the unfinished rays of a q8; the records that a TRAVC would
have made are owed no longer. -/
def State.discardQueue (s : State) (uid q age : Nat) : State :=
  let held (e : QEntry) : Bool := e.uid == uid && e.q == q && decide (age ≤ e.age)
  let here (x : StopRec) : Bool := x.uid == uid && x.q == q && decide (age ≤ x.age)
  let mine := s.entries.filter held
  let halted := (s.stops.filter here).filterMap (·.job)
  let all := mine ++ ((s.jobs.filter fun j => halted.contains j.e.id).map (·.e))
  let lost := s.rays.filter fun r => !r.binned && all.any fun e => e.id == r.job
  let owed := (lost.filter fun r => all.any fun e => e.id == r.job && bitsOf e.data.toNat 2 0 == 1).length
  let grid := (s.ctx uid).id.grid
  ({ s with
      entries := s.entries.filter fun e => !held e
      stops := s.stops.filter fun x => !here x
      rays := s.rays.filter fun r => r.binned || !all.any fun e => e.id == r.job
      jobs := s.jobs.filter fun j => !(halted.contains j.e.id && !s.rays.any fun r => r.binned && r.job == j.e.id)
      grids := match SMap.find s.grids grid with
        | some g => if owed = 0 then s.grids else SMap.insert s.grids grid { g with records := g.records - owed }
        | none => s.grids }).settleFences

/-- An engine finds a fault in an entry: the queue stops and the wave receives ENGINE_FAULT; when the wave has exited
the held entries are discarded and the tenant receives a context error. -/
def State.engineFaultAt (s : State) (e : QEntry) (sub : Nat) (addr : Dword) : State :=
  match s.waveOf e.uid with
  | some (k, w) =>
    { s.setWave k { w with engFaults := w.engFaults ++ [{ queue := e.q, sub, addr, site := e.pc, seq := e.seq }] } with
      stops := s.stops ++ [{ uid := e.uid, q := e.q, sub, addr, age := e.age }] }
  | none =>
    let w := (s.ctx e.uid).id
    ((s.discardQueue e.uid e.q e.age).contextError
      { waveError w cEngine (BitVec.ofNat 8 sub) 0 e.pc (e.seq.setWidth 64) with queue := BitVec.ofNat 4 e.q })

/-! ## Results (01 R12, R14) -/

/-- The pop queue that answers a push queue. -/
def answerQueue (q : Nat) : Nat := if q = 2 ∨ q = 3 then q else q + 1

/-- Put an entry into a pop queue of a resident wave that has room for it; `latch` holds what a sampler keeps for it
(21 R368), `home` the die where a token command was performed. -/
def State.deliver (s : State) (uid q : Nat) (data : BitVec 256) (latch : List (Nat × List Word) := [])
    (home : Option Nat := none) : State :=
  { s.bump with entries := s.entries ++ [{ id := s.nextId, uid, q, data, age := s.nextId, clock := s.clock, latch, home }] }

/-- An entry has been performed and owes a result: it is delivered at once when the wave's pop queue has room, it is
discarded when the wave has exited, and otherwise the entry waits for room, which no fence waits for (05 R103, R105). -/
def State.postResult (s : State) (e : QEntry) (data : BitVec 256) : State :=
  match s.waveOf e.uid with
  | none => s.dropEntry e.id
  | some (_, w) =>
    if s.room w (answerQueue e.q) then (s.deliver e.uid (answerQueue e.q) data (if e.q = 10 then e.latch else []) e.home).dropEntry e.id
    else
      let s : State := { s with entries := s.entries.map fun x => if x.id = e.id then { x with post := some data } else x }
      s.settleFences

/-- Can an entry's waiting result be delivered now? -/
def State.canPost (s : State) (e : QEntry) : Bool :=
  e.post.isSome &&
  match s.waveOf e.uid with
  | none => true
  | some (_, w) => s.room w (answerQueue e.q)

/-- Deliver the first waiting result of some queue. -/
def State.postWaiting (s : State) (q : Nat) : State :=
  match s.pickEntry fun e => e.q == q && s.canPost e with
  | some e => s.postResult e (e.post.getD 0)
  | none => s

end Sys2Proof.Machine
end

