-- ==== Sys2Proof/Machine/Sync.lean ====
section
/-! DEFINITION. Fences and barriers, and raw queue entries: majors 0x1D and 0x1E (09 R215–R220). -/

namespace Sys2Proof.Machine

open Sys2Proof

/-! ## Fences (09 R215, R216) -/

/-- An ls entry of the issuing split with no location, which no register waits for. -/
def bareLs (k : LsKind) (ord : Ordr) (scope : Scope) : LsEntry :=
  { id := 0, uid := 0, die := 0, core := 0, tenant := 0, age := 0, split := 0, kind := k, ord, scope }

/-- FENCE: it acts for the split even with no active lane. -/
def execFence (e : Ext) (s : State) : Host.Outcome State Fault Refusal :=
  .next (s.checked {} fun i w sp => s.pushLs i w sp {} (bareLs .fence e.ord e.scope))

/-- The streams that a QFENCE names. -/
def streamCount (m : BitVec 17) : Nat := ((List.range 17).filter fun n => m.getLsbD n).length

/-- Put a QFENCE of some streams in force; one of a single stream has no effect. -/
def State.addFence (s : State) (uid : Nat) (set : BitVec 17) : State :=
  if streamCount set ≤ 1 then s
  else ({ s.bump with fences := s.fences ++ [({ uid, age := s.nextId, set } : QFence)] }).settleFences

/-- QFENCE. -/
def execQfence (e : Ext) (s : State) : Host.Outcome State Fault Refusal :=
  .next (s.checked {} fun i w _ => (s.addFence w.id.uid (e.lit.setWidth 17)).done i w)

/-! ## Barriers (09 R217, R218) -/

/-- The barrier network and id of an instruction. -/
def netOf (e : Ext) : Nat := e.scope.code * 4 + e.x.toNat % 4

/-- BAR_SCOPE: a barrier of the grid needs the co-residency flag. -/
def State.badScope (s : State) (w : Wave) (e : Ext) : Bool :=
  decide (2 ≤ e.scope.code) && !(s.grid w.id.grid).kd.cor

/-- A barrier at die, pkg or pod ends IDEMP (10 R243). -/
def State.barIdemp (s : State) (w : Wave) (e : Ext) : State :=
  if 2 ≤ e.scope.code then s.clearIdemp w.id else s

/-- Have all valid splits of the wave arrived at a network? -/
def Wave.allArrive (w : Wave) (net : Nat) : Bool :=
  w.splits.all fun p => match p.2.wait with
    | .arriving n _ => n == net
    | _ => false

/-- When all valid splits of a wave have arrived at a network, the wave's release begins. Splits that a handler has set aside
are no valid ones: they stay where they wait. -/
def State.tryArrive (s : State) (k net split : Nat) (pc : Dword) : State :=
  match s.wave k with
  | none => s
  | some w =>
    if w.splits = [] || !w.allArrive net then s
    else
      let released (p : Split) : Split :=
        match p.wait with
        | .arriving _ d => { p with wait := .released net d }
        | _ => p
      let w := { w with splits := w.splits.map fun p => (p.1, released p.2) }
      let x := { bareLs (.arrive net) .plain ((Scope.ofCode (net / 4)).getD .core) with
        id := s.nextId, age := s.nextId, uid := w.id.uid, die := w.id.die, core := w.id.pcore, tenant := w.id.tenant
        split, pc }
      ({ s.bump with ls := s.ls ++ [x] }).setWave k w

/-- The arrival of one split: it waits, and with the last valid split the wave's release begins. -/
def State.arrive (s : State) (e : Ext) (dep : Bool) : State :=
  s.checked {} fun i w _ =>
    let net := netOf e
    if s.badScope w e then s.trapAt i tBarScope 0 0 0
    else if (SMap.find w.arrived net).isSome then s.trapAt i tBarSeq 0 0 0
    else
      let s := s.barIdemp w e
      let s := s.done i (w.mapSplit i.split fun p => { p with wait := .arriving net dep })
      s.tryArrive i.key net i.split i.pc

/-- BAR: BARA, then BARW. -/
def execBar (e : Ext) (s : State) : Host.Outcome State Fault Refusal := .next (s.arrive e true)
def execBara (e : Ext) (s : State) : Host.Outcome State Fault Refusal := .next (s.arrive e false)

/-- The departure of a split whose instance has completed: its acquire enters the ls stream. -/
def State.depart (s : State) (k : Nat) (w : Wave) (split net : Nat) (pc : Dword) : State :=
  let w := w.mapSplits fun i p =>
    if i = split ∧ p.wait = .departing net then { p with wait := .leaving net } else p
  let scope := (Scope.ofCode (net / 4)).getD .core
  let x := { bareLs (.depart net) .plain scope with
    id := s.nextId, age := s.nextId, uid := w.id.uid, die := w.id.die, core := w.id.pcore, tenant := w.id.tenant
    split, pc }
  ({ s.bump with ls := s.ls ++ [x] }).setWave k w

/-- Has the instance that a wave arrived at completed? A wave that no longer holds the arrival bit has departed. -/
def State.instanceDone (s : State) (w : Wave) (net : Nat) : Bool :=
  match SMap.find w.arrived net with
  | some n => decide (n ≤ s.barrierDone net (s.barrierKey w.id net))
  | none => true

/-- BARW: BAR_SEQ is checked at the first split of the wave; a split that has arrived, or that a CALLI has made of one that
had, passes when its wave has already departed from the instance. -/
def execBarw (e : Ext) (s : State) : Host.Outcome State Fault Refusal :=
  .next (s.checked {} fun i w _ =>
    let net := netOf e
    if s.badScope w e then s.trapAt i tBarScope 0 0 0
    else if (SMap.find w.arrived net).isNone && !(SMap.read [] w.owed net).contains i.split then
      s.trapAt i tBarSeq 0 0 0
    else
      let s := (s.barIdemp w e).done i (w.mapSplit i.split fun p => { p with wait := .departing net })
      match s.wave i.key with
      | some w => if s.instanceDone w net then s.depart i.key w i.split net i.pc else s
      | none => s)

/-- The participants of a wave's barrier that have not retired. -/
def State.participants (s : State) (w : WaveId) (net : Nat) : List Wave :=
  (s.waves.map (·.2)).filter fun x => x.id.tenant == w.tenant && x.id.grid == w.grid && s.barrierKey x.id net == s.barrierKey w net

/-- The barriers whose current instance is complete, all participants standing on dies whose clocks run (25 R426): network
and key. -/
def State.fullBarriers (s : State) : List (Nat × (Nat × Nat)) :=
  s.waves.flatMap fun p =>
    (p.2.arrived.filter fun a =>
      let inst := s.barrierDone a.1 (s.barrierKey p.2.id a.1)
      decide (a.2 = inst + 1) &&
      (s.participants p.2.id a.1).all fun x => s.dieRuns x.id.die && SMap.find x.arrived a.1 == some (inst + 1)).map
      fun a => (a.1, s.barrierKey p.2.id a.1)

/-- BARRIER_COMPLETE: the instance of a barrier at which every participant that has not retired has arrived completes,
and the splits that wait for it depart. -/
def execBarrierComplete (s : State) : Host.Outcome State Fault Refusal :=
  .next (match s.fullBarriers with
    | [] => s
    | (net, key) :: _ =>
      let n := s.barrierDone net key
      let others := s.barriers.filter fun b => !(b.net == net && b.owner == key.1 && b.place == key.2)
      let s : State := { s with barriers := others ++ [{ net, owner := key.1, place := key.2, done := n + 1 }] }
      s.waves.foldl
        (fun s p =>
          if s.barrierKey p.2.id net = key ∧ SMap.find p.2.arrived net = some (n + 1) then
            (p.2.waiters fun t => t == .departing net).foldl
              (fun s i => match s.wave p.1 with
                | some w => s.depart p.1 w i net (SMap.read {} w.splits i).at
                | none => s) s
          else s) s)

/-! ## Raw entries (09 R219, R220) -/

/-- The queue number of an operand. -/
def queueOf (o : Opnd) : Nat :=
  match o with
  | .q n => n.toNat
  | _ => 0

/-- QPUSH: QUEUE_DIR comes before the register checks; a push to q15 is discarded while debugging is disabled; the SYNC
bit of a raw matrix entry acts as a QFENCE of ls and q0 before it (05 R106). -/
def execQpush (e : Ext) (s : State) : Host.Outcome State Fault Refusal :=
  let q := queueOf e.d
  .next (if popOnly q then s.takeTrap tQueueDir
    else s.checked (usesOf Form.qpush e) fun i w sp =>
      if q = 15 && !s.debugOn w.id then s.done i w
      else if !s.room w q then s
      else
        let data := BitVec.ofNat 256 (w.src e.lit e.a e.ty.bits 0)
        let s := if q = 0 && data.getLsbD 22 then s.addFence w.id.uid 0x10001 else s
        s.push i w sp q { id := 0, uid := 0, q, raw := true, mask := w.active sp, data })

/-- QPOP: a pop of q15 returns zero at once while debugging is disabled. -/
def execQpop (e : Ext) (s : State) : Host.Outcome State Fault Refusal :=
  let q := queueOf e.a
  let n := e.ty.bits
  .next (if pushOnly q then s.takeTrap tQueueDir
    else s.checked (usesOf Form.qpop e) fun i w _ =>
      if q = 15 && !s.debugOn w.id then s.done i (w.put e.d n 0 0)
      else
        match s.pop w.id.uid (popSide q) with
        | none => s
        | some (x, s) => s.done i (w.put e.d n 0 (x.data.toNat % 2 ^ n)))

/-- QPEEK: the number of entries not yet consumed in the queue, and the first word of its head. An entry whose result
waits for room has been consumed (log entry 72). -/
def execQpeek (e : Ext) (s : State) : Host.Outcome State Fault Refusal :=
  let q := popSide (queueOf e.a)
  .next (s.checked (usesOf Form.qpeek e) fun i w _ =>
    let xs := if q = 16 && !s.debugOn w.id then [] else (s.queue w.id.uid q).filter (·.post.isNone)
    let head := ((xs.head?).map fun x => x.data.toNat % 2 ^ 32).getD 0
    s.done i (w.put e.d 64 0 (xs.length % 2 ^ 32 + 2 ^ 32 * head)))

end Sys2Proof.Machine
end

