-- ==== Sys2Proof/Machine/Engine.lean ====
section
/-! DEFINITION. What the engines share (05 R103, 01 R17, 10 R237): steps that may find a fault, and an engine's reads
and writes. -/

namespace Sys2Proof.Machine

open Sys2Proof

/-- SUB and ADDR of an engine's fault. -/
structure EFault where
  sub : Nat
  addr : Dword := 0
  deriving DecidableEq, Repr

/-- Work of an engine on the state; a fault keeps what was done before it. -/
abbrev EM (α : Type) := ExceptT EFault (StateM State) α

/-- Run engine work. -/
def EM.go {α : Type} (m : EM α) (s : State) : Except EFault α × State := m.run.run s

/-- End with a fault. -/
def EM.fail {α : Type} (sub : Nat) (addr : Dword := 0) : EM α := throw { sub, addr }

/-- Demand a condition, else BADDESC. -/
def EM.require (b : Bool) (sub : Nat := 1) : EM Unit := if b then pure () else EM.fail sub

/-- Change the state. -/
def EM.change (f : State → State) : EM Unit := modify f

/-- Who accesses: the agent, the wave for which it does, its die, the CORE of a feedback entry, and the sequence
number of the command. -/
structure Port where
  ag : Agent
  w : WaveId
  die : Nat
  fb : Nat
  seq : Word
  /-- the PC of the push -/
  pc : Dword := 0
  /-- the lane for which a read is made, whose %resmiss bit a hole sets (06 R123) -/
  lane : Option Nat := none
  deriving DecidableEq, Repr

/-- Where a port's addresses are formed: its wave's place, with no core for an agent that stands at none. -/
def Port.place (p : Port) : WaveId :=
  { p.w with die := p.die, core := if p.ag.core.isSome then p.w.core else Config.coresPerDie }

/-- The port of an engine at its wave's core, at the die, and at a hub. -/
def State.corePort (s : State) (e : QEntry) : Port :=
  let w := (s.ctx e.uid).id
  { ag := .engine w.pcore, w, die := w.die, fb := w.core, seq := e.seq, pc := e.pc }
def State.diePort (s : State) (e : QEntry) : Port :=
  let w := (s.ctx e.uid).id
  { ag := .die w.die, w, die := w.die, fb := 0xFF, seq := e.seq, pc := e.pc }
def State.hubPort (s : State) (e : QEntry) : Port :=
  let w := (s.ctx e.uid).id
  { ag := .hub, w, die := hubDie, fb := 0xFF, seq := e.seq, pc := e.pc }

/-- The SUB of an address fault: 0x10 plus the cause of 06 R120, or 0x02 for a window's bounds. -/
def AddrFault.toEngine (f : AddrFault) : EFault :=
  { sub := if f.cause = tPageFault then 0x10 + f.sub else 2, addr := f.at_ }

/-- A read for a lane that meets a hole sets the lane's bit in the wave's %resmiss (06 R123). -/
def State.missLane (s : State) (p : Port) (k : Acc) (holes : List Dword) : State :=
  match p.lane with
  | some l => if k = .engRead ∧ holes ≠ [] then s.mapUid p.w.uid (·.missed (laneBit l)) else s
  | none => s

/-- Go on from a look-up: a sparse hole is logged (06 R125), and a fault ends the work. -/
def EM.located {α : Type} (p : Port) (k : Acc) (holes : α → List Dword) (r : State × Except AddrFault α) : EM α :=
  match r with
  | (s, .ok x) => do
    set ((s.logHoles p.die p.w.tenant p.fb k p.seq (holes x)).missLane p k (holes x))
    pure x
  | (s, .error f) => do
    set (if f.cause = tPageFault ∧ f.sub = pSparseAtom then s.logHole p.die p.w.tenant p.fb k p.seq f.at_ else s)
    throw f.toEngine

/-- Translate or place n bytes, none of whose 64-byte lines is cut. -/
def EM.placeLine (p : Port) (sp : Space) (k : Acc) (a : Dword) (n : Nat) : EM Place := do
  let s ← get
  EM.located p k (·.holes) (s.place p.place 0 sp k a n)

/-- The leaf of an address of `.g`: that of the piece of the same access before it, where this has translated its page, so
that each access is translated once in each page (06 R133). -/
def EM.leafAt (p : Port) (k : Acc) (held : Option (Dword × Leaf)) (a : Dword) : EM Leaf := do
  match held.filter fun x => x.1.toNat / x.2.size = a.toNat / x.2.size with
  | some x => pure x.2
  | none =>
    let s ← get
    let w := p.place
    EM.located p k (fun l => if l.hole then [a] else []) (match s.translate w.die w.tlbCore w.tenant k a with
      | (s, .ok l) => (s, .ok l)
      | (s, .error c) => (s, .error { cause := tPageFault, sub := c, at_ := a }))

/-- Place the next piece of one access; answers the leaf that it used too. -/
def EM.placeNext (p : Port) (sp : Space) (k : Acc) (held : Option (Dword × Leaf)) (a : Dword) (n : Nat) :
    EM (Place × Option (Dword × Leaf)) := do
  if sp = .g then
    let l ← EM.leafAt p k held a
    pure (l.place a n, some (a, l))
  else
    let x ← EM.placeLine p sp k a n
    pure (x, none)

/-- Place the pieces of one access, in order. -/
def EM.placePieces (p : Port) (sp : Space) (k : Acc) : Option (Dword × Leaf) → List (Dword × Nat) → EM (List Place)
  | _, [] => pure []
  | held, (a, n) :: rest => do
    let (x, held) ← EM.placeNext p sp k held a n
    let xs ← EM.placePieces p sp k held rest
    pure (x :: xs)

/-- The places of n bytes, cut at the 64-byte lines. DEDUCED (log entry 100): what is no longer than a line is one access, such
as an element, and of more bytes each line is one. -/
def EM.places (p : Port) (sp : Space) (k : Acc) (a : Dword) (n : Nat) : EM (List Place) :=
  let xs := pieces (n / 64 + 2) a n
  if n ≤ 64 then EM.placePieces p sp k none xs else xs.mapM fun x => EM.placeLine p sp k x.1 x.2

/-- A request of a core's engine is counted, and its record written when it is marked (13 R258, R259). -/
def State.drillEngine (s : State) (p : Port) (kind : Nat) (va : Dword) (x : Place) (comb : Bool := false)
    (beyond : Bool := if kind = 5 then x.bypass else x.through) : State :=
  match p.ag, x.locs with
  | .engine c, l :: _ =>
    if drillable l then
      let (s, dr) := s.drill c p.w.tenant
        [{ pc := p.pc, va, die := p.die, core := p.w.core, slot := p.w.slot, kind, comb, loc := l, uncached := x.uncached
           beyond }]
      s.drillAppend p.w.tenant dr
    else s
  | _, _ => s

/-- Read the bytes of some places, which stand one after another from an address up, one request for each. -/
def EM.readPlaces (p : Port) (a : Dword) (ps : List Place) : EM (List Byte) := do
  let mut out : List Byte := []
  for x in ps do
    let s ← get
    let (s, bs) := (s.strike p.w.tenant p.ag x.locs).readLocs p.ag x.uncached x.locs
    set (s.drillEngine p 5 (a + BitVec.ofNat 64 out.length) x)
    out := out ++ bs
  pure out

/-- Read n bytes (05 R86, R103), one request for each piece. -/
def EM.read (p : Port) (sp : Space) (a : Dword) (n : Nat) : EM (List Byte) := do
  let ps ← EM.places p sp .engRead a n
  EM.readPlaces p a ps

/-- Read a number of n bytes. -/
def EM.readNat (p : Port) (sp : Space) (a : Dword) (n : Nat) : EM Nat := do
  let bs ← EM.read p sp a n
  pure (leNat bs)

/-- Write the bytes of one place, which stands at an address. -/
def EM.writePlace (p : Port) (a : Dword) (x : Place) (bs : List Byte) : EM Unit :=
  modify fun s =>
    ((s.strikeStore p.w.tenant x.locs).storeThrough p.ag x.uncached x.through x.locs bs).drillEngine p 6 a x

/-- Write bytes (05 R82, R103); all of them are translated first. -/
def EM.write (p : Port) (sp : Space) (a : Dword) (bs : List Byte) : EM Unit := do
  let ps ← EM.places p sp .engWrite a bs.length
  let mut left := bs
  for x in ps do
    EM.writePlace p (a + BitVec.ofNat 64 (bs.length - left.length)) x (left.take x.locs.length)
    left := left.drop x.locs.length

/-- Write the bytes of one access in order, those of each 64-byte line checked as they are written. -/
def EM.writeEach (p : Port) (sp : Space) (a : Dword) (bs : List Byte) : EM Unit := do
  let mut held : Option (Dword × Leaf) := none
  for x in pieces (bs.length / 64 + 2) a bs.length do
    let (pl, used) ← EM.placeNext p sp .engWrite held x.1 x.2
    held := used
    EM.writePlace p x.1 pl ((bs.drop (x.1 - a).toNat).take x.2)

/-- Write a number of n bytes. -/
def EM.writeNat (p : Port) (sp : Space) (a : Dword) (n v : Nat) : EM Unit := EM.write p sp a (leBytes n v)

/-- Check that a range could be written. -/
def EM.canWrite (p : Port) (sp : Space) (a : Dword) (n : Nat) : EM Unit := do
  let _ ← EM.places p sp .engWrite a n

/-- One atomic step on a number of n bytes at most 8; answers the old value. DESIGN CHOICE (log entry 71): KIND of its
drill record is 6, since the step also writes. -/
def EM.atomic (p : Port) (sp : Space) (a : Dword) (n : Nat) (f : Nat → Nat) : EM Nat := do
  let x ← EM.placeLine p sp .atomic a n
  let s ← get
  let (s, old) := (s.strike p.w.tenant p.ag x.locs).atomic p.ag x.uncached x.locs fun o => some (leBytes n (f (leNat o)))
  set (s.drillEngine p 6 a x (beyond := true))
  pure (leNat old)

/-- A fetch-and-operate request of an engine, which may pair on its way (13 R249, R252); answers the old value. DEDUCED
(log entry 52): the atomic step of CHMUT is one, as the fork's FAO steps are. -/
def EM.fao (p : Port) (sp : Space) (a : Dword) (op : Nat) (t : DType) (b : Nat) : EM Nat := do
  let x ← EM.placeLine p sp .atomic a t.bytes
  let s ← get
  let way := match x.locs.head? with
    | some l => s.agentWay p.ag l
    | none => []
  let (s, old, comb) := s.faoRequest ⟨p.ag, some p.w.tenant, x.uncached⟩ x.locs { way, op, ty := t, operand := b }
  set (s.drillEngine p 6 a x comb true)
  pure old

/-- A release or an acquire of an engine at its own level (05 R108). -/
def EM.release (p : Port) (sc : Scope) : EM Unit := modify fun s => s.release p.ag sc
def EM.acquire (p : Port) (sc : Scope) : EM Unit := modify fun s => s.acquire p.ag sc

/-- Set status bits of the pushing wave (04 R62). -/
def EM.status (p : Port) (fl : Word) : EM Unit := modify fun s => s.addStatus p.w.uid fl

/-- The wave's current sequence number, which an implicit entry carries (17 R322); that of the command itself when the
wave has exited. -/
def State.seqNow (s : State) (e : QEntry) : Word :=
  match s.waveOf e.uid with
  | some (_, w) => w.seqno
  | none => e.seq

/-- Draws of an entry under SR, from the choice vector of its lane (04 R65). -/
def EM.draws (e : QEntry) (n : Nat) : EM (List Nat) := do
  let s ← get
  let (s, ds) := s.takeDrawN e.uid e.lane (siteOfPc e.pc) e.pc (s.seqNow e) n
  set s
  pure (ds.map (·.u.toNat))

/-- Take back what a step has done, but for what it has met: a stack that is not ready, or poison (25 R414, R428). -/
def State.undo (s s' : State) : State := { s with stalled := s'.stalled, struck := s'.struck }

/-- What a performed entry leaves: nothing, or a result for the pop queue. -/
abbrev Answer := Option (BitVec 256)

/-- Perform an entry. `keep` says whether what came before a fault stands. -/
def State.performEntry (s : State) (e : QEntry) (keep : Bool) (m : EM Answer) : State :=
  match m.go s with
  | (.ok none, s') => s'.dropEntry e.id
  | (.ok (some d), s') => s'.postResult ((s'.entries.find? fun x => x.id == e.id).getD e) d
  | (.error f, s') => (if keep then s' else s.undo s').engineFaultAt e f.sub f.addr

end Sys2Proof.Machine
end

