-- ==== Sys2Proof/Machine/Choice.lean ====
section
/-! DEFINITION. The choice engine: threads, the instructions of major 0x30, and the entries of q4 (17 R305–R327). -/

namespace Sys2Proof.Machine

open Sys2Proof

/-! ## Threads (17 R306, R307) -/

/-- Change the thread of a lane wherever it stands: with the lane, and in the entries that keep it as it was. -/
def State.mapThread (s : State) (uid lane id : Nat) (f : Thread → Thread) : State :=
  let c := s.ctx uid
  let s := if (c.thread lane).id = id then
      s.setCtx uid { c with threads := SMap.insert c.threads lane (f (c.thread lane)) } else s
  { s with entries := s.entries.map fun (e : QEntry) =>
      if e.uid = uid ∧ e.q = 4 then
        { e with threads := e.threads.map fun p => if p.1 = lane ∧ p.2.id = id then (p.1, f p.2) else p }
      else e }

/-- A thread start: every lane of the wave starts a thread, and a replay's builds of M enter q4 (17 R307, R322). -/
def State.startThreads (s : State) (w : WaveId) (cursor : Nat) (pc : Dword) (seq : Word) : State :=
  let c := s.ctx w.uid
  let c := { c with cursor, starts := c.starts + 1, threads := [] }
  let s := s.setCtx w.uid c
  if c.cd.rmode = 0 then s
  else
    (List.range w.width).foldl
      (fun s l =>
        { s.bump with
          entries := s.entries ++
            [({ id := s.nextId, age := s.nextId, uid := w.uid, q := 4, data := 0, seq, pc, lane := l, clock := s.clock
                imp := some (.build l), threads := [(l, c.fresh l)] } : QEntry)] }) s

/-! ## DRAW, DRAWF, KDRAW, CHSITE, CHSTAT, CHKEY (17 R312, R317, R318) -/

/-- The base of a draw instruction's site: the literal of `.site`, or PC[17:2]. -/
def siteBase (e : Ext) (pc : Dword) : BitVec 16 := if e.a.isLit then e.lit.setWidth 16 else siteOfPc pc

/-- One draw of each acting lane; the split waits while a lane's draw needs an M that is being built. -/
def State.drawInstr (s : State) (f : Form) (e : Ext) (put : Wave → List (Nat × Word) → Wave) : State :=
  s.checked (usesOf { f with a := .unused } { e with a := .v 0 }) fun i w sp =>
    let ls := lanesOf (w.acting sp e.k)
    if s.drawsBlocked w.id.uid ls then s
    else
      let (s, us) := s.takeDrawsAt w i (siteBase e i.pc) 1 ls
      s.done i (put w (ls.map fun l => (l, BitVec.ofNat 32 (drawOf (us.getD l [])))))

def execDraw (e : Ext) (s : State) : Host.Outcome State Fault Refusal :=
  .next (s.drawInstr Form.drawV e fun w us => us.foldl (fun w p => w.put e.d 32 p.1 p.2.toNat) w)
/-- u[31:8] × 2^−24 as FP32. -/
def execDrawf (e : Ext) (s : State) : Host.Outcome State Fault Refusal :=
  .next (s.drawInstr Form.drawV e fun w us => us.foldl (fun w p =>
    w.put e.d 32 p.1 (Num.fp32.round {} { neg := false, mag := p.2.toNat / 256, exp := -24 }).bits) w)
/-- A bit is set when u < p × 2^16. -/
def execKdraw (e : Ext) (s : State) : Host.Outcome State Fault Refusal :=
  .next (s.drawInstr Form.kdraw e fun w us =>
    w.putMask e.d (us.foldl (fun m p =>
      if p.2.toNat < w.src e.lit e.b 16 p.1 * 65536 then m ||| laneBit p.1 else m) 0))

/-- CHSITE: the site salt of the wave. -/
def execChsite (e : Ext) (s : State) : Host.Outcome State Fault Refusal :=
  .next (s.once (usesOf Form.chsite e) fun i w _ =>
    (s.mapCtx w.id.uid fun c => { c with sb := BitVec.ofNat 16 (w.src e.lit e.a 16 0) }).done i w)

/-- The value of CHSTAT for a lane. -/
def chstat (sel : Nat) (cd : ChoiceDesc) (th : Thread) : Word :=
  match sel with
  | 0 => match th.slot with
    | some t => BitVec.ofNat 32 t
    | none => 0xFFFFFFFF
  | 1 => th.draws
  | 2 => BitVec.ofNat 32 th.novel
  | 3 =>
    BitVec.ofNat 32 ((cd.rmode != 0).toNat + (cd.rmode == 2).toNat * 2 + cd.recording.toNat * 4 + th.ovf.toNat * 8
      + th.slot.isNone.toNat * 16 + th.finished.toNat * 32 + th.nosrc.toNat * 64 + th.badmut.toNat * 128
      + th.miss.toNat * 256)
  | _ => BitVec.ofNat 32 (th.m.length - th.consumed.length)

def execChstat (e : Ext) (s : State) : Host.Outcome State Fault Refusal :=
  .next (s.checked (usesOf Form.chstat e) fun i w sp =>
    let ls := lanesOf (w.acting sp e.k)
    if s.builds w.id.uid ls then s
    else
      let c := s.ctx w.id.uid
      s.done i (ls.foldl (fun w l => w.put e.d 32 l (chstat (e.x.toNat % 8) c.cd (c.thread l)).toNat) w))

def execChkey (e : Ext) (s : State) : Host.Outcome State Fault Refusal :=
  .next (s.once (usesOf Form.chkey e) fun i w _ =>
    let cd := (s.ctx w.id.uid).cd
    let key := match e.x.toNat % 4 with
      | 0 => cd.key
      | 1 => cd.rkey
      | _ => cd.ckey
    s.done i (w.put e.d 64 0 key.toNat))

/-! ## Pushes to q4 (17 R317, R319, R321, R323, R324) -/

/-- A q4 entry: MASK and OP. -/
def choiceData (op : Nat) (m : Mask) : BitVec 256 := BitVec.ofNat 256 (op + m.toNat * 2 ^ 64)

/-- A command of q4: it acts once for the split with its acting lanes, and pushes nothing when none acts. -/
def State.choicePush (s : State) (f : Form) (e : Ext) (op : Nat) (latch : Wave → Nat → List Word)
    (after : State → Wave → List Nat → State) : State :=
  s.checked (usesOf f e) fun i w sp =>
    let m := w.acting sp e.k
    if m = 0 then s.done i w
    else if !s.room w 4 then s
    else
      let ls := lanesOf m
      let c := s.ctx w.id.uid
      let s := after s w ls
      s.push i w sp 4
        { id := 0, uid := 0, q := 4, data := choiceData op m, mask := m
          latch := ls.map fun l => (l, latch w l), threads := ls.map fun l => (l, c.thread l) }

/-- CHREC. -/
def execChrec (e : Ext) (s : State) : Host.Outcome State Fault Refusal :=
  .next (s.choicePush Form.chrec e 4 (fun _ _ => []) fun s _ _ => s)

/-- RESULT: F and TR are latched and FINISHED is set at issue. -/
def execResult (e : Ext) (s : State) : Host.Outcome State Fault Refusal :=
  let f (w : Wave) (l : Nat) : Word := BitVec.ofNat 32 (w.src e.lit e.a 32 l)
  let r (w : Wave) (l : Nat) : Word := BitVec.ofNat 32 (w.src e.lit e.b 32 l)
  .next (s.choicePush Form.result e 5 (fun w l => [f w l, r w l]) fun s w ls =>
    ls.foldl (fun s l =>
      s.mapCtx w.id.uid fun c =>
        { c with threads := SMap.insert c.threads l { c.thread l with f := f w l, tr := r w l, finished := true } }) s)

/-- CHMUT. -/
def execChmut (e : Ext) (s : State) : Host.Outcome State Fault Refusal :=
  .next (s.choicePush Form.chmut e 6
    (fun w l => let a := w.src e.lit e.a 64 l; [BitVec.ofNat 32 a, BitVec.ofNat 32 (a / 2 ^ 32)]) fun s _ _ => s)

/-! ## Slots, and the build of M (17 R308, R314–R316) -/

/-- The first byte of slot T of an area. -/
def slotAt (area : Dword) (t : Nat) : Dword := area + BitVec.ofNat 64 (8256 * t)

/-- What reading a source slot gives: its entries, nothing when it is not valid, or a version in progress. -/
inductive Source where
  | entries (ds : List Draw)
  | invalid
  | changing
  deriving DecidableEq, Repr

/-- An entry's 8 bytes. -/
def drawOfBytes (bs : List Byte) : Draw :=
  let v := leNat bs
  { value := BitVec.ofNat 32 v, site := BitVec.ofNat 16 (v / 2 ^ 32), occ := BitVec.ofNat 16 (v / 2 ^ 48) }

/-- Read slot T of SRCA as one version: the copies of the die are given up first, so that no older one mixes with what
a RESULT elsewhere has written (17 R319). -/
def readSource (p : Port) (cd : ChoiceDesc) (t : Nat) : EM Source := do
  EM.acquire p .pkg
  let h ← EM.readNat p .g (slotAt cd.srca t) 64
  if !h.testBit 16 then pure .invalid
  else if h.testBit 32 then pure .changing
  else
    let n := h % 2048
    let bs ← EM.read p .g (slotAt cd.srca t + 64) (8 * n)
    pure (.entries ((List.range n).map fun i => drawOfBytes ((bs.drop (8 * i)).take 8)))

/-- Is a mutation entry malformed (17 R314)? -/
def badMutation (v : Nat) : Bool :=
  let op := v / 2 ^ 61
  let bk := v.testBit 60
  let j := bitsOf v 57 48
  let site := bitsOf v 47 32
  let arg := v % 2 ^ 32
  decide (5 ≤ op) || bitsOf v 59 58 != 0 ||
  match op with
  | 0 => bk || j != 0 || site != 0 || arg != 0
  | 1 => !bk && site != 0
  | 2 => (!bk && site != 0) || arg != 0
  | 3 => bk || j != 0 || site != 0 || decide (65536 ≤ arg)
  | _ => bk || site != 0

/-- The target of PERTURB or RESAMPLE (17 R315). -/
def mutationTarget (m : List Draw) (v : Nat) : Option Nat :=
  let j := bitsOf v 57 48
  if v.testBit 60 then
    (List.range m.length).find? fun k => match m[k]? with
      | some d => d.site.toNat == bitsOf v 47 32 && d.occ.toNat == j
      | none => false
  else if j < m.length then some j else none

/-- Change the value of entry j. -/
def setValue (m : List Draw) (j : Nat) (f : Word → Word) : List Draw :=
  m.zipIdx.map fun p => if p.2 = j then { p.1 with value := f p.1.value } else p.1

/-- The value that RKEY gives in place of entry j. -/
def resampled (cd : ChoiceDesc) (stream : Dword) (j : Nat) : Word := tephra cd.rkey stream (BitVec.ofNat 32 (2 ^ 31 + j))

/-- SHIFT. -/
def shiftDraws (cd : ChoiceDesc) (stream : Dword) (m : List Draw) (k : Int) : List Draw :=
  m.zipIdx.map fun p =>
    let src := (p.2 : Int) - k
    let v := if 0 ≤ src then (m[src.toNat]?).map (·.value) else none
    { p.1 with value := v.getD (resampled cd stream p.2) }

/-- Readings of one source that may find its version odd before it is given up: the first and 2^16 retries (17 R316). -/
def versionTries : Nat := 65536

/-- Take a source into a build: what each answer makes of it, and none while the version is odd and may be read again. -/
def Build.take (b : Build) (src : Source) (entries : List Draw → Build) (invalid : Build) : Option Build :=
  match src with
  | .entries ds => some { entries ds with tries := 0 }
  | .invalid => some { invalid with tries := 0 }
  | .changing => if versionTries ≤ b.tries then some { invalid with tries := 0 } else none

/-- Apply one mutation entry; none while a source's version is odd. -/
def mutate (p : Port) (cd : ChoiceDesc) (stream : Dword) (v : Nat) (b : Build) : EM (Option Build) :=
  if badMutation v then pure (some { b with badmut := true, ended := true })
  else
    match v / 2 ^ 61 with
    | 0 => pure (some { b with ended := true })
    | 1 => match mutationTarget b.m v with
      | some j => pure (some { b with m := setValue b.m j (· + BitVec.ofNat 32 v) })
      | none => pure (some { b with miss := true })
    | 2 => match mutationTarget b.m v with
      | some j => pure (some { b with m := setValue b.m j fun _ => resampled cd stream j })
      | none => pure (some { b with miss := true })
    | 3 => pure (some { b with m := shiftDraws cd stream b.m (Num.sval 16 (v % 65536)) })
    | _ => do
      let j := bitsOf v 57 48
      let t2 := v % 2 ^ 32
      let src ← if t2 < cd.nslot then readSource p cd t2 else pure .invalid
      pure (b.take src (fun ds => { b with m := b.m.take j ++ ds.drop j }) { b with m := b.m.take j })

/-- Apply up to n mutation entries of a list: the build, and whether it is complete. -/
def mutateList (p : Port) (cd : ChoiceDesc) (stream : Dword) (list : Dword) : Nat → Build → EM (Build × Bool)
  | 0, b => pure (b, true)
  | n + 1, b =>
    if b.ended then pure (b, true)
    else do
      let v ← EM.readNat p .g (list + BitVec.ofNat 64 (8 * b.done)) 8
      match ← mutate p cd stream v b with
      | some b => mutateList p cd stream list n { b with done := b.done + 1 }
      | none => pure ({ b with tries := b.tries + 1 }, false)

/-- The slot and mutation list that list mapping gives a thread (17 R307); a LIST of 0 is the list at address 0. -/
def mapped (p : Port) (cd : ChoiceDesc) (th : Thread) : EM (Option (Nat × Option Dword)) :=
  if cd.listMap then do
    let head ← EM.readNat p .g cd.muta 4
    if th.t < min head cd.rqn then
      let v ← EM.readNat p .g (cd.muta + BitVec.ofNat 64 (64 + 16 * th.t)) 16
      pure (some (v % 2 ^ 32, some (BitVec.ofNat 64 (v / 2 ^ 64))))
    else pure none
  else pure (th.slot.map fun t => (t, th.list))

/-- Go on with the build of slot T's M: the build, and whether it is complete. -/
def buildSlot (p : Port) (cd : ChoiceDesc) (t : Nat) (list : Option Dword) (b : Build) : EM (Build × Bool) := do
  EM.require (decide (t < cd.nslot)) 0x0A
  let src ← if b.sourced then pure (some b)
    else do
      let src ← readSource p cd t
      pure (b.take src (fun ds => { b with m := ds, sourced := true }) { b with nosrc := true, sourced := true })
  match src, list with
  | none, _ => pure ({ b with tries := b.tries + 1 }, false)
  | some b, none => pure (b, true)
  | some b, some a => mutateList p cd (BitVec.ofNat 64 t) a (16 - b.done) b

/-- What a complete build leaves in its thread. -/
def Thread.built (th : Thread) (b : Build) : Thread :=
  { th with m := b.m, nosrc := b.nosrc, miss := th.miss || b.miss, badmut := th.badmut || b.badmut, building := false }

/-- Is an entry an implicit build, or an implicit recorded draw? -/
def QEntry.isBuild (e : QEntry) : Bool :=
  match e.imp with
  | some (.build _) => true
  | _ => false
def QEntry.isRecord (e : QEntry) : Bool :=
  match e.imp with
  | some (.draw _ _ _ _ _) => true
  | _ => false

/-- An entry notes how far its build has come. -/
def State.noteBuild (s : State) (e : QEntry) (b : Option Build) : State :=
  { s with entries := s.entries.map fun (x : QEntry) => if x.id = e.id then { x with build := b } else x }

/-- M_BUILD: the build that heads a q4. The thread has its slot from the reading of its list on, whatever befalls the
build after it (17 R307, R325); a build that faults begins again. -/
def execMBuild (s : State) : Host.Outcome State Fault Refusal :=
  .next (s.engineStep QEntry.isBuild fun e =>
    match e.threads with
    | [] => s.dropEntry e.id
    | (lane, th) :: _ =>
      let cd := (s.ctx e.uid).cd
      let p := { s.corePort e with lane := some lane }
      match (mapped p cd th).go s with
      | (.error f, s') => (s.undo s').engineFaultAt e f.sub f.addr
      | (.ok none, s) => (s.mapThread e.uid lane th.id fun y => { y with building := false }).dropEntry e.id
      | (.ok (some (t, list)), s) =>
        let s := if cd.listMap then
            s.mapThread e.uid lane th.id fun y => { y with slot := some t, stream := BitVec.ofNat 64 t, list }
          else s
        match (buildSlot p cd t list (e.build.getD {})).go s with
        | (.error f, s') => ((s.undo s').noteBuild e none).engineFaultAt e f.sub f.addr
        | (.ok (b, false), s) => s.noteBuild e (some b)
        | (.ok (b, true), s) => (s.mapThread e.uid lane th.id (·.built b)).dropEntry e.id)

/-! ## Recorded draws (17 R311) -/

/-- DRAW_RECORD: the recorded draw that heads a q4 is written to its slot of RECA. -/
def execDrawRecord (s : State) : Host.Outcome State Fault Refusal :=
  .next (s.engineStep QEntry.isRecord fun e =>
    match e.imp with
    | some (.draw _ _ slot index word) =>
      let cd := (s.ctx e.uid).cd
      s.performEntry e false (do
        EM.require (decide (slot < cd.nslot)) 0x0A
        EM.writeNat (s.corePort e) .g (slotAt cd.reca slot + BitVec.ofNat 64 (64 + 8 * index)) 8 word.toNat
        pure none)
    | _ => s)

/-! ## CHREC (17 R321) -/

/-- An entry of q4 with an operation, none of whose results waits. -/
def choiceOp (op : Nat) (e : QEntry) : Bool := e.q == 4 && e.imp.isNone && e.post.isNone && !e.raw && e.bits 3 0 == op

/-- The lanes of an entry that own a thread, with it and what was latched. -/
def ownedLanes (e : QEntry) : List (Nat × Thread × Nat) := e.threads.filterMap fun p => p.2.slot.map fun t => (p.1, p.2, t)

/-- The header of 17 R313 from word 0 and the other fields. -/
def headerBytes (w0 draws novel orph f tr cmpv u key : Nat) : List Byte :=
  leBytes 64 (w0 + draws * 2 ^ 224 + min novel 0xFFFF * 2 ^ 256 + orph % 65536 * 2 ^ 272 + f * 2 ^ 288 + tr * 2 ^ 320
    + cmpv * 2 ^ 352 + u * 2 ^ 384 + key * 2 ^ 448)

/-- The flags of a header that its thread and launch give: OVF, REPLAY, KEYED, LOST, NOSRC, BADMUT and MISS (17 R313). -/
def threadFlags (cd : ChoiceDesc) (th : Thread) : Nat :=
  th.ovf.toNat * 2 ^ 17 + (cd.rmode != 0).toNat * 2 ^ 18 + (cd.rmode == 2).toNat * 2 ^ 19 + th.lost.toNat * 2 ^ 23
    + th.nosrc.toNat * 2 ^ 24 + th.badmut.toNat * 2 ^ 25 + th.miss.toNat * 2 ^ 28

/-- A thread's fresh key: KEY, or RKEY in a replay (17 R313). -/
def freshKey (cd : ChoiceDesc) : Nat := (if cd.rmode = 0 then cd.key else cd.rkey).toNat

/-- CHREC_ENTRY: partial headers after a release. DEDUCED (log entry 35): beside the fields that 17 R321 names, KEY and the
flags stand as 17 R313 gives them, which bounds only F, TR and ORPH to RESULT. A lane whose slot is BADSLOT gets none, and
the entry then faults (17 R325). -/
def execChrecEntry (s : State) : Host.Outcome State Fault Refusal :=
  .next (s.engineStep (choiceOp 4) fun e =>
    let cd := (s.ctx e.uid).cd
    let p := s.corePort e
    let xs := if cd.recording then (ownedLanes e).filter fun x => !x.2.1.finished else []
    let good := xs.filter fun x => decide (x.2.2 < cd.nslot)
    let bad := good.length != xs.length
    s.performEntry e bad (do
      if !bad || good != [] then EM.release p .pkg
      for x in good do
        let th := x.2.1
        EM.write p .g (slotAt cd.reca x.2.2)
          (headerBytes (min th.draws.toNat 1024 + 2 ^ 21 + threadFlags cd th) th.draws.toNat th.novel 0 0 0 0 0 (freshKey cd))
      EM.require (!bad) 0x0A
      pure none))

/-! ## RESULT (17 R319, R320, R327) -/

/-- A datum that METRO calls invalid: NaN or below −0. -/
def badRatio (v : Num.FVal) : Bool :=
  match v with
  | .fin x => x.neg && x.mag != 0
  | .inf neg => neg
  | _ => true

def isZeroVal (v : Num.FVal) : Bool :=
  match v with
  | .fin x => x.mag == 0
  | _ => false

def isInfVal (v : Num.FVal) : Bool :=
  match v with
  | .inf _ => true
  | _ => false

/-- Is a product 0 × ∞? -/
def zeroInf (a b : Num.FVal) : Bool := (isZeroVal a && isInfVal b) || (isInfVal a && isZeroVal b)

/-- METRO: whether the proposal is invalid, whether u × 2^−32 < a, and a as FP32 with its status bits. DEDUCED (log entry 99):
the rounding of a sets NX and UF, and IV is set by a signalling NaN and by 0 × ∞ (04 R60, R62). -/
def metro (fn tr fo u : Nat) : Bool × Bool × Num.Res :=
  let a := Num.fp32.decode fn
  let b := Num.fp32.decode tr
  let c := Num.fp32.decode fo
  let one : Num.Res := { bits := 0x3F800000 }
  if badRatio a || badRatio b || badRatio c || zeroInf a b then
    (true, false, { bits := 0, fl := Num.snanFlag [a, b, c] ||| (if zeroInf a b then Num.IV else 0) })
  else
    match a, b, c with
    | .fin x, .fin y, .fin z =>
      let v := x.mul y
      if z.mag = 0 then (false, true, one)
      else if v.mag = 0 then (false, false, { bits := 0 })
      else if 0 ≤ v.cmp z then (false, true, one)
      else (false, decide ((Num.Exact.mul (Num.Exact.ofInt u) z).cmp (v.shift 32) < 0), Num.fp32.round {} (v.div z))
    | _, _, .inf _ => (false, false, { bits := 0 })
    | _, _, _ => (false, true, one)

/-- One lane of a RESULT: its header but for word 0, the chain, and the status bits of its comparison (04 R62); answers word 0
and whether it accepted. -/
def resultLane (p : Port) (cd : ChoiceDesc) (lane : Nat) (th : Thread) (t f tr : Nat) : EM (Nat × Bool) := do
  let chain := slotAt cd.srca t
  let new := slotAt cd.reca t
  let reader := { p with lane := some lane }
  let old ← if cd.cmp = 0 then pure 0 else EM.readNat reader .g chain 64
  let fo := bitsOf old 319 288
  let iter := bitsOf old 447 416
  let vers := bitsOf old 63 32
  let u := if cd.cmp = 1 then (tephra cd.ckey th.stream (BitVec.ofNat 32 iter)).toNat else 0
  let (inv, acc, cmpv) : Bool × Bool × Num.Res :=
    match cd.cmp with
    | 1 => metro f tr fo u
    | 2 => (false, false, Num.fp32.sub {} f fo)
    | 3 => let (gt, fl) := Num.fp32.compare false 4 f fo
           (false, gt, { bits := f, fl })
    | _ => (false, false, { bits := 0 })
  if cmpv.fl != 0 then EM.status p (cmpv.fl.setWidth 32)
  let n := min th.draws.toNat 1024
  let w0 := n + 2 ^ 16 + threadFlags cd th + acc.toNat * 2 ^ 20 + inv.toNat * 2 ^ 22 + cd.cmp * 2 ^ 26
  let h := headerBytes w0 th.draws.toNat th.novel (th.m.length - th.consumed.length) f tr cmpv.bits u (freshKey cd)
  EM.write p .g (new + 4) (h.drop 4)
  if cd.cmp = 1 || cd.cmp = 3 then
    if acc then
      EM.writeNat p .g (chain + 4) 4 (vers + 1)
      EM.release p .pkg
      let bs ← EM.read reader .g (new + 64) (8 * n)
      EM.write p .g (chain + 64) bs
      EM.write p .g chain (h.take 4)
      EM.write p .g (chain + 8) ((h.drop 8).take 44)
      EM.write p .g (chain + 56) (h.drop 56)
      EM.writeNat p .g (chain + 52) 4 (iter + 1)
      EM.release p .pkg
      EM.writeNat p .g (chain + 4) 4 (vers + 2)
    else EM.writeNat p .g (chain + 52) 4 (iter + 1)
  pure (w0, acc)

/-- The q5 entry of a RESULT (17 R320). -/
def resultData (mask acc : Mask) (seq : Word) (code : Nat) : BitVec 256 :=
  BitVec.ofNat 256 (code * 2 ^ 24 + seq.toNat * 2 ^ 32 + acc.toNat * 2 ^ 64 + mask.toNat * 2 ^ 128)

/-- The lanes whose thread a RESULT finishes: those that own one which no earlier RESULT had finished. -/
def finishedMask (e : QEntry) : Mask :=
  ((ownedLanes e).filter fun x => !x.2.1.finished).foldl (fun m x => m ||| laneBit x.1) 0

def resultWork (p : Port) (cd : ChoiceDesc) (e : QEntry) : EM Answer := do
  EM.require (e.threads.all fun x => !x.2.finished) 0x09
  let xs := ownedLanes e
  let mut heads : List (Nat × Nat) := []
  let mut acc : Mask := 0
  if cd.recording then
    EM.require (xs.all fun x => decide (x.2.2 < cd.nslot)) 0x0A
    for x in xs do
      let ws := (e.latch.find? fun y => y.1 == x.1).map (·.2)
      let f := ((ws.getD []).getD 0 0).toNat
      let tr := ((ws.getD []).getD 1 0).toNat
      let (w0, ok) ← resultLane p cd x.1 x.2.1 x.2.2 f tr
      heads := heads ++ [(x.2.2, w0)]
      if ok then acc := acc ||| laneBit x.1
  EM.release p .pkg
  for h in heads do
    EM.writeNat p .g (slotAt cd.reca h.1) 4 h.2
  pure (some (resultData (finishedMask e) acc e.seq 0))

/-- RESULT_ENTRY. -/
def execResultEntry (s : State) : Host.Outcome State Fault Refusal :=
  .next (s.engineStep (choiceOp 5) fun e => s.performEntry e false (resultWork (s.corePort e) (s.ctx e.uid).cd e))

/-- RESULT_POST: a RESULT that waited for room in q5 is posted. -/
def execResultPost (s : State) : Host.Outcome State Fault Refusal := .next (s.postWaiting 4)

/-! ## CHMUT, and entries that are no command (17 R323, R324) -/

/-- CHMUT_ENTRY; an entry of q4 pushed raw meets BADDESC here. -/
def execChmutEntry (s : State) : Host.Outcome State Fault Refusal :=
  .next (s.engineStep (fun e => e.q == 4 && e.imp.isNone && e.post.isNone && (e.raw || choiceOp 6 e)) fun e =>
    let cd := (s.ctx e.uid).cd
    let p := s.corePort e
    s.performEntry e false (do
      EM.require (!e.raw)
      EM.require (e.threads.all fun x => x.2.finished && x.2.slot.isSome) 0x09
      EM.require (cd.rqa != 0)
      for x in ownedLanes e do
        let ws := ((e.latch.find? fun y => y.1 == x.1).map (·.2)).getD []
        let list := (ws.getD 0 0).toNat + 2 ^ 32 * (ws.getD 1 0).toNat
        let k ← EM.fao p .g cd.rqa 0 .n32 1
        if k < cd.rqn then
          EM.writeNat p .g (cd.rqa + BitVec.ofNat 64 (64 + 16 * k)) 16 (x.2.2 % 2 ^ 32 + list * 2 ^ 64)
        else
          let _ ← EM.fao p .g (cd.rqa + 4) 0 .n32 1
          pure ()
      pure none))

/-! ## What a dropped or discarded entry leaves (17 R325) -/

/-- The lane becomes NOTHREAD for the rest of its thread. -/
def Thread.lose (th : Thread) : Thread :=
  { th with slot := none, stream := BitVec.ofNat 64 (2 ^ 63 + th.t), building := false }

/-- A lane loses its thread: its recorded draws write nothing. -/
def State.loseThread (s : State) (uid lane id : Nat) : State :=
  let s := s.mapThread uid lane id Thread.lose
  { s with entries := s.entries.filter fun e => match e.imp with
      | some (.draw l t _ _ _) => !(e.uid == uid && l == lane && t == id)
      | _ => true }

/-- An entry of q4 leaves its stream unperformed, with the SUB that dropped it, or 0xFF when it is discarded. -/
def State.choiceDropped (s : State) (e : QEntry) (code : Nat) : State :=
  let cd := (s.ctx e.uid).cd
  let gone := s.dropEntry e.id
  match e.imp with
  | some (.build lane) =>
    let id := ((e.threads.head?).map (·.2.id)).getD 0
    if code = 0x0A then gone.loseThread e.uid lane id
    else gone.mapThread e.uid lane id fun th => { th with m := [], nosrc := true, building := false }
  | some (.draw lane id _ _ _) =>
    if code = 0x0A then gone.loseThread e.uid lane id
    else gone.mapThread e.uid lane id fun th => { th with lost := true }
  | none =>
    let s := if code = 0x0A then
        (ownedLanes e).foldl (fun s x => if cd.nslot ≤ x.2.2 then s.loseThread e.uid x.1 x.2.1.id else s) s
      else s
    if e.raw || e.bits 3 0 != 5 then s.dropEntry e.id
    else s.postResult e (resultData (finishedMask e) 0 e.seq code)

end Sys2Proof.Machine
end

