-- ==== Sys2Proof/Machine/Copy.lean ====
section
/-! DEFINITION. The copy engine: the commands of major 0x21 and the entries of q2 and q3 (14 R261–R274). -/

namespace Sys2Proof.Machine

open Sys2Proof

/-! ## Commands at issue (14 R261–R265) -/

/-- The code of the operand number of a register operand. -/
def regNo (o : Opnd) : Nat :=
  match o with
  | .v n => n.toNat
  | .s n => n.toNat
  | .k n => n.toNat
  | .q n => n.toNat
  | .lit => 0xFF

/-- A parameter group as latched: n words from the scalar register of an operand. -/
def paramWords (w : Wave) (o : Opnd) (n : Nat) : Nat := w.getSs (regNo o) n

/-- The 32-byte entry of a copy command (14 R263). -/
def copyData (op : Nat) (w : Wave) (e : Ext) : BitVec 256 :=
  BitVec.ofNat 256 (op + regNo e.a * 2 ^ 3 + 2 ^ 10 + e.ty.code * 2 ^ 11 + e.x.toNat * 2 ^ 16 + e.rnd.code * 2 ^ 23
    + e.sat.toNat * 2 ^ 26 + e.ftz.toNat * 2 ^ 27 + e.scope.code * 2 ^ 28 + paramWords w e.b 7 * 2 ^ 32)

/-- Word n of an entry. -/
def QEntry.word (e : QEntry) (n : Nat) : Nat := e.bits (32 * n + 31) (32 * n)
/-- The address in words n and n + 1. -/
def QEntry.addr (e : QEntry) (n : Nat) : Dword := BitVec.ofNat 64 (e.word n + 2 ^ 32 * e.word (n + 1))

/-- Check the first byte of each address that a command names (14 R265): the fault that comes first in the order of
09 R196, among equal ones that of the earliest address. -/
def State.checkFirst (s : State) (w : WaveId) (xs : List (Space × Acc × Dword)) : State × Option AddrFault :=
  xs.foldl
    (fun acc x =>
      match acc.1.place w 0 x.1 x.2.1 x.2.2 1, acc.2 with
      | (s, .ok _), f => (s, f)
      | (s, .error f), none => (s, some f)
      | (s, .error f), some g => (s, some (if faultOrder f.cause < faultOrder g.cause then f else g)))
    (s, none)

/-- A copy command: pending token, room, the checks of its first bytes unless its count is zero, and the push. DESIGN CHOICE
(log entry 88): the trap of a command, which acts once for its split, reports LANE 0. -/
def State.copyCommand (s : State) (f : Form) (e : Ext) (q op : Nat) (count : QEntry → Nat)
    (addrs : QEntry → List (Space × Acc × Dword)) : State :=
  s.command f e q fun i w sp =>
    let x := s.pushed i w sp q { id := 0, uid := 0, q, data := copyData op w e }
    match (if count x = 0 then (s, none) else s.checkFirst w.id (addrs x)) with
    | (s, some g) => s.trapAt i g.cause g.sub 0 g.at_
    | (s, none) => s.push i (w.sbMark [regNo e.a] (.token s.nextId)) sp q x

/-- DSP and SSP of an entry. -/
def QEntry.dsp (e : QEntry) : Space := Space.ofCode (e.bits 18 16)
def QEntry.ssp (e : QEntry) : Space := Space.ofCode (e.bits 21 19)
/-- The space of the index array. -/
def QEntry.ixs (e : QEntry) : Space := if e.data.getLsbD 22 then .core else .g

def copyAddrs (x : QEntry) : List (Space × Acc × Dword) := [(x.dsp, .engWrite, x.addr 1), (x.ssp, .engRead, x.addr 3)]
def gatherAddrs (x : QEntry) : List (Space × Acc × Dword) := copyAddrs x ++ [(x.ixs, .engRead, x.addr 5)]

/-- The number of bytes, of rows × bytes, or of elements that a command names. -/
def cpyCount (x : QEntry) : Nat := x.word 5
def cpy2dCount (x : QEntry) : Nat := (x.bits 191 180 + 1) * x.bits 179 160
def gatherCount (x : QEntry) : Nat := x.bits 247 224
def xcodeCount (x : QEntry) : Nat := x.bits 183 160

def execCpy (e : Ext) (s : State) : Host.Outcome State Fault Refusal :=
  .next (s.copyCommand Form.copy e 2 0 cpyCount copyAddrs)
def execCpy2d (e : Ext) (s : State) : Host.Outcome State Fault Refusal :=
  .next (s.copyCommand Form.copy e 2 1 cpy2dCount copyAddrs)
def execGth (e : Ext) (s : State) : Host.Outcome State Fault Refusal :=
  .next (s.copyCommand Form.gather e 2 2 gatherCount gatherAddrs)
def execSct (e : Ext) (s : State) : Host.Outcome State Fault Refusal :=
  .next (s.copyCommand Form.gather e 2 3 gatherCount gatherAddrs)
def execXcode (e : Ext) (s : State) : Host.Outcome State Fault Refusal :=
  .next (s.copyCommand Form.xcode e 2 4 xcodeCount copyAddrs)
def execColl (e : Ext) (s : State) : Host.Outcome State Fault Refusal :=
  .next (s.copyCommand Form.coll e 3 5 xcodeCount copyAddrs)

/-! ## Tokens (14 R264) -/

/-- The token of an entry receives a value, unless its wave has exited. A raw entry names no token (14 R263). DESIGN CHOICE
(log entry 86): of a number of bytes that its register cannot hold the token receives the low 32 bits. -/
def State.giveToken (s : State) (e : QEntry) (v : Nat) : State :=
  if !e.raw && e.data.getLsbD 10 && s.alive e.uid then
    { s with tokens := s.tokens ++ [{ id := e.id, uid := e.uid, reg := e.bits 9 3, val := BitVec.ofNat 32 v }] }
  else s

/-- A copy entry is performed: its token receives the number of destination bytes. -/
def State.performCopy (s : State) (e : QEntry) (m : EM Nat) : State :=
  match m.go s with
  | (.ok n, s') => (s'.giveToken e n).dropEntry e.id
  | (.error f, s') => s'.engineFaultAt e f.sub f.addr

/-! ## What an entry may hold (14 R263, R266) -/

/-- An operand that a slot takes. -/
def standIn (t : Slot) : Opnd := if t.s then .s 0 else .v 0

/-- Does a form accept the fields of an entry, whatever registers its operands named? -/
def entryFits (q : Nat) (f : Form) (e : QEntry) : Bool :=
  match DType.ofCode (e.bits 15 11), Rnd.ofCode (e.bits 25 23), Scope.ofCode (e.bits 30 28) with
  | some ty, some rnd, some scope =>
    f.accepts { d := .q (BitVec.ofNat 4 q), a := standIn f.a, b := standIn f.b, c := standIn f.c, ty, rnd, scope
                sat := e.data.getLsbD 26, ftz := e.data.getLsbD 27, x := BitVec.ofNat 7 (e.bits 22 16) }
  | _, _, _ => false

/-- The form of each operation. -/
def copyForm (op : Nat) : Option (Nat × Form) :=
  match op with
  | 0 | 1 => some (2, Form.copy)
  | 2 | 3 => some (2, Form.gather)
  | 4 => some (2, Form.xcode)
  | 5 => some (3, Form.coll)
  | _ => none

/-- Is a raw entry one of those that 14 R263 admits? DESIGN CHOICE (log entry 89): bit [31] and TOKEN, which the layout
gives as zero, are no condition of the rule and are ignored. -/
def rawCopyOk (e : QEntry) : Bool :=
  !e.raw || (!e.data.getLsbD 10 &&
    match copyForm (e.bits 2 0) with
    | some (q, f) => q == e.q && entryFits q f e
    | none => false)

/-- The limits of 14 R266 on the parameter words. -/
def copyLimits (e : QEntry) : Bool :=
  match e.bits 2 0 with
  | 0 => decide (e.word 5 < 2 ^ 31) && e.word 6 == 0 && e.word 7 == 0
  | 1 => e.word 7 == 0
  | 2 | 3 => e.bits 255 248 == 0
  | 4 => e.bits 191 184 == 0 && e.bits 223 197 == 0 && e.word 7 == 0
  | _ => e.bits 191 184 == 0

/-- BADDESC, found before any access. -/
def copyOk (e : QEntry) : Bool := rawCopyOk e && copyLimits e

/-! ## CPY, CPY2D (14 R267) -/

/-- Copy n bytes as a byte-at-a-time copy does: in stretches that cut no 64-byte line and that a named overlap does
not reach across. -/
def copyBytes (p : Port) (dsp ssp : Space) : Nat → Dword → Dword → Nat → EM Unit
  | 0, _, _, _ => pure ()
  | f + 1, d, s, n =>
    if n = 0 then pure ()
    else do
      let k := min n (min (64 - d.toNat % 64) (64 - s.toNat % 64))
      let gap := (d - s).toNat
      let k := if dsp = ssp ∧ 0 < gap ∧ gap < k then gap else k
      let bs ← EM.read p ssp s k
      let ps ← EM.places p dsp .engWrite d k
      for x in ps do
        let st ← get
        let st := (x.locs.zip bs).foldl (fun st y => st.storeThrough p.ag x.uncached x.through [y.1] [y.2])
          (st.strikeStore p.w.tenant x.locs)
        set (st.drillEngine p 6 d x)
      copyBytes p dsp ssp f (d + BitVec.ofNat 64 k) (s + BitVec.ofNat 64 k) (n - k)

/-- Is an entry of q2 with an operation? An entry that is no command is taken by CPY_ENTRY. -/
def copyOp (op : Nat) (e : QEntry) : Bool := e.q == 2 && e.bits 2 0 == op

/-- CPY_ENTRY; an entry whose OP names no command of q2 meets BADDESC here. -/
def execCpyEntry (s : State) : Host.Outcome State Fault Refusal :=
  .next (s.engineStep (fun e => e.q == 2 && (copyOp 0 e || decide (5 ≤ e.bits 2 0))) fun e =>
    let p := s.corePort e
    s.performCopy e (do
      EM.require (copyOk e && e.bits 2 0 == 0)
      copyBytes p e.dsp e.ssp (e.word 5) (e.addr 1) (e.addr 3) (e.word 5)
      pure (e.word 5)))

/-- CPY2D_ENTRY. -/
def execCpy2dEntry (s : State) : Host.Outcome State Fault Refusal :=
  .next (s.engineStep (copyOp 1) fun e =>
    let p := s.corePort e
    s.performCopy e (do
      EM.require (copyOk e)
      let rows := e.bits 191 180 + 1
      let width := e.bits 179 160
      for r in List.range rows do
        copyBytes p e.dsp e.ssp width (e.addr 1 + BitVec.ofNat 64 (16 * r * e.bits 223 208))
          (e.addr 3 + BitVec.ofNat 64 (16 * r * e.bits 207 192)) width
      pure (rows * width)))

/-! ## GTH, SCT (14 R268) -/

/-- The size of an element of TYPE 0x01–0x05. -/
def elemSize (e : QEntry) : Nat := ((DType.ofCode (e.bits 15 11)).getD .b8).bytes

def gatherWork (p : Port) (e : QEntry) (scatter : Bool) : EM Nat := do
  EM.require (copyOk e)
  let n := elemSize e
  let count := gatherCount e
  for i in List.range count do
    let k ← EM.readNat p e.ixs (e.addr 5 + BitVec.ofNat 64 (4 * i)) 4
    let (di, si) := if scatter then (k, i) else (i, k)
    let bs ← EM.read p e.ssp (e.addr 3 + BitVec.ofNat 64 (n * si)) n
    EM.write p e.dsp (e.addr 1 + BitVec.ofNat 64 (n * di)) bs
  pure (count * n)

/-- GTH_ENTRY and SCT_ENTRY. -/
def execGthEntry (s : State) : Host.Outcome State Fault Refusal :=
  .next (s.engineStep (copyOp 2) fun e => s.performCopy e (gatherWork (s.corePort e) e false))
def execSctEntry (s : State) : Host.Outcome State Fault Refusal :=
  .next (s.engineStep (copyOp 3) fun e => s.performCopy e (gatherWork (s.corePort e) e true))

/-! ## XCODE (14 R269) -/

/-- A format that XCODE takes, of a code. -/
def xcodeCode (c : Nat) : Option DType := if 6 ≤ c then DType.ofCode c else none

/-- A format of XCODE: the one named, or the EFMT of the leaf of an address; BADFMT where there is none. An access to a
sparse hole meets no fault (06 R123), and where a hole's EFMT names no format, which one is taken is free: DESIGN CHOICE
(log entry 89), and so is ADDR of a BADFMT that no leaf's EFMT has caused: the side's first address. -/
def xcodeFormat (p : Port) (code : Nat) (sp : Space) (k : Acc) (a : Dword) : EM DType := do
  let (c, hole) ← if code != 0 then pure (code, false)
    else if sp = .g then do
      let x ← EM.placeLine p .g k a 1
      pure (x.efmt, x.holes != [])
    else EM.fail 3 a
  match xcodeCode c with
  | some t => pure t
  | none =>
    if hole then do
      let s ← get
      set { s with fresh := s.fresh + 1 }
      pure ((xcodeCode (6 + Config.freeNat s.fresh % 18)).getD .f32)
    else EM.fail 3 a

/-- The bytes of one element, or of one block, of a format. -/
def fmtBytes (t : DType) : Nat := if t.isBlock then Num.blockBytes t else t.bytes

/-- The values of n elements of a format at an address, with the status bits of decoding. -/
def readValues (p : Port) (sp : Space) (t : DType) (ftz : Bool) (a : Dword) (n : Nat) : EM (List Num.FVal × Num.Flags) := do
  if t.isBlock then
    let bs ← EM.read p sp a (Num.blockBytes t)
    pure (Num.decodeBlock t ftz (bs.map BitVec.toNat))
  else
    let mut out : List Num.FVal := []
    for i in List.range n do
      let v ← EM.readNat p sp (a + BitVec.ofNat 64 (t.bytes * i)) t.bytes
      out := out ++ [Num.readAs t ftz v]
    pure (out, 0)

/-- The mode of an entry, with the draw of one element. -/
def entryMode (e : QEntry) (u : Nat) : Num.RMode :=
  { rnd := (Rnd.ofCode (e.bits 25 23)).getD .rne, u, sat := e.data.getLsbD 26, ftz := e.data.getLsbD 27 }

/-- Does an entry round stochastically? -/
def entrySr (e : QEntry) : Bool := e.bits 25 23 == 4

/-- Convert elements i·n to i·n + n − 1: one element, or a group of 32 beside a block. -/
def xcodeGroup (p : Port) (e : QEntry) (sf df : DType) (n i : Nat) : EM Unit := do
  let src := e.addr 3 + BitVec.ofNat 64 (if sf.isBlock then fmtBytes sf * i else fmtBytes sf * n * i)
  let dst := e.addr 1 + BitVec.ofNat 64 (if df.isBlock then fmtBytes df * i else fmtBytes df * n * i)
  let ftz := e.data.getLsbD 27
  if sf.isInt && df.isInt then
    let v ← EM.readNat p e.ssp src sf.bytes
    let _ ← if entrySr e then EM.draws e 1 else pure []
    let r := Num.fitInt df (e.data.getLsbD 26) (Num.ival sf v)
    EM.status p r.fl
    EM.writeNat p e.dsp dst df.bytes r.bits
  else
    let (vs, fl) ← readValues p e.ssp sf ftz src n
    EM.status p fl
    if df.isBlock then
      let us ← if entrySr e then EM.draws e (Num.blockDraws df) else pure []
      let (bs, fl) := Num.encodeBlock df (entryMode e 0) us vs
      EM.status p fl
      EM.write p e.dsp dst (bs.map (BitVec.ofNat 8))
    else
      for x in vs.zipIdx do
        let us ← if entrySr e then EM.draws e 1 else pure []
        let r := Num.convertVal df (entryMode e (drawOf us)) x.1
        EM.status p r.fl
        EM.writeNat p e.dsp (dst + BitVec.ofNat 64 (df.bytes * x.2)) df.bytes r.bits

/-- XCODE_ENTRY. DESIGN CHOICE (log entry 89): of several faults DF's comes first, then SF's, then that of the count; a count
of 0 writes 0 before either format is looked at. -/
def execXcodeEntry (s : State) : Host.Outcome State Fault Refusal :=
  .next (s.engineStep (fun e => copyOp 4 e && !(entrySr e && s.drawsBlocked e.uid [e.lane])) fun e =>
    let p := s.corePort e
    s.performCopy e (do
      EM.require (copyOk e)
      let count := xcodeCount e
      if count = 0 then pure 0
      else
        let df ← xcodeFormat p (e.bits 15 11) e.dsp .engWrite (e.addr 1)
        let sf ← xcodeFormat p (e.bits 196 192) e.ssp .engRead (e.addr 3)
        let n := if sf.isBlock || df.isBlock then 32 else 1
        EM.require (count % n == 0)
        for i in List.range (count / n) do
          xcodeGroup p e sf df n i
        pure (if df.isBlock then count / 32 * fmtBytes df else count * fmtBytes df)))

/-! ## Collectives (14 R270–R272) -/

/-- The instance of a scope that a wave's core stands in. -/
def scopeInstance (w : WaveId) (scope : Nat) : Nat :=
  match scope with
  | 0 => w.pcore
  | 1 => w.pquad
  | 2 => w.die
  | _ => 0

/-- How many COLLs with a key a wave's q3 has finished with. -/
def Ctx.collCount (c : Ctx) (key : Nat) : Nat := SMap.read 0 c.colls key

/-- What entries must share to match. -/
def State.collGroup (s : State) (e : QEntry) : List Nat :=
  let w := (s.ctx e.uid).id
  [w.tenant, w.grid, e.bits 30 28, scopeInstance w (e.bits 30 28), e.word 7, (s.ctx e.uid).collCount (e.word 7)]

def collN (e : QEntry) : Nat := e.bits 207 200 + 1
def collRank (e : QEntry) : Nat := e.bits 215 208
def collRoot (e : QEntry) : Nat := e.bits 223 216
def collCop (e : QEntry) : Nat := e.bits 194 192
def collRop (e : QEntry) : Nat := e.bits 196 195
/-- What the entries of an instance must agree in: N, COP, ROP, ROOT, count, TYPE, RND, FTZ. -/
def collShape (e : QEntry) : List Nat :=
  [collN e, collCop e, collRop e, collRoot e, xcodeCount e, e.bits 15 11, e.bits 25 23, e.bits 27 27]

/-- BADDESC of a COLL taken by itself. -/
def collOk (e : QEntry) : Bool :=
  let t := (DType.ofCode (e.bits 15 11)).getD .none
  let fold := collCop e == 1 || collCop e == 2
  copyOk e && e.bits 2 0 == 5 && decide (collCop e < 4) && collRop e != 3 && e.bits 199 197 == 0
  && (if fold then t.isInt || t.isFD else !(t.isInt || t.isFD))
  && (collCop e != 2 || xcodeCount e % collN e == 0)

/-- The entries that head a q3 and match one. -/
def State.collSet (s : State) (e : QEntry) : List QEntry :=
  s.entries.filter fun x => x.q == 3 && s.heads x && collOk x && xcodeCount x != 0 && s.collGroup x == s.collGroup e

/-- Count a COLL as done with, and take its entry out. -/
def State.collLeave (s : State) (e : QEntry) : State :=
  (s.mapCtx e.uid fun c => { c with colls := SMap.insert c.colls (e.word 7) (c.collCount (e.word 7) + 1) }).dropEntry e.id

/-- An entry of q2 or q3 leaves its stream unperformed: its token receives 0xFFFFFFFF (14 R264). Only a COLL counts
among the COLLs of its KEY. -/
def State.copyDropped (s : State) (e : QEntry) : State :=
  let s := s.giveToken e 0xFFFFFFFF
  if e.q = 3 ∧ e.bits 2 0 = 5 then s.collLeave e else s.dropEntry e.id

/-- ⊕ of 14 R271, in the operation codes of 09 R207. -/
def collOp (e : QEntry) : Nat :=
  match collRop e with
  | 0 => 0
  | 1 => 5
  | _ => 6

/-- Read count elements of a member's source. -/
def collSource (p : Port) (e : QEntry) (n : Nat) : EM (List Nat) := do
  let mut out : List Nat := []
  for i in List.range (xcodeCount e) do
    let v ← EM.readNat p e.ssp (e.addr 3 + BitVec.ofNat 64 (n * i)) n
    out := out ++ [v]
  pure out

/-- Write elements at a member's destination. -/
def collWrite (p : Port) (e : QEntry) (n : Nat) (vs : List Nat) : EM Unit := do
  for x in vs.zipIdx do
    EM.writeNat p e.dsp (e.addr 1 + BitVec.ofNat 64 (n * x.2)) n x.1

/-- A value of a floating-point type as a command reads it: under FTZ a subnormal becomes a zero of its sign, which
sets no status bit (04 R61). -/
def flushed (t : DType) (ftz : Bool) (v : Nat) : Nat :=
  match Num.fmtOf t with
  | some f => f.flushBits ftz v
  | none => v

/-- The fold of one element over the ranks, with its status bits; each value read is flushed under FTZ. -/
def foldElem (t : DType) (op : Nat) (m : Num.RMode) : List Nat → Num.Res
  | [] => { bits := 0 }
  | v :: rest =>
    rest.foldl (fun (acc : Num.Res) x =>
      let r := atomNew op t m acc.bits x
      { r with fl := r.fl ||| acc.fl }) { bits := flushed t m.ftz v }

/-- The destination elements of rank r, from all sources in ascending rank. DESIGN CHOICE (log entry 76): a member of an
RSCAT receives the status bits of every fold of the instance. -/
def collResult (e : QEntry) (r : Nat) (srcs : List (List Nat)) : List Nat × Num.Flags :=
  let t := (DType.ofCode (e.bits 15 11)).getD .none
  let folded := (List.range (xcodeCount e)).map fun j => foldElem t (collOp e) (entryMode e 0) (srcs.map fun v => v.getD j 0)
  let fl := folded.foldl (fun f x => f ||| x.fl) 0
  match collCop e with
  | 0 => (srcs.getD (collRoot e) [], 0)
  | 1 => (folded.map (·.bits), fl)
  | 2 =>
    let c := xcodeCount e / collN e
    (((folded.map (·.bits)).drop (r * c)).take c, fl)
  | _ => (srcs.flatten, 0)

/-- Run one member's part of an instance, noting the member if it faults. -/
def onMember {α : Type} (e : QEntry) (m : Port → EM α) (s : State) : State × Except (Nat × EFault) α :=
  match (m (s.corePort e)).go s with
  | (.ok a, s) => (s, .ok a)
  | (.error f, s) => (s, .error (e.id, f))

/-- Members in ascending rank. -/
def byRank (xs : List QEntry) : List QEntry :=
  (List.range 256).flatMap fun r => xs.filter fun x => collRank x == r

/-- Read the sources that the rule uses, in ascending rank: every member's, but of a BCAST only ROOT's. -/
def collReads (n : Nat) (sc : Scope) : List QEntry → State → State × Except (Nat × EFault) (List (List Nat))
  | [], s => (s, .ok [])
  | e :: rest, s =>
    match onMember e (fun p => if collCop e = 0 ∧ collRank e ≠ collRoot e then pure [] else collSource p e n) s with
    | (s, .error f) => (s, .error f)
    | (s, .ok v) =>
      match collReads n sc rest s with
      | (s, .ok vs) => (s, .ok (v :: vs))
      | r => r

/-- Write all destinations, each followed by its member's acquire. -/
def collWrites (n : Nat) (sc : Scope) (srcs : List (List Nat)) : List QEntry → State → State × Except (Nat × EFault) Unit
  | [], s => (s, .ok ())
  | e :: rest, s =>
    let (vs, fl) := collResult e (collRank e) srcs
    match onMember e (fun p => do
        collWrite p e n vs
        EM.status p fl
        EM.acquire p sc) s with
    | (s, .error f) => (s, .error f)
    | (s, .ok _) => collWrites n sc srcs rest s

/-- Every member of a faulted instance receives the fault: its own, or COLL_MISMATCH. -/
def State.collFault (s : State) (xs : List QEntry) (own : Option (Nat × EFault)) : State :=
  xs.foldl
    (fun s x =>
      match own with
      | some (id, f) => if id = x.id then s.engineFaultAt x f.sub f.addr else s.engineFaultAt x 4 0
      | none => s.engineFaultAt x 4 0) s

/-- The bytes that an entry's rule addresses at its own wave's destination. -/
def collBytes (e : QEntry) : Nat :=
  let n := elemSize e
  match collCop e with
  | 2 => xcodeCount e / collN e * n
  | 3 => xcodeCount e * collN e * n
  | _ => xcodeCount e * n

/-- Perform a matched set: COLL_MISMATCH when its entries disagree. -/
def State.collInstance (s : State) (xs : List QEntry) : State :=
  match xs with
  | [] => s
  | e :: _ =>
    let ranks := xs.map collRank
    let agree := xs.all fun x => collShape x == collShape e && decide (collRank x < collN x) && decide (collRoot x < collN x)
    if !agree || ranks.eraseDups.length != xs.length || xs.length != collN e then s.collFault xs none
    else
      let xs := byRank xs
      let sc := (Scope.ofCode (e.bits 30 28)).getD .core
      let n := elemSize e
      let s := xs.foldl (fun s x => s.release (s.corePort x).ag sc) s
      match collReads n sc xs s with
      | (s, .error f) => s.collFault xs (some f)
      | (s, .ok srcs) =>
        match collWrites n sc srcs xs s with
        | (s, .error f) => s.collFault xs (some f)
        | (s, .ok _) => xs.foldl (fun s x => (s.giveToken x (collBytes x)).collLeave x) s

/-- May a head of q3 act now: it is malformed, empty, or its instance is complete? -/
def State.collReady (s : State) (e : QEntry) : Bool :=
  e.q == 3 && (!collOk e || xcodeCount e == 0 || (s.collSet e).any fun x => decide (collN x ≤ (s.collSet e).length))

/-- COLL_INSTANCE: a complete instance is performed; a malformed entry meets BADDESC, and one of no elements writes 0
to its token. -/
def execCollInstance (s : State) : Host.Outcome State Fault Refusal :=
  .next (s.engineStep s.collReady fun e =>
    if !collOk e then s.engineFaultAt e 1 0
    else if xcodeCount e = 0 then (s.giveToken e 0).collLeave e
    else s.collInstance (s.collSet e))

/-- Clocks after which an incomplete instance times out (14 R270, 15 R280). -/
def instanceLimit : Nat := 2 ^ 24

/-- Has an entry stood at the head of its queue for 2^24 clocks? -/
def State.overdue (s : State) (e : QEntry) : Bool :=
  match e.began with
  | some c => decide (c + instanceLimit ≤ s.dieClock (s.ctx e.uid).id.die)
  | none => false

/-- COLL_TIMEOUT. -/
def execCollTimeout (s : State) : Host.Outcome State Fault Refusal :=
  .next (s.engineStep (fun e => e.q == 3 && !s.collReady e && s.overdue e) fun e => s.engineFaultAt e 5 0)

/-- Has an entry begun whose start is still to be noted: one of q0 at the head of its queue, fenced or not (15 R280, R283),
or one of q3 that its engine may perform (14 R270)? -/
def State.begins (s : State) (e : QEntry) : Bool :=
  e.began.isNone && (e.q == 0 && s.standsFirst e || e.q == 3 && s.heads e)

/-- Note the clock at which the entries of q0 and q3 that head their queues began. -/
def State.stampHeads (s : State) : State :=
  if s.entries.any s.begins then
    { s with entries := s.entries.map fun (e : QEntry) =>
        if s.begins e then { e with began := some (s.dieClock (s.ctx e.uid).id.die) } else e }
  else s

end Sys2Proof.Machine
end

