-- ==== Sys2Proof/Machine/Matrix.lean ====
section
/-! DEFINITION. The matrix engine: the commands of major 0x20 and the entries of q0 (15 R275–R301, 04 R79, R80). -/

namespace Sys2Proof.Machine

open Sys2Proof

/-! ## Tiles (15 R275) -/

/-- The key of element (0, 0) of a tile of a workgroup on a core. -/
def tileKey (g : Group) (pcore tile : Nat) : Nat := (pcore * 2 ^ 20 + g.tileBase + tile) * 4096

/-- The elements of a tile, row by row. -/
def State.tileRead (s : State) (key : Nat) : List Word :=
  let mine : SMap Word := s.tiles.filter fun p => decide (key ≤ p.1) && decide (p.1 < key + 4096)
  (List.range 4096).map fun i => SMap.read 0 mine (key + i)

/-- Replace a tile. -/
def State.tileWrite (s : State) (key : Nat) (ws : List Word) : State :=
  let new : SMap Word := (ws.zipIdx.filter fun p => p.1 != 0).map fun p => (key + p.2, p.1)
  { s.cleanseTiles key 4096 with tiles := SMap.replaceRange s.tiles key (key + 4096) new }

/-! ## Commands at issue (15 R284, R285) -/

/-- The 32-byte entry of a matrix command with its parameter words from w1 up. -/
def matrixData (op : Nat) (e : Ext) (params : Nat) : BitVec 256 :=
  BitVec.ofNat 256 (op + e.ty.code * 2 ^ 11 + e.x.toNat * 2 ^ 16 + e.rnd.code * 2 ^ 23 + e.sat.toNat * 2 ^ 26
    + e.ftz.toNat * 2 ^ 27 + params * 2 ^ 32)

/-- MACC of a wave's workgroup. -/
def State.macc (s : State) (w : Wave) : Nat := (s.group w.id.group).kd.macc

/-- A command that names a tile beyond the workgroup's takes REG_BOUNDS at issue. -/
def State.tileChecked (s : State) (e : Ext) (f : State → State) : State :=
  s.withCur fun i w _ => if s.macc w ≤ e.x.toNat % 4 then s.trapAt i tRegBounds 0 0 0 else f s

/-- A push to q0; SYNC acts as a QFENCE of ls and q0 before it (05 R106). -/
def State.matrixPush (s : State) (f : Form) (e : Ext) (op : Nat) (params : Wave → Nat) : State :=
  s.command f e 0 fun i w sp =>
    let s := if e.x.getLsbD 6 then s.addFence w.id.uid 0x10001 else s
    s.push i w sp 0 { id := 0, uid := 0, q := 0, data := matrixData op e (params w), mask := w.active sp }

/-- The operands A and B as words w1 and w2. -/
def paramAB (e : Ext) (w : Wave) : Nat := w.src e.lit e.a 32 0 + 2 ^ 32 * w.src e.lit e.b 32 0

def execMma (e : Ext) (s : State) : Host.Outcome State Fault Refusal :=
  .next (s.tileChecked e fun s => s.matrixPush Form.mma e 0 fun w => w.src e.lit e.a 32 0)
def execMzero (e : Ext) (s : State) : Host.Outcome State Fault Refusal :=
  .next (s.tileChecked e fun s => s.matrixPush Form.mzero e 1 fun _ => 0)
def execMlda (e : Ext) (s : State) : Host.Outcome State Fault Refusal :=
  .next (s.matrixPush Form.mld e 2 (paramAB e))
def execMldb (e : Ext) (s : State) : Host.Outcome State Fault Refusal :=
  .next (s.matrixPush Form.mld e 3 (paramAB e))
def execMunf (e : Ext) (s : State) : Host.Outcome State Fault Refusal :=
  .next (s.matrixPush Form.munf e 4 fun w => paramWords w e.b 5)
def execMhist (e : Ext) (s : State) : Host.Outcome State Fault Refusal :=
  .next (s.matrixPush Form.mld e 6 (paramAB e))

/-- MDRN: the first byte written is checked at issue (15 R292). -/
def execMdrn (e : Ext) (s : State) : Host.Outcome State Fault Refusal :=
  .next (s.tileChecked e fun s =>
    s.withCur fun i w sp =>
      let a := w.src e.lit e.a 64 0
      let u := usesOf Form.mdrn e
      if w.active sp = 0 || w.outOfBounds u || w.scoreboard u || !s.room w 0 then s.matrixPush Form.mdrn e 5 fun _ => 0
      else
        match s.checkFirst w.id [(Space.ofCode (e.x.toNat / 4 % 8), .engWrite, BitVec.ofNat 64 a)] with
        | (s, some g) => s.trapAt i g.cause g.sub 0 g.at_
        | (s, none) => s.matrixPush Form.mdrn e 5 fun w => a + 2 ^ 64 * w.src e.lit e.b 32 0)

/-- A pop into n scalar registers of the first n words of the entry; with NB an empty queue writes zeros at once. -/
def State.popWords (s : State) (f : Form) (e : Ext) (q n : Nat) (nb : Bool) : State :=
  s.once (usesOf f e) fun i w _ =>
    match s.pop w.id.uid q with
    | none => if nb then s.done i (w.setSs (regNo e.d) n 0) else s
    | some (x, s) => s.done i (w.setSs (regNo e.d) n (x.data.toNat % 2 ^ (32 * n)))

/-- MSTAT (15 R296). -/
def execMstat (e : Ext) (s : State) : Host.Outcome State Fault Refusal :=
  .next (s.popWords Form.mstat e 1 2 (e.x.getLsbD 0))

/-! ## Entries (15 R285) -/

def matTile (e : QEntry) : Nat := e.bits 17 16
def matSpan (e : QEntry) : Nat := e.bits 19 18
def matType (e : QEntry) : DType := (DType.ofCode (e.bits 15 11)).getD .none
def matK (e : QEntry) : Nat := e.word 1

/-- The forms of the operations. -/
def matrixForm (op : Nat) : Option Form :=
  match op with
  | 0 => some Form.mma
  | 1 => some Form.mzero
  | 2 | 3 | 6 => some Form.mld
  | 4 => some Form.munf
  | 5 => some Form.mdrn
  | _ => none

/-- Are the fields of a raw entry ones that the engine accepts, with a given TYPE? DESIGN CHOICE (log entry 109): the PARAM
words that its operation does not use are ignored (15 R285). -/
def State.rawFieldsOk (s : State) (type : Option DType) (e : QEntry) : Bool :=
  !e.raw ||
  match matrixForm (e.bits 2 0), type, Rnd.ofCode (e.bits 25 23) with
  | some f, some ty, some rnd =>
    let x : Ext :=
      { d := .q 0, a := .s 0, b := .s 0, ty, rnd, sat := e.data.getLsbD 26, ftz := e.data.getLsbD 27
        x := BitVec.ofNat 7 (e.bits 22 16) }
    { f with a := .ofS (.w 32), b := .ofS (.w 32) }.accepts x && e.bits 10 3 == 0 && e.bits 31 28 == 0
      && ([0, 1, 5].all fun op => e.bits 2 0 != op || decide (matTile e < (s.group (s.ctx e.uid).id.group).kd.macc))
  | _, _, _ => false

/-- Is a raw entry one that the engine accepts? -/
def State.rawMatrixOk (s : State) (e : QEntry) : Bool := s.rawFieldsOk (DType.ofCode (e.bits 15 11)) e

/-- The key of the tile that an entry names. -/
def State.entryTile (s : State) (e : QEntry) : Nat :=
  let w := (s.ctx e.uid).id
  tileKey (s.group w.group) w.pcore (matTile e)

/-- Is a wave's workgroup a quad workgroup? -/
def State.inQuad (s : State) (e : QEntry) : Bool := (s.group (s.ctx e.uid).id.group).kd.quadwg

/-- A joint MMA that can become a candidate (15 R280, R283, R285). The TYPE of a member that turns out not to be the
issuer is ignored (15 R281), so none is asked of it here. -/
def State.joint (s : State) (e : QEntry) : Bool :=
  e.q == 0 && e.bits 2 0 == 0 && matSpan e != 0 && e.post.isNone && s.rawFieldsOk (some .f16) e && s.inQuad e

/-- A joint MMA of a core workgroup meets BADSPAN once it is pushed, whatever stands before it in its queue (15 R283,
R300). -/
def State.badSpan (s : State) (e : QEntry) : Bool :=
  e.q == 0 && e.bits 2 0 == 0 && matSpan e != 0 && e.post.isNone && s.rawMatrixOk e && !s.inQuad e && s.seen e

/-! ## Whose turn it is (15 R282) -/

/-- The order of entries at one core: the clock of the push, then %slot. DESIGN CHOICE (log entry 98): of two halves of one
slot that push in one clock the low half comes first. -/
def State.matRank (s : State) (e : QEntry) : Nat := e.clock * 128 + 2 * (s.ctx e.uid).id.slot + (s.ctx e.uid).id.half

/-- The core of an entry. -/
def State.entryCore (s : State) (e : QEntry) : Nat := (s.ctx e.uid).id.pcore

/-- Does a formed instance hold the engine of a core? -/
def State.coreHeld (s : State) (pcore : Nat) : Bool :=
  s.joins.any fun j => s.entries.any fun x => j.members.contains x.id && s.entryCore x == pcore

/-- May an entry that stands alone be performed: it heads its queue, its core's engine is free, and no ready entry of
the core was pushed earlier? DESIGN CHOICE (log entry 109): an MDRN under SR whose draws wait for a build (17 R318) is ready in
this sense, so that what was pushed later waits for it. -/
def State.matTurn (s : State) (e : QEntry) : Bool :=
  e.q == 0 && s.heads e && e.post.isNone && !s.joint e && !s.coreHeld (s.entryCore e) &&
  s.entries.all fun x =>
    !(x.q == 0 && s.entryCore x == s.entryCore e && s.heads x && x.post.isNone && !s.joint x)
      || decide (s.matRank e ≤ s.matRank x)

/-- A matrix entry with an operation. -/
def matOp (op : Nat) (e : QEntry) : Bool := e.q == 0 && e.bits 2 0 == op

/-- Run a step on the entry of an operation whose turn it is; a raw entry that is not accepted meets BADDESC. -/
def State.matStep (s : State) (p : QEntry → Bool) (f : QEntry → EM Answer) : State :=
  s.engineStep (fun e => p e && s.matTurn e) fun e =>
    s.performEntry e true (do
      EM.require (s.rawMatrixOk e)
      f e)

/-! ## Descriptors (15 R286–R288, R293) -/

def EM.ctx (uid : Nat) (f : Ctx → Ctx) : EM Unit := modify fun s => s.mapCtx uid f

/-- MZERO_ENTRY. -/
def execMzeroEntry (s : State) : Host.Outcome State Fault Refusal :=
  .next (s.matStep (matOp 1) fun e => do
    modify fun s => { s.cleanseTiles (s.entryTile e) 4096 with
      tiles := SMap.dropRange s.tiles (s.entryTile e) (s.entryTile e + 4096) }
    pure none)

/-- A plain descriptor of an entry. -/
def plainDesc (e : QEntry) : EM MatDesc := do
  EM.require (e.word 1 % 16 == 0 && e.word 2 % 16 == 0 && e.word 2 != 0)
  pure (.plain (e.word 1) (e.word 2))

/-- MLDA_ENTRY and MLDB_ENTRY. -/
def execMldaEntry (s : State) : Host.Outcome State Fault Refusal :=
  .next (s.matStep (matOp 2) fun e => do
    let d ← plainDesc e
    EM.ctx e.uid fun c => { c with adesc := d }
    pure none)
def execMldbEntry (s : State) : Host.Outcome State Fault Refusal :=
  .next (s.matStep (matOp 3) fun e => do
    let d ← plainDesc e
    EM.ctx e.uid fun c => { c with bdesc := d }
    pure none)

/-- The fields of an unfolding. -/
structure Unfold where
  base : Nat
  hi : Nat
  wi : Nat
  fs : Nat
  fr : Nat
  ci : Nat
  wo : Nat
  pd : Nat
  st : Nat
  first : Nat
  deriving DecidableEq, Repr

def unfoldOf (w1 w2 w3 w4 w5 : Nat) : Unfold :=
  { base := w1, hi := bitsOf w2 31 16, wi := bitsOf w2 15 0, fs := bitsOf w3 31 24, fr := bitsOf w3 23 16
    ci := bitsOf w3 15 0, wo := bitsOf w4 31 16, pd := bitsOf w4 15 8, st := bitsOf w4 7 0, first := w5 }

/-- MUNF_ENTRY. -/
def execMunfEntry (s : State) : Host.Outcome State Fault Refusal :=
  .next (s.matStep (matOp 4) fun e => do
    let u := unfoldOf (e.word 1) (e.word 2) (e.word 3) (e.word 4) (e.word 5)
    EM.require (u.base % 16 == 0 && u.wi != 0 && u.hi != 0 && u.ci != 0 && u.fr != 0 && u.fs != 0 && u.st != 0 && u.wo != 0)
    EM.ctx e.uid fun c => { c with adesc := .virtual (e.word 1) (e.word 2) (e.word 3) (e.word 4) (e.word 5) }
    pure none)

/-- MHIST_ENTRY. -/
def execMhistEntry (s : State) : Host.Outcome State Fault Refusal :=
  .next (s.matStep (matOp 6) fun e => do
    let eb := Num.sval 32 (e.word 2)
    EM.require (e.word 1 % 128 == 0 && decide (-160 ≤ eb) && decide (eb ≤ 127))
    EM.ctx e.uid fun c => { c with hdesc := some (e.word 1, eb) }
    pure none)

/-! ## Shares (15 R277, R278, R288) -/

/-- The step depth of 04 R79. -/
def stepDepth (t : DType) : Nat :=
  match t with
  | .bf16 | .f16 => 1
  | .mxfp4 | .i4x => 4
  | _ => 2

/-- Row bytes of a share with K elements a row. -/
def rowBytes (t : DType) (k : Nat) : Nat := if t.isBlock then Num.blockBytes t * (k / 32) else t.bytes * k

/-- Does K meet 15 R278? -/
def kOk (t : DType) (k : Nat) : Bool := decide (1 ≤ k) && decide (k ≤ 4096) && k % (if t.isBlock then 32 else stepDepth t) == 0

/-- The value of an element. -/
def matVal (t : DType) (bits : Nat) : Num.FVal :=
  match Num.fmtOf t with
  | some f => f.decode bits
  | none => .fin (Num.Exact.ofInt (Num.sval 8 bits))

/-- A row or column of a share: its values, with FMT for an excess marker. -/
abbrev MatRow := List Num.FVal × Num.Flags

/-- The values of a row's bytes. -/
def decodeRow (t : DType) (k : Nat) (bs : List Byte) : MatRow :=
  if t.isBlock then
    let n := Num.blockBytes t
    (List.range (k / 32)).foldl
      (fun acc j =>
        let (vs, fl) := Num.decodeBlock t false (((bs.drop (n * j)).take n).map BitVec.toNat)
        (acc.1 ++ vs, acc.2 ||| fl)) ([], 0)
  else ((List.range k).map fun j => matVal t (leNat ((bs.drop (t.bytes * j)).take t.bytes)), 0)

/-- The `.core` offset of element (j, k) of a virtual share, none for +0. -/
def unfoldAt (u : Unfold) (size j k : Nat) : Option Nat :=
  let p := u.first + j
  let r := k / (u.fs * u.ci)
  let c := k % u.ci
  let iy : Int := (p / u.wo * u.st : Nat) - (u.pd : Int) + (r : Int)
  let ix : Int := (p % u.wo * u.st : Nat) - (u.pd : Int) + (k / u.ci % u.fs : Nat)
  if u.fr * u.fs * u.ci ≤ k || iy < 0 || (u.hi : Int) ≤ iy || ix < 0 || (u.wi : Int) ≤ ix then none
  else some (u.base + ((iy.toNat * u.wi + ix.toNat) * u.ci + c) * size)

/-- Read n rows or columns of a share. -/
def readShare (p : Port) (d : MatDesc) (t : DType) (k n : Nat) : EM (List MatRow) := do
  let mut out : List MatRow := []
  match d with
  | .invalid => EM.fail 1
  | .plain off pitch =>
    for j in List.range n do
      let bs ← EM.read p .core (BitVec.ofNat 64 (off + j * pitch)) (rowBytes t k)
      out := out ++ [decodeRow t k bs]
    pure out
  | .virtual w1 w2 w3 w4 w5 =>
    let u := unfoldOf w1 w2 w3 w4 w5
    for j in List.range n do
      let mut row : List Num.FVal := []
      for i in List.range k do
        match unfoldAt u t.bytes j i with
        | none => row := row ++ [matVal t 0]
        | some o =>
          let v ← EM.readNat p .core (BitVec.ofNat 64 o) t.bytes
          row := row ++ [matVal t v]
      out := out ++ [(row, 0)]
    pure out

/-! ## The accumulation (04 R79, R80, 15 R289) -/

/-- One product, with IV where it is a NaN. -/
def matProduct (a b : Num.FVal) : Num.FVal × Num.Flags :=
  match (Num.FVal.mul a b).1 with
  | .nan _ => (.nan false, Num.IV)
  | v => (v, 0)

/-- S: the exact sum of a step's products. -/
def stepSum (ps : List (Num.FVal × Num.FVal)) : Num.FVal × Num.Flags :=
  match ps with
  | [] => (.fin { neg := false, mag := 0, exp := 0 }, 0)
  | p :: rest =>
    rest.foldl
      (fun acc q =>
        let (v, fl) := matProduct q.1 q.2
        let (x, f2) := Num.FVal.add .rne acc.1 v
        (x, acc.2 ||| fl ||| f2))
      (matProduct p.1 p.2)

/-- The steps of one element. -/
def accumulate (t : DType) (d : Nat) : Nat → List (Num.FVal × Num.FVal) → Nat × Num.Flags → Nat × Num.Flags
  | 0, _, acc => acc
  | n + 1, ps, (bits, fl) =>
    let (sum, f1) := stepSum (ps.take d)
    let next : Nat × Num.Flags :=
      if t = .i8 then
        match sum with
        | .fin x => (Num.wrapInt 32 ((bits : Int) + x.scaled 0), fl)
        | _ => (bits, fl)
      else
        let old := Num.fp32.decode bits
        let (v, f2) := Num.FVal.add .rne old sum
        let r := Num.fp32.result {} v
        (r.bits, fl ||| f1 ||| f2 ||| Num.snanFlag [old] ||| r.fl)
    accumulate t d n (ps.drop d) next

/-- The new elements of a tile from its 64 rows of A and 64 columns of B, with the status bits. -/
def tileProduct (t : DType) (k : Nat) (zero : Bool) (tile : List Word) (rows cols : List MatRow) : List Word × Num.Flags :=
  let d := stepDepth t
  let cells := rows.zipIdx.flatMap fun r =>
    cols.zipIdx.map fun c =>
      let old := if zero then 0 else ((tile[64 * r.2 + c.2]?).getD 0).toNat
      accumulate t d (k / d) (r.1.1.zip c.1.1) (old, 0)
  (cells.map fun x => BitVec.ofNat 32 x.1,
   ((rows ++ cols).foldl (fun f x => f ||| x.2) 0) ||| cells.foldl (fun f x => f ||| x.2) 0)

/-! ## MMA (15 R281, R283, R289–R291, R301) -/

/-- The status word of an entry (15 R295). -/
def statusWord (e : QEntry) (code fst span iss mem : Nat) : BitVec 256 :=
  BitVec.ofNat 256 (e.bits 2 0 + matTile e * 2 ^ 3 + mem * 2 ^ 5 + iss * 2 ^ 7 + span * 2 ^ 8 + fst % 64 * 2 ^ 10
    + code * 2 ^ 24 + e.seq.toNat * 2 ^ 32)

/-- Check a member's own descriptors and read its shares: na rows of A and nb columns of B. DESIGN CHOICE (log entry 98):
descriptors and pitches come before the bounds, and A before B. -/
def memberShares (p : Port) (c : Ctx) (t : DType) (k na nb : Nat) : EM (List MatRow × List MatRow) := do
  match c.adesc with
  | .invalid => EM.fail 1
  | .plain _ pitch => EM.require (decide (rowBytes t k ≤ pitch))
  | .virtual _ _ _ _ _ => pure ()
  match c.bdesc with
  | .plain _ pitch => EM.require (decide (rowBytes t k ≤ pitch))
  | _ => EM.fail 1
  let a ← readShare p c.adesc t k na
  let b ← readShare p c.bdesc t k nb
  pure (a, b)

/-- Does a wave's A share come from an unfolding? -/
def Ctx.unfolds (c : Ctx) : Bool :=
  match c.adesc with
  | .virtual _ _ _ _ _ => true
  | _ => false

/-- The fields that the issuer supplies are in order: BADDESC for K or a raw TYPE, BADFMT for a block format beside a
virtual A of some member (15 R278, R288, R290, R301). DESIGN CHOICE (log entry 98): in this order where several are not. -/
def issuerOk (raw : Bool) (unfolds : Bool) (e : QEntry) : EM Unit := do
  EM.require (raw && e.word 1 / 2 ^ 13 == 0 && kOk (matType e) (matK e))
  EM.require (!unfolds || !(matType e).isBlock) 3

/-- Write a member's tile and give its wave the status bits. -/
def finishTile (e : QEntry) (t : DType) (k : Nat) (zero : Bool) (rows cols : List MatRow) : EM Nat := do
  let s ← get
  let key := s.entryTile e
  let s := if zero then s else s.strikeTile (s.ctx e.uid).id.tenant key
  let (ws, fl) := tileProduct t k zero (s.tileRead key) rows cols
  set ((s.tileWrite key ws).addStatus e.uid fl)
  pure fl.toNat

/-- ZERO of an MMA. -/
def matZero (e : QEntry) : Bool := e.data.getLsbD 21

/-- MMA_ENTRY: an MMA of one core; a joint MMA of a core workgroup meets BADSPAN, and an entry that is no command meets
BADDESC. -/
def execMmaEntry (s : State) : Host.Outcome State Fault Refusal :=
  .next (match s.pickOf s.badSpan with
  | some e => s.engineFaultAt e 6 0
  | none => s.engineStep (fun e => (matOp 0 e || matOp 7 e) && s.matTurn e) fun e =>
    s.performEntry e false (do
      EM.require (s.rawMatrixOk e && matOp 0 e)
      issuerOk true (s.ctx e.uid).unfolds e
      let t := matType e
      let (a, b) ← memberShares (s.corePort e) (s.ctx e.uid) t (matK e) 64 64
      let fl ← finishTile e t (matK e) (matZero e) a b
      pure (some (statusWord e 0 fl 0 1 0))))

/-- The group of a joint entry: 0 the quad, 1 and 2 the pairs. -/
def State.joinKind (s : State) (e : QEntry) : Nat :=
  if matSpan e = 3 then 0 else 1 + (s.ctx e.uid).id.core % 4 / 2

/-- The member cores of a group of a quad. -/
def groupCores (pquad kind : Nat) : List Nat :=
  if kind = 0 then (List.range 4).map (pquad * 4 + ·) else (List.range 2).map (pquad * 4 + 2 * (kind - 1) + ·)

/-- The candidate of a member core: the earliest-pushed one of the workgroup's waves on it that stands at the head of its
queue. One that its own SYNC or a QFENCE still holds is a candidate too; its instance starts when nothing holds it (15 R280,
R281). -/
def State.candidate (s : State) (group kind pcore : Nat) : Option QEntry :=
  (s.entries.filter fun e =>
    s.joint e && e.inst.isNone && s.standsFirst e && (s.ctx e.uid).id.group == group && s.joinKind e == kind
      && s.entryCore e == pcore).foldl
    (fun best e => match best with
      | none => some e
      | some b => if s.matRank e < s.matRank b then some e else some b) none

/-- The counter of a group, and its advance. -/
def Group.counter (g : Group) (kind : Nat) : Nat :=
  match kind with
  | 0 => g.rq
  | 1 => g.rp0
  | _ => g.rp1
def Group.advance (g : Group) (kind : Nat) : Group :=
  match kind with
  | 0 => { g with rq := (g.rq + 1) % 4 }
  | 1 => { g with rp0 := (g.rp0 + 1) % 2 }
  | _ => { g with rp1 := (g.rp1 + 1) % 2 }

/-- The candidates of every member of a group, when each has one. -/
def State.fullGroup (s : State) (g : Group) (kind : Nat) : Option (List QEntry) :=
  let cs := (groupCores (g.core / 4) kind).map fun c => s.candidate g.id kind c
  if cs.all Option.isSome then some (cs.filterMap id) else none

/-- The groups that can form now: quad group first, then the pairs. -/
def State.formable (s : State) : List (Group × Nat × List QEntry) :=
  (s.groups.filter fun p => p.2.kd.quadwg).flatMap fun p =>
    [0, 1, 2].filterMap fun k => (s.fullGroup p.2 k).map fun es => (p.2, k, es)

/-- Does an instance stand before another: it formed in an earlier clock, or in the same one for a group that comes
first (15 R282)? -/
def JoinInst.before (a b : JoinInst) : Bool := decide (a.clock < b.clock) || (a.clock == b.clock && decide (a.kind ≤ b.kind))

/-- Place a new instance in the order of formation. -/
def placeJoin (js : List JoinInst) (j : JoinInst) : List JoinInst :=
  js.takeWhile (·.before j) ++ j :: js.dropWhile (·.before j)

/-- A member's entry, taken by an instance whose issuer's entry has a SPAN. -/
def QEntry.taken (e : QEntry) (j : JoinInst) (span : Nat) (issuer : Bool) : QEntry :=
  { e with inst := some j.id, joined := some (span, issuer) }

/-- JOIN_INSTANCE_FORM. -/
def execJoinInstanceForm (s : State) : Host.Outcome State Fault Refusal :=
  .next (match s.formable with
    | [] => s
    | (g, k, es) :: _ =>
      let j : JoinInst :=
        { id := s.nextId, group := g.id, kind := k, members := es.map (·.id), issuer := g.counter k, clock := s.clock }
      let span := ((es[j.issuer]?).map matSpan).getD 0
      { s.bump with
        joins := placeJoin s.joins j
        groups := SMap.insert s.groups g.id (g.advance k)
        entries := s.entries.map fun (e : QEntry) =>
          if j.members.contains e.id then e.taken j span (j.members[j.issuer]? == some e.id) else e })

/-- The entries of an instance by member index. -/
def State.joinEntries (s : State) (j : JoinInst) : List QEntry :=
  j.members.filterMap fun id => s.entries.find? fun e => e.id == id

/-- May an instance start: the clock in which it formed is past, so that no instance of that clock can still come before
it, its members' queues and dies run, and it is the earliest unstarted instance of each of its members? -/
def State.joinReady (s : State) (j : JoinInst) : Bool :=
  let cores := (s.joinEntries j).map s.entryCore
  decide (j.clock < s.clock) && (s.joinEntries j).all s.heads &&
  (s.joins.takeWhile fun x => x.id != j.id).all fun x => ((s.joinEntries x).map s.entryCore).all fun c => !cores.contains c

/-- Rows of A and columns of B that a member supplies. -/
def shareSizes (span : Nat) : Nat × Nat :=
  match span with
  | 1 => (64, 32)
  | 2 => (32, 64)
  | _ => (32, 32)

/-- The rows of A and the columns of B that the tile of member m uses. -/
def tileInputs (span m : Nat) (shares : List (List MatRow × List MatRow)) : List MatRow × List MatRow :=
  let a (i : Nat) : List MatRow := ((shares[i]?).map (·.1)).getD []
  let b (i : Nat) : List MatRow := ((shares[i]?).map (·.2)).getD []
  match span with
  | 1 => (a m, b 0 ++ b 1)
  | 2 => (a 0 ++ a 1, b m)
  | _ => (a (2 * (m / 2)) ++ a (2 * (m / 2) + 1), b (2 * (m % 2)) ++ b (2 * (m % 2) + 1))

/-- Read the shares of the members in turn; the member whose check fails is named. -/
def joinShares (t : DType) (k na nb : Nat) : List QEntry → State →
    State × Except (Nat × EFault) (List (List MatRow × List MatRow))
  | [], s => (s, .ok [])
  | e :: rest, s =>
    match onMember e (fun p => memberShares p (s.ctx e.uid) t k na nb) s with
    | (s, .error f) => (s, .error f)
    | (s, .ok v) =>
      match joinShares t k na nb rest s with
      | (s, .ok vs) => (s, .ok (v :: vs))
      | r => r

/-- The members of a faulted instance: each whose check fails receives its own SUB, the others JOIN_ABORT. -/
def State.joinFault (s : State) (es : List QEntry) (own : QEntry → Option EFault) : State :=
  es.foldl
    (fun s e =>
      match own e with
      | some f => s.engineFaultAt e f.sub f.addr
      | none => s.engineFaultAt e 8 0) s

/-- JOIN_INSTANCE_START: the instance runs and retires. DESIGN CHOICE (log entry 98): a fault of the issuer's fields is met
before any member's own. -/
def State.joinRun (s : State) (j : JoinInst) : State :=
  let es := s.joinEntries j
  let s := { s with joins := s.joins.filter fun x => x.id != j.id }
  match es[j.issuer]? with
  | none => s
  | some iss =>
    let t := matType iss
    let k := matK iss
    let span := matSpan iss
    let (na, nb) := shareSizes span
    match (issuerOk (s.rawMatrixOk iss) (es.any fun e => (s.ctx e.uid).unfolds) iss).go s with
    | (.error f, _) => s.joinFault es fun e => if e.id = iss.id then some f else none
    | (.ok _, _) =>
      match joinShares t k na nb es s with
      | (s', .error _) =>
        (s.undo s').joinFault es fun e =>
          match (onMember e (fun p => memberShares p (s.ctx e.uid) t k na nb) s).2 with
          | .error f => some f.2
          | .ok _ => none
      | (s, .ok shares) =>
        es.zipIdx.foldl
          (fun s p =>
            let (rows, cols) := tileInputs span p.2 shares
            match (finishTile p.1 t k (matZero iss) rows cols).go s with
            | (.ok fl, s) =>
              s.postResult p.1 (statusWord p.1 0 fl span (if p.2 = j.issuer then 1 else 0) p.2)
            | (.error f, s) => s.engineFaultAt p.1 f.sub f.addr) s

def execJoinInstanceStart (s : State) : Host.Outcome State Fault Refusal :=
  .next (match s.joins.find? fun j => s.joinReady j && (match s.subject with
      | .ids id _ _ => j.id == id
      | _ => true) with
    | some j => s.joinRun j
    | none => s)

/-- JOIN_TIMEOUT: a candidate has stood at the head of its queue for 2^24 clocks. -/
def execJoinTimeout (s : State) : Host.Outcome State Fault Refusal :=
  .next (match s.pickOf fun e => s.joint e && e.inst.isNone && s.overdue e && s.standsFirst e with
    | some e => s.engineFaultAt e 7 0
    | none => s)

/-! ## MDRN (15 R292, R294) -/

/-- The bin of a tile value, none when it is not counted. -/
def histBin (eb : Int) (bits : Nat) : Option Nat :=
  match Num.fp32.decode bits with
  | .fin x => if x.mag = 0 then none else some (min (max (x.log2 - eb) 0) 31).toNat
  | .inf _ => some 31
  | .nan _ => none

/-- Convert one element, with its status bits. An `.f32` element is copied, but for FTZ, which covers each value read
(04 R61). -/
def drainElem (t : DType) (m : Num.RMode) (bits : Nat) : Num.Res :=
  match t with
  | .f32 => { bits := flushed .f32 m.ftz bits }
  | .i32 => { bits }
  | .i8 => Num.fitInt .i8 m.sat (Num.sval 32 bits)
  | t => Num.convertVal t m (Num.readAs .f32 m.ftz bits)

/-- Status bits that an entry sets, for its wave and for its status word. -/
def EM.entryStatus (p : Port) (e : QEntry) (fl : Num.Flags) : EM Unit := do
  EM.status p fl
  modify fun s => { s with entries := s.entries.map fun (x : QEntry) =>
    if x.id = e.id then { x with fst := x.fst ||| fl.toNat } else x }

/-- The status bits that an entry has set so far. -/
def State.entryFst (s : State) (e : QEntry) : Nat := (((s.entries.find? fun x => x.id == e.id)).map (·.fst)).getD 0

/-- Write one row, each byte checked as it is written. `.f32` copies bits and takes no draw (log entry 34). -/
def drainRow (p : Port) (e : QEntry) (t : DType) (sp : Space) (a : Dword) (row : List Word) : EM Unit := do
  if t.isBlock then
    for h in List.range 2 do
      let vs := ((row.drop (32 * h)).take 32).map fun x => Num.readAs .f32 (e.data.getLsbD 27) x.toNat
      let us ← if entrySr e then EM.draws e (Num.blockDraws t) else pure []
      let (bs, f) := Num.encodeBlock t (entryMode e 0) us vs
      EM.entryStatus p e f
      EM.writeEach p sp (a + BitVec.ofNat 64 (Num.blockBytes t * h)) (bs.map (BitVec.ofNat 8))
  else
    for x in row.zipIdx do
      let us ← if entrySr e && t != .f32 then EM.draws e 1 else pure []
      let r := drainElem t (entryMode e (drawOf us)) x.1.toNat
      EM.entryStatus p e r.fl
      EM.writeNat p sp (a + BitVec.ofNat 64 (t.bytes * x.2)) t.bytes r.bits

/-- Row bytes of MDRN. -/
def drainBytes (t : DType) : Nat := if t.isBlock then 2 * Num.blockBytes t else 64 * t.bytes

/-- MDRN_ENTRY. DESIGN CHOICE (log entry 109): the draws and status bits of the elements before a faulting byte, and of its
own element, stay, and the attempt after ACTION 1 draws again (15 R300 speaks of the written elements alone). -/
def execMdrnEntry (s : State) : Host.Outcome State Fault Refusal :=
  .next (s.matStep (fun e => matOp 5 e && !(entrySr e && s.drawsBlocked e.uid [e.lane])) fun e => do
    let p := s.corePort e
    let t := matType e
    let sp := Space.ofCode (e.bits 20 18)
    let a := e.addr 1
    let pitch := e.word 3
    let hist := e.data.getLsbD 21
    EM.require (a.toNat % 16 == 0 && pitch % 16 == 0 && decide (drainBytes t ≤ pitch) && decide (pitch < 2 ^ 24))
    let hd := (s.ctx e.uid).hdesc
    EM.require (!hist || (hd.isSome && t != .i8 && t != .i32))
    modify fun s => s.strikeTile (s.ctx e.uid).id.tenant (s.entryTile e)
    let tile := s.tileRead (s.entryTile e)
    let (ho, eb) := hd.getD (0, 0)
    if hist then EM.canWrite p .cald (BitVec.ofNat 64 ho) 128
    for r in List.range 64 do
      drainRow p e t sp (a + BitVec.ofNat 64 (r * pitch)) ((tile.drop (64 * r)).take 64)
    if hist then
      let bins := tile.filterMap fun x => histBin eb x.toNat
      for b in List.range 32 do
        let n := (bins.filter (· == b)).length
        let _ ← EM.atomic p .cald (BitVec.ofNat 64 (ho + 4 * b)) 4 fun o => min 0xFFFFFFFF (o + n)
    let s ← get
    pure (some (statusWord e 0 (s.entryFst e) 0 0 0)))

/-- MATRIX_STATUS_POST: a status that waited for room in q1 is posted. -/
def execMatrixStatusPost (s : State) : Host.Outcome State Fault Refusal := .next (s.postWaiting 0)

/-- An entry of q0 leaves its stream unperformed: an MMA or MDRN still posts its status. A joint MMA that no instance took
has no issuer; its own SPAN then stands, with ISS 0 (log entry 34). -/
def State.matrixDropped (s : State) (e : QEntry) (code : Nat) : State :=
  let s := { s with joins := s.joins.filter fun j => !j.members.contains e.id }
  if e.bits 2 0 = 0 then
    let m := (s.ctx e.uid).id.core % 4
    let mem := match matSpan e with
      | 0 => 0
      | 3 => m
      | _ => m % 2
    let (span, issuer) := e.joined.getD (matSpan e, matSpan e == 0)
    s.postResult e (statusWord e code 0 span issuer.toNat mem)
  else if e.bits 2 0 = 5 then s.postResult e (statusWord e code e.fst 0 0 0)
  else s.dropEntry e.id

end Sys2Proof.Machine
end

