-- ==== Sys2Proof/Machine/Token.lean ====
section
/-! DEFINITION. The token engine: sequences, watch entries, drafts, forks and sampling, the instructions of major 0x31
and the entries of q6 (19 R329–R347). -/

namespace Sys2Proof.Machine

open Sys2Proof

/-! ## Commands at issue (19 R339, R340, R342) -/

/-- The 32-byte entry of a token command, laid out as 14 R263. -/
def tokenData (op : Nat) (w : Wave) (e : Ext) : BitVec 256 :=
  BitVec.ofNat 256 (op + e.ty.code * 2 ^ 11 + e.x.toNat * 2 ^ 16 + paramWords w e.a 7 * 2 ^ 32)

/-- A token command with no draw. -/
def State.tokenCommand (s : State) (f : Form) (e : Ext) (op : Nat) : State :=
  s.command f e 6 fun i w sp => s.push i w sp 6 { id := 0, uid := 0, q := 6, data := tokenData op w e }

/-- TSAMP takes its draw at issue, from the lowest active lane. -/
def execTsamp (e : Ext) (s : State) : Host.Outcome State Fault Refusal :=
  .next (s.command Form.tsamp e 6 fun i w sp =>
    let lane := lowLane (w.active sp)
    if s.drawsBlocked w.id.uid [lane] then s
    else
      let slot := ((s.ctx w.id.uid).thread lane).slot
      let (s, d) := s.takeDraw w.id.uid lane (siteOfPc i.pc) i.pc w.seqno
      s.push i w sp 6
        { id := 0, uid := 0, q := 6, data := tokenData 0 w e
          draw := some (d.u, { index := d.index, site := d.site.toNat, occ := d.occ.toNat, slot }) })

def execTdraft (e : Ext) (s : State) : Host.Outcome State Fault Refusal := .next (s.tokenCommand Form.tids e 1)
def execTconf (e : Ext) (s : State) : Host.Outcome State Fault Refusal := .next (s.tokenCommand (Form.group 6 7) e 2)
def execTrej (e : Ext) (s : State) : Host.Outcome State Fault Refusal := .next (s.tokenCommand (Form.group 6 7) e 3)
def execTwatchSet (e : Ext) (s : State) : Host.Outcome State Fault Refusal := .next (s.tokenCommand Form.twatch e 4)
def execTwatchClear (e : Ext) (s : State) : Host.Outcome State Fault Refusal := .next (s.tokenCommand Form.twatch e 4)
def execTwatchOpen (e : Ext) (s : State) : Host.Outcome State Fault Refusal := .next (s.tokenCommand Form.twatch e 4)
def execTwatchClose (e : Ext) (s : State) : Host.Outcome State Fault Refusal := .next (s.tokenCommand Form.twatch e 4)
def execTwatchThaw (e : Ext) (s : State) : Host.Outcome State Fault Refusal := .next (s.tokenCommand Form.twatch e 4)
def execTwatchSync (e : Ext) (s : State) : Host.Outcome State Fault Refusal := .next (s.tokenCommand Form.twatch e 4)
def execTinj (e : Ext) (s : State) : Host.Outcome State Fault Refusal := .next (s.tokenCommand Form.tids e 5)
def execTfork (e : Ext) (s : State) : Host.Outcome State Fault Refusal := .next (s.tokenCommand (Form.group 6 7) e 6)

/-- TSTAT: bits [127:0] of the head of q7 (19 R344). -/
def execTstat (e : Ext) (s : State) : Host.Outcome State Fault Refusal :=
  .next (s.popWords (Form.popNb 7 4 4) e 7 4 (e.x.getLsbD 0))

/-! ## Headers and watch entries (19 R329, R331, R332) -/

/-- Replace bits [hi:lo] of a number. -/
def setBits (n hi lo v : Nat) : Nat := n - bitsOf n hi lo * 2 ^ lo + v % 2 ^ (hi + 1 - lo) * 2 ^ lo

def OpenSeq.field (q : OpenSeq) (hi lo : Nat) : Nat := bitsOf q.hdr hi lo
def OpenSeq.setField (q : OpenSeq) (hi lo v : Nat) : OpenSeq := { q with hdr := setBits q.hdr hi lo v }
def OpenSeq.len (q : OpenSeq) : Nat := q.field 31 0
def OpenSeq.state (q : OpenSeq) : Nat := q.field 33 32
def OpenSeq.toka (q : OpenSeq) : Dword := BitVec.ofNat 64 (q.field 127 64)
def OpenSeq.tcap (q : OpenSeq) : Nat := q.field 159 128
def OpenSeq.nkv (q : OpenSeq) : Nat := q.field 463 448
/-- The address of token i of the token buffer. -/
def OpenSeq.tokenAt (q : OpenSeq) (i : Nat) : Dword := q.toka + BitVec.ofNat 64 (4 * i)

/-- The number of token ids, and the wildcard of a pattern. -/
def tokenIds : Nat := 262144
def anyToken : Nat := 0xFFFFFFFF

def watchPlen (x : Nat) : Nat := bitsOf x 563 560
def watchIlen (x : Nat) : Nat := bitsOf x 567 564
def watchAct (x : Nat) : Nat := bitsOf x 549 548
def watchBudget (x : Nat) : Nat := bitsOf x 543 512
def watchPat (x j : Nat) : Nat := bitsOf x (32 * j + 31) (32 * j)
def watchInj (x j : Nat) : Nat := bitsOf x (32 * j + 287) (32 * j + 256)

/-- An image that SET and OPEN accept. -/
def watchOk (x : Nat) : Bool :=
  bitsOf x 1023 608 == 0 && bitsOf x 559 550 == 0 && !x.testBit 545 && decide (watchPlen x ≤ 8)
  && (if watchAct x = 3 then decide (1 ≤ watchIlen x ∧ watchIlen x ≤ 8) else watchIlen x == 0)
  && ((List.range (watchPlen x)).all fun j => decide (watchPat x j < tokenIds) || watchPat x j == anyToken)
  && ((List.range (watchIlen x)).all fun j => decide (watchInj x j < tokenIds))

/-! ## Hits (19 R333, R334) -/

/-- A token is committed at LEN: HIST, LEN and the fields of the last token's draw. -/
def OpenSeq.put (q : OpenSeq) (tok : Nat) (c : Option Chosen) : OpenSeq :=
  let q := { q with recent := (q.recent ++ [tok]).drop (q.recent.length + 1 - 8) }
  let q := (q.setField 447 224 (q.field 447 224 * 2 ^ 32 + tok)).setField 31 0 (q.len + 1)
  match c with
  | none => q.setField 576 576 0
  | some d =>
    ((((q.setField 543 512 d.index).setField 559 544 d.site).setField 575 560 d.occ).setField 511 480
      (d.slot.getD 0xFFFFFFFF)).setField 576 576 (d.slot.isSome && decide (d.index < 1024)).toNat

/-- Does the pattern of an entry match at the last committed token? -/
def OpenSeq.matches (q : OpenSeq) (x : Nat) : Bool :=
  let n := watchPlen x
  decide (0 < n) && decide (n ≤ q.len) && decide (n ≤ q.recent.length) &&
  (List.range n).all fun j =>
    watchPat x j == anyToken || q.recent[q.recent.length - n + j]? == some (watchPat x j)

/-- An armed entry's budget falls by n: the entry, and whether its budget became 0. -/
def spend (n x : Nat) : Nat × Bool :=
  if x.testBit 544 && x.testBit 547 && decide (0 < watchBudget x) then
    (setBits x 543 512 (watchBudget x - n), decide (watchBudget x ≤ n))
  else (x, false)

/-- An entry fires: HITS, and ONCE disarms it. -/
def fire (x : Nat) : Nat :=
  let x := setBits x 607 576 (bitsOf x 607 576 + 1)
  if x.testBit 546 then setBits x 544 544 0 else x

/-- What follows the commitment of n tokens that end at the last one, sampled or not: the sequence, the NOTIFY entries
that fired in ascending order, and the STOP, FORK or INJECT entry that fired. -/
def OpenSeq.hits (q : OpenSeq) (sampled : Bool) (n : Nat) : OpenSeq × List Nat × Option Nat :=
  let spent := q.watch.map (spend n)
  let hit := spent.zipIdx.filterMap fun p =>
    if p.1.2 || (sampled && p.1.1.testBit 544 && q.matches p.1.1) then some p.2 else none
  let watch := spent.map (·.1)
  let act (e : Nat) : Nat := watchAct (watch.getD e 0)
  let notes := hit.filter fun e => act e == 0
  let one := hit.find? fun e => act e != 0
  let fired := notes ++ one.toList
  ({ q with watch := watch.zipIdx.map fun p => if fired.contains p.2 then fire p.1 else p.1 }, notes, one)

/-! ## A command's plan (19 R345) -/

/-- What a command is going to do: the sequence after it, its writes and notifies, its children with the address of
their records, the statuses that apply, the index and entry of the first STOP, FORK or INJECT, and INDEX, VAL. -/
structure TokenPlan where
  q : OpenSeq
  writes : List (Dword × List Byte) := []
  fresh : SMap Nat := []
  notes : List (Nat × Nat) := []
  kids : List (OpenSeq × Dword) := []
  codes : List Nat := []
  point : Option (Nat × Nat) := none
  child : Option Nat := none
  index : Nat := 0
  val : Nat := 0
  deriving DecidableEq, Repr

def TokenPlan.code (t : TokenPlan) (c : Nat) : TokenPlan := { t with codes := t.codes ++ [c] }
def TokenPlan.write (t : TokenPlan) (a : Dword) (bs : List Byte) : TokenPlan := { t with writes := t.writes ++ [(a, bs)] }

/-- Commit one token at LEN. -/
def TokenPlan.put (t : TokenPlan) (tok : Nat) (c : Option Chosen) : TokenPlan :=
  { (t.write (t.q.tokenAt t.q.len) (leBytes 4 tok)) with
    q := t.q.put tok c, fresh := SMap.insert t.fresh t.q.len tok }

/-- Budgets, NOTIFYs and HITS after the last committed token; answers the entry whose action follows. -/
def TokenPlan.hits (t : TokenPlan) (sampled : Bool) (n : Nat) : TokenPlan × Option Nat :=
  let (q, notes, one) := t.q.hits sampled n
  let note (e : Nat) : Nat × Nat := (bitsOf (q.watch.getD e 0) 575 568, q.id * 2 ^ 32 + (q.len - 1))
  ({ t with q, notes := t.notes ++ notes.map note }, one)

/-- The record of a sequence. -/
def State.recordOf (s : State) (tenant id : Nat) : Dword := (s.tenant tenant).seqb + BitVec.ofNat 64 (4096 * id)

/-- Is a sequence open, and where? -/
def State.openSeq (s : State) (tenant id : Nat) : Option OpenSeq :=
  s.seqs.find? fun q => q.tenant == tenant && q.id == id

/-- A record from byte 8 on: the rest of the header, the watch table, the KV list. -/
def OpenSeq.recordRest (q : OpenSeq) : List Byte :=
  (leBytes 256 q.hdr).drop 8 ++ q.watch.flatMap (leBytes 128) ++ q.kv.flatMap (leBytes 8)

/-- A child's mutation list. -/
def forkMutl (q : OpenSeq) : Nat :=
  let lidx := q.field 543 512
  if q.field 576 576 = 1 ∧ lidx < 1023 then
    (4 * 2 ^ 61 + (lidx + 1) * 2 ^ 48 + 0xFFFFFFFF)
      + (2 * 2 ^ 61 + 2 ^ 60 + q.field 575 560 % 1024 * 2 ^ 48 + q.field 559 544 * 2 ^ 32) * 2 ^ 64
  else 0

/-- Does a die hold 8,192 open sequences, some more counted (19 R330)? -/
def State.homeFull (s : State) (die more : Nat) : Bool :=
  decide (8192 ≤ (s.seqs.filter fun q => q.home == die).length + more)

/-- A fork at fork point i (19 R338); `old` is LEN before the command. DESIGN CHOICE (log entry 81): a child that the home
has no room for gives FULL, once its id has been taken. -/
def forkAt (p : Port) (old i : Nat) (t : TokenPlan) : EM TokenPlan := do
  let q := t.q
  let free : Dword := BitVec.ofNat 64 (q.field 959 896)
  if free = 0 then pure (t.code 6)
  else do
    let k ← EM.fao p .g free 0 .n32 1
    let avail ← EM.readNat p .g (free + 4) 4
    if avail ≤ k then pure (t.code 6)
    else do
      let c ← EM.readNat p .g (free + BitVec.ofNat 64 (64 + 4 * (k % 2 ^ 20))) 4
      let s ← get
      if (s.tenant q.tenant).seqn ≤ c || (s.openSeq q.tenant c).isSome then pure (t.code 11)
      else if s.homeFull p.die t.kids.length then pure (t.code 7)
      else do
        let rec_ := s.recordOf q.tenant c
        let own ← EM.readNat p .g rec_ 256
        if bitsOf own 159 128 < i + 1 then pure (t.code 9)
        else do
          for page in q.kv do
            let _ ← EM.fao p .g (BitVec.ofNat 64 (q.field 895 832 + 4 * (page % 2 ^ 32))) 0 .n32 1
          let kept ← EM.read p .g q.toka (4 * min (i + 1) old)
          let toks := (List.range (i + 1)).map fun j =>
            (SMap.find t.fresh j).getD (leNat ((kept.drop (4 * j)).take 4))
          let kid : OpenSeq := { q with id := c, drafts := [], recent := toks.drop (toks.length - 8) }
          let kid := (kid.setField 159 64 (bitsOf own 159 64)).setField 959 832 (bitsOf own 959 832)
          let kid := ((kid.setField 31 0 (i + 1)).setField 33 32 1).setField 47 40 0
          let kid := (kid.setField 639 624 q.id).setField 831 640 (forkMutl q)
          let t := (t.write kid.toka (toks.flatMap (leBytes 4))).write (rec_ + 8) kid.recordRest
          pure { t with kids := t.kids ++ [(kid, rec_)], child := some c }

/-- STOP, FORK or INJECT of entry e at the last committed token (19 R335); an INJECT's unit may set off another. -/
def actOn (p : Port) (old : Nat) : Nat → Nat → TokenPlan → EM TokenPlan
  | 0, _, t => pure t
  | n + 1, e, t =>
    let i := t.q.len - 1
    let x := t.q.watch.getD e 0
    let t := { t.code (watchAct x) with q := { t.q with drafts := [] }, point := t.point.or (some (i, e)) }
    match watchAct x with
    | 1 => pure { t with q := ((t.q.setField 33 32 2).setField 191 160 i).setField 195 192 e }
    | 2 => forkAt p old i t
    | _ =>
      if t.q.tcap < t.q.len + watchIlen x then pure (t.code 9)
      else
        let t := (List.range (watchIlen x)).foldl (fun t j => t.put (watchInj x j) none) t
        match t.hits false (watchIlen x) with
        | (t, some e) => actOn p old n e t
        | (t, none) => pure t

/-- A sampled token is committed at LEN, with all that follows; answers whether an action fired. -/
def commitSampled (p : Port) (old tok : Nat) (c : Option Chosen) (t : TokenPlan) : EM (TokenPlan × Bool) := do
  match (t.put tok c).hits true 1 with
  | (t, some e) => do
    let t ← actOn p old 17 e t
    pure (t, true)
  | (t, none) => pure (t, false)

/-- An injection unit at LEN. -/
def injectUnit (p : Port) (old : Nat) (toks : List Nat) (t : TokenPlan) : EM TokenPlan :=
  match (toks.foldl (fun t k => t.put k none) t).hits false toks.length with
  | (t, some e) => actOn p old 16 e t
  | (t, none) => pure t

/-! ## Drafts (19 R336, R337) -/

/-- The position of the first draft that carries a provisional STOP, FORK or INJECT. -/
def OpenSeq.provisional (q : OpenSeq) : List (Nat × Option Chosen) → Nat → Option Nat
  | [], _ => none
  | (tok, c) :: rest, k =>
    match (q.put tok c).hits true 1 with
    | (_, _, some _) => some k
    | (q, _, none) => q.provisional rest (k + 1)

/-- Append drafts; answers TDRAFT's VAL. -/
def appendDrafts (xs : List (Nat × Option Chosen)) (t : TokenPlan) : TokenPlan × Nat :=
  let nd := t.q.drafts.length
  let at_ := t.q.len + nd
  if 64 < nd + xs.length then (t.code 10, anyToken)
  else if t.q.tcap < at_ + xs.length then (t.code 9, anyToken)
  else
    let t := t.write (t.q.tokenAt at_) (xs.flatMap fun x => leBytes 4 x.1)
    let t := { t with q := { t.q with drafts := t.q.drafts ++ xs }, index := at_ }
    match t.q.provisional t.q.drafts 0 with
    | some k => (t, if nd ≤ k then k - nd else anyToken)
    | none => (t, anyToken)

/-- Confirm drafts in order, until one is followed by an action, which discards the rest. -/
def confirm (p : Port) (old : Nat) : List (Nat × Option Chosen) → TokenPlan → EM TokenPlan
  | [], t => pure t
  | (tok, c) :: rest, t => do
    let (t, acted) ← commitSampled p old tok c t
    let t := { t with val := t.val + 1 }
    if acted then pure t else confirm p old rest t

/-! ## Sampling (19 R339) -/

/-- Tab[j], from the 1024th root of 2^(24 × 1024 + j). -/
def sampleTab (j : Nat) : Nat := (Num.rootPow2 10 (2 ^ (24 * 1024 + j)) + 1) / 2

/-- The order of FP32 data that are no NaN. -/
def fpOrder (z : Nat) : Int := if z.testBit 31 then -((z % 2 ^ 31 : Nat) : Int) else (z : Int)

/-- Put a candidate behind those that are as large, keeping the first k. -/
def addCandidate (k : Nat) (xs : List (Nat × Nat)) (x : Nat × Nat) : List (Nat × Nat) :=
  (xs.takeWhile (fun y => decide (fpOrder x.2 ≤ fpOrder y.2)) ++ x
    :: xs.dropWhile (fun y => decide (fpOrder x.2 ≤ fpOrder y.2))).take k

/-- S, as ids with their z. -/
def candidates (k : Nat) (zs : List Nat) : List (Nat × Nat) :=
  zs.zipIdx.foldl (fun xs p => if (Num.fp32.decode p.1).isNan then xs else addCandidate k xs (p.2, p.1)) []

/-- The weight of a member against the greatest. -/
def sampleWeight (m z : Nat) : Nat :=
  match Num.fp32.decode m, Num.fp32.decode z with
  | .inf false, .inf false => 2 ^ 53
  | .inf false, _ => 0
  | .fin a, .fin b =>
    -- the difference in units of 2^−149, and floor of minus its quotient by ln 2 / 1024
    let d := (a.scaled (-149) - b.scaled (-149)).toNat
    let e : Int := if d = 0 then 0 else -((d * 1024 * 2 ^ 363 / Num.ln2Scaled : Nat) : Int) - 1
    let n := e / 1024
    let tab := sampleTab (e % 1024).toNat
    if -(54 : Int) ≤ n then (if 0 ≤ n + 30 then tab * 2 ^ (n + 30).toNat else tab / 2 ^ (-(n + 30)).toNat) else 0
  | _, _ => 0

/-- The partial sums of a list. -/
def partialSums : Nat → List Nat → List Nat
  | _, [] => []
  | t, w :: rest => (t + w) :: partialSums (t + w) rest

/-- c ≥ min(p, 1) × total. -/
def reaches (p total c : Nat) : Bool :=
  match Num.fp32.decode p with
  | .fin x => if x.cmp (Num.Exact.ofInt 1) < 0 then decide (x.mag * total ≤ c * 2 ^ (-x.exp).toNat) else decide (total ≤ c)
  | _ => decide (total ≤ c)

/-- The token that a draw chooses among S. -/
def sampleToken (zs : List Nat) (k p u : Nat) : Option Nat :=
  let xs := candidates k zs
  match xs with
  | [] => none
  | top :: _ =>
    let cs := partialSums 0 (xs.map fun x => sampleWeight top.2 x.2)
    let total := cs.getLast?.getD 0
    if total = 0 then some top.1
    else
      let cut := (cs.find? (reaches p total)).getD total
      let t := u * cut / 2 ^ 32
      ((xs.zip cs).find? fun y => decide (t < y.2)).map (·.1.1)

/-! ## What an entry may hold (19 R331, R340–R342) -/

def tokenOp (e : QEntry) : Nat := e.bits 2 0
def tokenX (e : QEntry) : Nat := e.bits 22 16
def tokenSeq (e : QEntry) : Nat := e.bits 47 32
def tokenElem (e : QEntry) : Nat := if e.bits 15 11 = 16 then 4 else 2
/-- The ids of a TDRAFT or TINJ. -/
def tokenN (e : QEntry) : Nat := e.word 4
/-- V, τ, k and p of a TSAMP. -/
def sampV (e : QEntry) : Nat := e.word 4
def sampTau (e : QEntry) : Nat := e.word 5
def sampK (e : QEntry) : Nat := e.word 6
def sampP (e : QEntry) : Nat := e.word 7

/-- The form of each operation. -/
def tokenForm (op : Nat) : Option Form :=
  match op with
  | 0 => some Form.tsamp
  | 1 | 5 => some Form.tids
  | 2 | 3 | 6 => some (Form.group 6 7)
  | 4 => some Form.twatch
  | _ => none

/-- Is an FP32 datum greater than 0? -/
def fpPositive (inf : Bool) (z : Nat) : Bool :=
  match Num.fp32.decode z with
  | .fin x => !x.neg && !x.isZero
  | .inf neg => inf && !neg
  | .nan _ => false

/-- Words n to 7 are zero. -/
def QEntry.zeroFrom (e : QEntry) (n : Nat) : Bool := e.bits 255 (32 * n) == 0

/-- Bits, types and ranges that the entry must keep, else BADDESC. -/
def tokenOk (e : QEntry) : Bool :=
  (match tokenForm (tokenOp e) with
   | some f => entryFits 6 f e && !e.data.getLsbD 31 && e.bits 10 3 == 0
   | none => false)
  && e.bits 63 48 == 0
  && match tokenOp e with
     | 0 => e.draw.isSome && decide (1 ≤ sampV e ∧ sampV e ≤ tokenIds ∧ 1 ≤ sampK e ∧ sampK e ≤ 1024)
              && (e.addr 2).toNat % tokenElem e == 0 && fpPositive false (sampTau e) && fpPositive true (sampP e)
     | 1 | 5 => decide (1 ≤ tokenN e ∧ tokenN e ≤ (if tokenOp e = 1 then 64 else 8)) && e.zeroFrom 5
              && (e.addr 2).toNat % 4 == 0
     | 2 => decide (e.word 2 < 128) && e.zeroFrom 3
     | 3 | 6 => e.zeroFrom 2
     | _ => decide (e.word 2 < 16) && e.zeroFrom 5 && decide (tokenX e < 6)

/-! ## Results (19 R344) -/

/-- STATUS: the highest code, and SHORT only by itself. -/
def tokenStatus (cs : List Nat) : Nat :=
  let rest := cs.filter (· != 12)
  if rest = [] then (if cs = [] then 0 else 12) else rest.foldl max 0

def tokenResult (e : QEntry) (val index code entry status : Nat) : BitVec 256 :=
  BitVec.ofNat 256 (tokenOp e + status * 2 ^ 8 + entry * 2 ^ 20 + code * 2 ^ 24 + e.seq.toNat * 2 ^ 32
    + index % 2 ^ 32 * 2 ^ 64 + val % 2 ^ 32 * 2 ^ 96 + tokenSeq e * 2 ^ 128)

/-! ## Performing a command (19 R341–R345) -/

/-- NOTIFY writes a register of the tenant; a bit that enters the pending mask raises NVEC (25 R423). -/
def State.notify (s : State) (tenant reg val : Nat) : State :=
  let t := s.tenant tenant
  let was := t.notifyPend.getLsbD reg
  let s := s.setTenant tenant
    { t with notify := SMap.write 0 t.notify reg (BitVec.ofNat 64 val)
             notifyPend := t.notifyPend ||| BitVec.ofNat 256 (2 ^ reg) }
  if was then s else s.raiseVec tenant t.nvec

/-- Put an open sequence in its place. -/
def State.setSeq (s : State) (q : OpenSeq) : State :=
  { s with seqs := s.seqs.filter (fun x => !(x.tenant == q.tenant && x.id == q.id)) ++ [q] }

/-- Steps 4 to 6: writes, notifies, children, the release, and the header words that hold the lengths. -/
def finishToken (p : Port) (before : Nat) (full close : Bool) (t : TokenPlan) : EM Unit := do
  let q := t.q.setField 47 40 t.q.drafts.length
  let s ← get
  let rec_ := s.recordOf q.tenant q.id
  let bytes := leBytes 256 q.hdr
  for x in t.writes do
    EM.write p .g x.1 x.2
  if full then EM.write p .g (rec_ + 8) q.recordRest
  else do
    if bitsOf q.hdr 447 160 != bitsOf before 447 160 then EM.write p .g (rec_ + 20) ((bytes.drop 20).take 36)
    if bitsOf q.hdr 576 480 != bitsOf before 576 480 then EM.write p .g (rec_ + 60) ((bytes.drop 60).take 13)
  for x in t.notes do
    EM.change fun s => s.notify q.tenant x.1 x.2
  EM.release p .pkg
  let last := if close then q.setField 33 32 0 else q
  EM.write p .g rec_ (leBytes 8 last.hdr)
  for x in t.kids do
    EM.write p .g x.2 (leBytes 8 x.1.hdr)
    EM.change fun s => s.setSeq x.1
  if close then
    EM.change fun s => { s with seqs := s.seqs.filter fun x => !(x.tenant == q.tenant && x.id == q.id) }
  else EM.change fun s => s.setSeq q

/-- The result of a plan. -/
def TokenPlan.result (t : TokenPlan) (e : QEntry) : BitVec 256 :=
  let (index, entry) := t.point.getD (t.index, 0)
  tokenResult e (t.child.getD t.val) index 0 entry (tokenStatus t.codes)

/-- The logits of a TSAMP, as FP32, divided by τ: z, and the status bits. -/
def sampleZ (e : QEntry) (bs : List Byte) : List Nat × Word :=
  let n := tokenElem e
  let ty := (DType.ofCode (e.bits 15 11)).getD .f32
  let rs := (List.range (sampV e)).map fun i =>
    let x := Num.convert .f32 ty {} (leNat ((bs.drop (n * i)).take n))
    let z := Num.fp32.div {} x.bits (sampTau e)
    (z.bits, x.fl ||| z.fl)
  (rs.map (·.1), rs.foldl (fun f r => f ||| r.2.setWidth 32) 0)

def workTsamp (p : Port) (e : QEntry) (old : Nat) (t : TokenPlan) : EM TokenPlan := do
  let bs ← EM.read p (if (tokenX e).testBit 1 then .cald else .g) (e.addr 2) (tokenElem e * sampV e)
  let (zs, fl) := sampleZ e bs
  EM.status p fl
  match e.draw, sampleToken zs (sampK e) (sampP e) ((e.draw.map (·.1.toNat)).getD 0) with
  | some (_, c), some tok =>
    let t := { t with val := tok }
    if (tokenX e).testBit 0 then pure (appendDrafts [(tok, some c)] t).1
    else if t.q.tcap ≤ t.q.len then pure (t.code 9)
    else do
      let (t, _) ← commitSampled p old tok (some c) { t with q := { t.q with drafts := [] }, index := t.q.len }
      pure t
  | _, _ => pure (t.code 5)

/-- The ids of a TDRAFT or TINJ: those in `.core` came with the entry, the others are read at the home. -/
def tokenIdsOf (p : Port) (e : QEntry) (core : List Nat) : EM (List Nat) := do
  let ids ← if (tokenX e).testBit 0 then pure core else do
    let bs ← EM.read p .g (e.addr 2) (4 * tokenN e)
    pure ((List.range (tokenN e)).map fun j => leNat ((bs.drop (4 * j)).take 4))
  EM.require (ids.all fun k => decide (k < tokenIds))
  pure ids

def workTdraft (p : Port) (e : QEntry) (core : List Nat) (t : TokenPlan) : EM TokenPlan := do
  let ids ← tokenIdsOf p e core
  let (t, v) := appendDrafts (ids.map fun k => (k, none)) t
  pure { t with val := v }

def workTinj (p : Port) (e : QEntry) (core : List Nat) (old : Nat) (t : TokenPlan) : EM TokenPlan := do
  let ids ← tokenIdsOf p e core
  if t.q.tcap < t.q.len + ids.length then pure (t.code 9)
  else injectUnit p old ids { t with q := { t.q with drafts := [] }, index := t.q.len }

def workTconf (p : Port) (e : QEntry) (old : Nat) (t : TokenPlan) : EM TokenPlan := do
  let a := e.word 2
  let ds := t.q.drafts
  let t := { t with q := { t.q with drafts := ds.drop a }, index := if ds.take a = [] then 0 else t.q.len }
  let t ← confirm p old (ds.take a) t
  pure (if ds.length < a then t.code 12 else t)

def workTrej (t : TokenPlan) : EM TokenPlan :=
  pure { t with val := t.q.drafts.length, q := { t.q with drafts := [] } }

def workTfork (p : Port) (old : Nat) (t : TokenPlan) : EM TokenPlan :=
  if t.q.len = 0 then pure (t.code 5) else forkAt p old (t.q.len - 1) t

def workTwatchSet (p : Port) (e : QEntry) (t : TokenPlan) : EM TokenPlan := do
  let x ← EM.readNat p .g (e.addr 3) 128
  EM.require (watchOk x)
  pure { t with q := { t.q with watch := t.q.watch.set (e.word 2) (setBits x 607 576 0) } }

def workTwatchClear (e : QEntry) (t : TokenPlan) : EM TokenPlan :=
  pure { t with q := { t.q with watch := t.q.watch.set (e.word 2) 0 } }

def workTwatchThaw (t : TokenPlan) : EM TokenPlan :=
  pure { t with q := if t.q.state = 2 then t.q.setField 33 32 1 else t.q }

/-- What every command checks first: its fields, the sequence number; then its release at the pushing core, and the ids
that stand in `.core`, each a word within the window (19 R343). The release also delivers what the core's engines have
written to other packages, so that the home reads it (16 R303). What the die at which the stream's entry before it was
performed still holds of that entry's writes goes home first, so that this one reads it wherever it is performed (05 R104). -/
def beginToken (e : QEntry) (w : WaveId) : EM (List Nat) := do
  EM.require (tokenOk e)
  let s ← get
  EM.require (decide (tokenSeq e < (s.tenant w.tenant).seqn)) 0x0B
  let p := s.corePort e
  EM.release p .pod
  match (s.ctx e.uid).tokHome with
  | some h => EM.change fun s => s.release (.die h) .pod
  | none => pure ()
  if (tokenOp e = 1 ∨ tokenOp e = 5) ∧ (tokenX e).testBit 0 then
    (List.range (tokenN e)).mapM fun j => EM.readNat p .core (e.addr 2 + BitVec.ofNat 64 (4 * j)) 4
  else pure []

/-- The die at which an entry of q6 is performed. -/
def EM.performedAt (e : QEntry) (die : Nat) : EM Unit := EM.change fun s => s.mapCtx e.uid fun c => { c with tokHome := some die }

/-- VAL of a result that no effect of its command gives: TDRAFT's says that no appended draft carries an action. -/
def noVal (e : QEntry) : Nat := if tokenOp e = 1 then anyToken else 0

/-- The home's port for an entry. -/
def homePort (w : WaveId) (seq : Word) (home : Nat) : Port := { ag := .die home, w, die := home, fb := 0xFF, seq }

/-- Commands that leave a FROZEN sequence as it is. -/
def freezes (op : Nat) : Bool := op == 0 || op == 1 || op == 2 || op == 5

/-- A command on an open sequence: `work` makes its plan from the home's port, the ids and LEN before it. -/
def tokenWork (e : QEntry) (full close : Bool) (work : Port → List Nat → Nat → TokenPlan → EM TokenPlan) : EM Answer := do
  let s ← get
  let w := (s.ctx e.uid).id
  let core ← beginToken e w
  match s.openSeq w.tenant (tokenSeq e) with
  | none => pure (some (tokenResult e (noVal e) 0 0 0 8))
  | some q => do
    let p := homePort w e.seq q.home
    EM.acquire p .pkg
    EM.require (!(tokenOp e == 0 && (tokenX e).testBit 1) || q.home == w.die)
    let t : TokenPlan := { q, val := noVal e }
    let t ← if freezes (tokenOp e) && q.state == 2 then pure (t.code 4) else work p core q.len t
    finishToken p q.hdr full close t
    EM.performedAt e q.home
    EM.change fun s => { s with entries := s.entries.map fun (x : QEntry) =>
      if x.id = e.id then { x with home := some q.home } else x }
    pure (some (t.result e))

/-- The tokens before LEN that a pattern may reach: from the token buffer, or from HIST where that cannot be read. -/
def recentTokens (p : Port) (q : OpenSeq) : EM (List Nat) :=
  let n := min q.len 8
  tryCatch
    (do
      let bs ← EM.read p .g (q.tokenAt (q.len - n)) (4 * n)
      pure ((List.range n).map fun j => leNat ((bs.drop (4 * j)).take 4)))
    fun _ => pure ((List.range (min n 7)).reverse.map fun j => q.field (32 * j + 255) (32 * j + 224))

/-- TWATCH.open: BUSY, then BADDESC, then FULL, in the order of 19 R341. -/
def openWork (e : QEntry) : EM Answer := do
  let s ← get
  let w := (s.ctx e.uid).id
  let _ ← beginToken e w
  let p := homePort w e.seq w.die
  EM.acquire p .pkg
  let rec_ := s.recordOf w.tenant (tokenSeq e)
  let hdr ← EM.readNat p .g rec_ 256
  if bitsOf hdr 33 32 != 0 || (s.openSeq w.tenant (tokenSeq e)).isSome then pure (some (tokenResult e 0 0 0 0 11))
  else do
    let watch ← (List.range 16).mapM fun i => EM.readNat p .g (rec_ + BitVec.ofNat 64 (256 + 128 * i)) 128
    EM.require (decide (bitsOf hdr 463 448 ≤ 224) && watch.all watchOk)
    let kv ← (List.range (bitsOf hdr 463 448)).mapM fun i => EM.readNat p .g (rec_ + BitVec.ofNat 64 (2304 + 8 * i)) 8
    if s.homeFull w.die 0 then pure (some (tokenResult e 0 0 0 0 7))
    else do
      let q : OpenSeq := { tenant := w.tenant, id := tokenSeq e, home := w.die, hdr, watch, kv, recent := [] }
      let q := (q.setField 33 32 1).setField 47 40 0
      let recent ← recentTokens p q
      finishToken p hdr false false { q := { q with recent } }
      EM.performedAt e w.die
      pure (some (tokenResult e 0 0 0 0 0))

/-- An entry of q6 with an operation, whose result does not wait. -/
def tokenEntry (op : Nat) (e : QEntry) : Bool := e.q == 6 && e.post.isNone && tokenOp e == op
/-- A TWATCH with an OPC. -/
def watchEntry (opc : Nat) (e : QEntry) : Bool := tokenEntry 4 e && e.bits 18 16 == opc

/-- Perform an entry of q6, all of it or nothing (19 R347). -/
def State.tokenStep (s : State) (p : QEntry → Bool) (f : QEntry → EM Answer) : State :=
  s.engineStep p fun e => s.performEntry e false (f e)

def execTsampEntry (s : State) : Host.Outcome State Fault Refusal :=
  .next (s.tokenStep (tokenEntry 0) fun e => tokenWork e false false fun p _ old t => workTsamp p e old t)
def execTdraftEntry (s : State) : Host.Outcome State Fault Refusal :=
  .next (s.tokenStep (tokenEntry 1) fun e => tokenWork e false false fun p core _ t => workTdraft p e core t)
def execTconfEntry (s : State) : Host.Outcome State Fault Refusal :=
  .next (s.tokenStep (tokenEntry 2) fun e => tokenWork e false false fun p _ old t => workTconf p e old t)
def execTrejEntry (s : State) : Host.Outcome State Fault Refusal :=
  .next (s.tokenStep (tokenEntry 3) fun e => tokenWork e false false fun _ _ _ t => workTrej t)
def execTwatchSetEntry (s : State) : Host.Outcome State Fault Refusal :=
  .next (s.tokenStep (watchEntry 0) fun e => tokenWork e false false fun p _ _ t => workTwatchSet p e t)
def execTwatchClearEntry (s : State) : Host.Outcome State Fault Refusal :=
  .next (s.tokenStep (watchEntry 1) fun e => tokenWork e false false fun _ _ _ t => workTwatchClear e t)
def execTwatchOpenEntry (s : State) : Host.Outcome State Fault Refusal :=
  .next (s.tokenStep (watchEntry 2) openWork)
def execTwatchCloseEntry (s : State) : Host.Outcome State Fault Refusal :=
  .next (s.tokenStep (watchEntry 3) fun e => tokenWork e true true fun _ _ _ t => pure t)
def execTwatchThawEntry (s : State) : Host.Outcome State Fault Refusal :=
  .next (s.tokenStep (watchEntry 4) fun e => tokenWork e false false fun _ _ _ t => workTwatchThaw t)
/-- TWATCH.sync; an OPC of 110 or 111 meets BADDESC here. -/
def execTwatchSyncEntry (s : State) : Host.Outcome State Fault Refusal :=
  .next (s.tokenStep (fun e => watchEntry 5 e || watchEntry 6 e || watchEntry 7 e) fun e =>
    tokenWork e true false fun _ _ _ t => pure t)
def execTinjEntry (s : State) : Host.Outcome State Fault Refusal :=
  .next (s.tokenStep (tokenEntry 5) fun e => tokenWork e false false fun p core old t => workTinj p e core old t)
/-- TFORK_ENTRY; an entry whose OP names no command of q6 meets BADDESC here. -/
def execTforkEntry (s : State) : Host.Outcome State Fault Refusal :=
  .next (s.tokenStep (fun e => tokenEntry 6 e || tokenEntry 7 e) fun e =>
    tokenWork e false false fun p _ old t => workTfork p old t)

/-- TOKEN_RESULT_POST: a result that waited for room in q7 is posted. -/
def execTokenResultPost (s : State) : Host.Outcome State Fault Refusal := .next (s.postWaiting 6)

/-- An entry of q6 leaves its queue unperformed: its result is posted with CODE (19 R344, R347). -/
def State.tokenDropped (s : State) (e : QEntry) (code : Nat) : State := s.postResult e (tokenResult e (noVal e) 0 code 0 0)

end Sys2Proof.Machine
end

