-- ==== Sys2Proof/Machine/Trap.lean ====
section
/-! DEFINITION. What ends a wave: its exit, a halt and a double fault (01 R14, 07 R135, 09 R226, 10 R236); and the
fetch of an instruction's words (03 R31, 09 R225, 10 R229). -/

namespace Sys2Proof.Machine

open Sys2Proof

/-! ## Halts and double faults -/

/-- The wave runs in a trap handler. -/
def Wave.handling (w : Wave) : Bool :=
  match w.shadow with
  | some sh => !sh.debug
  | none => false

/-- A wave halts: none of its splits issues again. -/
def State.haltWave (s : State) (k : Nat) : State := s.mapWave k fun w => { w with halted := true, trap := none }

/-- A double fault: the wave halts, and a context error carries both causes and both PCs. -/
def State.doubleFault (s : State) (k : Nat) (first : Trap) (second : Nat) (pc2 : Dword) : State :=
  match s.wave k with
  | none => s
  | some w =>
    (s.haltWave k).contextError
      (waveError w.id cDouble (BitVec.ofNat 8 second) (BitVec.ofNat 8 first.cause) first.pc pc2)

/-- A double fault of a running handler. -/
def State.handlerFault (s : State) (k : Nat) (second : Nat) (pc2 : Dword) : State :=
  match (s.wave k).bind (·.shadow) with
  | some sh => s.doubleFault k sh.trap second pc2
  | none => s

/-- The second causes of 10 R236. -/
def dWatchdog : Nat := 0x40
def dExit : Nat := 0x41
def dTretSplit : Nat := 0x42
def dBadResume : Nat := 0x43
def dFrame : Nat := 0x44
def dNoHandler : Nat := 0x45

/-! ## The end of a wave -/

/-- The wave's last lane has gone: its slot, registers and pop queues return to the core; what it pushed is still
performed; a queue that an engine fault has stopped is discarded, with a context error. -/
def State.retireWave (s : State) (k : Nat) : State :=
  match s.wave k with
  | none => s
  | some w =>
    let uid := w.id.uid
    let s := { s with
      waves := SMap.erase s.waves k
      entries := s.entries.filter fun e => !(e.uid == uid && (popOnly e.q || e.q == 16)) }
    let s := s.mapCtx uid fun c => { c with live := false }
    w.engFaults.foldl
      (fun s f =>
        let age := ((s.stops.find? fun x => x.uid == uid && x.q == f.queue).map (·.age)).getD 0
        (s.discardQueue uid f.queue age).contextError
          { waveError w.id cEngine (BitVec.ofNat 8 f.sub) 0 f.site (f.seq.setWidth 64) with queue := BitVec.ofNat 4 f.queue })
      s

/-- Lanes of the issuing split exit (08 R192): the split goes on with its other members, or its entry becomes invalid;
with the last entry the wave retires. -/
def State.exitLanes (s : State) (i : Issue) (w : Wave) (m : Mask) : State :=
  let sp := SMap.read {} w.splits i.split
  let rest := sp.members &&& ~~~m
  if rest ≠ 0 then s.done i (w.mapSplit i.split fun p => { p with members := rest })
  else
    let w : Wave := { w with
      splits := SMap.erase w.splits i.split
      owed := w.owed.map fun p => (p.1, p.2.filter (· != i.split)) }
    let s := s.setWave i.key (w.issued i.split s.clock)
    match w.splits with
    | [] => s.retireWave i.key
    | (j, p) :: _ =>
      match p.wait with
      | .arriving net _ => s.tryArrive i.key net j p.at
      | _ => s

/-! ## Fetch -/

/-- A fetch takes a cached word that holds poison (25 R428). -/
def State.strikeFetch (s : State) (tenant key : Nat) : State :=
  if s.badFetch.contains key then { s with struck := s.struck ++ [(tenant, 3)] } else s

/-- A word enters the instruction cache; it replaces what held poison. -/
def State.cacheWord (s : State) (key : Nat) (x : Word) : State :=
  { s with icache := SMap.insert s.icache key x, badFetch := s.badFetch.filter (· != key) }

/-- One instruction word: the instruction cache's, or what the core reads; where they differ the cache may still
hold the old word or not. A fault answers its cause. -/
def State.fetchWord (s : State) (w : WaveId) (pc : Dword) : State × Except Nat Word :=
  match s.translate w.die w.tlbCore w.tenant .fetch pc with
  | (s, .error c) => (s, .error c)
  | (s, .ok l) =>
    let locs := (List.range 4).map fun i => l.loc (pc.toNat + i)
    let s := if l.hole then s.logHole w.die w.tenant w.core .fetch 0 pc else s
    let (s, bs) := (s.strike w.tenant (.engine w.pcore) locs).readLocs (.engine w.pcore) l.uncached locs
    let now : Word := BitVec.ofNat 32 (leNat bs)
    let key := w.pcore * 2 ^ 50 + (l.loc pc.toNat).a / 4
    if l.hole then (s, .ok now)
    else
      match SMap.find s.icache key with
      | some old =>
        if old = now then (s.strikeFetch w.tenant key, .ok now)
        else
          let keep := Config.freeBool s.fresh
          let s := { s with fresh := s.fresh + 1 }
          (if keep then s.strikeFetch w.tenant key else s.cacheWord key now, .ok (if keep then old else now))
      | none => (s.cacheWord key now, .ok now)

/-- n words from an address up; a fault answers its cause and the address of the word. -/
def State.fetchWords (s : State) (w : WaveId) (pc : Dword) : Nat → State × Except (Nat × Dword) (List Word)
  | 0 => (s, .ok [])
  | n + 1 =>
    match s.fetchWord w pc with
    | (s, .error c) => (s, .error (c, pc))
    | (s, .ok x) =>
      match s.fetchWords w (pc + 4) n with
      | (s, .error f) => (s, .error f)
      | (s, .ok xs) => (s, .ok (x :: xs))

/-- The number of words by LEN (03 R31). -/
def wordCount (w0 : Word) : Nat :=
  match w0.toNat % 4 with
  | 0 => 1
  | 3 => 5
  | _ => 3

/-- The words of the instruction at a PC. -/
def State.fetchInstr (s : State) (w : WaveId) (pc : Dword) : State × Except (Nat × Dword) (List Word) :=
  match s.fetchWord w pc with
  | (s, .error c) => (s, .error (c, pc))
  | (s, .ok w0) =>
    match s.fetchWords w (pc + 4) (wordCount w0 - 1) with
    | (s, .error f) => (s, .error f)
    | (s, .ok ws) => (s, .ok (w0 :: ws))

/-- A fetch fault: PAGE_FAULT that reports the fetched address and resumes at the instruction. -/
def State.fetchTrap (s : State) (i : Issue) (sub : Nat) (va : Dword) : State :=
  (s.trapAt i tPageFault sub 0 va).mapWave i.key fun w => { w with trap := w.trap.map fun t => { t with pc := va } }

/-- FETCH_FAULT: the subject gives the cause of 06 R120 and the fetched address. -/
def execFetchFault (s : State) : Host.Outcome State Fault Refusal :=
  .next (match s.subject with
    | .value sub _ va => s.withCur fun i _ _ => s.fetchTrap i sub va
    | _ => s)

/-- A word of an unassigned or reserved major. -/
def execUnimplMajor (s : State) : Host.Outcome State Fault Refusal := .next (s.takeTrap tUnimplMajor)
/-- A word of an assigned major that is no instruction. -/
def execIllegalEnc (s : State) : Host.Outcome State Fault Refusal := .next (s.takeTrap tIllegalEnc)

end Sys2Proof.Machine
end

