-- ==== Sys2Proof/Machine/Control.lean ====
section
/-! DEFINITION. Structured control, branches, calls and exits: majors 0x18 and 0x19, with the steps that merge and
release splits (07 R140–R143, 08 R182–R192). -/

namespace Sys2Proof.Machine

open Sys2Proof

/-- A target: PC + SignExt(literal[31:0], 64) (08 R182). -/
def targetOf (i : Issue) (e : Ext) : Dword := i.pc + (e.lit.setWidth 32).signExtend 64

/-! ## Structured control (08 R183) -/

/-- Change the counters of the member lanes, none of which may pass 255, and go on at the target or behind. `f` gives a
lane's new counter; `taken` decides from the counters before and after. -/
def State.structured (s : State) (e : Ext) (f : Wave → Split → Nat → Nat → Nat)
    (taken : List Nat → List Nat → Bool) : State :=
  s.checked {} fun i w sp =>
    let ls := lanesOf sp.members
    let old := ls.map w.depthOf
    let new := ls.map fun l => f w sp l (w.depthOf l)
    if new.any fun c => decide (255 < c) then s.trapAt i tDepthOverflow 0 0 0
    else
      let w := (ls.zip new).foldl (fun w p => w.setDepth p.1 p.2) w
      if taken old new then s.jump i w (targetOf i e) else s.done i w

/-- No counter is zero. -/
def noneZero (cs : List Nat) : Bool := cs.all (· != 0)
/-- Never taken. -/
def fallThrough (_ _ : List Nat) : Bool := false

/-- IF. -/
def execIfX (e : Ext) (s : State) : Host.Outcome State Fault Refusal :=
  .next (s.structured e
    (fun w _ l c => if c ≠ 0 then c + 1 else if (w.getK (regNo e.a)).getLsbD l then 0 else 1) fun _ new => noneZero new)
/-- ELSE. -/
def execElseX (e : Ext) (s : State) : Host.Outcome State Fault Refusal :=
  .next (s.structured e (fun _ _ _ c => if c = 0 then 1 else if c = 1 then 0 else c) fun _ new => noneZero new)
/-- ENDIF. -/
def execEndif (e : Ext) (s : State) : Host.Outcome State Fault Refusal :=
  .next (s.structured e (fun _ _ _ c => c - 1) fallThrough)
/-- LOOP. -/
def execLoopX (e : Ext) (s : State) : Host.Outcome State Fault Refusal :=
  .next (s.structured e (fun _ _ _ c => if c ≠ 0 then c + 1 else 0) fun _ new => noneZero new)
/-- ENDLOOP: back while any counter is zero. -/
def execEndloop (e : Ext) (s : State) : Host.Outcome State Fault Refusal :=
  .next (s.structured e
    (fun w sp _ c => if noneZero ((lanesOf sp.members).map w.depthOf) then c - 1 else c) fun old _ => !noneZero old)
/-- BREAK. -/
def execBreakX (e : Ext) (s : State) : Host.Outcome State Fault Refusal :=
  .next (s.structured e
    (fun w _ l c => if c = 0 ∧ (w.getK (regNo e.a)).getLsbD l then e.x.toNat + 1 else c) fallThrough)

/-! ## JOIN (07 R143) -/

/-- JOIN: the split parks and does not advance. -/
def execJoinX (_ : Ext) (s : State) : Host.Outcome State Fault Refusal :=
  .next (s.checked {} fun i w _ =>
    s.setWave i.key ((w.mapSplit i.split fun p => { p with park := true }).issued i.split s.clock))

/-- Two parked splits that merge. -/
def Split.joins (x y : Split) : Bool := x.park && y.park && x.at == y.at && x.cd == y.cd

/-- The lowest entry that has another to merge with, and the highest of those. -/
def Wave.mergePair (w : Wave) : Option (Nat × Nat) :=
  w.splits.findSome? fun p =>
    ((w.splits.filter fun q => decide (p.1 < q.1) && p.2.joins q.2).getLast?).map fun q => (p.1, q.1)

/-- Merge entry b into entry a. -/
def Wave.merge (w : Wave) (a b : Nat) : Wave :=
  match SMap.find w.splits b with
  | none => w
  | some y =>
    let w := w.mapSplit a fun x => { x with members := x.members ||| y.members }
    { w with splits := SMap.erase w.splits b, owed := w.owed.map fun p => (p.1, p.2.filter (· != b)) }

/-- Merge until no pair is left; at most three merges. -/
def Wave.mergeAll : Nat → Wave → Wave
  | 0, w => w
  | n + 1, w =>
    match w.mergePair with
    | some (a, b) => (w.merge a b).mergeAll n
    | none => w

/-- The wave that a step names, or the first of which a condition holds, on a die whose clock runs (25 R426). -/
def State.pickWave (s : State) (p : Wave → Bool) : Option (Nat × Wave) :=
  match s.subject with
  | .ids k _ _ => s.waves.find? fun x => x.1 == k && p x.2 && s.dieRuns x.2.id.die
  | _ => s.waves.find? fun x => p x.2 && s.dieRuns x.2.id.die

/-- SPLIT_MERGE. -/
def execSplitMerge (s : State) : Host.Outcome State Fault Refusal :=
  .next (match s.pickWave fun w => w.mergePair.isSome with
    | some (k, w) => match w.mergePair with
      | some (a, b) => s.setWave k (w.merge a b)
      | none => s
    | none => s)

/-- A parked split goes on behind its JOIN. -/
def Split.unpark (sp : Split) : Split :=
  if sp.codes = 0 then { sp with park := false, pc := sp.pc + 12, noMatch := false }
  else { sp with park := false, codePc := sp.codePc + 2, codes := sp.codes - 1, latch := none, noMatch := false }

/-- JOIN_RELEASE: with every valid split parked, those that can merge do, and each goes on. -/
def execJoinRelease (s : State) : Host.Outcome State Fault Refusal :=
  .next (match s.pickWave fun w => w.splits != [] && w.splits.all fun p => p.2.park with
    | some (k, w) =>
      let w := w.mergeAll 3
      s.setWave k { w with splits := w.splits.map fun p => (p.1, p.2.unpark) }
    | none => s)

/-! ## Branches (08 R185) -/

def execBra (e : Ext) (s : State) : Host.Outcome State Fault Refusal :=
  .next (s.once {} fun i w _ => s.jump i w (targetOf i e))
def execBz (e : Ext) (s : State) : Host.Outcome State Fault Refusal :=
  .next (s.once (usesOf Form.bz e) fun i w _ =>
    if w.getS (regNo e.a) = 0 then s.jump i w (targetOf i e) else s.done i w)
def execBnz (e : Ext) (s : State) : Host.Outcome State Fault Refusal :=
  .next (s.once (usesOf Form.bz e) fun i w _ =>
    if w.getS (regNo e.a) ≠ 0 then s.jump i w (targetOf i e) else s.done i w)
def execNop (_ : Ext) (s : State) : Host.Outcome State Fault Refusal :=
  .next (s.checked {} fun i w _ => s.done i w)

/-! ## Calls (08 R186–R190) -/

/-- Write the link of some lanes. -/
def Wave.setLinks (w : Wave) (d : Nat) (ls : List Nat) (link : Dword) : Wave :=
  ls.foldl (fun w l => w.setV64 d l link) w

/-- CALL. -/
def execCall (e : Ext) (s : State) : Host.Outcome State Fault Refusal :=
  .next (s.once (usesOf Form.call e) fun i w sp =>
    if 255 ≤ sp.cd then s.trapAt i tCallDepth 0 0 0
    else
      let w := w.setLinks (regNo e.d) (lanesOf (w.active sp)) (i.pc + 20)
      s.jump i (w.mapSplit i.split fun p => { p with cd := p.cd + 1 }) (targetOf i e))

/-- The target that a CALLI reads for a lane. -/
def calliTarget (w : Wave) (e : Ext) (l : Nat) : Dword :=
  if e.a.isV then w.getV64 (regNo e.a) l else w.getS64 (regNo e.a)

/-- PeelNext: the lanes of the first target run it, the others wait at counter 1. -/
def State.peelNext (s : State) (i : Issue) (w : Wave) (e : Ext) (p : Dword) (cd : Nat) (ls : List Nat) : State :=
  let t := calliTarget w e (ls.headD 0)
  let w := ls.foldl
    (fun w' l => if calliTarget w e l ≠ t then w'.setDepth l 1 else w'.setV64 (regNo e.d) l (p + 1)) w
  s.jump i (w.mapSplit i.split fun sp => { sp with cd := cd + 1 }) t

/-- PeelStart. -/
def State.peelStart (s : State) (i : Issue) (w : Wave) (sp : Split) (e : Ext) (ls : List Nat) : State :=
  let others := (lanesOf sp.members).filter fun l => !ls.contains l
  if others.any fun l => decide (253 < w.depthOf l) then s.trapAt i tDepthOverflow 0 0 0
  else s.peelNext i (others.foldl (fun w l => w.setDepth l (w.depthOf l + 2)) w) e i.pc sp.cd ls

/-- The distinct targets, in the order of the lowest lane that names each. -/
def distinct (ts : List Dword) : List Dword := ts.foldl (fun acc t => if acc.contains t then acc else acc ++ [t]) []

/-- New splits owe the departures that the split which made them owes (09 R218). -/
def Wave.inheritOwed (w : Wave) (from_ : Nat) (made : List Nat) : Wave :=
  { w with owed := w.owed.map fun p => (p.1, if p.2.contains from_ then p.2 ++ made else p.2) }

/-- Divide the active lanes among entries (DESIGN CHOICE, log entry 73: a new entry counts as having issued when the
dividing one last did before this CALLI): the issuing entry takes the first target and keeps its other members, the
free entries take the further targets and then the remainder. -/
def State.divide (s : State) (i : Issue) (w : Wave) (sp : Split) (e : Ext) (ls : List Nat) (ts : List Dword)
    (free : List Nat) : State :=
  let own := if ts.length ≤ free.length + 1 then ts else ts.take free.length
  let lanesFor (t : Dword) : List Nat := ls.filter fun l => calliTarget w e l == t
  let maskFor (t : Dword) : Mask := maskOf (lanesFor t) fun _ => true
  let rest := maskOf ls fun l => !own.contains (calliTarget w e l)
  let others := sp.members &&& ~~~(w.active sp)
  let entry (t : Dword) (m : Mask) : Split := { sp.goto t with members := m, cd := sp.cd + 1, park := false }
  let new := (own.drop 1).map fun t => entry t (maskFor t)
  let new := if rest = 0 then new else new ++ [{ sp with members := rest }]
  let linked := own.foldl (fun w t => w.setLinks (regNo e.d) (lanesFor t) (i.pc + 12)) w
  let t1 := own.headD 0
  let w := linked.setSplit i.split (entry t1 (maskFor t1 ||| others))
  let made := free.zip new
  let w := made.foldl (fun w p => w.setSplit p.1 p.2) w
  s.setWave i.key ((w.inheritOwed i.split (made.map (·.1))).issued i.split s.clock)

/-- CALLI. -/
def execCalli (e : Ext) (s : State) : Host.Outcome State Fault Refusal :=
  .next (s.once (usesOf Form.calli e) fun i w sp =>
    let ls := lanesOf (w.active sp)
    let ts := distinct (ls.map (calliTarget w e))
    let free := (List.range 4).filter fun j => (SMap.find w.splits j).isNone
    if ts.any fun t => t.toNat % 4 != 0 then s.trapAt i tIllegalEnc 0 0 0
    else if 255 ≤ sp.cd then s.trapAt i tCallDepth 0 0 0
    else
      match ts with
      | [t] =>
        let w := w.setLinks (regNo e.d) ls (i.pc + 12)
        s.jump i (w.mapSplit i.split fun p => { p with cd := p.cd + 1 }) t
      | _ => if free = [] then s.peelStart i w sp e ls else s.divide i w sp e ls ts free)

/-- The end of a peel: every lane stands where it stood at the CALLI at P, and the split goes on behind it. -/
def State.peelEnd (s : State) (i : Issue) (w : Wave) (sp : Split) (p : Dword) : State :=
  let w := (lanesOf sp.members).foldl
    (fun w l => if 2 ≤ w.depthOf l then w.setDepth l (w.depthOf l - 2) else w) w
  s.jump i (w.mapSplit i.split fun q => { q with cd := q.cd - 1 }) (p + 12)

/-- The next target of a peel, read again from the operand of the CALLI at P: its registers pass the checks of that
instruction (03 R46, R56), and the target that of every transfer (03 R32). -/
def State.peelGo (s : State) (i : Issue) (w : Wave) (sp : Split) (e : Ext) (p : Dword) (waiting : List Nat) : State :=
  let u := usesOf Form.calli e
  let w' := waiting.foldl (fun w l => w.setDepth l 0) w
  if w.outOfBounds u then s.trapAt i tRegBounds 0 0 0
  else if w.hazard sp u then s.trapAt i tFlagHazard 0 0 0
  else if w.scoreboard u then s
  else if (calliTarget w e (waiting.headD 0)).toNat % 4 ≠ 0 then s.trapAt i tIllegalEnc 0 0 0
  else s.peelNext i w' e p (sp.cd - 1) waiting

/-- PeelReturn: the lanes of the target that has run have returned; while others wait, the CALLI at P names the operand
that holds their targets. -/
def State.peelReturn (s : State) (i : Issue) (w : Wave) (sp : Split) (p : Dword) : State :=
  let waiting := (lanesOf sp.members).filter fun l => w.depthOf l == 1
  let back := (lanesOf (w.active sp)).foldl (fun w l => w.setDepth l 2) w
  if waiting = [] then s.peelEnd i back sp p
  else
    match s.fetchInstr w.id p with
    | (s, .error f) => s.trapAt i tPageFault f.1 0 f.2
    | (s, .ok ws) =>
      match decodeWords ws with
      | .instr (.calli x) => s.peelGo i back sp x p waiting
      | _ => s.trapAt i tIllegalEnc 0 0 0

/-- RET. -/
def execRet (e : Ext) (s : State) : Host.Outcome State Fault Refusal :=
  .next (s.once (usesOf Form.ret e) fun i w sp =>
    let v := w.getV64 (regNo e.a) (lowLane (w.active sp))
    if v.getLsbD 1 then s.trapAt i tIllegalEnc 0 0 0
    else if sp.cd = 0 then s.trapAt i tCallDepth 0 0 0
    else if !v.getLsbD 0 then s.jump i (w.mapSplit i.split fun p => { p with cd := p.cd - 1 }) v
    else s.peelReturn i w sp (v - 1))

/-! ## EXIT and YIELD (08 R192) -/

/-- EXIT; in a handler it is a double fault (10 R236). -/
def execExit (_ : Ext) (s : State) : Host.Outcome State Fault Refusal :=
  .next (s.once {} fun i w sp =>
    if w.handling then s.handlerFault i.key dExit i.pc else s.exitLanes i w (w.active sp))

/-- YIELD: the split is not ready for the next 32 clocks. -/
def execYield (_ : Ext) (s : State) : Host.Outcome State Fault Refusal :=
  .next (s.once {} fun i w _ =>
    s.done i (w.mapSplit i.split fun p => { p with wait := .until (s.dieClock w.id.die + 33) }))

/-- A YIELD's interval is over. -/
def Wait.rested (clock : Nat) : Wait → Bool
  | .until c => decide (c ≤ clock)
  | _ => false

/-- The splits of a wave whose interval is over are ready. -/
def Wave.wake (w : Wave) (clock : Nat) : Wave :=
  w.mapSplits fun _ sp => if sp.wait.rested clock then { sp with wait := .ready } else sp

/-- YIELD_EXPIRY. -/
def execYieldExpiry (s : State) : Host.Outcome State Fault Refusal :=
  .next (match s.pickWave fun w => w.waiters (Wait.rested (s.dieClock w.id.die)) != [] with
    | some (k, w) => s.setWave k (w.wake (s.dieClock w.id.die))
    | none => s)

end Sys2Proof.Machine
end

