-- ==== Sys2Proof/Machine/Traversal.lean ====
section
/-! DEFINITION. The traversal engine and the texture sampler: structures, rays, resume tokens, continuations and
filtered samples; the instructions of major 0x22 and the entries of q8 and q10 (21 R350–R371). -/

namespace Sys2Proof.Machine

open Sys2Proof

/-! ## Ratios and intervals (21 R355) -/

def Ratio.le (a b : Ratio) : Bool :=
  if a.d = 0 ∧ b.d = 0 then decide (a.n ≤ b.n) else decide (a.n * b.d ≤ b.n * a.d)
def Ratio.max (a b : Ratio) : Ratio := if a.le b then b else a
def Ratio.min (a b : Ratio) : Ratio := if a.le b then a else b
def Ratio.inf (neg : Bool) : Ratio := { n := if neg then -1 else 1, d := 0 }

/-- A number in units of 2^−1074, the smallest that FP64 and FP32 data have. -/
def unitsOfExact (x : Num.Exact) : Int := x.scaled (-1074)

/-- The value of an FP32 datum as a ratio, 0 for a NaN. -/
def ratioOf (z : Nat) : Ratio :=
  match Num.fp32.decode z with
  | .fin x => { n := unitsOfExact x, d := 2 ^ 1074 }
  | .inf neg => Ratio.inf neg
  | .nan _ => { n := 0, d := 1 }

/-- lo ≤ hi for two numbers that are no NaN. -/
def boundsOk (lo hi : Num.FVal) : Bool :=
  match lo, hi with
  | .nan _, _ | _, .nan _ => false
  | .inf p, .inf q => p || !q
  | .inf p, .fin _ => p
  | .fin _, .inf q => !q
  | .fin x, .fin y => decide (x.cmp y ≤ 0)

/-- The parameters at which o + t·d lies between two bounds on one axis; none when it never does. -/
def slab (o d : Num.Exact) (lo hi : Num.FVal) : Option (Ratio × Ratio) :=
  if !boundsOk lo hi then none
  else if d.isZero then
    if boundsOk lo (.fin o) && boundsOk (.fin o) hi then some (Ratio.inf true, Ratio.inf false) else none
  else
    let at_ (x : Num.FVal) : Ratio :=
      match x with
      | .fin x =>
        let n := unitsOfExact x - unitsOfExact o
        { n := if d.neg then -n else n, d := (unitsOfExact d).natAbs }
      | .inf neg => Ratio.inf (neg != d.neg)
      | .nan _ => { n := 0, d := 1 }
    some (if d.neg then (at_ hi, at_ lo) else (at_ lo, at_ hi))

/-- The interval on which a ray meets a box. -/
def boxMeets (o d : List Num.FVal) (lo hi : List Num.FVal) : Option (Ratio × Ratio) :=
  ((o.zip d).zip (lo.zip hi)).foldl
    (fun acc x =>
      match acc, x.1.1, x.1.2 with
      | some (a, b), .fin o, .fin d =>
        match slab o d x.2.1 x.2.2 with
        | some (p, q) => if (a.max p).le (b.min q) then some (a.max p, b.min q) else none
        | none => none
      | _, _, _ => none)
    (some (Ratio.inf true, Ratio.inf false))

/-! ## Rays (21 R353, R354) -/

def Ray.reg (r : Ray) (i : Nat) : Nat := (r.regs.getD i 0).toNat
/-- The origin as FP64 numbers, the direction as FP32 numbers. -/
def Ray.origin (r : Ray) : List Num.FVal :=
  [0, 2, 4].map fun i => Num.fp64.decode (r.reg i + 2 ^ 32 * r.reg (i + 1))
def Ray.dir (r : Ray) : List Num.FVal := [6, 7, 8].map fun i => Num.fp32.decode (r.reg i)
def Ray.tmin (r : Ray) : Nat := r.reg 9
def Ray.tmax (r : Ray) : Nat := r.reg 10
def Ray.mask (r : Ray) : Nat := r.reg 11 % 256
def Ray.forceOpaque (r : Ray) : Bool := (r.reg 11).testBit 8
def Ray.firstHit (r : Ray) : Bool := (r.reg 11).testBit 9
def Ray.cullBack (r : Ray) : Bool := (r.reg 11).testBit 10

/-- Is a component zero? -/
def FVal.isZero : Num.FVal → Bool
  | .fin x => x.isZero
  | _ => false

/-- Is a ray invalid? -/
def Ray.invalid (r : Ray) : Bool :=
  let t := [Num.fp32.decode r.tmin, Num.fp32.decode r.tmax]
  (r.origin ++ r.dir ++ t).any (·.isNan) || r.dir.all FVal.isZero || decide (fpOrder r.tmin < 0)
  || decide (fpOrder r.tmax < fpOrder r.tmin) || decide (2 ^ 11 ≤ r.reg 11)

/-- An exact dot product of a row of a transform with a vector and a last addend, rounded once to FP32. -/
def transformRow (row v : List Num.FVal) (last : Num.FVal) : Num.Res :=
  let (x, fl) := (row.zip v).foldl
    (fun acc p =>
      let (m, f) := Num.FVal.mul p.1 p.2
      let (a, g) := Num.FVal.add .rne acc.1 m
      (a, acc.2 ||| f ||| g))
    (Num.FVal.fin { neg := true, mag := 0, exp := 0 }, 0)
  let (y, g) := Num.FVal.add .rne x last
  Num.fp32.result {} y (fl ||| g)

/-- Is an FP32 datum finite? -/
def fpFinite (z : Nat) : Bool :=
  match Num.fp32.decode z with
  | .fin _ => true
  | _ => false

/-! ## Triangles (21 R355) -/

abbrev Vec := Int × Int × Int
def Vec.sub (a b : Vec) : Vec := (a.1 - b.1, a.2.1 - b.2.1, a.2.2 - b.2.2)
def Vec.dot (a b : Vec) : Int := a.1 * b.1 + a.2.1 * b.2.1 + a.2.2 * b.2.2
def Vec.cross (a b : Vec) : Vec :=
  (a.2.1 * b.2.2 - a.2.2 * b.2.1, a.2.2 * b.1 - a.1 * b.2.2, a.1 * b.2.1 - a.2.1 * b.1)

/-- Three FP32 data as integers in units of 2^−149; none when one is not finite. -/
def vecOf (zs : List Nat) : Option Vec :=
  match zs.map Num.fp32.decode with
  | [.fin x, .fin y, .fin z] => some (x.scaled (-149), y.scaled (-149), z.scaled (-149))
  | _ => none

/-- A quotient of integers rounded to FP32. -/
def fpQuotient (n m : Int) : Num.Res :=
  if n = 0 then { bits := 0 } else Num.fp32.round {} ((Num.Exact.ofInt n).div (Num.Exact.ofInt m))

/-- Where a ray hits a triangle: the candidate and its status bits. -/
def triangleHit (obj : ObjRay) (a b c : List Nat) (geom prim : Nat) : Option (Hit × Num.Flags) :=
  match vecOf obj.o, vecOf obj.d, vecOf a, vecOf b, vecOf c with
  | some o, some d, some a, some b, some c =>
    let e1 := Vec.sub b a
    let e2 := Vec.sub c a
    let n := Vec.cross e1 e2
    let det := Vec.dot d n
    let t := Vec.sub o a
    let un := Vec.dot t (Vec.cross e2 d)
    let vn := Vec.dot e1 (Vec.cross t d)
    let tn := Vec.dot (Vec.sub a o) n
    let sg : Int := if det < 0 then -1 else 1
    if det = 0 || un * sg < 0 || vn * sg < 0 || det * sg < (un + vn) * sg then none
    else
      let rt := fpQuotient tn det
      let ru := fpQuotient un det
      let rv := fpQuotient vn det
      some ({ t := rt.bits, u := ru.bits, v := rv.bits, back := decide (0 < det), inst := obj.inst, geom, prim },
            rt.fl ||| ru.fl ||| rv.fl)
  | _, _, _, _, _ => none

/-! ## The order of candidates (21 R356) -/

def keyLess (a b : List Nat) : Bool :=
  match a, b with
  | x :: xs, y :: ys => decide (x < y) || (x == y && keyLess xs ys)
  | _, _ => false

/-- a precedes b: by t, then by key. -/
def Hit.before (a b : Hit) : Bool :=
  decide (fpOrder a.t < fpOrder b.t)
  || (fpOrder a.t == fpOrder b.t && keyLess [a.inst, a.geom, a.prim] [b.inst, b.geom, b.prim])

/-- Would a candidate precede the result so far? -/
def Ray.precedes (r : Ray) (h : Hit) : Bool :=
  match r.best with
  | some b => h.before b
  | none => true

/-- Accept a candidate; FIRST_HIT or TERMINATE ends the ray at it. -/
def Ray.accept (r : Ray) (h : Hit) (ends : Bool) : Ray :=
  if ends || r.firstHit then { r with best := some h, todo := [], ended := some 1 }
  else { r with best := if r.precedes h then some h else r.best }

/-! ## Issue (21 R357–R359, R364) -/

/-- The 32-byte entry of TRAV, TRAVC and SMPL. -/
def travData (op : Nat) (w : Wave) (e : Ext) : BitVec 256 :=
  BitVec.ofNat 256 (op + e.x.toNat * 2 ^ 16 + paramWords w e.b 6 * 2 ^ 32)

/-- The residency slot of a wave. -/
def WaveId.place (w : WaveId) : Nat := w.pcore * 64 + w.slot

/-- The rays that a residency slot holds (21 R359). -/
def State.raysAt (s : State) (place : Nat) : Nat :=
  (s.rays.filter fun r =>
    (s.entries.any fun e => e.id == r.job && (s.ctx e.uid).id.place == place)
    || (s.jobs.any fun j => j.e.id == r.job && (s.ctx j.e.uid).id.place == place)).length

/-- A command with K and latched lanes: checks of 03 R56, then of room and of first bytes, then `f`. -/
def State.laneCommand (s : State) (f : Form) (e : Ext) (q op : Nat) (busy : Wave → Nat → Bool)
    (addrs : QEntry → List (Space × Acc × Dword)) (latch : Wave → Nat → List Word)
    (g : State → Issue → Wave → Split → Mask → QEntry → State) : State :=
  s.checked (usesOf f e) fun i w sp =>
    let m := w.acting sp e.k
    if m = 0 then s.done i w
    else if !s.room w q || busy w (popCount m) then s
    else
      let x : QEntry := { id := 0, uid := 0, q, data := travData op w e, mask := m, latch := (lanesOf m).map fun l => (l, latch w l) }
      match s.checkFirst w.id (addrs x) with
      | (s, some a) => s.trapAt i a.cause a.sub 0 a.at_
      | (s, none) => g s i w sp m x

/-- The rays of a push, one for each acting lane. -/
def State.addRays (s : State) (job : Nat) (w : Wave) (e : Ext) (m : Mask) (pay : Nat → List Word) : State :=
  (lanesOf m).foldl
    (fun s l =>
      let r : Ray :=
        { id := s.nextId, job, lane := l, pay := pay l
          regs := (List.range 12).map fun j => w.getV (regNo e.a + j) l }
      { s.bump with rays := s.rays ++ [r] })
    s

/-- TRAV. -/
def execTrav (e : Ext) (s : State) : Host.Outcome State Fault Refusal :=
  .next (s.laneCommand Form.trav e 8 0 (fun w n => decide (64 < s.raysAt w.id.place + n))
    (fun x => [(.g, .engRead, x.addr 1), (.g, .engWrite, x.addr 3)]) (fun _ _ => [])
    fun s i w sp m x =>
      let job := s.nextId
      let (s, w) := s.enqueue i w sp 8 x
      (s.addRays job w e m fun _ => []).done i w)

/-- TRAVC: the acting lanes' threads end, as by EXIT. The permission that the resume PC needs is that of a fetch
(log entry 41). -/
def execTravc (e : Ext) (s : State) : Host.Outcome State Fault Refusal :=
  .next (s.laneCommand Form.travc e 8 1 (fun w n => decide (64 < s.raysAt w.id.place + n))
    (fun x => [(.g, .engRead, x.addr 1), (.g, .engRead, x.addr 3), (.g, .fetch, x.addr 5)]) (fun _ _ => [])
    fun s i w sp m x =>
      if w.handling then s.handlerFault i.key dExit i.pc
      else
        let job := s.nextId
        let (s, w) := s.enqueue i w sp 8 x
        let s := s.addRays job w e m fun l => (List.range e.x.toNat).map fun j => w.getV (regNo e.c + j) l
        let s := { s with grids := match SMap.find s.grids w.id.grid with
          | some g => SMap.insert s.grids w.id.grid { g with records := g.records + popCount m }
          | none => s.grids }
        s.exitLanes i w m)

/-- TRES. -/
def execTres (e : Ext) (s : State) : Host.Outcome State Fault Refusal :=
  .next (s.command Form.tres e 8 fun i w sp =>
    let data := 2 + w.src e.lit e.a 32 0 * 2 ^ 32 + w.src e.lit e.b 32 0 * 2 ^ 64
    s.push i w sp 8 { id := 0, uid := 0, q := 8, data := BitVec.ofNat 256 data })

/-- TTOK. -/
def execTtok (e : Ext) (s : State) : Host.Outcome State Fault Refusal :=
  .next (s.popWords Form.ttok e 9 8 (e.x.getLsbD 0))

/-- The samples of a wave whose results have not been popped (21 R368). -/
def State.samples (s : State) (uid : Nat) : Nat :=
  (s.entries.filter fun e => e.uid == uid && (e.q == 10 || e.q == 11) && !e.raw).length

/-- SMPL. -/
def execSmpl (e : Ext) (s : State) : Host.Outcome State Fault Refusal :=
  .next (s.laneCommand Form.smpl e 10 4 (fun w _ => decide (4 ≤ s.samples w.id.uid))
    (fun x => [(.g, .engRead, x.addr 1)]) (fun w l => (List.range 3).map fun j => w.getV (regNo e.a + j) l)
    fun s i w sp _ x => s.push i w sp 10 x)

/-- SRES: the lanes that the result names receive their channels, and %resmiss the missed lanes. -/
def execSres (e : Ext) (s : State) : Host.Outcome State Fault Refusal :=
  .next (s.once (usesOf Form.sres e) fun i w _ =>
    match s.pop w.id.uid 11 with
    | none => s
    | some (x, s) =>
      let w := x.latch.foldl
        (fun w p => (p.2.zipIdx).foldl (fun w c => w.setV (regNo e.d + c.2) p.1 c.1) w) w
      s.done i { w with resmiss := w.resmiss ||| x.data.extractLsb' 64 64 })

/-! ## Reading structures (21 R350–R352, R363) -/

/-- Bytes of a structure, or the address at which they stand in a sparse hole; they are read where their one translation
has placed them (06 R133). -/
def readOrHole (p : Port) (a : Dword) (n : Nat) : EM (Except Dword Nat) := do
  let ps ← EM.places p .g .engRead a n
  match (ps.flatMap (·.holes)).head? with
  | some va => pure (.error va)
  | none => do
    let bs ← EM.readPlaces p a ps
    pure (.ok (leNat bs))

def bNode : Nat := 0x0D
/-- Word i of a structure. -/
def wordAt (v i : Nat) : Nat := v / 2 ^ (32 * i) % 2 ^ 32
def dwordAt (v i : Nat) : Nat := v / 2 ^ (64 * i) % 2 ^ 64

/-- The address of a child: its offset from the root in 16-byte units. -/
def childAt (root : Dword) (child : Nat) : Dword := root + BitVec.ofNat 64 (16 * (child % 2 ^ 30))

/-- Does the ray meet a box within [tmin, tmax]? Then, where it enters. -/
def Ray.enters (r : Ray) (o d lo hi : List Num.FVal) : Option Ratio :=
  match boxMeets o d lo hi with
  | some (a, b) =>
    if (a.max (ratioOf r.tmin)).le (b.min (ratioOf r.tmax)) then some a else none
  | none => none

/-- A ray meets a hole: it waits for a verdict, or in continuation mode it ends. -/
def Ray.meetsHole (r : Ray) (cont : Bool) (part : RayPart) (va : Dword) : Ray :=
  if cont then { r with todo := [], ended := some 3, va } else { r with offer := some (.hole part va) }

/-- A top-level node: the children whose boxes the ray meets, each with the parameter at which the ray has entered every
box on the way to it (21 R356). -/
def visitTop (p : Port) (r : Ray) (cont : Bool) (root at_ : Dword) (near : Ratio) : EM Ray := do
  match ← readOrHole p at_ 256 with
  | .error va => pure (r.meetsHole cont (.top at_ near) va)
  | .ok v => do
    let child (i : Nat) : Nat := wordAt v (48 + i)
    let kind (i : Nat) : Nat := child i / 2 ^ 30
    let ok (i : Nat) : Bool :=
      kind i == 0 || (kind i == 1 && (childAt root (child i)).toNat % 256 == 0)
        || (kind i == 2 && (childAt root (child i)).toNat % 128 == 0)
    if v / 2 ^ (208 * 8) != 0 || !(List.range 4).all ok then EM.fail bNode at_
    let bound (i j : Nat) : Num.FVal := Num.fp64.decode (dwordAt v (6 * i + j))
    let new := (List.range 4).filterMap fun i =>
      match r.enters r.origin r.dir [bound i 0, bound i 1, bound i 2] [bound i 3, bound i 4, bound i 5], kind i with
      | some a, 1 => some (RayPart.top (childAt root (child i)) (near.max a))
      | some a, 2 => some (RayPart.inst (childAt root (child i)) (near.max a))
      | _, _ => none
    pure { r with todo := new ++ r.todo }

/-- An instance record: the object-space ray enters its bottom level. -/
def visitInst (p : Port) (r : Ray) (cont : Bool) (at_ : Dword) (near : Ratio) : EM Ray := do
  match ← readOrHole p at_ 128 with
  | .error va => pure (r.meetsHole cont (.inst at_ near) va)
  | .ok v => do
    let root : Dword := BitVec.ofNat 64 (dwordAt v 12)
    if v / 2 ^ (109 * 8) != 0 || root.toNat % 128 != 0 then EM.fail bNode at_
    if r.mask &&& (v / 2 ^ (108 * 8) % 256) == 0 then pure r
    else do
      let m (row col : Nat) : Num.FVal := Num.fp64.decode (dwordAt v (4 * row + col))
      let rows := (List.range 3).map fun k => [m k 0, m k 1, m k 2]
      let os := (List.range 3).map fun k => transformRow (rows.getD k []) r.origin (m k 3)
      let ds := rows.map fun row => transformRow row r.dir (.fin { neg := true, mag := 0, exp := 0 })
      EM.status p ((os ++ ds).foldl (fun f x => f ||| x.fl.setWidth 32) 0)
      let obj : ObjRay := { inst := wordAt v 26, o := os.map (·.bits), d := ds.map (·.bits) }
      if !(obj.o ++ obj.d).all fpFinite || obj.d.all (fun z => fpOrder z == 0) then pure r
      else pure { r with todo := .bottom obj root root near :: r.todo }

/-- A bottom-level node. -/
def visitBottom (p : Port) (r : Ray) (cont : Bool) (obj : ObjRay) (root at_ : Dword) (near : Ratio) : EM Ray := do
  match ← readOrHole p at_ 128 with
  | .error va => pure (r.meetsHole cont (.bottom obj root at_ near) va)
  | .ok v => do
    let child (i : Nat) : Nat := wordAt v (24 + i)
    let kind (i : Nat) : Nat := child i / 2 ^ 30
    let count (i : Nat) : Nat := v / 2 ^ (8 * (112 + i)) % 256
    let ok (i : Nat) : Bool :=
      if kind i ≤ 1 then count i == 0 && (kind i == 0 || (childAt root (child i)).toNat % 128 == 0)
      else decide (1 ≤ count i ∧ count i ≤ 16) && (childAt root (child i)).toNat % 16 == 0
    if v / 2 ^ (116 * 8) != 0 || !(List.range 4).all ok then EM.fail bNode at_
    let bound (i j : Nat) : Num.FVal := Num.fp32.decode (wordAt v (6 * i + j))
    let o := obj.o.map Num.fp32.decode
    let d := obj.d.map Num.fp32.decode
    let new := (List.range 4).flatMap fun i =>
      match r.enters o d [bound i 0, bound i 1, bound i 2] [bound i 3, bound i 4, bound i 5] with
      | none => []
      | some a =>
        let near := near.max a
        if kind i = 0 then []
        else if kind i = 1 then [RayPart.bottom obj root (childAt root (child i)) near]
        else (List.range (count i)).map fun j =>
          RayPart.leaf obj (childAt root (child i) + BitVec.ofNat 64 (48 * j)) (kind i == 3) near
    pure { r with todo := new ++ r.todo }

/-- A leaf: its candidate is accepted, offered, or none. A TRAVC skips a procedural leaf, whose node's kind 11 tells
it, without reading it (21 R348, R364). -/
def visitLeaf (p : Port) (r : Ray) (cont : Bool) (obj : ObjRay) (at_ : Dword) (proc : Bool) (near : Ratio) : EM Ray := do
  if cont && proc then pure r else
  match ← readOrHole p at_ 48 with
  | .error va => pure (r.meetsHole cont (.leaf obj at_ proc near) va)
  | .ok v => do
    if wordAt v 11 / 2 != 0 || (proc && v / 2 ^ (24 * 8) % 2 ^ 96 != 0) then EM.fail bNode at_
    let vert (i : Nat) : List Nat := (List.range 3).map fun j => wordAt v (3 * i + j)
    let prim := wordAt v 9
    let geom := wordAt v 10
    if proc then
      let o := obj.o.map Num.fp32.decode
      let d := obj.d.map Num.fp32.decode
      let lo := (vert 0).map Num.fp32.decode
      let hi := (vert 1).map Num.fp32.decode
      if (r.enters o d lo hi).isNone then pure r
      else pure { r with offer := some (.candidate 2 { t := 0, inst := obj.inst, geom, prim }) }
    else
      match triangleHit obj (vert 0) (vert 1) (vert 2) geom prim with
      | none => pure r
      | some (h, fl) => do
        EM.status p (fl.setWidth 32)
        let inside := decide (fpOrder r.tmin ≤ fpOrder h.t ∧ fpOrder h.t ≤ fpOrder r.tmax)
        if (r.cullBack && h.back) || !inside || !near.le (ratioOf h.t) || !r.precedes h then pure r
        else if cont || r.forceOpaque || (wordAt v 11).testBit 0 then pure (r.accept h false)
        else pure { r with offer := some (.candidate 1 h) }

/-- Visit one part. -/
def visitPart (p : Port) (cont : Bool) (root : Dword) (r : Ray) : RayPart → EM Ray
  | .top a near => visitTop p r cont root a near
  | .inst a near => visitInst p r cont a near
  | .bottom obj root a near => visitBottom p r cont obj root a near
  | .leaf obj a proc near => visitLeaf p r cont obj a proc near

/-! ## Jobs: performed TRAV and TRAVC entries -/

def QEntry.isTrav (e : QEntry) : Bool := e.q == 8 && !e.raw && decide (e.bits 2 0 ≤ 1)
def RayJob.cont (j : RayJob) : Bool := j.e.bits 2 0 == 1
def RayJob.root (j : RayJob) : Dword := j.e.addr 1

def State.mapRay (s : State) (id : Nat) (f : Ray → Ray) : State :=
  { s with rays := s.rays.map fun r => if r.id = id then f r else r }
def State.dropRay (s : State) (id : Nat) : State := { s with rays := s.rays.filter (·.id != id) }
def State.raysOf (s : State) (job : Nat) : List Ray := s.rays.filter (·.job == job)

/-- The state of a ray when its entry enters the ray store, or is performed again. -/
def Ray.start (r : Ray) (root : Dword) : Ray :=
  if r.invalid then { r with todo := [], best := none, offer := none, token := 0, ended := some 4 }
  else { r with todo := [.top root (Ratio.inf true)], best := none, offer := none, token := 0, ended := none }

/-- Records of a grid that will not be run, or have been (21 R365). -/
def State.recordsGone (s : State) (grids : List Nat) : State :=
  let m := grids.foldl
    (fun m g => match SMap.find m g with
      | some (x : Grid) => SMap.insert m g { x with records := x.records - 1 }
      | none => m) s.grids
  { s with grids := m }

/-- An entry is dropped or discarded: its rays end without records; a TRAV's DONE entry is posted with CODE. -/
def doneData (j : RayJob) (code : Nat) : BitVec 256 :=
  BitVec.ofNat 256 (code * 2 ^ 4 + j.e.seq.toNat * 2 ^ 32 + j.hits * 2 ^ 64)

/-- Post an entry to q9 at once, or let the job's entry wait at the head of q8's results. -/
def State.postDone (s : State) (j : RayJob) (code : Nat) : State :=
  let s := { s with jobs := s.jobs.filter (·.e.id != j.e.id) }
  match s.waveOf j.e.uid with
  | none => s
  | some (_, w) =>
    if s.room w 9 then s.deliver j.e.uid 9 (doneData j code)
    else { s with jobs := s.jobs ++ [{ j with e := { j.e with post := some (doneData j code) } }] }

/-- The records of a job leave the bins. -/
def State.unbin (s : State) (job : Nat) : State :=
  let keep (b : Bin) : Bin := { b with records := b.records.filter (·.job != job) }
  { s with bins := (s.bins.map keep).filter fun b => b.records != [] }

/-- The unfinished rays of an entry end, and its job with them. A ray whose record still waits in a bin is unfinished:
its record has not been written (21 R359, R371). -/
def State.endRays (s : State) (e : QEntry) : State :=
  let rs := s.raysOf e.id
  let s := { s with rays := s.rays.filter fun (r : Ray) => r.job != e.id, jobs := s.jobs.filter fun (j : RayJob) => j.e.id != e.id }
  let s := s.unbin e.id
  if e.bits 2 0 = 1 then s.recordsGone (rs.map fun _ => (s.ctx e.uid).id.grid) else s

/-- A fault found in a job: q8 of its wave stops, and the job keeps its rays until TRET decides; when the wave has
exited, they end. -/
def State.jobFault (s : State) (j : RayJob) (sub : Nat) (addr : Dword) : State :=
  let alive := s.alive j.e.uid
  let s := s.engineFaultAt j.e sub addr
  if alive then
    { s with stops := s.stops.map fun x =>
        if x.uid = j.e.uid ∧ x.q = 8 ∧ x.job.isNone then { x with job := some j.e.id } else x }
  else s.endRays j.e

/-- Run work for a ray of a job, which answers the ray as it then stands. -/
def State.rayWork (s : State) (j : RayJob) (r : Ray) (m : Port → EM Ray) : State :=
  match (m { s.corePort j.e with lane := some r.lane }).go s with
  | (.ok r', s) => s.mapRay r.id fun _ => r'
  | (.error f, s) => s.jobFault j f.sub f.addr

/-- Free bits for fields of a record that no result fills. -/
def State.freeFields (s : State) : State × Nat :=
  ({ s with fresh := s.fresh + 3 },
   (Config.freeWord s.fresh).toNat + 2 ^ 64 * (Config.freeWord (s.fresh + 1)).toNat
     + 2 ^ 128 * (Config.freeWord (s.fresh + 2)).toNat)

/-- A hit record (21 R360); `free` fills what a ray with no result leaves unstated. -/
def hitRecord (status : Nat) (best : Option Hit) (va : Dword) (free : Nat) : Nat :=
  match best, status with
  | some h, 1 =>
    1 + h.back.toNat * 2 ^ 8 + h.inst * 2 ^ 32 + h.geom * 2 ^ 64 + h.prim * 2 ^ 96 + h.t * 2 ^ 128 + h.u * 2 ^ 160
      + h.v * 2 ^ 192
  | _, _ =>
    let t := if status = 0 then 0x7F800000 else wordAt free 3
    let uv := if status = 3 then va.toNat else dwordAt free 2
    status + free / 2 ^ 31 % 2 * 2 ^ 8 + wordAt free 1 * 2 ^ 32 + wordAt free 2 * 2 ^ 64
      + free / 2 ^ 8 % 2 ^ 32 * 2 ^ 96 + t * 2 ^ 128 + uv * 2 ^ 160

/-- The lowest token that no unanswered token of the wave has (21 R362). -/
def State.freeToken (s : State) (uid : Nat) : Nat :=
  let used := (s.rays.filter fun r => s.jobs.any fun j => j.e.id == r.job && j.e.uid == uid).map (·.token)
  ((List.range 66).find? fun t => t != 0 && !used.contains t).getD 1

/-- The q9 entry of an offer (21 R361). -/
def offerData (j : RayJob) (lane token : Nat) (o : Offer) : BitVec 256 :=
  let head := lane * 2 ^ 8 + token * 2 ^ 16 + j.e.seq.toNat * 2 ^ 32
  match o with
  | .candidate kind h =>
    BitVec.ofNat 256 (head + kind + h.inst * 2 ^ 64 + h.geom * 2 ^ 96 + h.prim * 2 ^ 128 + h.t * 2 ^ 160 + h.u * 2 ^ 192
      + h.v * 2 ^ 224)
  | .hole _ va => BitVec.ofNat 256 (head + 3 + va.toNat * 2 ^ 192)

/-- One step of a ray: post what suspends it, visit a part, end, or write the hit record. -/
def State.rayStep (s : State) (j : RayJob) (r : Ray) (pick : Nat) : State :=
  match r.offer, r.ended with
  | some o, _ =>
    match s.waveOf j.e.uid with
    | none => s
    | some (_, w) =>
      if !s.room w 9 then s
      else
        let t := s.freeToken j.e.uid
        (s.deliver j.e.uid 9 (offerData j r.lane t o)).mapRay r.id fun r => { r with token := t }
  | none, some status =>
    let (s, free) := s.freeFields
    let p := s.corePort j.e
    match (EM.write p .g (j.e.addr 3 + BitVec.ofNat 64 (32 * r.lane)) (leBytes 32 (hitRecord status r.best r.va free))).go s with
    | (.ok (), s) =>
      let s := s.dropRay r.id
      { s with jobs := s.jobs.map fun (x : RayJob) =>
          if x.e.id = j.e.id then { x with hits := x.hits + (status == 1).toNat } else x }
    | (.error f, s) => s.jobFault j f.sub f.addr
  | none, none =>
    match r.todo with
    | [] => s.mapRay r.id fun r => { r with ended := some (if r.best.isSome then 1 else 0) }
    | first :: _ =>
      let k := pick % r.todo.length
      let part := (r.todo[k]?).getD first
      s.rayWork j { r with todo := r.todo.eraseIdx k } fun p => visitPart p j.cont j.root { r with todo := r.todo.eraseIdx k } part

/-- Can a ray take a step? One that waits for a verdict, or for its continuation record, cannot. -/
def State.rayReady (s : State) (j : RayJob) (r : Ray) : Bool :=
  s.waveRuns j.e.uid && !s.stopped j.e.uid 8 && r.token == 0 && !r.binned && !(j.cont && r.ended.isSome) &&
  match r.offer with
  | none => true
  | some _ => match s.waveOf j.e.uid with
    | some (_, w) => s.room w 9
    | none => false

/-- The jobs with a ray that can step. -/
def State.nextRay (s : State) (p : Ray → Bool) : Option (RayJob × Ray) :=
  s.rays.findSome? fun r =>
    if p r then (s.jobs.find? fun j => j.e.id == r.job && s.rayReady j r).map fun j => (j, r) else none

/-- A job that owes its DONE entry: all its rays have finished. -/
def State.jobDone (s : State) (j : RayJob) : Bool :=
  s.waveRuns j.e.uid && s.raysOf j.e.id == [] &&
  (j.cont || match s.waveOf j.e.uid with
    | some (_, w) => s.room w 9
    | none => true)

/-- Post what a finished job owes. -/
def State.finishJob (s : State) (j : RayJob) : State :=
  if j.cont then { s with jobs := s.jobs.filter (·.e.id != j.e.id) }
  else
    match j.e.post with
    | some d =>
      let s := { s with jobs := s.jobs.filter (·.e.id != j.e.id) }
      if s.alive j.e.uid then s.deliver j.e.uid 9 d else s
    | none => s.postDone j 0

/-- A TRAV or TRAVC that heads q8 is performed: its rays enter the ray store. -/
def State.enterRays (s : State) (e : QEntry) : State :=
  let p := s.corePort e
  let m : EM RayJob := do
    EM.require ((e.addr 1).toNat % 256 == 0)
    if e.bits 2 0 = 0 then do
      EM.require ((e.addr 3).toNat % 32 == 0 && e.bits 255 160 == 0)
      pure { e }
    else do
      EM.require ((e.addr 3).toNat % 64 == 0 && (e.addr 5).toNat % 4 == 0 && e.word 7 == 0)
      let d ← EM.readNat p .g (e.addr 3) 64
      let base : Dword := BitVec.ofNat 64 (dwordAt d 0)
      let nslot := wordAt d 2
      let fl := d / 2 ^ 96 % 256
      EM.require (base.toNat % 16384 == 0 && nslot != 0 && decide (8 ≤ fl ∧ fl ≤ 20) && d / 2 ^ 104 == 0)
      pure { e, base, nslot, fl }
  match m.go s with
  | (.error f, s') => (s.undo s').engineFaultAt e f.sub f.addr
  | (.ok j, s) =>
    ({ s with
        jobs := s.jobs ++ [j]
        rays := s.rays.map fun (r : Ray) => if r.job = e.id then r.start j.root else r }).dropEntry e.id

/-- RAY_TRAVERSAL: the entry, ray or job that the step names; else the first entry that can enter, then the first ray
that can step, then the first job that owes its DONE. -/
def execRayTraversal (s : State) : Host.Outcome State Fault Refusal :=
  .next (match s.subject with
    | .ids id k _ =>
      match s.entries.find? (fun e => e.id == id && e.isTrav && s.heads e), s.nextRay (·.id == id),
        s.jobs.find? (fun j => j.e.id == id && s.jobDone j) with
      | some e, _, _ => s.enterRays e
      | none, some (j, r), _ => s.rayStep j r k
      | none, none, some j => s.finishJob j
      | none, none, none => s
    | _ =>
      match s.entries.find? (fun e => e.isTrav && s.heads e), s.nextRay (fun _ => true), s.jobs.find? s.jobDone with
      | some e, _, _ => s.enterRays e
      | none, some (j, r), _ => s.rayStep j r 0
      | none, none, some j => s.finishJob j
      | none, none, none => s)

/-! ## Verdicts (21 R362) -/

/-- The ray after a verdict: 0 ACCEPT, 1 IGNORE, 2 TERMINATE. -/
def Ray.answer (r : Ray) (o : Offer) (verdict b : Nat) : Ray :=
  let r := { r with offer := none, token := 0 }
  match o with
  | .hole part _ =>
    match verdict with
    | 0 => { r with todo := part :: r.todo }
    | 1 => r
    | _ => { r with todo := [], ended := some (if r.best.isSome then 1 else 0) }
  | .candidate kind h =>
    let h := if kind = 2 then { h with t := b } else h
    let top := match r.best with
      | some x => fpOrder x.t
      | none => fpOrder r.tmax
    let void := kind = 2 ∧ ((Num.fp32.decode b).isNan ∨ fpOrder b < fpOrder r.tmin ∨ top < fpOrder b)
    if verdict = 1 ∨ void then r else r.accept h (verdict == 2)

/-- TRES_ENTRY; an entry of q8 that no instruction has pushed meets BADDESC here. -/
def execTresEntry (s : State) : Host.Outcome State Fault Refusal :=
  .next (s.engineStep (fun e => e.q == 8 && !e.isTrav) fun e =>
    s.performEntry e false (do
      EM.require (!e.raw && e.bits 2 0 == 2 && decide (e.word 1 < 2 ^ 18) && e.bits 49 48 != 3)
      let s ← get
      let mine := s.rays.find? fun r =>
        r.token != 0 && r.token == e.bits 47 32 && s.jobs.any fun j => j.e.id == r.job && j.e.uid == e.uid
      match mine.bind (fun r => r.offer.map fun o => (r, o)) with
      | none => EM.fail 0x0C
      | some (r, o) => do
        EM.change fun s => s.mapRay r.id fun r => r.answer o (e.bits 49 48) (e.word 2)
        pure none))

/-! ## Continuations (21 R364, R365) -/

/-- A continuation record. -/
def recordBytes (j : RayJob) (w : WaveId) (r : Ray) (hit : Nat) : List Byte :=
  leBytes 32 hit ++ leBytes 8 (j.e.addr 5).toNat ++ leBytes 8 r.pay.length ++ leBytes 4 w.wg ++ leBytes 12 r.lane
    ++ ((r.pay.flatMap fun (x : Word) => leBytes 4 x.toNat) ++ List.replicate 192 0).take 192

/-- The lowest free slot of a pool. -/
def State.freePoolSlot (s : State) (b : Bin) : Option Nat :=
  (List.range b.nslot).find? fun k =>
    !s.batches.any fun x => x.tenant == b.tenant && x.pool == b.pool && x.slot == k

/-- May a bin's batch start? It holds 64 records or the time since its first record arrived is over, a slot is free, its
die runs, and the queue of the first record's entry is not stopped. -/
def State.binDue (s : State) (b : Bin) : Bool :=
  match b.records with
  | [] => false
  | first :: _ =>
    (decide (64 ≤ b.records.length) || decide (first.clock + 2 ^ b.fl ≤ s.dieClock b.die)) && (s.freePoolSlot b).isSome &&
    s.dieRuns b.die && !(s.jobs.any fun j => j.e.id == first.job && s.stopped j.e.uid 8)

/-- Same die, tenant, pool and resume PC. -/
def Bin.same (a b : Bin) : Bool := a.die == b.die && a.tenant == b.tenant && a.pool == b.pool && a.pc == b.pc

/-- Start a bin's batch: its records are written to a slot, with a release, and a wave is owed. A fault of the writes
is one of the first record's entry, whose rays stay unfinished. -/
def State.startBatch (s : State) (b : Bin) : State :=
  match s.freePoolSlot b, b.records with
  | some slot, first :: _ =>
    let now := b.records.take 64
    let later := b.records.drop 64
    let at_ := b.base + BitVec.ofNat 64 (16384 * slot)
    let gone (s : State) : State :=
      { s with
        rays := s.rays.filter fun r => !now.any fun x => x.ray == r.id
        bins := (s.bins.filter fun (x : Bin) => !x.same b) ++
          (if later = [] then [] else [{ b with records := later }]) }
    match s.jobs.find? (·.e.id == first.job) with
    | none => gone s
    | some j =>
      let p := s.diePort j.e
      let m : EM Unit := do
        for x in now.zipIdx do
          EM.write p .g (at_ + BitVec.ofNat 64 (256 * x.2)) x.1.bytes
        EM.release p .pkg
      match m.go s with
      | (.ok (), s) =>
        let s := gone s
        { s.bump with batches := s.batches ++
            [{ id := s.nextId, die := b.die, tenant := b.tenant, pool := b.pool, slot, at_, pc := b.pc, grids := now.map (·.grid) }] }
      | (.error f, s') => (s.undo s').jobFault j f.sub f.addr
  | _, _ => s

/-- A continuation ray that has ended and whose record is still to be made. -/
def State.endedCont (s : State) : Option (RayJob × Ray) :=
  s.rays.findSome? fun r =>
    if r.ended.isSome && !r.binned then
      (s.jobs.find? fun j => j.e.id == r.job && j.cont && s.waveRuns j.e.uid && !s.stopped j.e.uid 8).map fun j => (j, r)
    else none

/-- CONTINUATION_RECORD. -/
def execContinuationRecord (s : State) : Host.Outcome State Fault Refusal :=
  .next (match s.endedCont with
    | none => s
    | some (j, r) =>
      let w := (s.ctx j.e.uid).id
      let (s, free) := s.freeFields
      let bytes := recordBytes j w r (hitRecord (r.ended.getD 0) r.best r.va free)
      let x : BinRecord := { ray := r.id, job := j.e.id, grid := w.grid, clock := s.dieClock w.die, bytes }
      let new : Bin :=
        { die := w.die, tenant := w.tenant, pool := j.e.addr 3, base := j.base, nslot := j.nslot, fl := j.fl
          pc := j.e.addr 5, records := [x] }
      let b := match s.bins.find? (·.same new) with
        | some b => { b with records := b.records ++ [x] }
        | none => new
      let s := ({ s with bins := (s.bins.filter fun (y : Bin) => !y.same new) ++ [b] }).mapRay r.id fun r => { r with binned := true }
      if decide (64 ≤ b.records.length) && s.binDue b then s.startBatch b else s)

/-- BATCH_TIMEOUT: a bin whose time is over, or that was full while no slot was free, starts its batch. -/
def execBatchTimeout (s : State) : Host.Outcome State Fault Refusal :=
  .next (match s.bins.find? s.binDue with
    | some b => s.startBatch b
    | none => s)

/-! ## Sampling (21 R366, R367) -/

/-- A texture descriptor, with the size of the texture's elements. -/
structure Texture where
  base : Dword
  h : Nat
  w : Nat
  levels : Nat
  linear : Bool
  wrap : Bool
  ch : Nat
  size : Nat := 1
  deriving DecidableEq, Repr

/-- The format of texels in a page with an EFMT, none for an EFMT outside 0x06–0x13. -/
def texelFormat (efmt : Nat) : Option DType := if 6 ≤ efmt ∧ efmt ≤ 0x13 then DType.ofCode efmt else none

/-- The size E of a texture's elements. DEDUCED (log entry 42): it is that of the EFMT that the tables give the page of its
BASE, a hole's too, which no access asks for and which is no fault; where that names no format of texels, E is free. -/
def Texture.sized (x : Texture) (s : State) (tenant : Nat) : State × Texture :=
  let efmt := match (s.walk tenant x.base).2 with
    | .leaf l => l.efmt
    | _ => 0
  match texelFormat efmt with
  | some t => (s, { x with size := t.bytes })
  | none => ({ s with fresh := s.fresh + 1 }, { x with size := 2 ^ (Config.freeNat s.fresh % 4) })

def readTexture (p : Port) (a : Dword) : EM Texture := do
  EM.require (a.toNat % 64 == 0)
  let v ← EM.readNat p .g a 64
  let f := v / 2 ^ 96 % 256
  let c := v / 2 ^ 104 % 256
  EM.require (v / 2 ^ 112 == 0 && c / 4 == 0 && !f.testBit 5 && !f.testBit 7 && v % 256 == 0)
  let tx : Texture := { base := BitVec.ofNat 64 (dwordAt v 0), w := bitsOf v 79 64 + 1, h := bitsOf v 95 80 + 1
                        levels := f % 16 + 1, linear := f.testBit 4, wrap := f.testBit 6, ch := c % 4 + 1 }
  let (s, tx) := tx.sized (← get) p.w.tenant
  set s
  pure tx

def Texture.wAt (x : Texture) (l : Nat) : Nat := max 1 (x.w / 2 ^ l)
def Texture.hAt (x : Texture) (l : Nat) : Nat := max 1 (x.h / 2 ^ l)
/-- OFF of a level, for elements of n bytes. -/
def Texture.off (x : Texture) (n : Nat) : Nat → Nat
  | 0 => 0
  | l + 1 => x.off n l + (x.wAt l * x.hAt l * x.ch * n + 255) / 256 * 256

/-- The level of a lod. -/
def Texture.level (x : Texture) (lod : Nat) : Nat :=
  match Num.fp32.decode lod with
  | .fin e => if e.neg then 0 else min (e.scaled (-149) / 2 ^ 149).toNat (x.levels - 1)
  | .inf neg => if neg then 0 else x.levels - 1
  | .nan _ => 0

/-- A coordinate clamped to [−2^16, 2^16], in units of 2^−149. -/
def coordOf (z : Nat) : Int :=
  let lim : Int := 2 ^ 165
  match Num.fp32.decode z with
  | .fin e => max (-lim) (min lim (e.scaled (-149)))
  | .inf neg => if neg then -lim else lim
  | .nan _ => 0

/-- Round half to even of x / 2^149. -/
def rneInt (x : Int) : Int :=
  let q := x / 2 ^ 149
  let r := x % 2 ^ 149
  if r < 2 ^ 148 then q else if 2 ^ 148 < r then q + 1 else if q % 2 = 0 then q else q + 1

/-- The places and weights of one axis of n texels, weights in units of 1/256 (1 for the nearest). -/
def axisTaps (linear wrap : Bool) (z n : Nat) : List (Nat × Nat) :=
  let place (x : Int) : Nat := if wrap then (x % n).toNat else (max 0 (min x ((n : Int) - 1))).toNat
  if linear then
    let x := rneInt (coordOf z * n * 256) - 128
    let a := (x % 256).toNat
    [(place (x / 256), 256 - a), (place (x / 256 + 1), a)].filter (·.2 != 0)
  else [(place (coordOf z * n / 2 ^ 149), 256)]

/-- NX where the rounding of a coordinate to a 256th of a texel is inexact (04 R62, log entry 99); the nearest texel is a
floor, which rounds nothing. -/
def axisFlags (linear : Bool) (z n : Nat) : Num.Flags := if linear && coordOf z * n * 256 % 2 ^ 149 != 0 then Num.NX else 0

/-- The value of an element of a scalar format. -/
def elemValue (t : DType) (v : Nat) : Num.FVal :=
  match Num.fmtOf t with
  | some f => f.decode v
  | none => .fin (Num.Exact.ofInt (Num.ival t v))

/-- One texel of a channel: its value and whether it stands in a hole. Its one translation gives the format of its page and
the place of its bytes (06 R133); what a page whose elements have another size than the texture's holds there is free. -/
def readTexel (p : Port) (tx : Texture) (a : Dword) : EM (Num.FVal × Bool) := do
  let x ← EM.placeLine p .g .sampler a tx.size
  if x.holes != [] then pure (.fin { neg := false, mag := 0, exp := 0 }, true)
  else match texelFormat x.efmt with
    | none => EM.fail 3 a
    | some t => do
      let s ← get
      let (s, bs) := (s.strike p.w.tenant p.ag x.locs).readLocs p.ag x.uncached x.locs
      if t.bytes = tx.size then do
        set s
        pure (elemValue t (leNat bs), false)
      else do
        set { s with fresh := s.fresh + 1 }
        pure (elemValue t ((Config.freeWord s.fresh).toNat % 2 ^ t.bits), false)

/-- The four channels of one lane, and whether it missed. DEDUCED (log entry 42): a signalling NaN among u, v and lod sets no
status bit, since the canonical NaN is the result without a computation. -/
def sampleLane (p : Port) (tx : Texture) (u v lod : Nat) : EM (List Word × Bool) := do
  if [u, v, lod].any fun z => (Num.fp32.decode z).isNan then pure (List.replicate 4 (BitVec.ofNat 32 Num.fp32.nanCode), false)
  else do
    let l := tx.level lod
    let w := tx.wAt l
    let taps := (axisTaps tx.linear tx.wrap v (tx.hAt l)).flatMap fun y =>
      (axisTaps tx.linear tx.wrap u w).map fun x => (x.1, y.1, x.2 * y.2)
    let n := tx.size
    EM.status p ((axisFlags tx.linear u w ||| axisFlags tx.linear v (tx.hAt l)).setWidth 32)
    let mut out : List Word := []
    let mut missed := false
    for c in List.range 4 do
      if c < tx.ch then
        let mut sum : Num.FVal := .fin { neg := true, mag := 0, exp := 0 }
        let mut fl : Num.Flags := 0
        for t in taps do
          let a := tx.base + BitVec.ofNat 64 (tx.off n l + ((t.2.1 * w + t.1) * tx.ch + c) * n)
          let (x, m) ← readTexel p tx a
          let (y, f) := Num.FVal.mul (.fin { neg := false, mag := t.2.2, exp := -16 }) x
          let (z, g) := Num.FVal.add .rne sum y
          sum := z
          fl := fl ||| f ||| g
          missed := missed || m
        let r := Num.fp32.result {} sum fl
        EM.status p (r.fl.setWidth 32)
        out := out ++ [BitVec.ofNat 32 r.bits]
      else out := out ++ [if c = 3 then 0x3F800000 else 0]
    pure (out, missed)

/-- The q11 entry of a sample (21 R368). -/
def sampleData (mask missed : Mask) (seq : Word) (code : Nat) : BitVec 256 :=
  BitVec.ofNat 256 (mask.toNat + missed.toNat * 2 ^ 64 + seq.toNat * 2 ^ 128 + code * 2 ^ 160)

/-- SMPL_ENTRY; an entry of q10 pushed raw meets BADDESC. -/
def execSmplEntry (s : State) : Host.Outcome State Fault Refusal :=
  .next (
    match s.pickEntry fun e => e.q == 10 && s.canPost e with
    | some e => s.postResult e (e.post.getD 0)
    | none =>
      s.engineStep (fun e => e.q == 10 && e.post.isNone) fun e =>
        s.performEntry e false (do
          EM.require (!e.raw && e.bits 255 96 == 0)
          let p := { (← get).corePort e with seq := e.seq }
          let tx ← readTexture p (e.addr 1)
          let mut missed : Mask := 0
          let mut out : List (Nat × List Word) := []
          for x in e.latch do
            let z (k : Nat) : Nat := ((x.2).getD k 0).toNat
            let (cs, m) ← sampleLane p tx (z 0) (z 1) (z 2)
            out := out ++ [(x.1, cs)]
            if m then missed := missed ||| laneBit x.1
          EM.change fun s => { s with
            entries := s.entries.map fun (y : QEntry) => if y.id = e.id then { y with latch := out } else y }
          pure (some (sampleData e.mask missed e.seq 0))))

/-! ## What a dropped or discarded entry leaves (21 R371) -/

/-- Values that nothing states, for the lanes of a sample that was not taken. -/
def freeLatch (fresh : Nat) (ls : List (Nat × List Word)) : List (Nat × List Word) :=
  ls.zipIdx.map fun p =>
    (p.1.1, (List.range 4).map fun k => (Config.freeWord (fresh + 4 * p.2 + k)).setWidth 32)

/-- An entry of q8 leaves unperformed, or a job is given up: `dropped` says by ACTION 2 or as the faulting entry. An entry
whose OP is TRAV's posts its DONE even when it was pushed raw. -/
def State.travDropped (s : State) (e : QEntry) (dropped : Bool) : State :=
  let j := (s.jobs.find? (·.e.id == e.id)).getD { e }
  let s := (s.endRays e).dropEntry e.id
  if e.q == 8 && e.bits 2 0 == 0 then s.postDone j (if dropped then 1 else 15) else s

/-- An entry of q10 leaves unperformed: its SMPL entry is posted, which for a raw entry names no lane. -/
def State.smplDropped (s : State) (e : QEntry) (dropped : Bool) : State :=
  let latch := freeLatch s.fresh e.latch
  let s := { s with
    fresh := s.fresh + 4 * e.latch.length
    entries := s.entries.map fun (y : QEntry) => if y.id = e.id then { y with latch } else y }
  s.postResult { e with latch } (sampleData (if e.raw then 0 else e.mask) 0 e.seq (if dropped then 1 else 15))

/-- ACTION 1 for a job: every unfinished ray starts again, its record leaving its bin; unpopped tokens of the job leave
q9. -/
def State.restartJob (s : State) (id : Nat) : State :=
  match s.jobs.find? (·.e.id == id) with
  | none => s
  | some j =>
    let tokens := (s.raysOf id).map (·.token)
    { s.unbin id with
      rays := s.rays.map fun (r : Ray) => if r.job = id then { r.start j.root with binned := false } else r
      entries := s.entries.filter fun e =>
        !(e.uid == j.e.uid && e.q == 9 && e.bits 3 0 != 0 && tokens.contains (e.bits 31 16)) }

end Sys2Proof.Machine
end

