-- ==== Sys2Proof/Machine/Ashlar.lean ====
section
/-! DEFINITION. Ashlar: outlines to coverage, the instructions of major 0x32 and the entries of q12 (22 R372–R385). -/

namespace Sys2Proof.Machine

open Sys2Proof

/-! ## Commands at issue (22 R380–R382) -/

/-- The 32-byte entry of a command, with n parameter words. -/
def ashlarData (op : Nat) (w : Wave) (e : Ext) (n : Nat) : BitVec 256 :=
  BitVec.ofNat 256 (op + e.ty.code * 2 ^ 11 + e.x.toNat * 2 ^ 16 + (if n = 0 then 0 else paramWords w e.a n) * 2 ^ 32)

def surfaceOp (x : Nat) : Nat := x / 2 % 4
def surfaceSpace (x : Nat) : Space := Space.ofCode (x / 8 % 8)

/-- ASBEG: the first byte of the surface is checked for what OP needs. -/
def execAsbeg (e : Ext) (s : State) : Host.Outcome State Fault Refusal :=
  .next (s.command Form.asbeg e 12 fun i w sp =>
    let x : QEntry := { id := 0, uid := 0, q := 12, data := ashlarData 0 w e 6 }
    let op := surfaceOp e.x.toNat
    let space := surfaceSpace e.x.toNat
    let reads := if op = 0 then [] else [(space, Acc.engRead, x.addr 1)]
    match s.checkFirst w.id (reads ++ [(space, .engWrite, x.addr 1)]) with
    | (s, some f) => s.trapAt i f.cause f.sub 0 f.at_
    | (s, none) => s.push i w sp 12 x)

/-- A scalar ASSEG. -/
def State.segment (s : State) (e : Ext) : State :=
  s.command Form.asseg e 12 fun i w sp => s.push i w sp 12 { id := 0, uid := 0, q := 12, data := ashlarData 1 w e 6 }

def execAssegMove (e : Ext) (s : State) : Host.Outcome State Fault Refusal := .next (s.segment e)
def execAssegLine (e : Ext) (s : State) : Host.Outcome State Fault Refusal := .next (s.segment e)
def execAssegQuad (e : Ext) (s : State) : Host.Outcome State Fault Refusal := .next (s.segment e)
def execAssegCubic (e : Ext) (s : State) : Host.Outcome State Fault Refusal := .next (s.segment e)
/-- The vector form latches eight words of each acting lane. -/
def execAssegV (e : Ext) (s : State) : Host.Outcome State Fault Refusal :=
  .next (s.command Form.asseg e 12 fun i w sp =>
    let m := w.acting sp e.k
    let words (l : Nat) : List Word := (List.range 8).map fun j => w.getV (regNo e.a + j) l
    s.push i w sp 12
      { id := 0, uid := 0, q := 12, data := ashlarData 1 w e 0, mask := m, latch := (lanesOf m).map fun l => (l, words l) })

def execAsend (e : Ext) (s : State) : Host.Outcome State Fault Refusal :=
  .next (s.command (Form.qOnly 12) e 12 fun i w sp => s.push i w sp 12 { id := 0, uid := 0, q := 12, data := ashlarData 2 w e 0 })
def execAsdrn (e : Ext) (s : State) : Host.Outcome State Fault Refusal :=
  .next (s.command (Form.qOnly 12) e 12 fun i w sp => s.push i w sp 12 { id := 0, uid := 0, q := 12, data := ashlarData 3 w e 0 })
/-- ASSTAT: bits [127:0] of the head of q13 (22 R383). -/
def execAsstat (e : Ext) (s : State) : Host.Outcome State Fault Refusal :=
  .next (s.popWords (Form.popNb 13 4 4) e 13 4 (e.x.getLsbD 0))

/-! ## From segments to a chain (22 R374, R375)

Control points are kept in half units, so that the control of rule 2 is exact. -/

abbrev Pt := Int × Int
def Pt.sub (a b : Pt) : Pt := (a.1 - b.1, a.2 - b.2)
def Pt.cross (a b : Pt) : Int := a.1 * b.2 - a.2 * b.1

/-- Do all points lie on one line? -/
def collinear : List Pt → Bool
  | [] => true
  | p :: rest =>
    let ds := rest.map fun q => Pt.sub q p
    ds.all fun a => ds.all fun b => Pt.cross a b == 0

/-- The control points that stand for a segment. -/
def simplify (ps : List Pt) : List Pt :=
  if collinear ps then [ps.headD (0, 0), ps.getLast?.getD (0, 0)]
  else
    match ps with
    | [p0, p1, p2, p3] =>
      if 3 * (p1.1 - p2.1) = p0.1 - p3.1 ∧ 3 * (p1.2 - p2.2) = p0.2 - p3.2 then
        [p0, ((3 * p1.1 - p0.1) / 2, (3 * p1.2 - p0.2) / 2), p3]
      else ps
    | _ => ps

/-- floor(2^16 × n / d), for d not zero. -/
def cutLinear (n d : Int) : Int := if 0 < d then 65536 * n / d else 65536 * (-n) / (-d)

/-- floor(2^16 × root) of a t² + b t + c = 0, for each real root. -/
def cutRoots (a b c : Int) : List Int :=
  if a = 0 then (if b = 0 then [] else [cutLinear (-c) b])
  else
    let (a, b, c) := if a < 0 then (-a, -b, -c) else (a, b, c)
    let disc := b * b - 4 * a * c
    if disc < 0 then []
    else
      let m := (65536 * 65536 * disc).toNat
      let lo := Num.isqrt m
      let hi := if lo * lo = m then lo else lo + 1
      [(-b * 65536 - hi) / (2 * a), (-b * 65536 + lo) / (2 * a)]

/-- The parameters at which one coordinate turns, in units of 2^−16. -/
def turns (cs : List Int) : List Int :=
  match cs with
  | [a, b, c] => cutRoots 0 (a - 2 * b + c) (b - a)
  | [a, b, c, d] => cutRoots (-a + 3 * b - 3 * c + d) (2 * (a - 2 * b + c)) (b - a)
  | _ => []

/-- Put a number into a rising list, once. -/
def addCut (xs : List Nat) (x : Nat) : List Nat :=
  xs.filter (· < x) ++ x :: xs.filter (fun y => decide (x < y))

/-- The cuts of a curve, with its ends. -/
def cutsOf (ps : List Pt) : List Nat :=
  ((turns (ps.map (·.1)) ++ turns (ps.map (·.2))).filter fun k => decide (0 < k ∧ k < 65536)).foldl
    (fun xs k => addCut xs k.toNat) [0, 65536]

/-- The depth n: the least with g·D ≤ 64·4^n, at most 10; D is in half units here. -/
def depthFrom (gd : Nat) : Nat → Nat → Nat
  | 0, n => n
  | f + 1, n => if gd ≤ 128 * 4 ^ n then n else depthFrom gd f (n + 1)

def depthOf (ps : List Pt) : Nat :=
  let second (a b c : Pt) : Nat := max (a.1 - 2 * b.1 + c.1).natAbs (a.2 - 2 * b.2 + c.2).natAbs
  match ps with
  | [a, b, c] => depthFrom (second a b c) 10 0
  | [a, b, c, d] => depthFrom (3 * max (second a b c) (second b c d)) 10 0
  | _ => 0

/-- n / m rounded half to even, for m > 0. -/
def rneDiv (n : Int) (m : Nat) : Int :=
  let q := n / m
  let r := n % m
  if 2 * r < m then q else if (m : Int) < 2 * r then q + 1 else if q % 2 = 0 then q else q + 1

/-- One coordinate of B(t/s) in units of 2^−8, from control coordinates in half units. -/
def bezier (cs : List Int) (t s : Nat) : Int :=
  let u : Int := (s : Int) - t
  let t : Int := t
  match cs with
  | [a, b, c] => rneDiv (u * u * a + 2 * t * u * b + t * t * c) (2 * s * s)
  | [a, b, c, d] => rneDiv (u * u * u * a + 3 * t * u * u * b + 3 * t * t * u * c + t * t * t * d) (2 * s * s * s)
  | _ => 0

/-- The chain vertices of a segment. -/
def chainOf (ps : List Pt) : List Pt :=
  match simplify ps with
  | [a, b] => [(a.1 / 2, a.2 / 2), (b.1 / 2, b.2 / 2)]
  | cs =>
    let n := depthOf cs
    let cuts := cutsOf cs
    let s := 65536 * 2 ^ n
    let ts := (cuts.zip (cuts.drop 1)).flatMap fun p =>
      (List.range (2 ^ n)).map fun k => p.1 * 2 ^ n + (p.2 - p.1) * k
    (ts ++ [s]).map fun t => (bezier (cs.map (·.1)) t s, bezier (cs.map (·.2)) t s)

/-! ## Coverage (22 R377) -/

/-- The multiples of 256 strictly between two numbers, from the first to the second. -/
def between (a b : Int) : List Int :=
  if a ≤ b then
    let k := a / 256 + 1
    (List.range ((b + 255) / 256 - k).toNat).map fun (j : Nat) => 256 * (k + (j : Int))
  else
    let k := (a + 255) / 256 - 1
    (List.range (k - b / 256).toNat).map fun (j : Nat) => 256 * (k - (j : Int))

/-- The crossings of a chord, each with its parameter as a ratio of natural numbers. -/
def crossings (a b : Pt) : List (Nat × Nat × Pt) :=
  let dx := b.1 - a.1
  let dy := b.2 - a.2
  let at_ (x p d : Int) (q e : Int) : Int :=
    -- q + (x − p)·e/d, rounded down
    let n := (x - p) * e
    q + (if 0 < d then n / d else (-n) / (-d))
  (between a.1 b.1).map (fun x => ((x - a.1).natAbs, dx.natAbs, (x, at_ x a.1 dx a.2 dy)))
  ++ (between a.2 b.2).map (fun y => ((y - a.2).natAbs, dy.natAbs, (at_ y a.2 dy a.1 dx, y)))

/-- Put a crossing in its place by parameter. -/
def addCrossing (xs : List (Nat × Nat × Pt)) (x : Nat × Nat × Pt) : List (Nat × Nat × Pt) :=
  xs.takeWhile (fun y => decide (y.1 * x.2.1 ≤ x.1 * y.2.1)) ++ x
    :: xs.dropWhile (fun y => decide (y.1 * x.2.1 ≤ x.1 * y.2.1))

/-- The pieces of a chord. -/
def piecesOf (a b : Pt) : List (Pt × Pt) :=
  let vs := a :: (((crossings a b).foldl addCrossing []).map (·.2.2)) ++ [b]
  vs.zip (vs.drop 1)

/-- Accumulate one piece. -/
def Path.addPiece (p : Path) (q : Pt × Pt) : Path :=
  let dy := q.2.2 - q.1.2
  let j := min q.1.2 q.2.2 / 256
  let i := min q.1.1 q.2.1 / 256
  if dy = 0 ∨ j < p.y0 ∨ (p.y0 + p.h : Nat) ≤ j ∨ (p.x0 + p.w : Nat) ≤ i then p
  else
    let left : Int := 256 * p.x0
    let (i, xa, xb) : Int × Int × Int := if i < p.x0 then (p.x0, left, left) else (i, q.1.1, q.2.1)
    let key := 4096 * j.toNat + i.toNat
    let (area, cover) := SMap.read (0, 0) p.cells key
    { p with cells := SMap.insert p.cells key (area + dy * (512 * (i + 1) - xa - xb) / 2, cover + 256 * dy) }

/-- Accumulate a chain. -/
def Path.addChain (p : Path) (vs : List Pt) : Path :=
  (vs.zip (vs.drop 1)).foldl (fun p c => (piecesOf c.1 c.2).foldl Path.addPiece p) p

/-- Close the open subpath. -/
def Path.close (p : Path) : Path :=
  match p.point with
  | some (start, cur) => { p.addChain [cur, start] with point := none }
  | none => p

/-- Double a point. -/
def half (a : Pt) : Pt := (2 * a.1, 2 * a.2)

/-- The accumulators of row j, pixel by pixel from column X0, modulo 2^32. -/
def Path.rowFrom (p : Path) (j : Nat) : Nat → Nat → Int → List Nat
  | 0, _, _ => []
  | n + 1, i, cover =>
    let (a, c) := SMap.read (0, 0) p.cells (4096 * j + i)
    ((a + cover) % 2 ^ 32).toNat :: p.rowFrom j n (i + 1) (cover + c)

def Path.row (p : Path) (j : Nat) : List Nat :=
  if p.cells.any fun c => c.1 / 4096 == j then p.rowFrom j p.w p.x0 0 else List.replicate p.w 0

/-! ## Coverage to surface (22 R378, R379, R384) -/

def fullCover : Nat := 0x10000

/-- v of an accumulator under the winding rule. -/
def coverage (evenOdd : Bool) (c : Nat) : Nat :=
  if evenOdd then
    let m := c % 0x20000
    if m ≤ fullCover then m else 0x20000 - m
  else min (Num.sval 32 c).natAbs fullCover

/-- The new element: STORE, ADD, MAX. -/
def compositeElem (op u full e : Nat) : Nat :=
  match op with
  | 0 => u
  | 1 => min (e + u) full
  | _ => max e u

def Path.elem (p : Path) : Nat := if p.wide then 4 else 1
/-- The address of element k of the window, row by row. -/
def Path.addr (p : Path) (k : Nat) : Dword :=
  p.base + BitVec.ofNat 64 (k / p.w * p.pitch + k % p.w * p.elem)

def State.mapPath (s : State) (uid : Nat) (f : Path → Path) : State :=
  { s with paths := s.paths.map fun p => if p.uid = uid then f p else p }

/-- Update one element in one atomic step with one translation (06 R133); in a sparse hole nothing is written. -/
def updateElem (pt : Port) (p : Path) (k : Nat) (op : Nat) (f : Nat → Nat) : EM Unit := do
  let sp := Space.ofCode p.space
  let a := p.addr k
  let x ← EM.placeLine pt sp (if op = 0 then .engWrite else .engUpdate) a p.elem
  let s ← get
  let s := if op = 0 then s.strikeStore pt.w.tenant x.locs else s.strike pt.w.tenant pt.ag x.locs
  let s := s.drillEngine pt 6 a x (beyond := true)
  let s := if x.holes = [] then
      (s.atomic pt.ag x.uncached x.locs fun o => some (leBytes p.elem (f (leNat o)))).1
    else s
  set (s.mapPath p.uid fun p => { p with next := k + 1, pixels := p.pixels + (if x.holes = [] then 1 else 0) })

/-- The elements of a row from element k on, until no more may be updated in this step; answers how many may still be.
`one` gives the update of an element, none where there is none; those before `next` have been done. -/
def compositeElems (one : Nat → Nat → Option (EM Unit)) (next : Nat) : Nat → List Nat → Option Nat → EM (Option Nat)
  | _, [], left => pure left
  | k, c :: cs, left =>
    if left = some 0 then pure left
    else if k < next then compositeElems one next (k + 1) cs left
    else
      match one k c with
      | none => compositeElems one next (k + 1) cs left
      | some m => do
        m
        compositeElems one next (k + 1) cs (left.map (· - 1))

/-- The elements of some rows, from the element at which a composite resumes. -/
def compositeRows (p : Path) (one : Nat → Nat → Option (EM Unit)) : List Nat → Option Nat → EM (Option Nat)
  | [], left => pure left
  | r :: rest, left =>
    if left = some 0 then pure left
    else do
      let left ← compositeElems one p.next (r * p.w) (p.row (p.y0 + r)) left
      compositeRows p one rest left

/-- ASEND's composite. -/
def composite (pt : Port) (p : Path) (limit : Option Nat) : EM (Option Nat) :=
  compositeRows p (fun k c =>
    let v := coverage p.rule c
    let u := if p.wide then v else (v * 255 + 0x8000) / 2 ^ 16
    let full := if p.wide then fullCover else 255
    if v != 0 then some (updateElem pt p k p.op (compositeElem p.op u full)) else none) (List.range p.h) limit

/-- ASDRN's drain. -/
def drainPath (pt : Port) (p : Path) (limit : Option Nat) : EM (Option Nat) :=
  compositeRows p (fun k c => some (updateElem pt p k 0 fun _ => c)) (List.range p.h) limit

/-! ## Entries (22 R380–R385) -/

def ashlarX (e : QEntry) : Nat := e.bits 22 16
/-- A coordinate within the tile. -/
def coordOk (x : Nat) : Bool := decide (x ≤ 0x100000)

/-- What an entry's fields must be, else BADDESC; a raw vector ASSEG has no latched points. -/
def ashlarForm (op : Nat) : Option Form :=
  match op with
  | 0 => some Form.asbeg
  | 1 => some Form.asseg
  | 2 | 3 => some (Form.qOnly 12)
  | _ => none

/-- Words that a segment's kind uses beyond its first two. -/
def segmentWords (kind : Nat) : Nat :=
  match kind with
  | 0 | 1 => 2
  | 2 => 4
  | _ => 6

def ashlarOk (e : QEntry) : Bool :=
  let vector := e.bits 2 0 == 1 && (ashlarX e).testBit 2
  (match ashlarForm (e.bits 2 0) with
   | some f =>
     entryFits 12 (if vector then { f with a := .ofV .seg } else f) e && !e.data.getLsbD 31 && e.bits 10 3 == 0
   | none => false)
  && match e.bits 2 0 with
     | 0 =>
       let size := if e.bits 15 11 = 0x0C then 4 else 1
       let x0 := e.bits 140 128
       let y0 := e.bits 156 144
       let w := e.bits 172 160
       let h := e.bits 188 176
       (e.addr 1).toNat % size == 0 && e.word 3 % size == 0 && decide (e.word 3 < 2 ^ 24 ∧ w * size ≤ e.word 3)
       && e.bits 143 141 == 0 && e.bits 159 157 == 0 && e.bits 175 173 == 0 && e.bits 191 189 == 0 && e.bits 255 192 == 0
       && decide (x0 < 4096 ∧ y0 < 4096 ∧ 1 ≤ w ∧ 1 ≤ h ∧ x0 + w ≤ 4096 ∧ y0 + h ≤ 4096)
     | 1 =>
       let kind := ashlarX e % 4
       if vector then
         !e.raw && e.bits 255 32 == 0 &&
         e.latch.all fun x => (x.2.take (2 * kind + 2)).all fun c => coordOk c.toNat
       else
         let n := segmentWords kind
         ((List.range n).all fun k => coordOk (e.word (k + 1))) && (if n = 6 then e.word 7 == 0 else e.bits 255 (32 * (n + 1)) == 0)
     | _ => e.bits 255 32 == 0

/-- The open path of a wave. -/
def State.pathOf (s : State) (uid : Nat) : Option Path := s.paths.find? fun p => p.uid == uid

/-- Paths whose wave has retired and has no entry left are discarded. -/
def State.tidyPaths (s : State) : State :=
  { s with paths := s.paths.filter fun p => s.alive p.uid || s.entries.any fun e => e.uid == p.uid && e.q == 12 }

/-- Do a core's 8 paths keep an ASBEG waiting? -/
def State.pathsFull (s : State) (e : QEntry) : Bool :=
  decide (8 ≤ (s.tidyPaths.paths.filter fun p => (s.ctx p.uid).id.pcore == (s.ctx e.uid).id.pcore).length)

def ashlarOp (op : Nat) (e : QEntry) : Bool := e.q == 12 && e.post.isNone && e.bits 2 0 == op

/-- PATHSEQ. -/
def pathSeq : Nat := 0x0E
/-- CELLFULL is found before the path changes. -/
def EM.cellsFit (p : Path) : EM Unit := EM.require (decide (p.cells.length ≤ 262144)) 0x0F

def EM.setPath (p : Path) : EM Unit := modify fun s => s.mapPath p.uid fun _ => p

/-- ASBEG_ENTRY. -/
def execAsbegEntry (s : State) : Host.Outcome State Fault Refusal :=
  .next (s.engineStep (fun e => ashlarOp 0 e && (!ashlarOk e || (s.pathOf e.uid).isSome || !s.pathsFull e)) fun e =>
    s.performEntry e true (do
      EM.require (ashlarOk e)
      EM.require (s.pathOf e.uid).isNone pathSeq
      let x := ashlarX e
      let p : Path :=
        { uid := e.uid, base := e.addr 1, pitch := e.word 3, x0 := e.bits 140 128, y0 := e.bits 156 144, w := e.bits 172 160
          h := e.bits 188 176, rule := x.testBit 0, op := surfaceOp x, space := x / 8, wide := e.bits 15 11 == 0x0C }
      EM.change fun s => let s := s.tidyPaths; { s with paths := s.paths ++ [p] }
      pure none))

/-- The points of a scalar segment: word k of the entry is a coordinate. -/
def segmentPoints (e : QEntry) (n : Nat) : List Pt :=
  (List.range n).map fun k => ((e.word (2 * k + 1) : Int), (e.word (2 * k + 2) : Int))

/-- The points of a latched segment. -/
def latchedPoints (ws : List Word) (n : Nat) : List Pt :=
  (List.range n).map fun k => (((ws.getD (2 * k) 0).toNat : Int), ((ws.getD (2 * k + 1) 0).toNat : Int))

/-- ASSEG_ENTRY. -/
def execAssegEntry (s : State) : Host.Outcome State Fault Refusal :=
  .next (s.engineStep (ashlarOp 1) fun e =>
    s.performEntry e true (do
      EM.require (ashlarOk e)
      match s.pathOf e.uid with
      | none => EM.fail pathSeq
      | some p =>
        let kind := ashlarX e % 4
        if (ashlarX e).testBit 2 then do
          let p := e.latch.foldl (fun (p : Path) x => p.addChain (chainOf ((latchedPoints x.2 (kind + 1)).map half))) p
          EM.cellsFit p
          EM.setPath p
        else if kind = 0 then do
          let p := p.close
          EM.cellsFit p
          let c := (segmentPoints e 1).headD (0, 0)
          EM.setPath { p with point := some (c, c) }
        else
          match p.point with
          | none => EM.fail pathSeq
          | some (start, cur) => do
            let ps := cur :: segmentPoints e kind
            let p := p.addChain (chainOf (ps.map half))
            EM.cellsFit p
            EM.setPath { p with point := some (start, ps.getLast?.getD cur) }
      pure none))

/-- A status entry (22 R383). -/
def statusData (e : QEntry) (code pixels cells : Nat) : BitVec 256 :=
  BitVec.ofNat 256 (e.bits 2 0 + code * 2 ^ 24 + e.seq.toNat * 2 ^ 32 + cells * 2 ^ 64 + pixels * 2 ^ 96)

/-- The work of a composite or a drain: all elements, or as many as may be updated in one step. -/
abbrev PathWork := Port → Path → Option Nat → EM (Option Nat)

/-- How many elements a step of a composite updates: all, or as many as its subject says, since composites of different
waves interleave per element in any order (22 R384). -/
def State.elementLimit (s : State) : Option Nat :=
  match s.subject with
  | .ids _ k _ => if k = 0 then none else some k
  | _ => none

/-- CELLFULL of a composite, which stands behind every fault of its accesses (22 R385). -/
def EM.cellsOr (p : Path) (work : EM (Option Nat)) : EM Unit := do
  if 262144 < p.cells.length then
    let s ← get
    let (r, s') := work.go s
    set (s.undo s')
    match r with
    | .error f => throw f
    | .ok _ => EM.fail 0x0F

/-- The end of a path: it is closed, its elements are written, and its status is to be posted; none while elements are
left. -/
def State.pathWork (s : State) (e : QEntry) (ok : Path → Bool) (work : PathWork) (limit : Option Nat) : EM Answer := do
  EM.require (ashlarOk e)
  match s.pathOf e.uid with
  | none => EM.fail pathSeq
  | some p => do
    EM.require (ok p)
    let p := p.close
    EM.cellsOr p (work (s.corePort e) p none)
    EM.setPath p
    let left ← work (s.corePort e) p limit
    if left = some 0 then pure none
    else do
      let s ← get
      let pixels := ((s.pathOf e.uid).map (·.pixels)).getD 0
      set { s with paths := s.paths.filter fun x => x.uid != e.uid }
      pure (some (statusData e 0 pixels p.cells.length))

/-- Go on with the end of a path: an entry with elements left stays at the head of its queue. -/
def State.endPath (s : State) (e : QEntry) (ok : Path → Bool) (work : PathWork) : State :=
  match s.elementLimit with
  | none => s.performEntry e true (s.pathWork e ok work none)
  | some n =>
    match (s.pathWork e ok work (some n)).go s with
    | (.ok none, s') => s'
    | _ => s.performEntry e true (s.pathWork e ok work (some n))

/-- ASEND_ENTRY. -/
def execAsendEntry (s : State) : Host.Outcome State Fault Refusal :=
  .next (s.engineStep (ashlarOp 2) fun e => s.endPath e (fun _ => true) composite)

/-- ASDRN_ENTRY; an entry whose OP names no command of q12 meets BADDESC here. -/
def execAsdrnEntry (s : State) : Host.Outcome State Fault Refusal :=
  .next (s.engineStep (fun e => ashlarOp 3 e || (e.q == 12 && e.post.isNone && decide (4 ≤ e.bits 2 0))) fun e =>
    s.endPath e (fun p => p.wide) drainPath)

/-- ASHLAR_STATUS_POST: a status that waited for room in q13 is posted. -/
def execAshlarStatusPost (s : State) : Host.Outcome State Fault Refusal := .next (s.postWaiting 12)

/-- An entry of q12 leaves its queue unperformed, with the SUB that dropped it, or 0xFF when it is discarded: a
composite ends its path, with what it has written standing, and posts its status. -/
def State.ashlarDropped (s : State) (e : QEntry) (code : Nat) : State :=
  let op := e.bits 2 0
  if op = 2 ∨ op = 3 then
    let (pixels, cells) := match s.pathOf e.uid with
      | some p => (p.pixels, p.cells.length)
      | none => (0, 0)
    ({ s with paths := s.paths.filter fun x => x.uid != e.uid }).postResult e (statusData e code pixels cells)
  else s.dropEntry e.id

end Sys2Proof.Machine
end

