-- ==== Sys2Proof/Machine/Grids.lean ====
section
/-! DEFINITION. Kernel, choice and dictionary descriptors as the launch engine reads them, launch errors, and the start
and end of a grid of a node (03 R53, 17 R305, 23 R386–R390, R400). -/

namespace Sys2Proof.Machine

open Sys2Proof

/-! ## Launch errors (23 R387, R388, R400) -/

def lBadKd : Nat := 1
def lBadKind : Nat := 2
def lBadChd : Nat := 3
def lNoFit : Nat := 4
def lBadNode : Nat := 5
def lGraphOvf : Nat := 6
def lReset : Nat := 7
def lFault : Nat := 8

/-- A launch error writes LERR when CODE is 0, else sets OVF; in both cases the error vector is raised. -/
def State.launchError (s : State) (t node code : Nat) : State :=
  let s := s.mapTenant t fun x =>
    if x.lerrCode = 0 then { x with lerrNode := node, lerrCode := code } else { x with lerrOvf := true }
  s.raiseVec t (s.tenant t).errvec

/-- GDROP counts a dropped message, saturating. -/
def State.countDrop (s : State) (t : Nat) : State :=
  s.mapTenant t fun x => { x with gdrop := if x.gdrop = 0xFFFFFFFF then x.gdrop else x.gdrop + 1 }

/-- The hubs' access on behalf of a tenant. -/
def tenantPort (t : Nat) : Port := { ag := .hub, w := { tenant := t }, die := hubDie, fb := 0xFF, seq := 0 }

/-! ## Descriptors -/

/-- No bit of a number from lo to hi is set. -/
def clearBits (v hi lo : Nat) : Bool := bitsOf v hi lo == 0

/-- The fields of a kernel descriptor (23 R386). -/
def kernelOf (v : Nat) : KernelDesc :=
  { entry := BitVec.ofNat 64 v, consta := BitVec.ofNat 64 (v / 2 ^ 64), constn := bitsOf v 159 128
    dictn := bitsOf v 170 160, dicta := BitVec.ofNat 64 (v / 2 ^ 192), chda := BitVec.ofNat 64 (v / 2 ^ 256)
    vregs := 8 * (bitsOf v 324 320 + 1), sregs := bitsOf v 335 328, nargs := bitsOf v 341 336
    lanesz := bitsOf v 360 352, coresz := bitsOf v 375 368, quadsz := bitsOf v 383 376, nwaves := bitsOf v 390 384
    quadwg := v.testBit 391, gang := v.testBit 392, cor := v.testBit 393, idemp := v.testBit 394
    prio := bitsOf v 396 395, macc := bitsOf v 399 397, diemask := BitVec.ofNat 8 (v / 2 ^ 400), compat := v.testBit 408 }

/-- The entry of a dictionary table: its words and its control word (03 R51). -/
def tableEntry (bs : List Byte) : List Word × Word :=
  let word (i : Nat) : Word := BitVec.ofNat 32 (leNat ((bs.drop (4 * i)).take 4))
  ([word 0, word 1, word 2], word 3)

/-- The table's entries, 16 bytes each. -/
def tableOf : Nat → List Byte → List (List Word × Word)
  | 0, _ => []
  | n + 1, bs => tableEntry (bs.take 16) :: tableOf n (bs.drop 16)

/-- May a control word's selector patch the entry's form (03 R52)? -/
def selApplies (sel major : Nat) (x96 : Bool) (classes : Nat) : Bool :=
  match sel with
  | 0 => true
  | 1 | 2 => !x96 && decide (7 ≤ major ∧ major ≤ 11)
  | 3 | 4 | 5 => !x96 && decide (1 ≤ major ∧ major ≤ 6)
  | 6 | 7 | 8 | 9 => x96 && decide (classes / 4 ^ (sel - 6) % 4 ≤ 1)
  | _ => false

/-- Does the loader accept a table entry (03 R53)? The classes of D, A, B and C stand in word 2 from bit 0 up. DESIGN CHOICE
(log entry 77): words 1 and 2 of a one-word entry may hold anything, and majors 0x3F and 0x1F minor 1 are refused whatever
LEN is. -/
def entryOk (x : List Word × Word) : Bool :=
  let w0 := (x.1.headD 0).toNat
  let ctl := x.2.toNat
  let major := bitsOf w0 7 2
  let x96 := ctl.testBit 6
  clearBits ctl 31 7 && w0 % 4 == x96.toNat && selApplies (ctl % 64) major x96 (((x.1[2]?).getD 0).toNat % 256) &&
  !([0x18, 0x19, 0x3F] : List Nat).contains major && !(major == 0x1F && bitsOf w0 15 8 == 1)

/-- BADKD (23 R387). -/
def badKernel (v : Nat) (k : KernelDesc) : Bool :=
  !(clearBits v 1023 409 && clearBits v 367 361 && clearBits v 351 342 && clearBits v 327 325 && clearBits v 191 171) ||
  decide (4 < k.macc ∨ 256 < k.lanesz ∨ 128 < k.coresz ∨ 128 < k.quadsz ∨ 32 < k.nargs ∨ k.sregs < k.nargs ∨
    128 < k.sregs ∨ 1024 < k.dictn) ||
  k.entry.toNat % 4 != 0 || k.consta.toNat % 16 != 0 || k.dicta.toNat % 16 != 0 || !k.table.all entryOk

/-- BADKIND. -/
def badKind (k : KernelDesc) : Bool :=
  (k.gang && k.quadwg) || (k.quadsz != 0 && !k.quadwg) ||
  !(if k.quadwg then decide (4 ≤ k.nwaves ∧ k.nwaves ≤ 64 ∧ k.nwaves % 4 = 0)
    else decide (1 ≤ k.nwaves ∧ k.nwaves ≤ if k.gang then 32 else 16))

/-- The fields of a choice descriptor (17 R305). -/
def choiceOf (v : Nat) : ChoiceDesc :=
  { key := BitVec.ofNat 64 v, rkey := BitVec.ofNat 64 (v / 2 ^ 64), ckey := BitVec.ofNat 64 (v / 2 ^ 128)
    reca := BitVec.ofNat 64 (v / 2 ^ 192), srca := BitVec.ofNat 64 (v / 2 ^ 256), muta := BitVec.ofNat 64 (v / 2 ^ 320)
    rqa := BitVec.ofNat 64 (v / 2 ^ 384), rqn := bitsOf v 511 480, nslot := bitsOf v 543 512
    rmode := bitsOf v 565 564, cmp := bitsOf v 567 566, recording := v.testBit 568, listMap := v.testBit 569 }

/-- Is a choice descriptor refused (17 R305)? -/
def badChoice (v : Nat) (c : ChoiceDesc) : Bool :=
  !(clearBits v 1023 570 && clearBits v 563 544 && clearBits v 479 448) ||
  c.rmode == 3 || (c.cmp != 0 && (c.rmode == 0 || !c.recording)) || (c.listMap && c.rmode == 0) ||
  c.rqa.toNat % 64 != 0 || c.srca.toNat % 64 != 0 || c.reca.toNat % 64 != 0 ||
  c.muta.toNat % (if c.listMap then 64 else 128) != 0 || decide (2 ^ 24 < c.rqn)

/-! ## Nodes as numbers of 64 bytes (23 R388) -/

/-- n bytes of a node from byte b up. -/
def nodeField (raw b n : Nat) : Nat := raw / 2 ^ (8 * b) % 2 ^ (8 * n)
def nodeType (raw : Nat) : Nat := raw % 16
def nodeNext (raw : Nat) : Nat := nodeField raw 1 3
/-- The index that names no node. -/
def noNode : Nat := 0xFFFFFF
def nodeAddr (gbase : Dword) (node : Nat) : Dword := gbase + BitVec.ofNat 64 (64 * node)

/-- The key of a node's state: its tenant and its address. -/
def nodeKey (t : Nat) (gbase : Dword) (node : Nat) : Nat := t * 2 ^ 64 + (nodeAddr gbase node).toNat

/-- A release reaches the walker (23 R389): in arrival order, those of one clock in ascending node index. -/
def insertRelease (r : Release) : List Release → List Release
  | [] => [r]
  | x :: rest =>
    if x.tenant = r.tenant ∧ x.clock = r.clock ∧ r.node < x.node then r :: x :: rest else x :: insertRelease r rest

/-- Release a node; no node does nothing. -/
def State.releaseNode (s : State) (t : Nat) (gbase : Dword) (node : Nat) (fired : Option (List Word) := none) : State :=
  if node = noNode then s
  else { s with releases := insertRelease { tenant := t, gbase, node, fired, clock := s.clock } s.releases }

/-! ## Can a grid ever fit (23 R398) -/

/-- Waves and slots of a workgroup on each of its cores. -/
def KernelDesc.coreWaves (k : KernelDesc) : Nat := if k.quadwg then k.nwaves / 4 else k.nwaves
def KernelDesc.coreSlots (k : KernelDesc) : Nat := if k.gang then (k.nwaves + 1) / 2 else k.coreWaves

/-- The queue minimums of one wave of a tenant (01 R13). -/
def State.waveMin (s : State) (t : Nat) : Nat :=
  (List.range 16).foldl (fun n q => n + (actingQpol (s.tenant t).qpol q).2) 0

/-- How many workgroups an empty core can hold. -/
def State.emptyCap (s : State) (t : Nat) (k : KernelDesc) : Nat :=
  let n := k.coreWaves
  let needs : List (Nat × Nat) :=
    [(n, Config.slots), (k.vregs * k.coreSlots, Config.vectorFile), (n * 1024 * k.lanesz, Config.sliceBytes),
     (k.coresz, 128), (k.quadsz, 128), (k.macc, 4), (n * s.waveMin t, Config.poolEntries)]
  needs.foldl (fun c x => if x.1 = 0 then c else min c (x.2 / x.1)) Config.slots

/-- A die that the dispatchers count among a grid's (23 R386, 25 R414). -/
def State.dieOf (s : State) (k : KernelDesc) (d : Nat) : Bool :=
  (k.diemask == 0 || k.diemask.getLsbD d) && s.mgmt.ready.getLsbD (3 + d)

/-- The first cores of the places for a workgroup on a die, lowest first, none of them fenced (25 R429). -/
def State.diePlaces (s : State) (k : KernelDesc) (d : Nat) : List Nat :=
  if k.quadwg then
    ((List.range 48).map fun q => Config.coresPerDie * d + 4 * q).filter fun c =>
      !(List.range 4).any fun i => s.mgmt.fencedCores.contains (c + i)
  else
    ((List.range Config.coresPerDie).map fun i => Config.coresPerDie * d + i).filter fun c =>
      !s.mgmt.fencedCores.contains c

/-- Can all workgroups of a grid be resident at once, with nothing else resident? -/
def State.couldFit (s : State) (t : Nat) (k : KernelDesc) (nwg : Nat) : Bool :=
  let places := ((List.range Config.dies).filter (s.dieOf k)).foldl (fun n d => n + (s.diePlaces k d).length) 0
  decide (nwg ≤ places * s.emptyCap t k)

/-! ## The start of a grid (23 R387, R390) -/

/-- What the launch engine reads at a grid's start. -/
structure Sources where
  kv : Nat
  chda : Dword
  chv : Nat
  args : List Word
  head : Nat
  table : List (List Word × Word)
  deriving DecidableEq, Repr

/-- Every read of a start: they come before any condition is judged. -/
def readSources (t raw : Nat) : EM Sources := do
  let p := tenantPort t
  let kv ← EM.readNat p .g (BitVec.ofNat 64 (nodeField raw 8 8)) 128
  let k := kernelOf kv
  let chd := if nodeType raw = 5 then nodeField raw 44 8 else 0
  let chda := if chd = 0 then k.chda else BitVec.ofNat 64 chd
  let chv ← if chda = 0 ∨ chda.toNat % 128 ≠ 0 then pure 0 else EM.readNat p .g chda 128
  let arga := nodeField raw 16 8
  EM.acquire p .pkg
  let args ← if arga = 0 then pure (List.replicate k.nargs (0 : Word)) else do
    let bs ← EM.read p .g (BitVec.ofNat 64 arga) (4 * k.nargs)
    pure ((List.range k.nargs).map fun i => BitVec.ofNat 32 (leNat ((bs.drop (4 * i)).take 4)))
  let c := choiceOf chv
  let head ← if nodeType raw = 5 ∧ c.listMap then EM.readNat p .g c.muta 4 else pure 0
  let bs ← if k.dictn ≤ 1024 ∧ k.dicta.toNat % 16 = 0 then EM.read p .g k.dicta (16 * k.dictn) else pure []
  pure { kv, chda, chv, args, head, table := if bs = [] then [] else tableOf k.dictn bs }

/-- Geyser's argument words take the place of the first ones (23 R394). -/
def firedArgs (args : List Word) (fired : Option (List Word)) : List Word :=
  match fired with
  | some f => f.take args.length ++ args.drop f.length
  | none => args

/-- The launch error that a start's sources give, if any. -/
def State.startError (s : State) (t raw : Nat) (x : Sources) (k : KernelDesc) (c : ChoiceDesc) (nwg : Nat) : Option Nat :=
  if badKernel x.kv k then some lBadKd
  else if badKind k then some lBadKind
  else if x.chda.toNat % 128 ≠ 0 || badChoice x.chv c || (nodeType raw == 5 && !c.listMap) then some lBadChd
  else if k.cor && !s.couldFit t k nwg then some lNoFit
  else none

/-- The workgroups of a grid. -/
def countOf (raw : Nat) (x : Sources) (k : KernelDesc) (c : ChoiceDesc) : Nat :=
  if nodeType raw = 5 then
    let lanes := (if k.gang then 32 else 64) * k.nwaves
    (min x.head c.rqn + lanes - 1) / lanes
  else nodeField raw 24 4

/-- Start a grid from a LAUNCH or RELAUNCH node; answers whether it was accepted. -/
def State.startGrid (s : State) (t : Nat) (gbase : Dword) (node raw : Nat) (fired : Option (List Word)) : State × Bool :=
  match (readSources t raw).go s with
  | (.error _, s) => (s.launchError t node lFault, false)
  | (.ok x, s) =>
    let k := { kernelOf x.kv with table := x.table }
    let c := choiceOf x.chv
    let nwg := countOf raw x k c
    match s.startError t raw x k c nwg with
    | some code => (s.launchError t node code, false)
    | none =>
      let g : Grid :=
        { id := s.nextId, tenant := t, gbase, node, next := nodeNext raw, kd := k, cd := c, args := firedArgs x.args fired, nwg
          eva := BitVec.ofNat 64 (nodeField raw 28 8), evval := BitVec.ofNat 32 (nodeField raw 36 4)
          evw := BitVec.ofNat 4 (nodeField raw 40 1), irq := BitVec.ofNat 4 (nodeField raw 40 1 / 16)
          vec := nodeField raw 41 1 % 64 }
      ({ s.bump with grids := SMap.insert s.grids g.id g }, true)

/-- A node that runs no grid takes its first start that is accepted; the others have ended with their errors. -/
def State.runNode (s : State) (t : Nat) (gbase : Dword) (node : Nat) : List (Nat × Option (List Word)) → State
  | [] =>
    let key := nodeKey t gbase node
    { s with nodes := SMap.write {} s.nodes key { SMap.read {} s.nodes key with running := false, held := [] } }
  | (raw, fired) :: rest =>
    match s.startGrid t gbase node raw fired with
    | (s, true) =>
      let key := nodeKey t gbase node
      { s with nodes := SMap.write {} s.nodes key { SMap.read {} s.nodes key with running := true, held := rest } }
    | (s, false) => s.runNode t gbase node rest

/-- A grid leaves; its node stops running and takes a held start. -/
def State.endGrid (s : State) (g : Grid) : State :=
  let held := (SMap.read {} s.nodes (nodeKey g.tenant g.gbase g.node)).held
  ({ s with grids := SMap.erase s.grids g.id }).runNode g.tenant g.gbase g.node held

end Sys2Proof.Machine
end

