-- ==== Sys2Proof/Machine/Placement.lean ====
section
/-! DEFINITION. The dispatchers: where a workgroup fits, its placement and start, its retirement, the completion tree,
and pre-emption with its resets (05 R109, 10 R241–R243, 23 R398–R401). -/

namespace Sys2Proof.Machine

open Sys2Proof

/-! ## What a core holds (01 R13, 06 R110, 07 R137, 15 R275) -/

def State.coreWaves (s : State) (c : Nat) : List Wave := (s.waves.map (·.2)).filter fun w => w.id.pcore == c

/-- Does a workgroup stand on a core? -/
def Group.on (g : Group) (c : Nat) : Bool := if g.kd.quadwg then g.core / 4 == c / 4 else g.core == c

def State.groupsOn (s : State) (c : Nat) : List Group := (s.groups.map (·.2)).filter fun g => g.on c

/-- The sum of a measure. -/
def total {α : Type} (f : α → Nat) (xs : List α) : Nat := xs.foldl (fun n x => n + f x) 0

/-- The slots that waves take, each once. -/
def slotsOf (ws : List Wave) : List Nat := (ws.map (·.id.slot)).eraseDups

/-- The free slots of a core, lowest first. -/
def State.freeSlots (s : State) (c : Nat) : List Nat :=
  let used := slotsOf (s.coreWaves c)
  (List.range Config.slots).filter fun i => !used.contains i

/-- Vector registers in use: a slot's halves share its allocation (07 R145). -/
def regsOf (ws : List Wave) : Nat :=
  total (fun i => ((ws.find? fun w => w.id.slot == i).map (·.a)).getD 0) (slotsOf ws)

/-- The tables of a core that a resident wave uses (03 R53). -/
def State.tablesUsed (s : State) (c : Nat) : List DictTab :=
  (s.dicts.filter fun d => d.core == c).filter fun d =>
    (s.coreWaves c).any fun w =>
      let k := (s.group w.id.group).kd
      k.dictn != 0 && w.id.tenant == d.tenant && k.dicta == d.addr && k.table == d.entries

/-- A core's copy of a kernel's table. -/
def KernelDesc.isTable (k : KernelDesc) (t c : Nat) (d : DictTab) : Bool :=
  d.core == c && d.tenant == t && d.addr == k.dicta && d.entries == k.table

/-- Does a workgroup's part fit a core (23 R398)? -/
def State.fitsCore (s : State) (t : Nat) (k : KernelDesc) (c : Nat) : Bool :=
  let ws := s.coreWaves c
  let gs := (s.groupsOn c).filter (·.live)
  let n := k.coreWaves
  decide (ws.length + n ≤ Config.slots) &&
  decide ((slotsOf ws).length + k.coreSlots ≤ Config.slots) &&
  decide (regsOf ws + k.vregs * k.coreSlots ≤ Config.vectorFile) &&
  decide (total (fun w => 1024 * (s.group w.id.group).kd.lanesz) ws + n * 1024 * k.lanesz ≤ Config.sliceBytes) &&
  decide (total (·.kd.coresz) gs + k.coresz ≤ 128) &&
  decide (total (·.kd.quadsz) ((s.groups.map (·.2)).filter fun g => g.live && g.core / 4 == c / 4) + k.quadsz ≤ 128) &&
  decide (total (·.kd.macc) gs + k.macc ≤ 4) &&
  decide (n * s.waveMin t ≤ s.poolFree c) &&
  (k.dictn == 0 || s.dicts.any (k.isTable t c) || decide ((s.tablesUsed c).length < 4))

/-- The cores of a workgroup whose first core is c. -/
def KernelDesc.cores (k : KernelDesc) (c : Nat) : List Nat := if k.quadwg then (List.range 4).map (c + ·) else [c]

/-- A die has taken the command of D4. DESIGN CHOICE (log entry 3): nothing is placed there any longer, since its state, which no
resident wave's may be, is lost. -/
def State.goesOff (s : State) (d : Nat) : Bool :=
  let p : PState := SMap.read {} s.mgmt.pstate d
  p.busy && p.cmd == 4

/-- The lowest place for a workgroup on a die. -/
def State.findPlace (s : State) (t : Nat) (k : KernelDesc) (d : Nat) : Option Nat :=
  if s.dieOf k d && s.dieRuns d && !s.goesOff d then
    (s.diePlaces k d).find? fun c => (k.cores c).all (s.fitsCore t k)
  else none

/-! ## Windows -/

/-- The lowest start of n places that meets none of the ranges, each a start and an end. -/
def firstGap (used : List (Nat × Nat)) (n : Nat) : Nat :=
  let ok (b : Nat) : Bool := used.all fun u => decide (b + n ≤ u.1 ∨ u.2 ≤ b)
  let starts := (used.map (·.2)).filter ok
  if n = 0 ∨ ok 0 then 0 else starts.foldl min (starts.headD 0)

/-- The ranges that a measure of the workgroups on some cores takes. -/
def State.windowRanges (s : State) (cs : List Nat) (base size : Group → Nat) : List (Nat × Nat) :=
  (((s.groups.map (·.2)).filter fun g => cs.any g.on).filter fun g => size g != 0).map fun g => (base g, base g + size g)

/-- Bytes of the lane slices of a workgroup on each core. -/
def KernelDesc.sliceBytes (k : KernelDesc) : Nat := k.coreWaves * k.lanesz * 1024

/-- Zero a workgroup's windows and tiles: what earlier stores still owe the places lands first (06 R110, 15 R275), and what
poison stood there is replaced (25 R428). -/
def State.zeroWindows (s : State) (g : Group) : State :=
  let k := g.kd
  let s := (k.cores g.core).foldl State.drainLq s
  let s := s.moveAll (·.cb) State.moveCb fun e => e.loc.k == .qm && e.own / 4 == g.core / 4
  let qm := g.core / 4 * Config.placeSpan + g.qmBase
  let s := { s.cleanse .qm qm (k.quadsz * 4096) with qm := Memory.zero s.qm qm (k.quadsz * 4096) }
  (k.cores g.core).foldl
    (fun s c =>
      let key := tileKey g c 0
      let s := (s.cleanse .sp (c * Config.placeSpan + g.spBase) (k.coresz * 4096)).cleanse .slice
        (c * Config.placeSpan + g.sliceBase) k.sliceBytes
      { s.cleanseTiles key (k.macc * 4096) with
        sp := Memory.zero s.sp (c * Config.placeSpan + g.spBase) (k.coresz * 4096)
        slice := Memory.zero s.slice (c * Config.placeSpan + g.sliceBase) k.sliceBytes
        tiles := SMap.replaceRange s.tiles key (key + k.macc * 4096) [] }) s

/-! ## Waves (02 R28, 07 R134, R145, 17 R307) -/

/-- A wave's registers at its start. -/
def startWave (id : WaveId) (k : KernelDesc) (args : List Word) (members : Mask) (pc : Dword) : Wave :=
  let w : Wave := { id, a := k.vregs, b := k.sregs, prio := k.prio, splits := [(0, { pc, members })] }
  (args.take k.sregs).zipIdx.foldl (fun w x => w.setS x.2 x.1) w

/-- A wave becomes resident; a build at its start carries 0 as its SITE (17 R322). -/
def State.addWave (s : State) (w : Wave) (cd : ChoiceDesc) : State :=
  let cursor := (w.id.wg * w.id.nwaves + w.id.wave) * w.id.width % 2 ^ 32
  let w := { w with cursor := BitVec.ofNat 32 cursor, born := s.clock, qpol := (s.tenant w.id.tenant).qpol }
  let s := (s.bump.setWave w.id.key w).setCtx w.id.uid { id := w.id, b := w.b, cd }
  s.startThreads w.id cursor 0 0

/-- The identity of wave i of a workgroup, with the next serial number. -/
def State.waveId (s : State) (g : Group) (i ngrid : Nat) (slots : List (Nat × List Nat)) : WaveId :=
  let k := g.kd
  let c := if k.quadwg then g.core + i % 4 else g.core
  let j := if k.quadwg then i / 4 else if k.gang then i / 2 else i
  { uid := s.nextId, tenant := g.tenant, die := g.die, core := c % Config.coresPerDie
    slot := ((SMap.read [] slots c)[j]?).getD 0, gang := if k.gang then 1 + i % 2 else 0, grid := g.grid, group := g.id
    wg := g.wg, wave := i, nwaves := k.nwaves, ngrid }

/-! ## Placement (23 R398, R399) -/

/-- The instances of the completion tree that hold a workgroup. -/
def Group.instances (g : Group) : List Nat :=
  g.kd.cores g.core ++ [2000 + g.core / 4, 3000 + g.die, 4000]

/-- Count a workgroup of a grid up or down in its instances. -/
def addTo (m : SMap Nat) (ks : List Nat) : SMap Nat := ks.foldl (fun m k => SMap.insert m k (SMap.read 0 m k + 1)) m
def takeFrom (m : SMap Nat) (ks : List Nat) : SMap Nat := ks.foldl (fun m k => SMap.write 0 m k (SMap.read 0 m k - 1)) m

def State.mapGrid (s : State) (id : Nat) (f : Grid → Grid) : State :=
  match SMap.find s.grids id with
  | some g => { s with grids := SMap.insert s.grids id (f g) }
  | none => s

/-- A kernel's table becomes resident on a core, in the place of one that no wave uses if need be. -/
def State.loadTable (s : State) (t : Nat) (k : KernelDesc) (c : Nat) : State :=
  if k.dictn = 0 || s.dicts.any (k.isTable t c) then s
  else
    let used := s.tablesUsed c
    let here := s.dicts.filter fun d => d.core == c
    let idle := here.filter fun d => !used.contains d
    let kept := if here.length < 4 then here else used ++ idle.drop (here.length - 3)
    { s with dicts := (s.dicts.filter fun d => d.core != c) ++ kept ++
        [{ core := c, tenant := t, addr := k.dicta, entries := k.table }] }

/-- The workgroup's record, with the lowest free places for its windows. -/
def State.newGroup (s : State) (g : Grid) (k : KernelDesc) (wg c : Nat) (batch : Option Nat) : Group :=
  let cs := k.cores c
  { id := s.nextId, grid := g.id, tenant := g.tenant, wg, die := c / Config.coresPerDie, core := c, kd := k
    spBase := firstGap (s.windowRanges cs (·.spBase) (·.kd.coresz * 4096)) (k.coresz * 4096)
    qmBase := firstGap (s.windowRanges ((List.range 4).map (c / 4 * 4 + ·)) (·.qmBase) (·.kd.quadsz * 4096)) (k.quadsz * 4096)
    tileBase := firstGap (s.windowRanges cs (·.tileBase) (·.kd.macc)) k.macc
    sliceBase := firstGap (s.windowRanges cs (·.sliceBase) (·.kd.sliceBytes)) k.sliceBytes
    idemp := k.idemp, batch }

/-- Zero, acquire at pkg scope, and make a workgroup's record resident. -/
def State.openGroup (s : State) (x : Group) : State :=
  let s := (x.kd.cores x.core).foldl (fun s c => s.loadTable x.tenant x.kd c) s
  let s := s.zeroWindows x
  let s := (x.kd.cores x.core).foldl (fun s c => s.acquire (.wave c) .pkg) s
  ({ s.bump with groups := SMap.insert s.groups x.id x }).mapGrid x.grid fun g =>
    { g with open_ := addTo g.open_ x.instances }

/-- The tenants that a time slice gave way to, less one that has placed a workgroup (23 R401). -/
def State.hasPlaced (s : State) (t : Nat) : State :=
  { s with tenants := s.tenants.map fun (p : Nat × Tenant) =>
      (p.1, { p.2 with yieldTo := p.2.yieldTo.map fun l => l.filter (· != t) }) }

/-- Place workgroup wg of a grid with its first core at c, and start its waves. -/
def State.placeAt (s : State) (g : Grid) (wg c : Nat) : State :=
  let k := g.kd
  let slots := (k.cores c).map fun c => (c, s.freeSlots c)
  let x := s.newGroup g k wg c none
  let s := s.openGroup x
  let s := (List.range k.nwaves).foldl
    (fun s i =>
      let id := s.waveId x i g.nwg slots
      s.addWave (startWave id k g.args id.full k.entry) g.cd) s
  (s.mapGrid g.id fun g =>
    if g.again.contains wg then { g with again := g.again.erase wg } else { g with placed := g.placed + 1 }).hasPlaced g.tenant

/-- The kernel descriptor that a continuation batch's workgroup of one wave runs with (21 R365). Its wave has 64 lanes, for
up to 64 records, also where GANG is set (log entry 41). -/
def batchKernel (k : KernelDesc) : KernelDesc :=
  { k with quadwg := false, quadsz := 0, nwaves := 1, cor := false, gang := false }

/-- Place a continuation batch: one wave at the resume PC with the slot's address and the count in s0 to s2; its %wg
is stated nowhere, and one that was discarded keeps it (10 R243). -/
def State.placeBatch (s : State) (g : Grid) (b : Batch) (c : Nat) : State :=
  let k := batchKernel g.kd
  let slots := [(c, s.freeSlots c)]
  let wg := b.wg.getD ((Config.freeWord s.fresh).toNat % 2 ^ 32)
  let s := { s with fresh := s.fresh + 1 }
  let x := s.newGroup g k wg c (some b.id)
  let s := s.openGroup x
  let id := s.waveId x 0 g.nwg slots
  let args := [b.at_.setWidth 32, (b.at_ >>> 32).setWidth 32, BitVec.ofNat 32 b.grids.length] ++ g.args.drop 3
  let members := id.full &&& BitVec.ofNat 64 (2 ^ b.grids.length - 1)
  let s := s.addWave (startWave id k args members b.pc) g.cd
  ({ s with batches := s.batches.map fun (y : Batch) => if y.id = b.id then { y with placed := true } else y }).hasPlaced g.tenant

/-- Workgroups that a grid has still to place, ascending. -/
def Grid.left (g : Grid) : Bool := decide (g.placed < g.nwg) || g.again != []
def Grid.nextWg (g : Grid) : Nat := (g.again ++ if g.placed < g.nwg then [g.placed] else []).foldl min (g.again.headD g.placed)

/-- The grid at a tenant's turn: the highest priority, then the grid started first. -/
def State.headGrid (s : State) (t : Nat) : Option Grid :=
  ((s.grids.map (·.2)).filter fun g => g.tenant == t && g.left).foldl
    (fun best g => match best with
      | some b => if b.kd.prio < g.kd.prio then some g else best
      | none => some g) none

/-- Place the rest of a grid, each workgroup at the lowest place of the lowest die, or nothing. -/
def State.placeAll (s : State) (id : Nat) : Nat → Option State
  | 0 => some s
  | n + 1 =>
    match SMap.find s.grids id with
    | none => none
    | some g =>
      match (List.range Config.dies).findSome? (s.findPlace g.tenant g.kd) with
      | none => none
      | some c => (s.placeAt g g.nextWg c).placeAll id n

/-- One placement of a tenant on a die, if it has one: a continuation batch of the die stands before the grids of its
priority. -/
def State.tryPlace (s : State) (d t : Nat) : Option State :=
  let x := s.tenant t
  if !x.en || x.state != .run then none
  else
    let h := s.headGrid t
    let b := (s.batches.filter fun b => b.tenant == t && b.die == d && !b.placed).findSome? fun b =>
      (SMap.find s.grids (b.grids.headD 0)).map fun g => (b, g)
    let batchFirst : Bool := match h, b with
      | some g, some (_, y) => decide (g.kd.prio ≤ y.kd.prio)
      | none, some _ => true
      | _, none => false
    match batchFirst, b, h with
    | true, some (b, g), _ => (s.findPlace t (batchKernel g.kd) d).map fun c => s.placeBatch g b c
    | _, _, some g =>
      if g.kd.cor then
        if (s.findPlace t g.kd d).isSome then s.placeAll g.id (g.nwg - g.placed + g.again.length) else none
      else (s.findPlace t g.kd d).map fun c => s.placeAt g g.nextWg c
    | _, _, none => none

/-- The workgroups of a tenant that a placement has put on a die: a co-resident grid counts with all that it put there,
also on another die where it is the tenant's turn. -/
def State.placedOn (s s' : State) (d t : Nat) : Nat :=
  let on (s : State) : Nat := ((s.groups.map (·.2)).filter fun g => g.live && g.tenant == t && g.die == d).length
  on s' - on s

/-- The placement whose turn it is on a die (23 R398): the tenant in turn places up to WEIGHT workgroups. -/
def State.placeOn (s : State) (d : Nat) : Option State :=
  let (t0, n) := SMap.read (0, 0) s.turns d
  let wt := max 1 (s.tenant t0).weight
  let order : List (Nat × Nat) :=
    (if n < wt then [(t0, n)] else []) ++ ((List.range 64).map fun i => ((t0 + 1 + i) % 64, 0))
  order.findSome? fun x => (s.tryPlace d x.1).map fun (s' : State) =>
    (List.range Config.dies).foldl
      (fun (s' : State) e =>
        let (t, m) := if e = d then x else SMap.read (0, 0) s.turns e
        if t = x.1 ∧ (e = d ∨ s.placedOn s' e t ≠ 0) then
          { s' with turns := SMap.insert s'.turns e (t, m + s.placedOn s' e t) }
        else s') s'

/-- A placement on the die that the step names, or on the lowest die that has one. -/
def State.nextPlacement (s : State) : Option State :=
  match s.subject with
  | .ids d _ _ => if d < Config.dies then s.placeOn d else none
  | _ => (List.range Config.dies).findSome? s.placeOn

/-- WORKGROUP_PLACE. -/
def execWorkgroupPlace (s : State) : Host.Outcome State Fault Refusal := .next (s.nextPlacement.getD s)

/-! ## Retirement (05 R109, 23 R399) -/

/-- Is a wave's record still needed by what it pushed? -/
def State.ctxBusy (s : State) (uid : Nat) : Bool :=
  s.entries.any (fun e => e.uid == uid) || s.ls.any (fun e => e.uid == uid) || s.ops.any (fun o => o.uid == uid) ||
  s.jobs.any (fun j => j.e.uid == uid)

/-- Forget the waves that have exited and whose work is done, and then the workgroups that nothing names. -/
def State.tidy (s : State) : State :=
  let s := { s with ctxs := s.ctxs.filter fun p => p.2.live || s.ctxBusy p.1 }
  { s with groups := s.groups.filter fun p => p.2.live || s.ctxs.any fun c => c.2.id.group == p.1 }

/-- The workgroups whose last wave has exited and whose stores are performed, on a die whose clock runs. -/
def State.retirable (s : State) (g : Group) : Bool :=
  g.live && s.dieRuns g.die && s.waves.all (fun p => p.2.id.group != g.id) && s.ls.all fun e => (s.ctx e.uid).id.group != g.id

/-- The record of a workgroup that is no longer resident; a batch's slot is free and its records are done. -/
def State.closeGroup (s : State) (g : Group) : State :=
  let s := { s with
    groups := SMap.insert s.groups g.id { g with live := false, idemp := false }
    barriers := s.barriers.filter fun b => b.owner != g.id * 2 }
  match g.batch with
  | none => s
  | some id =>
    let grids := (s.batches.filter fun b => b.id == id).flatMap (·.grids)
    ({ s with batches := s.batches.filter fun b => b.id != id }).recordsGone grids

/-- The bit of an instance's level in EVW and IRQ, and its place in the event area. -/
def eventPlace (k : Nat) : Nat × Nat :=
  if k < 2000 then (0, 8 * k)
  else if k < 3000 then (1, 12288 + 8 * (k - 2000))
  else if k < 4000 then (2, 15360 + 8 * (k - 3000))
  else (3, 15424)

/-- Does an event word stand in host memory? The look-up is no access: it sets no A or D and fills no TLB. -/
def State.hostWord (s : State) (tenant : Nat) (a : Dword) : Bool :=
  match (s.hubLocs tenant .engWrite a 8).2 with
  | some ls => ls.any fun l => l.k == .m && paKind l.a == .host
  | none => false

/-- Will the completion of an instance that holds a workgroup write host memory or raise an interrupt (05 R109, 23 R399)? -/
def State.hostEvent (s : State) (g : Grid) (x : Group) : Bool :=
  x.instances.any fun k =>
    let (bit, off) := eventPlace k
    g.irq.getLsbD bit || g.evw.getLsbD bit && s.hostWord g.tenant (g.eva + BitVec.ofNat 64 off)

/-- WORKGROUP_RETIRE. -/
def execWorkgroupRetire (s : State) : Host.Outcome State Fault Refusal :=
  .next (match (s.groups.map (·.2)).find? (fun g => s.retirable g && match s.subject with
      | .ids id _ _ => g.id == id
      | _ => true) with
    | none => s
    | some g =>
      let sys := s.hostEvent (s.grid g.grid) g
      let s := (g.kd.cores g.core).foldl (fun s c => s.release (.wave c) (if sys then .sys else .pkg)) s
      let s := s.mapGrid g.grid fun x =>
        { x with open_ := takeFrom x.open_ g.instances, retired := addTo x.retired g.instances }
      (s.closeGroup g).tidy)

/-! ## Completion (23 R399) -/

/-- Everything of a grid is placed and no record waits. -/
def Grid.allPlaced (g : Grid) : Bool := !g.left && g.records == 0

/-- The next instance of a grid to complete: the cores, then the quads, the dies, and the package. -/
def Grid.nextInstance (g : Grid) : Option Nat :=
  if !g.allPlaced then none
  else
    let keys := (g.retired.map (·.1)).filter (· != 4000) ++ [4000]
    keys.find? fun k => !g.done.contains k && SMap.read 0 g.open_ k == 0 && (k != 4000 || g.open_ == [])

/-- Write an instance's event, and raise its vector; a write that faults is a launch error and nothing more. -/
def State.event (s : State) (g : Grid) (k : Nat) : State :=
  let (bit, off) := eventPlace k
  let s := if g.evw.getLsbD bit then
      let v := SMap.read 0 g.retired k * 2 ^ 32 + g.evval.toNat
      match (EM.write (tenantPort g.tenant) .g (g.eva + BitVec.ofNat 64 off) (leBytes 8 v)).go s with
      | (.ok (), s) => s
      | (.error _, s) => s.launchError g.tenant g.node lFault
    else s
  if g.irq.getLsbD bit then (s.release .hub .sys).raiseVec g.tenant g.vec else s

/-- COMPLETION_EVENT: with the package's event the grid ends and NEXT is released. -/
def execCompletionEvent (s : State) : Host.Outcome State Fault Refusal :=
  .next (match (s.grids.map (·.2)).findSome? (fun g => match s.subject with
      | .ids id _ _ => if g.id = id then g.nextInstance.map fun k => (g, k) else none
      | _ => g.nextInstance.map fun k => (g, k)) with
    | none => s
    | some (g, k) =>
      let s := (s.event g k).mapGrid g.id fun g => { g with done := g.done ++ [k] }
      if k = 4000 then (s.releaseNode g.tenant g.gbase g.next).endGrid g else s)

/-! ## Removal (10 R242, R243) -/

/-- A pair of FAO requests holds one of some entries. -/
def State.pairsOf (s : State) (uids : List Nat) : Bool :=
  s.ls.any fun e => uids.contains e.uid && e.comb != []

/-- Pairs whose old values have returned give them out; the others separate. -/
def State.dissolve : Nat → State → State
  | 0, s => { s with combs := [], ls := s.ls.map fun (e : LsEntry) => { e with comb := [] } }
  | n + 1, s =>
    match s.combs.find? fun c => c.old.isSome with
    | some c => (s.combineReturn c).dissolve n
    | none => { s with combs := [], ls := s.ls.map fun (e : LsEntry) => { e with comb := [] } }

/-- Remove waves with all that stands for them: their queue entries, unperformed accesses and results. -/
def State.removeUids (s : State) (uids : List Nat) : State :=
  let gone (u : Nat) : Bool := uids.contains u
  let s := if s.pairsOf uids then s.dissolve (2 * s.combs.length) else s
  let dead := ((s.entries.filter fun e => gone e.uid).map (·.id)) ++ ((s.jobs.filter fun j => gone j.e.uid).map (·.e.id))
  { s with
    waves := s.waves.filter fun p => !gone p.2.id.uid
    ctxs := s.ctxs.filter fun p => !gone p.1
    entries := s.entries.filter fun e => !gone e.uid
    ls := s.ls.filter fun e => !gone e.uid
    ops := s.ops.filter fun o => !gone o.uid
    fences := s.fences.filter fun f => !gone f.uid
    stops := s.stops.filter fun x => !gone x.uid
    tokens := s.tokens.filter fun t => !gone t.uid
    xswaps := s.xswaps.filter fun x => !gone x.uid
    paths := s.paths.filter fun p => !gone p.uid
    joins := s.joins.filter fun j => !j.members.any dead.contains
    jobs := s.jobs.filter fun j => !gone j.e.uid
    rays := s.rays.filter fun r => !dead.contains r.job }

/-- Complete the instances of a grid one after another, each with its event (23 R399). -/
def State.finishInstances (id : Nat) : Nat → State → State
  | 0, s => s
  | n + 1, s =>
    match (s.grid id).nextInstance with
    | some k => ((s.event (s.grid id) k).mapGrid id fun g => { g with done := g.done ++ [k] }).finishInstances id n
    | none => s

/-- A grid that lost workgroups for good: they count as discarded in its instances, which complete when every workgroup
had been placed; the grid ends with RESET and releases no successor (23 R399, R401). -/
def State.resetGrid (s : State) (g : Grid) : State :=
  let s := s.mapGrid g.id fun x =>
    { x with
      retired := x.open_.foldl (fun m p => SMap.insert m p.1 (SMap.read 0 m p.1)) x.retired
      open_ := [], records := 0 }
  let s := s.finishInstances g.id (g.retired.length + g.open_.length + 1)
  (s.launchError g.tenant g.node lReset).endGrid g

/-- A forced reset of a context (10 R242, 23 R401): every wave and everything that waits for its engines goes; a grid
that lost a workgroup, or a record that was to run, ends with RESET. -/
def State.forcedReset (s : State) (t : Nat) : State :=
  let mine := (s.ctxs.map (·.2)).filter fun c => c.id.tenant == t
  let s := s.removeUids (mine.map (·.id.uid))
  let lost := (s.grids.map (·.2)).filter fun g => g.tenant == t && (g.open_ != [] || g.records != 0)
  let keys := ((s.groups.map (·.2)).filter fun g => g.tenant == t).map fun g => g.id * 2
  let s := { s with
    bins := s.bins.filter fun b => b.tenant != t
    batches := s.batches.filter fun b => b.tenant != t
    groups := s.groups.filter fun p => p.2.tenant != t
    barriers := s.barriers.filter fun b => !keys.contains b.owner && !lost.any fun g => b.owner == g.id * 2 + 1 }
  lost.foldl State.resetGrid s

/-- The context error of a forced reset. -/
def resetError (t : Nat) (cause : BitVec 8) (sub : BitVec 8) : CtxError := { tenant := t, cause, sub }

/-- May a pre-empted workgroup be discarded now: it holds IDEMP, and none of its waves is halted, traps, runs a handler
or holds an event (10 R231, R243)? DESIGN CHOICE (log entry 87): a workgroup with a halted wave is kept, and ends in the
reset of its context (10 R241). -/
def State.discardable (s : State) (g : Group) : Bool :=
  g.live && g.idemp && (s.tenant g.tenant).state == .drain &&
  (s.waves.map (·.2)).all fun w => w.id.group != g.id ||
    (w.trap.isNone && w.shadow.isNone && w.heldTraps == [] && w.engFaults == [] && !w.haltReq && !w.halted)

/-- Discard a workgroup: it is placed again later with the same %wg; a batch goes back to its slot's waiting wave. -/
def State.discardGroup (s : State) (g : Group) : State :=
  let uids := ((s.ctxs.map (·.2)).filter fun c => c.id.group == g.id).map (·.id.uid)
  let s := s.removeUids uids
  let s := s.mapGrid g.grid fun x =>
    { x with open_ := takeFrom x.open_ g.instances, again := if g.batch.isSome then x.again else x.again ++ [g.wg] }
  { s with
    groups := SMap.erase s.groups g.id
    barriers := s.barriers.filter fun b => b.owner != g.id * 2
    batches := s.batches.map fun (b : Batch) => if g.batch = some b.id then { b with placed := false, wg := some g.wg } else b }

/-! ## Pre-emption (10 R241, 23 R401) -/

def State.resident (s : State) (t : Nat) : Bool := (s.groups.map (·.2)).any fun g => g.live && g.tenant == t

/-- The tenant of a step's subject, or the first of which a condition holds. -/
def State.pickTenant (s : State) (p : Nat → Bool) : Option Nat :=
  match s.subject with
  | .ids t _ _ => if t < 64 && p t then some t else none
  | _ => (List.range 64).find? p

/-- Pre-emption starts: the context drains, the deadline timer runs, and the workgroups that still hold IDEMP are
discarded, but for those that a trap, a handler or a held event of a wave keeps for now. -/
def State.startDrain (s : State) (t : Nat) (yieldTo : Option (List Nat)) : State :=
  let s := s.mapTenant t fun x => { x with state := .drain, deadline := some x.dead.toNat, yieldTo }
  ((s.groups.map (·.2)).filter fun g => g.tenant == t && s.discardable g).foldl State.discardGroup s

/-- PREEMPT: no effect in DRAIN or STOPPED. -/
def execPreempt (s : State) : Host.Outcome State Fault Refusal :=
  .next (match s.pickTenant fun t => (s.tenant t).state == .run with
    | some t => s.startDrain t none
    | none => s)

/-- A context enters RUN. -/
def State.enterRun (s : State) (t : Nat) : State :=
  s.mapTenant t fun x => { x with state := .run, deadline := none, yieldTo := none, runClock := s.dieClock Config.dies }

/-- RESUME: no effect in RUN or DRAIN. -/
def execResume (s : State) : Host.Outcome State Fault Refusal :=
  .next (match s.pickTenant fun t => (s.tenant t).state == .stopped with
    | some t => s.enterRun t
    | none => s)

/-- A tenant has a grid waiting that can be placed on no die. -/
def State.waiting (s : State) (t : Nat) : Bool :=
  (s.tenant t).en && (s.tenant t).state == .run && (s.headGrid t).isSome &&
  (List.range Config.dies).all fun d => (s.tryPlace d t).isNone

/-- The time slice of a tenant is over. -/
def State.sliceOver (s : State) (t : Nat) : Bool :=
  let x := s.tenant t
  x.state == .run && x.slice != 0 && decide (x.runClock + x.slice.toNat ≤ s.dieClock Config.dies)

/-- TIME_SLICE_EXPIRY. -/
def execTimeSliceExpiry (s : State) : Host.Outcome State Fault Refusal :=
  .next (match s.pickTenant fun t => s.sliceOver t && (List.range 64).any fun u => u != t && s.waiting u with
    | some t => s.startDrain t (some ((List.range 64).filter fun u => u != t && s.waiting u))
    | none => s)

/-- DEADLINE_EXPIRY: the forced reset of 10 R242, and the context is stopped. -/
def execDeadlineExpiry (s : State) : Host.Outcome State Fault Refusal :=
  .next (match s.pickTenant fun t =>
      (s.tenant t).state == .drain && (s.tenant t).deadline == some 0 && s.resident t with
    | some t =>
      ((s.forcedReset t).contextError (resetError t cForced 0)).mapTenant t fun x =>
        { x with state := .stopped, deadline := none }
    | none => s)

/-- The workgroups of a tenant that pre-emption discards now. -/
def State.toDiscard (s : State) (t : Nat) : Option Group :=
  (s.groups.map (·.2)).find? fun g => g.tenant == t && s.discardable g

/-- CONTEXT_STOPPED: a draining context discards a workgroup that still holds IDEMP; when none is resident, STATE
becomes STOPPED. -/
def execContextStopped (s : State) : Host.Outcome State Fault Refusal :=
  .next (match s.pickTenant fun t =>
      (s.tenant t).state == .drain && ((s.toDiscard t).isSome || !s.resident t) with
    | some t =>
      let s := match s.toDiscard t with
        | some g => s.discardGroup g
        | none => s
      if s.resident t then s else s.mapTenant t fun x => { x with state := .stopped, deadline := none }
    | none => s)

/-- CONTEXT_AUTO_RESUME: every tenant that was waiting has placed a workgroup or has nothing left to place. -/
def execContextAutoResume (s : State) : Host.Outcome State Fault Refusal :=
  .next (match s.pickTenant fun t =>
      (s.tenant t).state == .stopped && match (s.tenant t).yieldTo with
        | some l => l.all fun u => (s.headGrid u).isNone
        | none => false with
    | some t => s.enterRun t
    | none => s)

end Sys2Proof.Machine
end

