-- ==== Sys2Proof/Machine/Launch.lean ====
section
/-! DEFINITION. The graph walker, Geyser, and the launch instructions with their entries (23 R388–R397). -/

namespace Sys2Proof.Machine

open Sys2Proof

/-! ## Nodes (23 R388) -/

/-- The bits of a node that its TYPE gives a meaning, as (byte, bits of it) pairs in fields: first bit and number. -/
def nodeFields (type : Nat) : List (Nat × Nat) :=
  (0, 4) :: (8, 24) :: match type with
  | 1 => [(64, 64), (128, 64), (192, 32), (224, 64), (288, 32), (320, 8), (328, 6)]
  | 2 | 3 => [(64, 64), (128, 24)]
  | 4 => [(32, 16)]
  | 5 => [(64, 64), (128, 64), (224, 64), (288, 32), (320, 8), (328, 6), (352, 64)]
  | 6 => [(32, 8), (64, 64), (128, 32), (160, 24)]
  | 7 => [(64, 64), (128, 64), (192, 7)]
  | _ => []

/-- Are all other bits zero? -/
def nodeClear (raw : Nat) : Bool :=
  decide (raw = total (fun f => raw / 2 ^ f.1 % 2 ^ f.2 * 2 ^ f.1) (nodeFields (nodeType raw)))

/-- Is every field inside its range and alignment? -/
def nodeInRange (raw : Nat) : Bool :=
  let f := nodeField raw
  match nodeType raw with
  | 0 => true
  | 1 => f 8 8 % 128 == 0 && f 16 8 % 4 == 0 && f 24 4 != 0 && f 28 8 % 8 == 0
  | 2 | 3 => f 8 8 % 4 == 0
  | 4 => f 4 2 != 0
  | 5 => f 8 8 % 128 == 0 && f 16 8 % 4 == 0 && f 28 8 % 8 == 0
  | 6 => f 4 1 != 0 && f 8 8 % 64 == 0 && decide (f 16 4 ≤ 4096)
  | 7 => f 8 8 % 8 == 0
  | _ => false

/-- The walker's next release of a tenant: the oldest of each; the first tenant that has one, or the one named. -/
def State.nextRelease (s : State) : Option Release :=
  if !s.hubUp then none
  else match s.subject with
  | .ids t _ _ => s.releases.find? fun r => r.tenant == t
  | _ => s.releases.head?

/-- Read a release's node afresh, after an acquire at pkg scope: its 64 bytes as a number, or a launch error. -/
def State.readNode (s : State) (r : Release) : State × Except Nat Nat :=
  let p := tenantPort r.tenant
  match (EM.readNat p .g (nodeAddr r.gbase r.node) 64).go (s.acquire .hub .pkg) with
  | (.error _, s) => (s, .error lFault)
  | (.ok raw, s) => (s, if nodeClear raw && nodeInRange raw then .ok raw else .error lBadNode)

/-- A step of the walker: a release whose node cannot be read or is malformed gives its launch error and does nothing
more; a node of another type is left to its own step. -/
def State.walker (s : State) (type : Nat) (f : State → Release → Nat → State) : State :=
  match s.nextRelease with
  | none => s
  | some r =>
    let (s', x) := s.readNode r
    let served : State := { s' with releases := s'.releases.erase r }
    match x with
    | .error code => served.launchError r.tenant r.node code
    | .ok raw => if nodeType raw = type then f served r raw else s

/-- Release a successor of a node, by the same graph. -/
def State.follow (s : State) (r : Release) (node : Nat) : State := s.releaseNode r.tenant r.gbase node

/-- A LAUNCH or RELAUNCH: the start is held while a grid of the node runs. -/
def State.startNode (s : State) (r : Release) (raw : Nat) : State :=
  let key := nodeKey r.tenant r.gbase r.node
  let n := SMap.read {} s.nodes key
  if n.running then
    if n.held.length = 2 ^ 16 then s.launchError r.tenant r.node lGraphOvf
    else { s with nodes := SMap.write {} s.nodes key { n with held := n.held ++ [(raw, r.fired)] } }
  else s.runNode r.tenant r.gbase r.node [(raw, r.fired)]

/-- Read the condition word, after an acquire at sys scope, and release one of two successors. -/
def State.condition (s : State) (r : Release) (raw yes no : Nat) : State :=
  match (EM.readNat (tenantPort r.tenant) .g (BitVec.ofNat 64 (nodeField raw 8 8)) 4).go (s.acquire .hub .sys) with
  | (.error _, s) => s.launchError r.tenant r.node lFault
  | (.ok v, s) => s.follow r (if v ≠ 0 then yes else no)

def execNodeEnd (s : State) : Host.Outcome State Fault Refusal := .next (s.walker 0 fun s _ _ => s)
def execNodeLaunch (s : State) : Host.Outcome State Fault Refusal := .next (s.walker 1 State.startNode)
def execNodeRelaunch (s : State) : Host.Outcome State Fault Refusal := .next (s.walker 5 State.startNode)
def execNodeCond (s : State) : Host.Outcome State Fault Refusal :=
  .next (s.walker 2 fun s r raw => s.condition r raw (nodeNext raw) (nodeField raw 16 3))
def execNodeWhile (s : State) : Host.Outcome State Fault Refusal :=
  .next (s.walker 3 fun s r raw => s.condition r raw (nodeField raw 16 3) (nodeNext raw))
/-- JOIN: with the last of NPRED arrivals the count returns to zero and NEXT is released. -/
def execNodeJoin (s : State) : Host.Outcome State Fault Refusal :=
  .next (s.walker 4 fun s r raw =>
    let key := nodeKey r.tenant r.gbase r.node
    let n := SMap.read {} s.nodes key
    let full : Bool := n.cnt + 1 == nodeField raw 4 2
    let s := { s with nodes := SMap.write {} s.nodes key { n with cnt := if full then 0 else n.cnt + 1 } }
    if full then s.follow r (nodeNext raw) else s)
/-- SIGNAL. -/
def execNodeSignal (s : State) : Host.Outcome State Fault Refusal :=
  .next (s.walker 7 fun s r raw =>
    let sa := nodeField raw 8 8
    let m : EM Unit := do
      EM.release (tenantPort r.tenant) .sys
      if sa ≠ 0 then EM.writeNat (tenantPort r.tenant) .g (BitVec.ofNat 64 sa) 8 (nodeField raw 16 8)
    match m.go s with
    | (.error _, s) => s.launchError r.tenant r.node lFault
    | (.ok (), s) =>
      let s := if raw.testBit 198 then s.raiseVec r.tenant (nodeField raw 24 1 % 64) else s
      s.follow r (nodeNext raw))

/-! ## Geyser (23 R391–R394) -/

def State.tag (s : State) (t g : Nat) : Tag := SMap.read {} (s.tenant t).tags g
def State.setTag (s : State) (t g : Nat) (x : Tag) : State :=
  s.mapTenant t fun y => { y with tags := SMap.write {} y.tags g x }

/-- Fire: the first bytes of the payload go to RA, the tag is disarmed, and its target is released with its argument
words. A write that faults is a launch error of the target, which is then not released (log entry 24). -/
def State.fire (s : State) (t g : Nat) (payload : List Byte) : State :=
  let x := s.tag t g
  let n := payload.length
  let s := s.setTag t g { pending := x.pending }
  match (EM.write (tenantPort t) .g x.ra (payload.take x.rsize)).go s with
  | (.error _, s) => s.launchError t x.target lFault
  | (.ok (), s) =>
    (s.release .hub .pkg).releaseNode t x.gbase x.target
      (some [x.ra.setWidth 32, (x.ra >>> 32).setWidth 32, BitVec.ofNat 32 n, if x.rsize < n then 1 else 0])

/-- Arm a tag; a pending message fires at once. -/
def State.armTag (s : State) (t g : Nat) (ra : Dword) (rsize : Nat) (gbase : Dword) (target : Nat) : State :=
  let x := s.tag t g
  let armed : Tag := { armed := true, ra, rsize, gbase, target, pending := x.pending.drop 1 }
  let s := s.setTag t g armed
  match x.pending with
  | [] => s
  | m :: _ => s.fire t g m

def execNodeArm (s : State) : Host.Outcome State Fault Refusal :=
  .next (s.walker 6 fun s r raw =>
    (s.armTag r.tenant (nodeField raw 4 1) (BitVec.ofNat 64 (nodeField raw 8 8)) (nodeField raw 16 4) r.gbase
      (nodeField raw 20 3)).follow r (nodeNext raw))

/-- LEN of a message's header. -/
def messageLen (h : Nat) : Nat := bitsOf h 28 16

/-- Is a header well formed (23 R391)? -/
def headerOk (h : Nat) : Bool :=
  clearBits h 15 8 && clearBits h 31 29 && clearBits h 127 32 && decide (messageLen h ≤ 4096)

/-- A message reaches the Geyser of its tenant: in arrival order, those of one clock by source (23 R393). -/
def insertMessage (m : Message) : List Message → List Message
  | [] => [m]
  | x :: rest =>
    if x.tenant = m.tenant ∧ x.clock = m.clock ∧ m.source < x.source then m :: x :: rest else x :: insertMessage m rest

def State.sendMessage (s : State) (t source : Nat) (bytes : List Byte) : State :=
  { s with messages := insertMessage { tenant := t, source, bytes, clock := s.clock } s.messages }

/-- Geyser treats a message: the start tag, a tag that fires, one that waits, or one that is lost. -/
def State.takeMessage (s : State) (t : Nat) (bytes : List Byte) : State :=
  let h := leNat (bytes.take 16)
  let g := h % 256
  let payload := (bytes.drop 16).take (messageLen h)
  if !headerOk h then s.countDrop t
  else if g = 0 then
    let v := leNat payload
    let gbase : Dword := BitVec.ofNat 64 v
    let node := v / 2 ^ 64
    if messageLen h = 12 ∧ gbase.toNat % 64 = 0 ∧ node ≤ noNode then s.releaseNode t gbase node else s.countDrop t
  else
    let x := s.tag t g
    if x.armed then s.fire t g payload
    else if x.pending.length < 4 then s.setTag t g { x with pending := x.pending ++ [payload] }
    else s.countDrop t

/-- MESSAGE: the first message on its way, the first for a named tenant, or one that an Adit port brings (the
subject's value is the port). -/
def execMessage (s : State) : Host.Outcome State Fault Refusal :=
  .next (match s.subject with
    | .ring (.receive t) port bytes => s.sendMessage t (1 + port.toNat % 16) bytes
    | subj =>
      match s.messages.find? (fun m => s.hubUp && match subj with
        | .ids t _ _ => m.tenant == t
        | _ => true) with
      | none => s
      | some m =>
        let s : State := { s with messages := s.messages.erase m }
        let s := if m.source = 0 then s.mapTenant m.tenant fun x => { x with sendBusy := false } else s
        s.takeMessage m.tenant m.bytes)

/-! ## The instructions (23 R395, R396) -/

/-- The 32-byte entry of a launch command. -/
def launchData (op : Nat) (w : Wave) (e : Ext) : BitVec 256 := BitVec.ofNat 256 (op + paramWords w e.a 7 * 2 ^ 32)

/-- A launch command; `first` gives the address that is checked at issue. -/
def State.launchCommand (s : State) (e : Ext) (op : Nat) (first : QEntry → List (Space × Acc × Dword)) : State :=
  s.command (Form.group 14 7) e 14 fun i w sp =>
    let x := s.pushed i w sp 14 { id := 0, uid := 0, q := 14, data := launchData op w e }
    match s.checkFirst w.id (first x) with
    | (s, some g) => s.trapAt i g.cause g.sub 0 g.at_
    | (s, none) => s.push i w sp 14 x

def execLnch (e : Ext) (s : State) : Host.Outcome State Fault Refusal := .next (s.launchCommand e 0 fun _ => [])
def execArm (e : Ext) (s : State) : Host.Outcome State Fault Refusal := .next (s.launchCommand e 1 fun _ => [])
/-- SIGH checks the payload's first byte, unless LEN is 0. -/
def execSigh (e : Ext) (s : State) : Host.Outcome State Fault Refusal :=
  .next (s.launchCommand e 2 fun x => if x.bits 108 96 = 0 then [] else [(.g, .engRead, x.addr 1)])

/-! ## The entries of q14 (23 R396, R397) -/

/-- What the wave's core and die still hold, for remote windows too, goes home before an entry of q14 is performed: the
walker, Geyser and the hub then read every write that was performed before the push (16 R303, 23 R397). The moves include
those of SIGH's release at pkg, pod or sys scope (23 R396). DEDUCED (log entry 66). -/
def EM.sendHome (e : QEntry) : EM Unit := do
  EM.release ((← get).corePort e) .pod

/-- LNCH_ENTRY; an entry whose word 0 names no command meets BADDESC here. -/
def execLnchEntry (s : State) : Host.Outcome State Fault Refusal :=
  .next (s.engineStep (fun e => e.q == 14 && e.word 0 != 1 && e.word 0 != 2) fun e =>
    s.performEntry e false (do
      EM.require (e.word 0 == 0 && (e.addr 1).toNat % 64 == 0 && e.bits 255 120 == 0)
      EM.sendHome e
      EM.change fun s => s.releaseNode (s.ctx e.uid).id.tenant (e.addr 1) (e.word 3)
      pure none))

/-- ARM_ENTRY. -/
def execArmEntry (s : State) : Host.Outcome State Fault Refusal :=
  .next (s.engineStep (fun e => e.q == 14 && e.word 0 == 1) fun e =>
    s.performEntry e false (do
      EM.require (decide (1 ≤ e.word 1 ∧ e.word 1 ≤ 255 ∧ e.word 4 ≤ 4096) && e.bits 255 248 == 0 &&
        (e.addr 2).toNat % 64 == 0 && (e.addr 5).toNat % 64 == 0)
      EM.sendHome e
      EM.change fun s => s.armTag (s.ctx e.uid).id.tenant (e.word 1) (e.addr 2) (e.word 4) (e.addr 5) (e.word 7)
      pure none))

/-- Is a package reachable (13 R250, 25 R414)? -/
def State.routeTo (s : State) (pkg : Nat) : Option Nat :=
  let r := SMap.read (false, 0) s.mgmt.routes pkg
  if s.routeUp r then some r.2 else none

/-- SIGH_ENTRY: to the same package or another, either by its route, or to the host's receive ring. The address that a missing
route reports is stated nowhere. -/
def execSighEntry (s : State) : Host.Outcome State Fault Refusal :=
  let lost : Dword := Config.freeWord s.fresh
  .next (s.engineStep (fun e => e.q == 14 && e.word 0 == 2) fun e =>
    ({ s with fresh := s.fresh + 1 }).performEntry e false (do
      let len := e.word 3
      let pkg := e.bits 148 144
      let tag := e.bits 135 128
      let host := e.data.getLsbD 159
      EM.require (decide (len ≤ 4096) && e.bits 143 136 == 0 && e.bits 158 149 == 0 && e.bits 255 160 == 0)
      EM.sendHome e
      let s ← get
      let p := s.hubPort e
      if !host && (s.routeTo pkg).isNone then EM.fail (0x10 + pBadPa) lost
      let payload ← if len = 0 then pure [] else EM.read p .g (e.addr 1) len
      let bytes := leBytes 16 (tag + len * 2 ^ 16) ++ payload
      let t := p.w.tenant
      EM.change fun s =>
        if host then
          let (s, written) := s.ringAppend (.receive t) bytes
          if written then s.raiseVec t (tag % 64) else s
        else if pkg = s.mgmt.self then s.sendMessage t 17 bytes
        else
          let m : Message := { tenant := t, source := 1 + (s.routeTo pkg).getD 0, bytes, clock := s.clock }
          { s with outbound := s.outbound ++ [(pkg, m)] }
      pure none))

end Sys2Proof.Machine
end

