-- ==== Sys2Proof/Machine/Handler.lean ====
section
/-! DEFINITION. Entering and leaving a trap handler and a debug stop (10 R228–R240): what the entry waits for, the frame,
the shadow, the fate of a stopped queue, and the held events. -/

namespace Sys2Proof.Machine

open Sys2Proof

/-! ## What an entry waits for (10 R232) -/

/-- A mark of the scalar scoreboard that stands for a held token: its command stands in a stopped queue. -/
def State.heldToken (s : State) (uid : Nat) (m : SbMark) : Bool :=
  match m with
  | .token id => s.entries.any fun e => e.id == id && e.uid == uid && s.stopped uid e.q
  | .op _ => false

/-- Every operation attached to a flag is complete, but for exchanges that wait to pair, and the scoreboard holds no
mark but held tokens. -/
def State.settledFor (s : State) (w : Wave) : Bool :=
  (s.ops.all fun o => o.uid != w.id.uid || o.flag.isNone || s.xswaps.any fun x => x.op == o.id) &&
  w.sb.all fun p => s.heldToken w.id.uid p.2

/-- The marks that an entry keeps: those attached to a flag with an exchange outstanding. -/
def State.keptMarks (s : State) (w : Wave) : SMap Nat :=
  w.marks.filter fun p => s.ops.any fun o =>
    o.uid == w.id.uid && o.flag == some p.2 && s.xswaps.any fun x => x.op == o.id

/-! ## The frame (10 R232, R233) -/

/-- F. -/
def State.frameAt (s : State) (w : WaveId) : Dword := (s.tenant w.tenant).trapbase + BitVec.ofNat 64 (512 * w.key)

/-- The architected part of a frame, as a number of 128 bytes. -/
def frameHead (w : Wave) (t : Trap) : Nat :=
  let addr := if [tSpaceBounds, tPageFault, tMisaligned, tEngineFault].contains t.cause then t.addr.toNat else 0
  let saves := (List.range 8).foldl
    (fun n r => if r < w.b then n + (w.getS r).toNat * 2 ^ (512 + 32 * r) else n) 0
  t.cause + t.sub * 2 ^ 8 + t.lane * 2 ^ 16 + t.split * 2 ^ 24 + t.pc.toNat * 2 ^ 32 + t.resume.toNat * 2 ^ 96
    + t.active.toNat * 2 ^ 160 + addr * 2 ^ 224 + t.site.toNat * 2 ^ 288 + t.seq.toNat * 2 ^ 352 + t.queue * 2 ^ 384
    + (w.getK 1).toNat * 2 ^ 448 + saves

/-- The places of the frame for an access; none when it faults. -/
def State.framePlace (s : State) (w : WaveId) (k : Acc) : State × Option Place :=
  match s.locate w.die w.tlbCore w.tenant k (s.frameAt w) 512 with
  | (s, .ok p) => (s.logHoles w.die w.tenant w.core k 0 p.holes, some p)
  | (s, .error _) => (s, none)

/-- Write the frame at core scope, through its page as any store (06 R127, 25 R414); BLOCK's layout is not architected.
Answers whether it was written. -/
def State.writeFrame (s : State) (w : Wave) (t : Trap) : State × Bool :=
  match s.framePlace w.id .frame with
  | (s, none) => (s, false)
  | (s, some p) =>
    let block := (List.range 384).map fun i => Config.freeByte (s.fresh + i)
    let ag := Agent.wave w.id.pcore
    let s := ({ s with fresh := s.fresh + 384 }).strikeStore w.id.tenant p.locs
    let s := s.storeUnits ag p.uncached (chunks 70 p.locs) (leBytes 128 (frameHead w t) ++ block)
    ((if p.through then s.forward ag p.uncached p.locs else s).release ag .core, true)

/-- Read the frame's first 96 bytes as a number. -/
def State.readFrame (s : State) (w : WaveId) : State × Option Nat :=
  match s.framePlace w .load with
  | (s, none) => (s, none)
  | (s, some p) =>
    let (s, bs) := (s.strike w.tenant (.wave w.pcore) p.locs).readUnits (.wave w.pcore) p.uncached (chunks 14 (p.locs.take 96))
    (s, some (leNat bs))

/-! ## Entry (10 R232, R234, R238) -/

/-- The lowest-numbered valid split. -/
def Wave.lowest (w : Wave) : Nat × Split := w.splits.headD (0, {})

/-- The shadow of a wave at an entry. -/
def State.shadowOf (s : State) (w : Wave) (t : Trap) (debug : Bool) : Shadow :=
  { trap := t, debug, clock := s.dieClock w.id.die, splits := w.splits, depth := w.depth, marks := w.marks, held := w.sb, extra := [] }

/-- A trap with the active lanes of its split as they stand. -/
def Wave.withActive (w : Wave) (t : Trap) : Trap := { t with active := w.active (SMap.read {} w.splits t.split) }

/-- Start the handler split. -/
def State.startHandler (s : State) (k : Nat) (w : Wave) (t : Trap) : State :=
  let sp : Split := { pc := (s.tenant w.id.tenant).hentry, members := w.members }
  let f := s.frameAt w.id
  let w := { w with
    shadow := some (s.shadowOf w t false), trap := none, splits := [(0, sp)], depth := [], marks := s.keptMarks w, sb := [] }
  let w := ((w.setK 1 t.active).setS64 0 f).setS 2 (BitVec.ofNat 32 t.cause)
  s.setWave k (w.setS 3 (BitVec.ofNat 32 t.sub))

/-- Enter the runtime handler, or halt as a double fault: no handler, or a frame write that faults. -/
def State.enterHandler (s : State) (k : Nat) (w : Wave) (t : Trap) : State :=
  if (s.tenant w.id.tenant).hentry = 0 then s.doubleFault k t dNoHandler t.pc
  else
    let t := w.withActive t
    match s.writeFrame w t with
    | (s, false) => s.doubleFault k t dFrame (s.frameAt w.id)
    | (s, true) => s.startHandler k w t

/-- A trap of a wave that TRAP_ENTRY can take now: in a handler and with no handler at once, else when settled. -/
def State.trapReady (s : State) (w : Wave) : Bool :=
  match w.trap with
  | some t => decide (t.cause < 32) && !w.halted &&
      (w.handling || (s.tenant w.id.tenant).hentry == 0 || s.settledFor w)
  | none => false

/-- TRAP_ENTRY; a trap in a handler is a double fault. -/
def execTrapEntry (s : State) : Host.Outcome State Fault Refusal :=
  .next (match s.pickWave s.trapReady with
    | some (k, w) => match w.trap with
      | some t => if w.handling then s.handlerFault k t.cause t.pc else s.enterHandler k w t
      | none => s
    | none => s)

/-- A handler has run for more clocks than the watchdog allows (10 R236). -/
def State.watchdogOver (s : State) (w : Wave) : Bool :=
  match w.shadow with
  | some sh => !sh.debug && !w.halted && decide (sh.clock + (s.tenant w.id.tenant).wdog.toNat < s.dieClock w.id.die)
  | none => false

/-- WATCHDOG. -/
def execWatchdog (s : State) : Host.Outcome State Fault Refusal :=
  .next (match s.pickWave s.watchdogOver with
    | some (k, w) => s.handlerFault k dWatchdog w.lowest.2.at
    | none => s)

/-! ## Held events (10 R231) -/

/-- No trap, handler or stop keeps the wave from its next event. -/
def Wave.free (w : Wave) : Bool := w.trap.isNone && w.shadow.isNone && w.heldTraps == [] && !w.halted && w.splits != []

/-- After a handler or a stop, a precise trap that was held comes first. -/
def Wave.unhold (w : Wave) : Wave :=
  match w.heldTraps with
  | [] => w
  | t :: rest => if w.trap.isNone then { w with trap := some t, heldTraps := rest } else w

/-- ENGINE_FAULT: the oldest engine fault of a wave that holds no earlier event becomes its trap, with the
lowest-numbered valid split as T (10 R237). -/
def execEngineFault (s : State) : Host.Outcome State Fault Refusal :=
  .next (match s.pickWave fun w => w.free && !w.haltReq && w.engFaults != [] with
    | some (k, w) =>
      match w.engFaults with
      | [] => s
      | f :: rest =>
        let (i, sp) := w.lowest
        s.setWave k { w with
          engFaults := rest
          trap := some { cause := tEngineFault, sub := f.sub, split := i, pc := sp.at, resume := sp.at,
                         active := w.active sp, addr := f.addr, site := f.site, seq := f.seq, queue := f.queue } }
    | none => s)

/-! ## Debug stops (10 R238, 25 R421) -/

/-- An entry of a tenant's debug ring; DVEC is raised when HEAD advances. -/
def State.debugRing (s : State) (w : WaveId) (kind cause : Nat) (addr : Dword) (data : BitVec 256) : State :=
  let v := kind + cause * 2 ^ 8 + w.pcore * 2 ^ 16 + w.slot * 2 ^ 27 + w.half * 2 ^ 33 + addr.toNat * 2 ^ 64 + data.toNat * 2 ^ 256
  let (s, written) := s.ringAppend (.debug w.tenant) (leBytes 64 v)
  if written then s.raiseVec w.tenant (s.tenant w.tenant).dvec else s

/-- Stop a wave for the debugger: the frame, the shadow, and an entry of the debug ring. -/
def State.enterDebug (s : State) (k : Nat) (w : Wave) (t : Trap) : State :=
  let t := w.withActive t
  match s.writeFrame w t with
  | (s, false) => s.doubleFault k t dFrame (s.frameAt w.id)
  | (s, true) =>
    let s := s.setWave k { w with
      shadow := some (s.shadowOf w t true), trap := none, splits := [], marks := s.keptMarks w, sb := [] }
    s.debugRing w.id 1 t.cause (s.frameAt w.id) 0

/-- A wave that DEBUG_STOP can act on: it owes a stop and is settled, or a halt request comes next. -/
def State.stopReady (s : State) (w : Wave) : Bool :=
  match w.trap with
  | some t => decide (32 ≤ t.cause) && w.shadow.isNone && !w.halted && s.settledFor w
  | none => w.free && w.haltReq

/-- DEBUG_STOP: a BREAKPOINT, a PCMATCH or a halt request stops its wave; while debugging is disabled none does. -/
def execDebugStop (s : State) : Host.Outcome State Fault Refusal :=
  .next (match s.pickWave s.stopReady with
    | none => s
    | some (k, w) =>
      if !s.debugOn w.id then s.setWave k ({ w with trap := none, haltReq := false } : Wave).unhold
      else
        match w.trap with
        | some t => s.enterDebug k w t
        | none =>
          let (i, sp) := w.lowest
          let t : Trap := { cause := tDebugHalt, split := i, pc := sp.at, resume := sp.at, active := w.active sp }
          let w := { w with haltReq := false }
          if s.settledFor w then s.enterDebug k w t else s.setWave k { w with trap := some t })

/-- Does a comparator of the wave's core hit at a PC (10 R239)? -/
def State.comparatorHits (s : State) (w : WaveId) (pc : Dword) : Bool :=
  s.debugOn w &&
  (SMap.read {} s.blocks w.pcore).cmp.any fun p =>
    let c := p.2
    let wg : Word := BitVec.ofNat 32 w.wg
    c.en && (c.anyten || c.tenant == w.tenant) && c.pc >>> 1 == pc >>> 1 &&
    (wg &&& c.wg.extractLsb' 32 32) == (c.wg.extractLsb' 0 32 &&& c.wg.extractLsb' 32 32)

/-- PCMATCH: a comparator hits as the split is about to issue; its instruction will not match again. -/
def execPcmatch (s : State) : Host.Outcome State Fault Refusal :=
  .next (s.withCur fun i w sp =>
    if !w.handling && !sp.noMatch && s.comparatorHits w.id i.pc then
      (s.takeTrap tPcMatch).mapWave i.key fun w => w.mapSplit i.split fun p => { p with noMatch := true }
    else s)

/-- Q15_DEBUG_ENTRY: an entry of a wave's q15, on a die whose clock runs, goes to the debug ring, or is discarded while
debugging is disabled. -/
def execQ15DebugEntry (s : State) : Host.Outcome State Fault Refusal :=
  .next (match s.entries.find? (fun e => e.q == 15 && s.waveRuns e.uid) with
    | none => s
    | some e =>
      let w := (s.ctx e.uid).id
      let s := s.dropEntry e.id
      if s.debugOn w then s.debugRing w 2 0 e.pc e.data else s)

/-! ## The fate of a stopped queue (10 R237) -/

/-- An entry leaves its queue unperformed. `code` is the fault's SUB, or 0xFF for one discarded behind it; `first` is
true of the faulting entry. -/
def State.entryDropped (s : State) (e : QEntry) (code : Nat) (first : Bool) : State :=
  match e.q with
  | 0 => s.matrixDropped e code
  | 2 | 3 => s.copyDropped e
  | 4 => s.choiceDropped e code
  | 6 => s.tokenDropped e code
  | 8 => s.travDropped e first
  | 10 => s.smplDropped e first
  | 12 => s.ashlarDropped e code
  | _ => s.dropEntry e.id

/-- The faults that cannot be performed again: ACTION 1 acts as ACTION 2 (14 R274, 15 R301, 17 R325, 22 R385). -/
def noRetry (e : QEntry) (sub : Nat) : Bool :=
  match e.q with
  | 0 => e.bits 2 0 == 0 && matSpan e != 0
  | 3 => e.bits 2 0 == 5
  | 4 => [1, 9, 10].contains sub
  | 12 => e.bits 2 0 == 1
  | _ => false

/-- The entries of a queue that are still to be performed from an age on, oldest first. -/
def State.heldEntries (s : State) (uid q age : Nat) : List QEntry :=
  s.entries.filter fun e => e.uid == uid && e.q == q && e.post.isNone && decide (age ≤ e.age)

/-- ACTION decides for the oldest fault of a queue: 1 performs the faulting entry again, 2 drops it, anything else discards
it with every entry behind it. -/
def State.resolveQueue (s : State) (uid q action : Nat) : State :=
  match s.stops.find? fun x => x.uid == uid && x.q == q with
  | none => s
  | some st =>
    let s := { s with stops := s.stops.erase st }
    let job := (st.job.bind fun id => s.jobs.find? fun j => j.e.id == id).map (·.e)
    match (job.orElse fun _ => (s.heldEntries uid q st.age).head?) with
    | none => s
    | some e =>
      if action = 1 && !noRetry e st.sub then
        match job with
        | some e => s.restartJob e.id
        | none => s
      else
        let s := s.entryDropped e st.sub true
        if action = 1 || action = 2 then s
        else
          let s := ((s.heldEntries uid q st.age).filter fun x => x.id != e.id).foldl (fun s x => s.entryDropped x 0xFF false) s
          if q = 12 then { s with paths := s.paths.filter fun p => p.uid != uid } else s

/-! ## Return (10 R235, R238) -/

/-- Every ls entry of a wave has been performed. -/
def State.lsDone (s : State) (uid : Nat) : Bool := s.ls.all fun e => e.uid != uid

/-- A RESUME that no split can take. -/
def badResume (v resume : Dword) : Bool := v.getLsbD 0 || (v.getLsbD 1 && v != resume)

/-- Restore a wave from its shadow and the frame: s0–s7, k1, the split table, the counters, the marks; T goes on at
RESUME. Marks of operations that the handler issued and that have not landed stay. DESIGN CHOICE (log entry 85): a changed
RESUME of a T that was parked takes it out of its park, and one that was waiting goes on waiting. -/
def Wave.restore (w : Wave) (sh : Shadow) (frame : Nat) : Wave :=
  let resume : Dword := BitVec.ofNat 64 (frame / 2 ^ 96)
  let w := { w with
    shadow := none, splits := sh.splits, depth := sh.depth, marks := sh.marks
    sb := sh.held.foldl (fun m (p : Nat × SbMark) => SMap.insert m p.1 p.2) w.sb }
  let w := (List.range 8).foldl
    (fun w r => if r < w.b then w.setS r (BitVec.ofNat 32 (frame / 2 ^ (512 + 32 * r))) else w) w
  let w := w.setK 1 (BitVec.ofNat 64 (frame / 2 ^ 448))
  w.mapSplit sh.trap.split fun sp => if resume = sh.trap.resume then sp else { sp.goto resume with park := false }

/-- A wave leaves its handler or stop; a held trap comes next. -/
def State.leave (s : State) (k : Nat) (w : Wave) (sh : Shadow) (frame : Nat) : State :=
  s.setWave k (w.restore sh frame).unhold

/-- TRET: outside a handler PRIV_OP; it acts when its split is the handler's only one, and waits for the wave's ls
entries. -/
def execTret (_ : Ext) (s : State) : Host.Outcome State Fault Refusal :=
  .next (s.withCur fun i w _ =>
    match w.shadow with
    | none => s.takeTrap tPrivOp
    | some sh =>
      if w.splits.length ≠ 1 then s.handlerFault i.key dTretSplit i.pc
      else if !s.lsDone w.id.uid then s
      else
        match s.readFrame w.id with
        | (s, none) => s.handlerFault i.key dFrame (s.frameAt w.id)
        | (s, some v) =>
          if badResume (BitVec.ofNat 64 (v / 2 ^ 96)) sh.trap.resume then s.handlerFault i.key dBadResume i.pc
          else
            let s := s.leave i.key w sh v
            if sh.trap.cause = tEngineFault then s.resolveQueue w.id.uid sh.trap.queue (v / 2 ^ 416 % 2 ^ 32) else s)

/-- Resume a wave from its debug stop: ACTION is ignored, and a wave of a die in D3 waits until its die runs (25 R426). A bad RESUME is a double fault whose second PC is stated
nowhere. -/
def State.debugResume (s : State) (k : Nat) : State :=
  match s.wave k with
  | none => s
  | some w =>
    match w.shadow with
    | none => s
    | some sh =>
      if !sh.debug || w.halted then s
      else if !s.lsDone w.id.uid || !s.dieRuns w.id.die then s.setWave k { w with shadow := some { sh with leaving := true } }
      else
        match s.readFrame w.id with
        | (s, none) => s.handlerFault k dFrame (s.frameAt w.id)
        | (s, some v) =>
          if badResume (BitVec.ofNat 64 (v / 2 ^ 96)) sh.trap.resume then
            ({ s with fresh := s.fresh + 1 }).handlerFault k dBadResume (Config.freeWord s.fresh)
          else s.leave k w sh v

end Sys2Proof.Machine
end

