-- ==== Sys2Proof/Machine/System.lean ====
section
/-! DEFINITION. Clause headers and dictionary codes (03 R42–R53), and the system instructions of major 0x1F with their
steps (09 R221–R226, 07 R138, R150). -/

namespace Sys2Proof.Machine

open Sys2Proof

/-! ## Clause headers (03 R43, R48) -/

/-- CLAUSE: the split stalls until the WAIT flags are clear; then the marks of those flags clear, SETA and SETB are
set, and the header's codes come next. Without a table, codes are ILLEGAL_ENC at the header. -/
def execClause (c : Clause) (s : State) : Host.Outcome State Fault Refusal :=
  .next (s.withCur fun i w _ =>
    if !w.waitClear c.wait then s
    else if c.dcount != 0 && (s.group w.id.group).kd.dictn == 0 then s.trapAt i tIllegalEnc 0 0 0
    else
      s.setWave i.key ((w.dropMarks c.wait).mapSplit i.split fun sp =>
        { sp with
          pc := i.pc + 4 + BitVec.ofNat 64 (4 * c.dcount.toNat), seta := c.seta, setb := c.setb
          codePc := i.pc + 4, codes := 2 * c.dcount.toNat, latch := none, noMatch := false }))

/-! ## Dictionary codes (03 R50–R53) -/

/-- Put the six bits of a patch at bit n of a word. -/
def putPatch (w : Word) (n : Nat) (patch : BitVec 6) : Word :=
  (w &&& ~~~(BitVec.ofNat 32 (63 * 2 ^ n))) ||| BitVec.ofNat 32 (patch.toNat * 2 ^ n)

/-- The word and bit that a selector names. -/
def patchPlace (sel : Nat) : Nat × Nat :=
  match sel with
  | 1 => (0, 8)
  | 2 => (0, 14)
  | 3 => (0, 11)
  | 4 => (0, 18)
  | 5 => (0, 25)
  | 6 => (0, 16)
  | 7 => (0, 24)
  | 8 => (1, 0)
  | _ => (1, 8)

/-- An entry's words with a patch applied; none for a patch that no field takes. -/
def applyPatch (x : List Word × Word) (patch : BitVec 6) : Option (List Word) :=
  let sel := x.2.toNat % 64
  let ws := if x.2.getLsbD 6 then x.1.take 3 else x.1.take 1
  if sel = 0 then (if patch = 0 then some ws else none)
  else
    let (k, n) := patchPlace sel
    some (ws.zipIdx.map fun p => if p.2 = k then putPatch p.1 n patch else p.1)

/-- The trap of an entry whose patch no field takes: an unassigned or reserved major comes first (03 R56). -/
def patchTrap (x : List Word × Word) : Nat :=
  if unimplMajor (bitsOf (x.1.headD 0).toNat 7 2) then tUnimplMajor else tIllegalEnc

/-- DREF: the code's instruction is the table entry with the patch applied; the split executes its words next, at the
code's PC. -/
def execDref (d : DictCode) (s : State) : Host.Outcome State Fault Refusal :=
  .next (s.withCur fun i w _ =>
    match (s.group w.id.group).kd.table[d.index.toNat]? with
    | none => s.trapAt i tIllegalEnc 0 0 0
    | some x =>
      match applyPatch x d.patch with
      | none => s.trapAt i (patchTrap x) 0 0 0
      | some ws => s.setWave i.key (w.mapSplit i.split fun sp => { sp with latch := some ws }))

/-! ## Traps by instruction (09 R221–R223, R226) -/

/-- A trap that resumes behind its instruction; SUB holds the code. -/
def State.softTrap (s : State) (e : Ext) (cause : Nat) : State :=
  s.checked {} fun i w _ => s.trapAfter i w cause e.x.toNat

def execTrap (e : Ext) (s : State) : Host.Outcome State Fault Refusal := .next (s.softTrap e tSwTrap)
/-- SYSC ends IDEMP (10 R243). -/
def execSysc (e : Ext) (s : State) : Host.Outcome State Fault Refusal :=
  .next (s.checked {} fun i w _ => (s.clearIdemp w.id).trapAfter i w tSyscall e.x.toNat)
/-- BKPT has no effect in a handler or while debugging is disabled. -/
def execBkpt (_ : Ext) (s : State) : Host.Outcome State Fault Refusal :=
  .next (s.checked {} fun i w _ =>
    if w.handling || !s.debugOn w.id then s.done i w else s.trapAfter i w tBreakpoint 0)
/-- HALT: the wave stops for good, and its tenant receives a context error. -/
def execHalt (_ : Ext) (s : State) : Host.Outcome State Fault Refusal :=
  .next (s.checked {} fun i w _ =>
    ((s.clearIdemp w.id).haltWave i.key).contextError (waveError w.id cHalt 0 0 i.pc 0))

/-! ## Special registers (07 R138, 09 R224) -/

/-- The value of a register for a lane. %clock is the package's, the same on every core. -/
def State.special (s : State) (w : Wave) (split n l : Nat) : Nat :=
  match n with
  | 0x00 => l
  | 0x01 => w.id.wave
  | 0x02 => w.id.nwaves
  | 0x03 => w.id.wg
  | 0x04 => w.id.ngrid
  | 0x05 => w.id.core
  | 0x06 => w.id.core / 4
  | 0x07 => w.id.die
  | 0x08 => s.mgmt.self
  | 0x09 => s.dieClock Config.dies
  | 0x0A => w.id.slot
  | 0x0B => split
  | 0x0C => w.depthOf l
  | 0x0D => w.id.gang
  | 0x0E => w.fpstat.toNat
  | 0x0F => w.resmiss.toNat
  | _ => w.cursor.toNat

/-- The bits of a register. -/
def specialBits (n : Nat) : Nat := if n = 0x09 ∨ n = 0x0F then 64 else 32

/-- RDS: every active lane of a vector register, or a scalar register or pair once. -/
def execRds (e : Ext) (s : State) : Host.Outcome State Fault Refusal :=
  .next (s.checked (usesOf Form.rds e) fun i w sp =>
    let n := e.x.toNat
    if e.d.isV then
      s.done i ((lanesOf (w.active sp)).foldl (fun w l => w.put e.d 32 l (s.special w i.split n l)) w)
    else s.done i (w.put e.d (specialBits n) 0 (s.special w i.split n 0)))

/-- WRS: a 1 clears a bit of %fpstat or %resmiss; %choice.cursor takes the value and starts the wave's threads. -/
def execWrs (e : Ext) (s : State) : Host.Outcome State Fault Refusal :=
  .next (s.checked (usesOf Form.wrs e) fun i w _ =>
    let n := e.x.toNat
    let v := w.src e.lit e.a (specialBits n) 0
    match n with
    | 0x0E => s.done i { w with fpstat := w.fpstat &&& ~~~(BitVec.ofNat 32 v) }
    | 0x0F => s.done i { w with resmiss := w.resmiss &&& ~~~(BitVec.ofNat 64 v) }
    | _ => (s.startThreads w.id (v % 2 ^ 32) i.pc w.seqno).done i { w with cursor := BitVec.ofNat 32 v })

/-! ## ICF (09 R225) -/

/-- ICF: a release at its scope enters the ls stream, and the split waits. -/
def execIcf (e : Ext) (s : State) : Host.Outcome State Fault Refusal :=
  .next (s.checked {} fun i w sp =>
    let id := s.nextId
    let s := (s.clearIdemp w.id).pushLs i w sp {} (bareLs .fence .rel e.scope)
    s.mapWave i.key fun w => w.mapSplit i.split fun p => { p with wait := .icf e.scope id })

/-- The package core numbers of a scope's instance around a core: first, and how many. -/
def coresOf (sc : Scope) (c : Nat) : Nat × Nat :=
  match sc with
  | .core => (c, 1)
  | .quad => (c / 4 * 4, 4)
  | .die => (c / Config.coresPerDie * Config.coresPerDie, Config.coresPerDie)
  | _ => (0, Config.dies * Config.coresPerDie)

/-- Invalidate the instruction caches of some cores; later fetches read afresh, past the copies of their dies. -/
def State.invalidateIcaches (s : State) (first n : Nat) : State :=
  let s := { s with icache := SMap.dropRange s.icache (first * 2 ^ 50) ((first + n) * 2 ^ 50) }
  (List.range Config.dies).foldl
    (fun s d =>
      if first < (d + 1) * Config.coresPerDie ∧ d * Config.coresPerDie < first + n then s.dropAllCopies d else s) s

/-- A split's ICF whose release has been performed. -/
def State.icfDue (s : State) : Wait → Bool
  | .icf _ id => s.ls.all fun e => e.id != id
  | _ => false

/-- ICF_COMPLETE. -/
def execIcfComplete (s : State) : Host.Outcome State Fault Refusal :=
  .next (match s.pickWave fun w => w.waiters s.icfDue != [] with
    | none => s
    | some (k, w) =>
      let scopes := (w.splits ++ ((w.shadow.map (·.splits)).getD [])).filterMap fun p => match p.2.wait with
        | .icf sc _ => if s.icfDue p.2.wait then some sc else none
        | _ => none
      let s' := scopes.foldl
        (fun (s : State) sc => let (a, n) := coresOf sc w.id.pcore; s.invalidateIcaches a n) s
      s'.setWave k (w.mapSplits fun _ p => if s.icfDue p.wait then { p with wait := .ready } else p))

/-! ## Guards (07 R150) -/

/-- The clocks that a guard counts to. -/
def guardLimit : Nat := 252

/-- GUARD_EXPIRY: a guard that has reached 252 stands in the first precedence group from the next clock; both halves of a
ganged slot hold the slot's guard (07 R146). -/
def execGuardExpiry (s : State) : Host.Outcome State Fault Refusal :=
  .next (match s.pickWave fun w => decide (guardLimit ≤ w.guard) && w.expired.isNone with
    | some (k, w) =>
      let s' := s.setWave k { w with expired := some s.clock }
      if w.id.gang = 0 then s' else s'.mapWave w.id.partner fun o => { o with expired := some s.clock }
    | none => s)

end Sys2Proof.Machine
end

