-- ==== Sys2Proof/Machine/Host.lean ====
section
/-! DEFINITION. The host's side (23 R400, 25 R412–R432): the registers of a tenant's block and of the management
function, with the steps that their writes begin. -/

namespace Sys2Proof.Machine

open Sys2Proof

/-! ## Fields of a written value -/

/-- Bits hi to lo of a register's value. -/
def fieldNat (v : Dword) (hi lo : Nat) : Nat := bitsOf v.toNat hi lo

/-- The tenant block's S fields take a write only while EN = 0 and STATE = STOPPED (25 R415). -/
def Tenant.idle (x : Tenant) : Bool := !x.en && x.state == .stopped

def State.cfgErr (s : State) (t : Nat) : State := s.mapTenant t fun x => { x with cfgerr := true }

/-- A write to an S field. -/
def State.idleWrite (s : State) (t : Nat) (f : Tenant → Tenant) : State :=
  if (s.tenant t).idle then s.mapTenant t f else s.cfgErr t

/-- A step on the tenant that it names, with the value it carries. -/
def State.forTenant (s : State) (f : State → Nat → Dword → State) : State :=
  match s.subject with
  | .ids t _ _ => if t < 64 then f s t 0 else s
  | .value t _ v => if t < 64 then f s t v else s
  | _ => s

/-! ## Invalidations (06 R133, 25 R416) -/

/-- A write to INVAL: ignored with GO while BUSY; GO begins the invalidation that KIND names, of the PAGE written with it,
and until it completes an access may use an old entry or a new one. DESIGN CHOICE (log entry 94): a write whose GO is ignored
changes no field. -/
def State.inval (s : State) (t : Nat) (v : Dword) : State :=
  let go := v.getLsbD 0
  if go && (s.tenant t).invalBusy then s
  else
    let kind := fieldNat v 3 2
    let s := s.mapTenant t fun x =>
      { x with
        invalPage := (v >>> 16).setWidth 48, invalKind := kind, invalBusy := x.invalBusy || (go && kind != 3)
        invalRun := if go then (fieldNat v 63 16, kind) else x.invalRun }
    if go && kind == 2 then s.release .hub .sys else s

/-- A GO of one kind. -/
def goOf (kind : Nat) (v : Dword) : Dword := (v &&& 0xFFFFFFFFFFFF0000) ||| BitVec.ofNat 64 (4 * kind + 1)

def execInvalPage (s : State) : Host.Outcome State Fault Refusal := .next (s.forTenant fun s t v => s.inval t (goOf 0 v))
def execInvalAll (s : State) : Host.Outcome State Fault Refusal := .next (s.forTenant fun s t v => s.inval t (goOf 1 v))
def execInvalIcache (s : State) : Host.Outcome State Fault Refusal := .next (s.forTenant fun s t v => s.inval t (goOf 2 v))

/-- INVAL_COMPLETE: the entries are gone, on every die and hub, or every instruction cache is; BUSY returns to 0. -/
def execInvalComplete (s : State) : Host.Outcome State Fault Refusal :=
  .next (match s.pickTenant fun t => (s.tenant t).invalBusy with
    | none => s
    | some t =>
      let x := s.tenant t
      let page := x.invalRun.1 * 65536
      let s := s.mapTenant t fun y => { y with invalBusy := false }
      match x.invalRun.2 with
      | 0 => { s with tlb := s.tlb.filter fun (e : TlbEnt) =>
          !(e.asid == t && e.va < page + 65536 && page < e.va + e.leaf.size) }
      | 1 => { s with tlb := s.tlb.filter fun (e : TlbEnt) => e.asid != t }
      | _ => s.invalidateIcaches 0 (Config.dies * Config.coresPerDie))

/-! ## Caldera windows and sequences (25 R417) -/

/-- A write to CALW of a die: refused when the window would pass 32 MiB or overlap another tenant's. -/
def State.calwWrite (s : State) (t d : Nat) (v : Dword) : State :=
  let size := fieldNat v 25 16
  let base := fieldNat v 8 0
  let clash := (List.range 64).any fun u =>
    let (n, b) := SMap.read (0, 0) (s.tenant u).calw d
    u != t && size != 0 && n != 0 && decide (b < base + size ∧ base < b + n)
  if !(s.tenant t).idle || decide (512 < base + size) || clash then s.cfgErr t
  else s.mapTenant t fun x => { x with calw := SMap.write (0, 0) x.calw d (size, base) }

/-- A write to SEQN: refused when the sum over all tenants would pass 65,536. -/
def State.seqnWrite (s : State) (t : Nat) (v : Dword) : State :=
  let n := fieldNat v 16 0
  let others := total (fun u => if u = t then 0 else (s.tenant u).seqn) (List.range 64)
  if !(s.tenant t).idle || decide (65536 < others + n) then s.cfgErr t
  else s.mapTenant t fun x => { x with seqn := n }

def execCalwWrite (s : State) : Host.Outcome State Fault Refusal :=
  .next (match s.subject with
    | .value t d v => if t < 64 ∧ d < Config.dies then s.calwWrite t d v else s
    | _ => s)
def execSeqnWrite (s : State) : Host.Outcome State Fault Refusal := .next (s.forTenant State.seqnWrite)

/-! ## Rings (25 R418) -/

/-- The debug ring's registers act only while DBGEN = 1 (25 R421). -/
def State.ringShown (s : State) : RingId → Bool
  | .debug t => (s.tenant t).dbgen
  | _ => true

/-- A write of TAIL: taken when it consumes written entries only. -/
def State.tailWrite (s : State) (r : RingId) (v : Word) : State :=
  let x := s.ring r
  if !s.ringShown r then s
  else if x.head - v ≤ x.n then s.setRing r { x with tail := v }
  else match ringTenant r with
    | some t => s.cfgErr t
    | none => s

def execRingTailWrite (s : State) : Host.Outcome State Fault Refusal :=
  .next (match s.subject with
    | .ring r v _ => s.tailWrite r (v.setWidth 32)
    | _ => s)

/-- RING_APPEND: the part appends an entry's bytes to a ring. The steps that owe one do the same themselves. -/
def execRingAppend (s : State) : Host.Outcome State Fault Refusal :=
  .next (match s.subject with
    | .ring r _ bytes => (s.ringAppend r bytes).1
    | _ => s)

/-! ## Messages (25 R422) -/

/-- A write of SEND: Geyser takes the window's message; while BUSY it is discarded and counted. -/
def State.msgSend (s : State) (t : Nat) : State :=
  let x := s.tenant t
  if x.sendBusy then s.countDrop t
  else
    let n := min 4096 (messageLen x.msgHead.toNat)
    (s.mapTenant t fun y => { y with sendBusy := true }).sendMessage t 0
      (leBytes 16 x.msgHead.toNat ++ Memory.bytes x.msgBody 0 n)

def execMsgsend (s : State) : Host.Outcome State Fault Refusal := .next (s.forTenant fun s t _ => s.msgSend t)

/-- A write of 8 bytes into the message window; discarded while BUSY. -/
def Tenant.windowWrite (x : Tenant) (o : Nat) (v : Dword) : Tenant :=
  if x.sendBusy then x
  else if o < 16 then
    let keep := x.msgHead.toNat / 2 ^ (8 * (8 - o)) % 2 ^ 64
    { x with msgHead := BitVec.ofNat 128 (if o = 0 then v.toNat + 2 ^ 64 * keep else keep + 2 ^ 64 * v.toNat) }
  else { x with msgBody := Memory.setBytes x.msgBody (o - 16) (leBytes 8 v.toNat) }

/-! ## Context errors (25 R424) -/

/-- CONTEXT_ERROR: the error that the step carries. -/
def execContextError (s : State) : Host.Outcome State Fault Refusal :=
  .next (match s.subject with
    | .error e => s.contextError e
    | _ => s)

/-- A write of CERRA: 1s in every set bit of CAUSE clear the record, other 1s clear their bits. -/
def State.cerraWrite (s : State) (t : Nat) (v : Dword) : State :=
  s.mapTenant t fun x =>
    let c := fieldNat v 7 0
    let left := x.cerr.cause &&& (255 - c)
    if c ≠ 0 ∧ left = 0 then { x with cerr := {} }
    else { x with cerr := { x.cerr with cause := left, ovf := x.cerr.ovf && !v.getLsbD 63 } }

/-- CERR_CLEAR: 1s to CAUSE. -/
def execCerrClear (s : State) : Host.Outcome State Fault Refusal :=
  .next (s.forTenant fun s t _ => s.cerraWrite t 0xFF)

/-! ## Debug access (10 R238, R239, 25 R420, R421) -/

/-- The wave that DCMD acts on: it is resident and the tenant's. -/
def State.selected (s : State) (t : Nat) : Option (Nat × Wave) :=
  let x := s.tenant t
  let k := 96 * x.dselCore + 2 * x.dselSlot + x.dselHalf.toNat
  match s.wave k with
  | some w => if w.id.tenant = t ∧ x.dselSlot < Config.slots then some (k, w) else none
  | none => none

/-- HALT, RESUME and SEND; with DBGEN = 0 or while BUSY they are ignored. -/
def State.dcmd (s : State) (t cmd : Nat) : State :=
  let x := s.tenant t
  if !x.dbgen || x.dcmdBusy then s
  else
    match s.selected t with
    | none => s
    | some (k, w) =>
      match cmd with
      | 1 => s.setWave k { w with haltReq := true }
      | 2 => s.debugResume k
      | 3 => if s.room w 15 then s.deliver w.id.uid 16 x.dqout
        else s.mapTenant t fun y => { y with dcmdBusy := true, sendTo := w.id.uid }
      | _ => s

/-- May a waiting SEND act now: debugging is enabled, and its wave has room or has gone? -/
def State.sendReady (s : State) (t : Nat) : Bool :=
  (s.tenant t).dcmdBusy && (s.tenant t).dbgen &&
  match s.waveOf (s.tenant t).sendTo with
  | some (_, w) => s.room w 15
  | none => true

/-- A SEND that waits: the entry goes to the wave that it was written for once its q15 has room, and nowhere when the
wave has gone. DESIGN CHOICE (log entry 74): it waits while debugging is disabled. -/
def State.sendWaiting (s : State) (t : Nat) : State :=
  let x := s.tenant t
  if !s.sendReady t then s
  else
    let s' := s.mapTenant t fun y => { y with dcmdBusy := false }
    if s.alive x.sendTo then s'.deliver x.sendTo 16 x.dqout else s'

def execDcmdHalt (s : State) : Host.Outcome State Fault Refusal := .next (s.forTenant fun s t _ => s.dcmd t 1)
/-- DCMD_RESUME; with no subject, a resumption that waited for the wave's ls entries, or for its die. -/
def execDcmdResume (s : State) : Host.Outcome State Fault Refusal :=
  .next (match s.subject with
    | .none =>
      match s.waves.find? fun p => match p.2.shadow with
        | some sh => sh.leaving && s.lsDone p.2.id.uid && !p.2.halted && s.dieRuns p.2.id.die
        | none => false with
      | some (k, _) => s.debugResume k
      | none => s
    | _ => s.forTenant fun s t _ => s.dcmd t 2)
/-- DCMD_SEND; with no subject, a SEND that waited for room. -/
def execDcmdSend (s : State) : Host.Outcome State Fault Refusal :=
  .next (match s.subject with
    | .none =>
      match (List.range 64).find? s.sendReady with
      | some t => s.sendWaiting t
      | none => s
    | _ => s.forTenant fun s t _ => s.dcmd t 3)

/-- Disable every comparator of a tenant. -/
def State.disableComparators (s : State) (t : Nat) : State :=
  { s with blocks := s.blocks.map fun (p : Nat × DebugBlock) =>
      (p.1, { p.2 with cmp := p.2.cmp.map fun (c : Nat × Comparator) =>
        (c.1, if c.2.tenant = t then { c.2 with en := false } else c.2) }) }

/-- DBGEN goes from 1 to 0: the tenant's comparators are disabled, and its waves in a debug stop resume. DESIGN CHOICE (log
entry 90): a pending halt request is dropped, and so is a BREAKPOINT, a PCMATCH or a DEBUG_HALT that has not stopped its wave
yet. -/
def State.dbgenClear (s : State) (t : Nat) : State :=
  if !(s.tenant t).dbgen then s
  else
    let s := (s.mapTenant t fun x => { x with dbgen := false }).disableComparators t
    let s := { s with waves := s.waves.map fun (p : Nat × Wave) =>
      (p.1, if p.2.id.tenant = t then { p.2 with haltReq := false } else p.2) }
    s.waves.foldl (fun s p => if p.2.id.tenant = t then s.debugResume p.1 else s) s

def execDbgenClear (s : State) : Host.Outcome State Fault Refusal := .next (s.forTenant fun s t _ => s.dbgenClear t)

def State.block (s : State) (c : Nat) : DebugBlock := SMap.read {} s.blocks c
def State.setBlock (s : State) (c : Nat) (b : DebugBlock) : State := { s with blocks := SMap.write {} s.blocks c b }

/-- A write at an offset of a core's debug block. A tenant's own window forces TENANT and ANYTEN, and refuses a write
to an enabled comparator or DRCTL of another tenant. DESIGN CHOICE (log entry 91): a write of DRCTL leaves the count of
requests where it stood, whatever becomes of EN. -/
def State.blockWrite (s : State) (c o : Nat) (v : Dword) (owner : Option Nat) : State :=
  let b := s.block c
  let theirs (tenant : Nat) (en : Bool) : Bool := match owner with
    | some t => en && tenant != t
    | none => false
  let refuse : State := match owner with
    | some t => s.cfgErr t
    | none => s
  let tenant := owner.getD (fieldNat v 13 8)
  if Config.dies * Config.coresPerDie ≤ c then s
  else if o = 0x200 then
    if theirs b.drTenant b.drEn then refuse
    else s.setBlock c { b with drTenant := tenant, drPeriod := fieldNat v 7 4, drEn := v.getLsbD 0 }
  else if 0x100 ≤ o ∧ o < 0x200 ∧ o % 8 = 0 ∧ o % 32 < 24 then
    let n := (o - 0x100) / 32
    let x := SMap.read {} b.cmp n
    if theirs x.tenant x.en then refuse
    else
      let x := match o % 32 with
        | 0 => { x with pc := v &&& ~~~1 }
        | 8 => { x with tenant, anyten := owner.isNone && v.getLsbD 1, en := v.getLsbD 0 }
        | _ => { x with wg := v }
      s.setBlock c { b with cmp := SMap.write {} b.cmp n x }
  else s

/-- A read at an offset of a core's debug block. -/
def State.blockRead (s : State) (c o : Nat) : Nat :=
  let b := s.block c
  if Config.dies * Config.coresPerDie ≤ c then 0
  else if o = 0x200 then b.drTenant * 2 ^ 8 + b.drPeriod * 2 ^ 4 + b.drEn.toNat
  else if 0x100 ≤ o ∧ o < 0x200 then
    let x := SMap.read {} b.cmp ((o - 0x100) / 32)
    match o % 32 with
    | 0 => x.pc.toNat
    | 8 => x.tenant * 2 ^ 8 + x.anyten.toNat * 2 + x.en.toNat
    | 16 => x.wg.toNat
    | _ => 0
  else 0

/-- A tenant's write through its own debug window, which shows the core that DSEL names. -/
def State.debugWindow (s : State) (t o : Nat) (v : Dword) : State :=
  if (s.tenant t).dbgen then s.blockWrite (s.tenant t).dselCore o v (some t) else s

/-- DEBUG_WINDOW_WRITE: the subject gives the tenant, the offset in the window, and the value. -/
def execDebugWindowWrite (s : State) : Host.Outcome State Fault Refusal :=
  .next (match s.subject with
    | .value t o v => if t < 64 then s.debugWindow t o v else s
    | _ => s)

/-! ## Power (25 R426, R427) -/

def State.setMgmt (s : State) (m : Mgmt) : State := { s with mgmt := m }

/-- A command of a die's power state: ignored while BUSY, for D4 with a wave resident on the die, and for a reserved
code. -/
def State.pstateCmd (s : State) (d code : Nat) : State :=
  let p := SMap.read {} s.mgmt.pstate d
  if Config.dies ≤ d || p.busy || decide (4 < code) || (code == 4 && s.waves.any fun w => w.2.id.die == d) then s
  else s.setMgmt { s.mgmt with pstate := SMap.write {} s.mgmt.pstate d { p with cmd := code, busy := true } }

/-- A step on the die that it names. -/
def State.forDie (s : State) (f : State → Nat → State) : State :=
  match s.subject with
  | .ids d _ _ => f s d
  | .value d _ _ => f s d
  | _ => s

def execPstateD0 (s : State) : Host.Outcome State Fault Refusal := .next (s.forDie fun s d => s.pstateCmd d 0)
def execPstateD1 (s : State) : Host.Outcome State Fault Refusal := .next (s.forDie fun s d => s.pstateCmd d 1)
def execPstateD2 (s : State) : Host.Outcome State Fault Refusal := .next (s.forDie fun s d => s.pstateCmd d 2)
def execPstateD3 (s : State) : Host.Outcome State Fault Refusal := .next (s.forDie fun s d => s.pstateCmd d 3)
def execPstateD4 (s : State) : Host.Outcome State Fault Refusal := .next (s.forDie fun s d => s.pstateCmd d 4)

/-- The cores of a die. -/
def dieCores (d : Nat) : List Nat := (List.range Config.coresPerDie).map (Config.coresPerDie * d + ·)

/-- A location stands on a die. -/
def errOnDie (d : Nat) : ErrLoc → Bool
  | .sp c _ | .slice c _ | .regs c _ | .queues c _ | .tiles c _ => c / Config.coresPerDie == d
  | .qm q _ => q / (Config.coresPerDie / 4) == d
  | .cald e _ | .tables e _ | .cache _ e _ => e == d
  | .mem _ | .link _ => false

/-- A byte stands in a memory of a die. -/
def Loc.onDie (d : Nat) (l : Loc) : Bool :=
  match l.k with
  | .sp | .slice => l.a / Config.placeSpan / Config.coresPerDie == d
  | .qm => l.a / Config.placeSpan / (Config.coresPerDie / 4) == d
  | .cal => l.a / Config.calBytes == d
  | .m | .hole => false

/-- The waves whose place is a die. -/
def State.uidsOn (s : State) (d : Nat) : List Nat := ((s.ctxs.map (·.2)).filter fun c => c.id.die == d).map (·.id.uid)

/-- The continuations of a die are lost, those of its rays and those of batches that no wave runs yet: their grids wait for
them no longer. -/
def State.loseBins (s : State) (d : Nat) : State :=
  let mine (e : QEntry) : Bool := e.bits 2 0 == 1 && (s.uidsOn d).contains e.uid
  let grids := s.rays.filterMap fun r =>
    ((s.entries ++ s.jobs.map (·.e)).find? fun e => e.q == 8 && e.id == r.job && mine e).map fun e => (s.ctx e.uid).id.grid
  let batches := s.batches.filter fun b => b.die == d && !b.placed
  let s : State := { s with
    bins := s.bins.filter fun b => b.die != d
    batches := s.batches.filter fun b => !(b.die == d && !b.placed) }
  s.recordsGone (grids ++ batches.flatMap fun (b : Batch) => b.grids)

/-- A die loses its state (D4): buffered stores reach memory first; what its own memories held reads as memory that
nothing has written (log entry 3). What waves that have left the die still had pushed or issued there is lost. -/
def State.loseDie (s : State) (d : Nat) : State :=
  let mine (c : Nat) : Bool := c / Config.coresPerDie == d
  let s := s.moveAll (·.lq) State.moveLq fun e => mine e.own
  let s := s.moveAll (·.cb) State.moveCb fun e => mine e.own
  let s := ((s.writeBackDw d).deliverPq d).dropAllCopies d
  let s := (s.loseBins d).removeUids (s.uidsOn d)
  let span := Config.placeSpan
  let n := Config.coresPerDie
  { s with
    sp := SMap.dropRange s.sp (d * n * span) ((d + 1) * n * span)
    slice := SMap.dropRange s.slice (d * n * span) ((d + 1) * n * span)
    qm := SMap.dropRange s.qm (d * (n / 4) * span) ((d + 1) * (n / 4) * span)
    cal := SMap.dropRange s.cal (d * Config.calBytes) ((d + 1) * Config.calBytes)
    tiles := SMap.dropRange s.tiles (d * n * 2 ^ 32) ((d + 1) * n * 2 ^ 32)
    icache := SMap.dropRange s.icache (d * n * 2 ^ 50) ((d + 1) * n * 2 ^ 50)
    poison := s.poison.filter fun l => !l.onDie d
    badWords := s.badWords.filter fun e => !errOnDie d e
    tlb := s.tlb.filter fun t => t.die != d
    dicts := s.dicts.filter fun t => !mine t.core
    seqs := s.seqs.filter fun q => q.home != d
    blocks := SMap.dropRange s.blocks (d * n) ((d + 1) * n)
    held := SMap.dropRange s.held (d * n) ((d + 1) * n)
    turns := SMap.erase s.turns d }

/-- The READY bit of a die. -/
def dieBit (d : Nat) : BitVec 45 := BitVec.ofNat 45 (2 ^ (3 + d))

/-- May a die be ready: the security engine has verified its firmware, and it has not failed (25 R413, R431)? -/
def Mgmt.dieMayRun (m : Mgmt) (d : Nat) : Bool := m.ready.getLsbD 44 && !m.fail.getLsbD 44 && !m.fail.getLsbD (3 + d)

/-- PSTATE_DONE: the die named, or the first that is busy, reaches its state. In D4 its READY bit clears, which sets again
in D0 to D2, by whatever states it comes there, unless it may not run. -/
def execPstateDone (s : State) : Host.Outcome State Fault Refusal :=
  let busy (d : Nat) : Bool := (SMap.read {} s.mgmt.pstate d).busy
  .next (match (match s.subject with
      | .ids d _ _ => if busy d then some d else none
      | _ => (List.range Config.dies).find? busy) with
    | none => s
    | some d =>
      let p : PState := SMap.read {} s.mgmt.pstate d
      let back : Bool := p.off && decide (p.cmd < 3)
      let ready := if p.cmd = 4 then s.mgmt.ready &&& ~~~(dieBit d)
        else if back && s.mgmt.dieMayRun d then s.mgmt.ready ||| dieBit d else s.mgmt.ready
      let off := if p.cmd = 4 then p.off || s.mgmt.ready.getLsbD (3 + d) else p.off && !back
      let s := if p.cmd = 4 then s.loseDie d else s
      s.setMgmt { s.mgmt with
        ready, pstate := SMap.write ({} : PState) s.mgmt.pstate d { p with cur := p.cmd, busy := false, off } })

/-- CAP is clamped to 1,800–3,600 W. -/
def State.capWrite (s : State) (v : Nat) : State := s.setMgmt { s.mgmt with pwrcap := max 1800 (min 3600 (v % 65536)) }

def execPwrcapWrite (s : State) : Host.Outcome State Fault Refusal :=
  .next (match s.subject with
    | .value _ _ v => s.capWrite v.toNat
    | _ => s)

/-- Management vector 0, when an alarm bit sets. -/
def State.alarm (s : State) (was : Bool) (m : Mgmt) : State := if was then s.setMgmt m else (s.setMgmt m).raiseMgmt 0

/-- POWER_ALARM: the measured power has exceeded CAP. -/
def execPowerAlarm (s : State) : Host.Outcome State Fault Refusal :=
  .next (s.alarm s.mgmt.alarmPower { s.mgmt with alarmPower := true })

/-- TALARM as it acts: above 880 it acts as 880. -/
def Mgmt.talarmActs (m : Mgmt) : Int := min m.talarm.toInt 880

/-- A die's new temperature, when the step carries one. -/
def State.newTemp (s : State) : State :=
  match s.subject with
  | .value d _ v => if d < Config.dies then s.setMgmt { s.mgmt with temp := SMap.write 0 s.mgmt.temp d (v.setWidth 16) } else s
  | _ => s

def State.hotterThan (s : State) (x : Int) : Bool :=
  (List.range Config.dies).any fun d => decide (x < (SMap.read (0 : BitVec 16) s.mgmt.temp d).toInt)

/-- What the temperatures bring: above TALARM the THERM alarm; at 110 °C every die stops and CRIT sets, until a package
reset. -/
def State.judgeHeat (s : State) : State :=
  let s := if s.hotterThan s.mgmt.talarmActs then s.alarm s.mgmt.alarmTherm { s.mgmt with alarmTherm := true } else s
  if s.hotterThan 879 then s.alarm s.mgmt.alarmCrit { s.mgmt with alarmCrit := true, critical := true } else s

/-- THERMAL_ALARM, and THERMAL_CRITICAL: a die's temperature is measured. -/
def execThermalAlarm (s : State) : Host.Outcome State Fault Refusal := .next s.newTemp.judgeHeat
def execThermalCritical (s : State) : Host.Outcome State Fault Refusal := .next s.newTemp.judgeHeat

/-! ## Errors (25 R428–R430) -/

/-- The kind of a location (25 R430). -/
def errKind : ErrLoc → Nat
  | .mem pa => if paKind pa = .lpddr then 6 else 5
  | .cache l _ _ => if 1 ≤ l ∧ l ≤ 4 then l else 7
  | .link _ => 8
  | _ => 7

/-- A location's number: which number a location has is stated nowhere, so it is a free value of the location. -/
def errNumber (e : ErrLoc) : Nat :=
  let code : Nat := match e with
    | .mem pa => pa / 65536
    | .sp c b => 2 ^ 40 + c * 2 ^ 20 + b
    | .qm c b => 2 ^ 41 + c * 2 ^ 20 + b
    | .cald d b => 2 ^ 42 + d * 2 ^ 25 + b
    | .slice c b => 2 ^ 43 + c * 2 ^ 20 + b
    | .regs c w => 2 ^ 44 + c * 2 ^ 20 + w
    | .queues c w => 2 ^ 50 + c * 2 ^ 20 + w
    | .tiles c w => 2 ^ 51 + c * 2 ^ 20 + w
    | .tables d w => 2 ^ 52 + d * 2 ^ 30 + w
    | .cache l d f => 2 ^ 45 + (d * 8 + l) * 2 ^ 32 + f
    | .link n => 2 ^ 59 + n
  (Config.freeWord (2 ^ 60 + code)).toNat % 2 ^ 56

/-- The location of which errors are counted together: a page of memory, a protected word, a line frame. -/
def errUnit : ErrLoc → ErrLoc
  | .mem pa => .mem (pa / 65536 * 65536)
  | .sp c b => .sp c (b / 8 * 8)
  | .qm c b => .qm c (b / 8 * 8)
  | .cald d b => .cald d (b / 8 * 8)
  | .slice c b => .slice c (b / 8 * 8)
  | e => e

/-- An entry of the management error ring; ECC sets. -/
def State.errorEntry (s : State) (kind loc : Nat) (last unc : Bool) : State :=
  let v := s.mgmt.timer.toNat + kind * 2 ^ 64 + loc * 2 ^ 72 + last.toNat * 2 ^ 128 + unc.toNat * 2 ^ 129
  let s := (s.ringAppend .error (leBytes 32 v)).1
  s.alarm s.mgmt.alarmEcc { s.mgmt with alarmEcc := true }

/-- Microseconds in 86,400 s. -/
def dayMicros : Nat := 86400000000

/-- The history of a location. -/
def State.historyOf (s : State) (e : ErrLoc) : List Nat := ((s.mgmt.history.find? fun p => p.1 == e).map (·.2)).getD []

/-- The locations whose corrected errors are counted (25 R429); a link is none. -/
def errCounted : ErrLoc → Bool
  | .link _ => false
  | _ => true

/-- CORRECTED_ERROR: counted at its location; within 86,400 s of the second-to-last before it the fault is lasting, and
a line frame is fenced off, which no entry takes from then on. -/
def execCorrectedError (s : State) : Host.Outcome State Fault Refusal :=
  .next (match s.subject with
    | .loc e _ =>
      let u := errUnit e
      let old := s.historyOf u
      let now := s.mgmt.timer.toNat
      let last : Bool := errCounted e && match old with
        | [a, _] => decide (now ≤ a + dayMicros)
        | _ => false
      let new := (old ++ [now]).drop ((old.length + 1) - 2)
      let frames := match e with
        | .cache l d f =>
          if last && !s.mgmt.fencedFrames.contains (d, l * 2 ^ 32 + f) then s.mgmt.fencedFrames ++ [(d, l * 2 ^ 32 + f)]
          else s.mgmt.fencedFrames
        | _ => s.mgmt.fencedFrames
      let history := if errCounted e then (u, new) :: s.mgmt.history.filter fun p => p.1 != u else s.mgmt.history
      (s.setMgmt { s.mgmt with history, fencedFrames := frames }).tlbTrim.errorEntry (errKind e) (errNumber u) last false
    | _ => s)

/-- The bytes of the protected unit of a location (25 R428): 32 bytes of HBM, 8 of anything else. -/
def errBytes : ErrLoc → List Loc
  | .mem pa => if paKind pa = .lpddr then Loc.range ⟨.m, pa / 8 * 8⟩ 8 else Loc.range ⟨.m, pa / 32 * 32⟩ 32
  | .sp c b => Loc.range ⟨.sp, c * Config.placeSpan + b / 8 * 8⟩ 8
  | .qm q b => Loc.range ⟨.qm, q * Config.placeSpan + b / 8 * 8⟩ 8
  | .cald d b => Loc.range ⟨.cal, d * Config.calBytes + b / 8 * 8⟩ 8
  | .slice c b => Loc.range ⟨.slice, c * Config.placeSpan + b / 8 * 8⟩ 8
  | _ => []

/-- A context is reset because it consumed bad data. -/
def State.uncorrReset (s : State) (t kind : Nat) : State :=
  (s.forcedReset t).contextError (resetError t cUncorr (BitVec.ofNat 8 kind))

/-- A location holds poison: bytes of its protected unit, or the word or frame itself; a link holds nothing. -/
def State.bad (s : State) (e : ErrLoc) : State :=
  { s with
    poison := s.poison ++ (errBytes e).filter fun l => !s.poison.contains l
    badWords := if errBytes e = [] ∧ errCounted e ∧ errUnit e ∉ s.badWords then s.badWords ++ [errUnit e] else s.badWords }

/-- May a thing stand in a location? -/
def keptFits (x : Kept) (e : ErrLoc) : Bool :=
  match x, e with
  | .reg k _, .regs c _ => k / 96 == c
  | .entry _, .queues _ _ | .store _, .queues _ _ | .table _ _, .tables _ _ | .seq _ _, .tables _ _ => true
  | .store _, .cache l _ _ => l == 1 || l == 2
  | .copy d _, .cache l d' _ => l == 2 && d == d'
  | .fetch c _, .cache l d _ => l == 3 && c / Config.coresPerDie == d
  | .tlb _, .cache l _ _ => l == 4
  | _, _ => false

/-- What stands in a protected word or line frame is poison from now on (25 R428). -/
def State.spoil (s : State) (x : Kept) : State :=
  match x with
  | .reg k r => s.mapWave k fun w => { w with bad := w.bad ++ (regWords r).filter fun y => !w.bad.contains y }
  | .entry id => { s with entries := s.entries.map fun e => if e.id = id then { e with bad := true } else e }
  | .store id =>
    let mark (e : BufEnt) : BufEnt := if e.id = id then { e with bad := true } else e
    { s with lq := s.lq.map mark, cb := s.cb.map mark, dw := s.dw.map mark, pq := s.pq.map mark }
  | .copy d pa => s.spoilCopies d (pa / 8 * 8) 8 true
  | .fetch c pa => { s with badFetch := s.badFetch ++ [c * 2 ^ 50 + pa / 8 * 2, c * 2 ^ 50 + pa / 8 * 2 + 1] }
  | .tlb n => { s with tlb := s.tlb.zipIdx.map fun p => if p.2 = n then { p.1 with bad := true } else p.1 }
  | .table n j => { s with dicts := s.dicts.zipIdx.map fun p => if p.2 = n then { p.1 with bad := j :: p.1.bad } else p.1 }
  | .seq t id => { s with seqs := s.seqs.map fun q => if q.tenant = t ∧ q.id = id then { q with bad := true } else q }

/-- UNCORRECTABLE_ERROR: the location holds poison, the error is logged, and a context that consumes the data is reset. A
context that the step names for a word or frame which holds poison already has consumed that; with no subject, a context
that has consumed poison since. What stands in a word or frame is poison until it is written or gone; a complete write of
a word or frame in which nothing stands replaces its poison. -/
def execUncorrectableError (s : State) : Host.Outcome State Fault Refusal :=
  .next (match s.subject with
    | .loc e consumer =>
      let s := if consumer.isSome && s.badWords.contains (errUnit e) then s
        else (s.bad e).errorEntry (errKind e) (errNumber (errUnit e)) false true
      match consumer with
      | some t => s.uncorrReset t (errKind e)
      | none => s
    | .kept e x => if keptFits x e then (s.spoil x).errorEntry (errKind e) (errNumber (errUnit e)) false true else s
    | .rewritten e => { s with badWords := s.badWords.erase (errUnit e) }
    | _ =>
      match s.struck with
      | [] => s
      | (t, kind) :: _ => ({ s with struck := s.struck.filter fun x => x.1 != t }).uncorrReset t kind)

/-- The Adit ports and the bridges between two dies. -/
def linkCount : Nat := 16 + 64

/-- LINK_REPLAY: a flit of an Adit port or of a bridge fails its CRC and is replayed; the subject says whether the replay
succeeded, which corrects the error. With the 16th failed replay the error is uncorrectable, and a port's FAIL bit sets; the
map of FAIL holds none for a bridge. -/
def execLinkReplay (s : State) : Host.Outcome State Fault Refusal :=
  .next (match s.subject with
    | .ids link ok _ =>
      let n := SMap.read 0 s.mgmt.replays link
      if linkCount ≤ link || decide (16 ≤ n) then s
      else
        let num := errNumber (.link link)
        if ok ≠ 0 then (s.setMgmt { s.mgmt with replays := SMap.erase s.mgmt.replays link }).errorEntry 8 num false false
        else
          let s := s.setMgmt { s.mgmt with replays := SMap.insert s.mgmt.replays link (n + 1) }
          if n + 1 < 16 then s
          else
            let fail := if link < 16 then s.mgmt.fail ||| BitVec.ofNat 45 (2 ^ (28 + link)) else s.mgmt.fail
            (s.setMgmt { s.mgmt with fail }).errorEntry 8 num false true
    | _ => s)

/-! ## Readiness and reset (25 R413) -/

/-- PACKAGE_RESET: every part is as State.reset says; memory, its poison and the management timer are kept (log
entry 3). -/
def State.packageReset (s : State) : State :=
  { State.reset with
    mem := s.mem, poison := s.poison.filter fun l => l.k == .m, nextId := s.nextId, fresh := s.fresh
    agenda := s.agenda, meets := s.meets, outbound := s.outbound
    mgmt := { State.reset.mgmt with self := s.mgmt.self, timer := s.mgmt.timer } }

def execPackageReset (s : State) : Host.Outcome State Fault Refusal := .next s.packageReset

/-- May a function set its READY bit: the host link and the security engine at once; every other once the security engine
has verified the firmware, since an image that fails leaves all their bits clear (25 R413, R431); a die while its
clock runs and it has not lost its state since it was last in D0 to D2 (25 R426; DEDUCED, log entry 47: the self-test runs on
the die's clock), and none that has failed its self-test? -/
def Mgmt.mayReady (m : Mgmt) (bit : Nat) : Bool :=
  decide (bit < 45) && !m.fail.getLsbD bit &&
  (bit == 0 || !m.fail.getLsbD 44 && (bit == 44 || m.ready.getLsbD 44)) &&
  !(decide (3 ≤ bit) && decide (bit < 11) &&
    (decide (3 ≤ (SMap.read {} m.pstate (bit - 3)).cur) || (SMap.read {} m.pstate (bit - 3)).off))

/-- The stores that wait for a stack or tier go on once it is ready; where it fails instead each is an uncorrectable error of
its tenant (25 R414). -/
def State.settleStores (s : State) (bit : Nat) (failed : Bool) : State :=
  let mine := s.awaited.filter fun x => x.2 == bit
  if mine = [] then s
  else
    { s with
      awaited := s.awaited.filter fun x => x.2 != bit
      struck := if failed && !s.mgmt.ready.getLsbD bit then s.struck ++ mine.map fun x => (x.1, if bit = 27 then 6 else 5)
                else s.struck }

/-- FUNCTION_READY: a function sets its READY bit, or, when its self-test fails, its FAIL bit, whenever that comes; when a
verification fails FAIL.SEC sets and every READY bit but LINK is and stays clear (25 R431). -/
def execFunctionReady (s : State) : Host.Outcome State Fault Refusal :=
  .next (match s.subject with
    | .ids bit ok _ =>
      let b : BitVec 45 := BitVec.ofNat 45 (2 ^ bit)
      if ok ≠ 0 then
        if s.mgmt.mayReady bit then (s.settleStores bit false).setMgmt { s.mgmt with ready := s.mgmt.ready ||| b } else s
      else if 45 ≤ bit then s
      else
        let ready := if bit = 44 then s.mgmt.ready &&& 1 else s.mgmt.ready
        (s.settleStores bit true).setMgmt { s.mgmt with ready, fail := s.mgmt.fail ||| b }
    | _ => s)

/-! ## Measurement and attestation (25 R431, R432) -/

/-- Extend MEASj with data. -/
def Mgmt.extend (m : Mgmt) (j : Nat) (x : List Byte) : Mgmt :=
  let old := leBytes 64 (SMap.read (0 : BitVec 512) m.meas j).toNat
  { m with meas := SMap.write 0 m.meas j (BitVec.ofNat 512 (leNat (Keccak.shake256 (old ++ x)))) }

/-- A write of MEXT: ignored during an attestation, and for a register that is not the host's. -/
def State.mext (s : State) (j : Nat) : State :=
  if s.mgmt.attgo || !decide (8 ≤ j ∧ j ≤ 15) then s
  else s.setMgmt (s.mgmt.extend j (Memory.bytes s.mgmt.mextData 0 (min 4096 s.mgmt.mextLen)))

/-- MEAS_EXTEND: the host's write of MEXT, or an extension by firmware, whose registers are MEAS0 to MEAS7. -/
def execMeasExtend (s : State) : Host.Outcome State Fault Refusal :=
  .next (match s.subject with
    | .extend j x => if j < 8 then s.setMgmt (s.mgmt.extend j x) else s
    | .value j _ _ => s.mext j
    | .ids j _ _ => s.mext j
    | _ => s)

/-- ATTGO: an attestation starts, unless one runs. -/
def execAttgo (s : State) : Host.Outcome State Fault Refusal := .next (s.setMgmt { s.mgmt with attgo := true })

/-- The report before its signature. -/
def Mgmt.reportBody (m : Mgmt) : List Byte :=
  leBytes 8 1 ++ leBytes 8 m.timer.toNat ++ leBytes 8 m.ready.toNat ++ leBytes 40 0 ++ leBytes 64 m.nonce.toNat ++
    (List.range 16).flatMap fun j => leBytes 64 (SMap.read (0 : BitVec 512) m.meas j).toNat

/-- ATTEST_COMPLETE: the report stands, with a signature whose bytes the model leaves free, and ATTGO returns to 0. -/
def execAttestComplete (s : State) : Host.Outcome State Fault Refusal :=
  .next (if !s.mgmt.attgo then s
    else
      let sig := (List.range 3309).map fun i => Config.freeByte (s.fresh + i)
      { s with
        fresh := s.fresh + 3309
        mgmt := { s.mgmt with attgo := false, report := Memory.setBytes [] 0 (s.mgmt.reportBody ++ sig) } })

end Sys2Proof.Machine
end

