-- ==== Sys2Proof/Machine/Registers.lean ====
section
/-! DEFINITION. Accesses of 8 bytes to the BARs (00 R4, 23 R400, 25 R413–R432): each register by its offset, under its
access codes. What no register covers reads zero and ignores writes. -/

namespace Sys2Proof.Machine

open Sys2Proof

/-! ## A ring's registers (25 R418) -/

/-- The ring whose registers hold an offset of a tenant's block, with the place in them. -/
def ringAt (t o : Nat) : Option (RingId × Nat) :=
  if 0x080 ≤ o ∧ o < 0x0A8 then some (.feedback t, o - 0x080)
  else if 0x0C0 ≤ o ∧ o < 0x0E8 then some (.drill t, o - 0x0C0)
  else if 0x100 ≤ o ∧ o < 0x128 then some (.receive t, o - 0x100)
  else if 0x1C0 ≤ o ∧ o < 0x1E8 then some (.debug t, o - 0x1C0)
  else none

/-- A write to a register of a ring: BASE and N of a tenant's ring are S fields. -/
def State.ringWrite (s : State) (r : RingId) (o : Nat) (v : Dword) : State :=
  let x := s.ring r
  let set (y : Ring) : State := match ringTenant r with
    | some t => if (s.tenant t).idle then s.setRing r y else s.cfgErr t
    | none => s.setRing r y
  if !s.ringShown r then s
  else match o with
    | 0x00 => set { x with base := v }
    | 0x08 => set { x with n := v.setWidth 32 }
    | 0x18 => s.tailWrite r (v.setWidth 32)
    | 0x20 => s.setRing r { x with ovf := x.ovf &&& ~~~(v.setWidth 32) }
    | _ => s

def State.ringRead (s : State) (r : RingId) (o : Nat) : Nat :=
  let x := s.ring r
  if !s.ringShown r then 0
  else match o with
    | 0x00 => x.base.toNat
    | 0x08 => x.n.toNat
    | 0x10 => x.head.toNat
    | 0x18 => x.tail.toNat
    | 0x20 => x.ovf.toNat
    | _ => 0

/-! ## The launch block (23 R400) -/

/-- A write of TLCTL. -/
def State.tlctlWrite (s : State) (t : Nat) (v : Dword) : State :=
  let s := s.mapTenant t fun x => { x with weight := fieldNat v 15 8, en := v.getLsbD 0 }
  let s := if v.getLsbD 1 && (s.tenant t).state == .run then s.startDrain t none else s
  if v.getLsbD 2 && (s.tenant t).state == .stopped then s.enterRun t else s

/-- The code of STATE. -/
def RunState.code : RunState → Nat
  | .run => 0
  | .drain => 1
  | .stopped => 2

def State.launchWrite (s : State) (t o : Nat) (v : Dword) : State :=
  match o with
  | 0x000 => s.tlctlWrite t v
  | 0x008 => s.mapTenant t fun x => { x with slice := v.setWidth 32 }
  | 0x010 => s.mapTenant t fun x => { x with dead := v.setWidth 32 }
  | 0x018 => s.mapTenant t fun x =>
      { x with lerrOvf := x.lerrOvf && !v.getLsbD 32, lerrCode := x.lerrCode &&& (255 - fieldNat v 7 0) }
  | 0x020 => s.mapTenant t fun x => { x with gdrop := x.gdrop &&& ~~~(v.setWidth 32) }
  | _ =>
    if 0x100 ≤ o ∧ o < 0x180 then
      s.mapTenant t fun x =>
        { x with qpol := SMap.write (256, 2) x.qpol ((o - 0x100) / 8) (fieldNat v 27 16, fieldNat v 11 0) }
    else s

def State.launchRead (s : State) (t o : Nat) : Nat :=
  let x := s.tenant t
  match o with
  | 0x000 => x.weight * 2 ^ 8 + x.state.code * 2 ^ 4 + x.en.toNat
  | 0x008 => x.slice.toNat
  | 0x010 => x.dead.toNat
  | 0x018 => x.lerrNode * 2 ^ 40 + x.lerrOvf.toNat * 2 ^ 32 + x.lerrCode
  | 0x020 => x.gdrop.toNat
  | _ =>
    if 0x100 ≤ o ∧ o < 0x180 then
      let (cap, low) := SMap.read (256, 2) x.qpol ((o - 0x100) / 8)
      cap * 2 ^ 16 + low
    else 0

/-! ## The debug session's registers (25 R421) -/

def State.debugRegWrite (s : State) (t o : Nat) (v : Dword) : State :=
  let x := s.tenant t
  if !x.dbgen then s
  else match o with
    | 0x180 => s.mapTenant t fun x =>
        { x with dselCore := fieldNat v 26 16, dselHalf := v.getLsbD 6, dselSlot := fieldNat v 5 0 }
    | 0x188 =>
      let s := s.mapTenant t fun x => { x with dvec := fieldNat v 21 16 }
      s.dcmd t (fieldNat v 1 0)
    | _ =>
      if 0x1A0 ≤ o ∧ o < 0x1C0 ∧ !x.dcmdBusy then
        let k := 8 * (o - 0x1A0)
        let mask : BitVec 256 := BitVec.ofNat 256 (0xFFFFFFFFFFFFFFFF * 2 ^ k)
        s.mapTenant t fun x => { x with dqout := (x.dqout &&& ~~~mask) ||| BitVec.ofNat 256 (v.toNat * 2 ^ k) }
      else s

def State.debugRegRead (s : State) (t o : Nat) : Nat :=
  let x := s.tenant t
  if !x.dbgen then 0
  else match o with
    | 0x180 => x.dselCore * 2 ^ 16 + x.dselHalf.toNat * 2 ^ 6 + x.dselSlot
    | 0x188 => x.dvec * 2 ^ 16 + x.dcmdBusy.toNat * 2 ^ 8
    | _ => if 0x1A0 ≤ o ∧ o < 0x1C0 then bitsOf x.dqout.toNat (8 * (o - 0x1A0) + 63) (8 * (o - 0x1A0)) else 0

/-! ## A tenant's block (25 R415, R422–R424) -/

/-- A write of TCFG. -/
def State.tcfgWrite (s : State) (t : Nat) (v : Dword) : State :=
  let s := if v.getLsbD 34 then s.mapTenant t fun x => { x with dbgen := true } else s.dbgenClear t
  s.mapTenant t fun x =>
    { x with cfgerr := x.cfgerr && !v.getLsbD 35, errvec := fieldNat v 33 28, nvec := fieldNat v 27 22 }

/-- A write of 8 bytes to a tenant's block. DESIGN CHOICE (log entry 93): the notify registers, for which the spec gives
no access code, take the written value. -/
def State.tenantWrite (s : State) (t o : Nat) (v : Dword) : State :=
  match ringAt t o with
  | some (r, k) => s.ringWrite r k v
  | none =>
    match o with
    | 0x000 => s.tcfgWrite t v
    | 0x008 => s.idleWrite t fun x => { x with root := v }
    | 0x010 => s.inval t v
    | 0x018 => s.mapTenant t fun x => { x with hentry := v }
    | 0x020 => s.idleWrite t fun x => { x with trapbase := v }
    | 0x028 => s.mapTenant t fun x => { x with wdog := v.setWidth 32 }
    | 0x030 => s.idleWrite t fun x => { x with seqb := v }
    | 0x038 => s.seqnWrite t v
    | 0x140 => if v.getLsbD 0 then s.msgSend t else s
    | 0x148 => s.cerraWrite t v
    | _ =>
      if 0x040 ≤ o ∧ o < 0x080 then s.calwWrite t ((o - 0x040) / 8) v
      else if 0x180 ≤ o ∧ o < 0x1C0 then s.debugRegWrite t o v
      else if 0x1000 ≤ o ∧ o < 0x2000 then s.launchWrite t (o - 0x1000) v
      else if 0x2000 ≤ o ∧ o < 0x2800 then
        s.mapTenant t fun x => { x with notify := SMap.write 0 x.notify ((o - 0x2000) / 8) v }
      else if 0x2800 ≤ o ∧ o < 0x2820 then
        s.mapTenant t fun x => { x with notifyPend := x.notifyPend &&& ~~~(BitVec.ofNat 256 (v.toNat * 2 ^ (8 * (o - 0x2800)))) }
      else if 0x4000 ≤ o ∧ o < 0x5010 then s.mapTenant t fun x => x.windowWrite (o - 0x4000) v
      else if 0x6000 ≤ o ∧ o < 0x6400 then s.debugWindow t (o - 0x6000) v
      else s

/-- CERRA as it reads. -/
def CErr.word (e : CErr) : Nat :=
  e.ovf.toNat * 2 ^ 63 + e.first * 2 ^ 44 + e.queue * 2 ^ 40 + e.sub * 2 ^ 32 + e.die * 2 ^ 26 + e.core * 2 ^ 18
    + e.half.toNat * 2 ^ 14 + e.slot * 2 ^ 8 + e.cause

/-- A read of 8 bytes of a tenant's block. -/
def State.tenantRead (s : State) (t o : Nat) : Nat :=
  let x := s.tenant t
  match ringAt t o with
  | some (r, k) => s.ringRead r k
  | none =>
    match o with
    | 0x000 => t * 2 ^ 36 + x.cfgerr.toNat * 2 ^ 35 + x.dbgen.toNat * 2 ^ 34 + x.errvec * 2 ^ 28 + x.nvec * 2 ^ 22
    | 0x008 => x.root.toNat
    | 0x010 => x.invalPage.toNat * 2 ^ 16 + x.invalKind * 4 + x.invalBusy.toNat * 2
    | 0x018 => x.hentry.toNat
    | 0x020 => x.trapbase.toNat
    | 0x028 => x.wdog.toNat
    | 0x030 => x.seqb.toNat
    | 0x038 => x.seqn
    | 0x140 => x.sendBusy.toNat * 2
    | 0x148 => x.cerr.word
    | 0x150 => x.cerr.b.toNat
    | 0x158 => x.cerr.c.toNat
    | _ =>
      if 0x040 ≤ o ∧ o < 0x080 then
        let (size, base) := SMap.read (0, 0) x.calw ((o - 0x040) / 8)
        size * 2 ^ 16 + base
      else if 0x180 ≤ o ∧ o < 0x1C0 then s.debugRegRead t o
      else if 0x1000 ≤ o ∧ o < 0x2000 then s.launchRead t (o - 0x1000)
      else if 0x2000 ≤ o ∧ o < 0x2800 then (SMap.read 0 x.notify ((o - 0x2000) / 8)).toNat
      else if 0x2800 ≤ o ∧ o < 0x2820 then bitsOf x.notifyPend.toNat (8 * (o - 0x2800) + 63) (8 * (o - 0x2800))
      else if 0x4000 ≤ o ∧ o < 0x4010 then bitsOf x.msgHead.toNat (8 * (o - 0x4000) + 63) (8 * (o - 0x4000))
      else if 0x4010 ≤ o ∧ o < 0x5010 then leNat (Memory.bytes x.msgBody (o - 0x4010) 8)
      else if 0x6000 ≤ o ∧ o < 0x6400 then (if x.dbgen then s.blockRead x.dselCore (o - 0x6000) else 0)
      else 0

/-! ## The management function (13 R250, 25 R413, R420, R426–R432) -/

/-- The key of a route entry at an offset of a hub's block. -/
def routeKey (o : Nat) : Option Nat :=
  let h := if 0x9000 ≤ o ∧ o < 0x9100 then some 0 else if 0xD000 ≤ o ∧ o < 0xD100 then some 1 else none
  h.map fun h => h * 32 + o % 0x100 / 8

/-- CFENCE: a clear bit fences its core. -/
def Mgmt.fenceWrite (m : Mgmt) (word : Nat) (v : Dword) : Mgmt :=
  let others := m.fencedCores.filter fun c => c / 64 != word
  { m with fencedCores := others ++ ((List.range 64).filter fun b => !v.getLsbD b).map (64 * word + ·) }

def Mgmt.fenceRead (m : Mgmt) (word : Nat) : Nat :=
  (List.range 64).foldl (fun n b => if m.fencedCores.contains (64 * word + b) then n else n + 2 ^ b) 0

/-- Replace 8 bytes of the nonce. -/
def Mgmt.nonceWrite (m : Mgmt) (o : Nat) (v : Dword) : Mgmt :=
  let mask : BitVec 512 := BitVec.ofNat 512 (0xFFFFFFFFFFFFFFFF * 2 ^ (8 * o))
  { m with nonce := (m.nonce &&& ~~~mask) ||| BitVec.ofNat 512 (v.toNat * 2 ^ (8 * o)) }

/-- A write of 8 bytes to the management function's block. -/
def State.mgmtWrite (s : State) (o : Nat) (v : Dword) : State :=
  let m := s.mgmt
  match o with
  | 0x0200 => s.capWrite v.toNat
  | 0x0210 => s.setMgmt { m with
      alarmPower := m.alarmPower && !v.getLsbD 0, alarmTherm := m.alarmTherm && !v.getLsbD 1
      alarmEcc := m.alarmEcc && !v.getLsbD 2 }
  | 0x0280 => s.setMgmt { m with talarm := v.setWidth 16 }
  | 0x0600 => s.setMgmt { m with dbgsel := fieldNat v 10 0 }
  | 0x0800 => s.mext (fieldNat v 3 0)
  | 0x0808 => s.setMgmt { m with mextLen := v.toNat }
  | 0x0940 => if v.getLsbD 0 then s.setMgmt { m with attgo := true } else s
  | _ =>
    if 0x0100 ≤ o ∧ o < 0x0140 then s.pstateCmd ((o - 0x0100) / 8) (fieldNat v 2 0)
    else if 0x0400 ≤ o ∧ o < 0x04C0 then s.setMgmt (m.fenceWrite ((o - 0x0400) / 8) v)
    else if 0x0500 ≤ o ∧ o < 0x0528 then s.ringWrite .error (o - 0x0500) v
    else if 0x0900 ≤ o ∧ o < 0x0940 then (if m.attgo then s else s.setMgmt (m.nonceWrite (o - 0x0900) v))
    else if 0x1000 ≤ o ∧ o < 0x2000 then
      s.setMgmt { m with mextData := Memory.setBytes m.mextData (o - 0x1000) (leBytes 8 v.toNat) }
    else if 0x6000 ≤ o ∧ o < 0x6400 then s.blockWrite m.dbgsel (o - 0x6000) v none
    else match routeKey o with
      | some k => s.setMgmt { m with routes := SMap.write (false, 0) m.routes k (v.getLsbD 31, fieldNat v 19 16) }
      | none => s

/-- A read of 8 bytes of the management function's block; PWR is measured, and the device's key and certificate are its
own. DESIGN CHOICE (log entry 93): MEXT, for which the spec gives no access code, reads zero, as a register whose write is
a command; its data, its length and the nonce read as they were written. -/
def State.mgmtRead (s : State) (o : Nat) : State × Nat :=
  let m := s.mgmt
  match o with
  | 0x0000 => (s, m.ready.toNat)
  | 0x0008 => (s, m.fail.toNat)
  | 0x0200 => (s, m.pwrcap)
  | 0x0208 => ({ s with fresh := s.fresh + 1 }, Config.freeNat s.fresh % 2 ^ 64)
  | 0x0210 => (s, m.alarmPower.toNat + m.alarmTherm.toNat * 2 + m.alarmEcc.toNat * 4 + m.alarmCrit.toNat * 8)
  | 0x0280 => (s, m.talarm.toNat)
  | 0x0600 => (s, m.dbgsel)
  | 0x0808 => (s, m.mextLen)
  | 0x0940 => (s, m.attgo.toNat)
  | _ =>
    if 0x0100 ≤ o ∧ o < 0x0140 then
      let p := SMap.read ({} : PState) m.pstate ((o - 0x0100) / 8)
      (s, p.cmd + p.cur * 2 ^ 4 + p.busy.toNat * 2 ^ 8)
    else if 0x0300 ≤ o ∧ o < 0x0340 then (s, (SMap.read (0 : BitVec 16) m.temp ((o - 0x0300) / 8)).toNat)
    else if 0x0400 ≤ o ∧ o < 0x04C0 then (s, m.fenceRead ((o - 0x0400) / 8))
    else if 0x0500 ≤ o ∧ o < 0x0528 then (s, s.ringRead .error (o - 0x0500))
    else if 0x0900 ≤ o ∧ o < 0x0940 then (s, bitsOf m.nonce.toNat (8 * (o - 0x0900) + 63) (8 * (o - 0x0900)))
    else if 0x1000 ≤ o ∧ o < 0x2000 then (s, leNat (Memory.bytes m.mextData (o - 0x1000) 8))
    else if 0x2000 ≤ o ∧ o < 0x3000 then (s, (Config.freeWord (2 ^ 62 + o)).toNat)
    else if 0x3000 ≤ o ∧ o < 0x4170 then (s, leNat (Memory.bytes m.report (o - 0x3000) 8))
    else if 0x6000 ≤ o ∧ o < 0x6400 then (s, s.blockRead m.dbgsel (o - 0x6000))
    else match routeKey o with
      | some k =>
        let (v, port) := SMap.read (false, 0) m.routes k
        (s, v.toNat * 2 ^ 31 + port * 2 ^ 16 + m.self)
      | none => (s, 0)

/-- REGISTER_WRITE: one access of 8 bytes to a function's BAR; a read's value is the answer. -/
def execRegisterWrite (s : State) : Host.Outcome State Fault Refusal :=
  .next (match s.subject with
    | .reg r =>
      if r.off % 8 ≠ 0 || (!r.mgmt && 64 ≤ r.tenant) then s
      else
        match r.mgmt, r.write with
        | true, true => s.mgmtWrite r.off r.value
        | false, true => s.tenantWrite r.tenant r.off r.value
        | true, false =>
          let (s, v) := s.mgmtRead r.off
          { s with answer := leBytes 8 v, answerPoison := false }
        | false, false => { s with answer := leBytes 8 (s.tenantRead r.tenant r.off), answerPoison := false }
    | _ => s)

end Sys2Proof.Machine
end

