-- ==== Sys2Proof/Machine/Dispatch.lean ====
section
/-! DEFINITION. What each instruction and each step of the machine does: one arm for each constructor. -/

namespace Sys2Proof.Machine

open Sys2Proof

def exec (i : Instr) (s : State) : Host.Outcome State Fault Refusal :=
  match i with
  | .clause e => Sys2Proof.Machine.execClause e s
  | .dref e => Sys2Proof.Machine.execDref e s
  | .iaddBaseV e => Sys2Proof.Machine.execIaddBaseV e s
  | .isubBaseV e => Sys2Proof.Machine.execIsubBaseV e s
  | .imulBaseV e => Sys2Proof.Machine.execImulBaseV e s
  | .andBaseV e => Sys2Proof.Machine.execAndBaseV e s
  | .orBaseV e => Sys2Proof.Machine.execOrBaseV e s
  | .xorBaseV e => Sys2Proof.Machine.execXorBaseV e s
  | .ishlBaseV e => Sys2Proof.Machine.execIshlBaseV e s
  | .lshrBaseV e => Sys2Proof.Machine.execLshrBaseV e s
  | .iminI32BaseV e => Sys2Proof.Machine.execIminI32BaseV e s
  | .imaxI32BaseV e => Sys2Proof.Machine.execImaxI32BaseV e s
  | .iminN32BaseV e => Sys2Proof.Machine.execIminN32BaseV e s
  | .imaxN32BaseV e => Sys2Proof.Machine.execImaxN32BaseV e s
  | .imulhI32BaseV e => Sys2Proof.Machine.execImulhI32BaseV e s
  | .imulhN32BaseV e => Sys2Proof.Machine.execImulhN32BaseV e s
  | .ishrI32BaseV e => Sys2Proof.Machine.execIshrI32BaseV e s
  | .faddBaseV e => Sys2Proof.Machine.execFaddBaseV e s
  | .fsubBaseV e => Sys2Proof.Machine.execFsubBaseV e s
  | .fmulBaseV e => Sys2Proof.Machine.execFmulBaseV e s
  | .fminBaseV e => Sys2Proof.Machine.execFminBaseV e s
  | .fmaxBaseV e => Sys2Proof.Machine.execFmaxBaseV e s
  | .iaddBaseS e => Sys2Proof.Machine.execIaddBaseS e s
  | .isubBaseS e => Sys2Proof.Machine.execIsubBaseS e s
  | .imulBaseS e => Sys2Proof.Machine.execImulBaseS e s
  | .andBaseS e => Sys2Proof.Machine.execAndBaseS e s
  | .orBaseS e => Sys2Proof.Machine.execOrBaseS e s
  | .xorBaseS e => Sys2Proof.Machine.execXorBaseS e s
  | .ishlBaseS e => Sys2Proof.Machine.execIshlBaseS e s
  | .lshrBaseS e => Sys2Proof.Machine.execLshrBaseS e s
  | .iminI32BaseS e => Sys2Proof.Machine.execIminI32BaseS e s
  | .imaxI32BaseS e => Sys2Proof.Machine.execImaxI32BaseS e s
  | .iminN32BaseS e => Sys2Proof.Machine.execIminN32BaseS e s
  | .imaxN32BaseS e => Sys2Proof.Machine.execImaxN32BaseS e s
  | .imulhI32BaseS e => Sys2Proof.Machine.execImulhI32BaseS e s
  | .imulhN32BaseS e => Sys2Proof.Machine.execImulhN32BaseS e s
  | .ishrI32BaseS e => Sys2Proof.Machine.execIshrI32BaseS e s
  | .faddBaseS e => Sys2Proof.Machine.execFaddBaseS e s
  | .fsubBaseS e => Sys2Proof.Machine.execFsubBaseS e s
  | .fmulBaseS e => Sys2Proof.Machine.execFmulBaseS e s
  | .fminBaseS e => Sys2Proof.Machine.execFminBaseS e s
  | .fmaxBaseS e => Sys2Proof.Machine.execFmaxBaseS e s
  | .iaddi e => Sys2Proof.Machine.execIaddi e s
  | .andi e => Sys2Proof.Machine.execAndi e s
  | .ori e => Sys2Proof.Machine.execOri e s
  | .xori e => Sys2Proof.Machine.execXori e s
  | .ishli e => Sys2Proof.Machine.execIshli e s
  | .shi e => Sys2Proof.Machine.execShi e s
  | .iadd e => Sys2Proof.Machine.execIadd e s
  | .isub e => Sys2Proof.Machine.execIsub e s
  | .iaddc e => Sys2Proof.Machine.execIaddc e s
  | .imul e => Sys2Proof.Machine.execImul e s
  | .imulh e => Sys2Proof.Machine.execImulh e s
  | .imad e => Sys2Proof.Machine.execImad e s
  | .imin e => Sys2Proof.Machine.execImin e s
  | .imax e => Sys2Proof.Machine.execImax e s
  | .iabs e => Sys2Proof.Machine.execIabs e s
  | .ineg e => Sys2Proof.Machine.execIneg e s
  | .ishl e => Sys2Proof.Machine.execIshl e s
  | .ishr e => Sys2Proof.Machine.execIshr e s
  | .lshr e => Sys2Proof.Machine.execLshr e s
  | .andX e => Sys2Proof.Machine.execAndX e s
  | .orX e => Sys2Proof.Machine.execOrX e s
  | .xorX e => Sys2Proof.Machine.execXorX e s
  | .notX e => Sys2Proof.Machine.execNotX e s
  | .popc e => Sys2Proof.Machine.execPopc e s
  | .clz e => Sys2Proof.Machine.execClz e s
  | .brev e => Sys2Proof.Machine.execBrev e s
  | .bfx e => Sys2Proof.Machine.execBfx e s
  | .bfi e => Sys2Proof.Machine.execBfi e s
  | .icmp e => Sys2Proof.Machine.execIcmp e s
  | .selX e => Sys2Proof.Machine.execSelX e s
  | .fadd e => Sys2Proof.Machine.execFadd e s
  | .fsub e => Sys2Proof.Machine.execFsub e s
  | .fmul e => Sys2Proof.Machine.execFmul e s
  | .fma e => Sys2Proof.Machine.execFma e s
  | .fmin e => Sys2Proof.Machine.execFmin e s
  | .fmax e => Sys2Proof.Machine.execFmax e s
  | .fabs e => Sys2Proof.Machine.execFabs e s
  | .fneg e => Sys2Proof.Machine.execFneg e s
  | .fcmp e => Sys2Proof.Machine.execFcmp e s
  | .fclass e => Sys2Proof.Machine.execFclass e s
  | .fdiv e => Sys2Proof.Machine.execFdiv e s
  | .fsqrt e => Sys2Proof.Machine.execFsqrt e s
  | .frcp e => Sys2Proof.Machine.execFrcp e s
  | .frsq e => Sys2Proof.Machine.execFrsq e s
  | .fex2 e => Sys2Proof.Machine.execFex2 e s
  | .flg2 e => Sys2Proof.Machine.execFlg2 e s
  | .dadd e => Sys2Proof.Machine.execDadd e s
  | .dmul e => Sys2Proof.Machine.execDmul e s
  | .dfma e => Sys2Proof.Machine.execDfma e s
  | .cvt e => Sys2Proof.Machine.execCvt e s
  | .frnd e => Sys2Proof.Machine.execFrnd e s
  | .pack e => Sys2Proof.Machine.execPack e s
  | .unpack e => Sys2Proof.Machine.execUnpack e s
  | .kand e => Sys2Proof.Machine.execKand e s
  | .kor e => Sys2Proof.Machine.execKor e s
  | .kxor e => Sys2Proof.Machine.execKxor e s
  | .knot e => Sys2Proof.Machine.execKnot e s
  | .kmov e => Sys2Proof.Machine.execKmov e s
  | .kpopc e => Sys2Proof.Machine.execKpopc e s
  | .kfirst e => Sys2Proof.Machine.execKfirst e s
  | .kany e => Sys2Proof.Machine.execKany e s
  | .kall e => Sys2Proof.Machine.execKall e s
  | .shfl e => Sys2Proof.Machine.execShfl e s
  | .shflx e => Sys2Proof.Machine.execShflx e s
  | .shflup e => Sys2Proof.Machine.execShflup e s
  | .shfldn e => Sys2Proof.Machine.execShfldn e s
  | .bcast e => Sys2Proof.Machine.execBcast e s
  | .redw e => Sys2Proof.Machine.execRedw e s
  | .scanw e => Sys2Proof.Machine.execScanw e s
  | .movx e => Sys2Proof.Machine.execMovx e s
  | .movxw e => Sys2Proof.Machine.execMovxw e s
  | .xswap e => Sys2Proof.Machine.execXswap e s
  | .ifX e => Sys2Proof.Machine.execIfX e s
  | .elseX e => Sys2Proof.Machine.execElseX e s
  | .endif e => Sys2Proof.Machine.execEndif e s
  | .loopX e => Sys2Proof.Machine.execLoopX e s
  | .endloop e => Sys2Proof.Machine.execEndloop e s
  | .breakX e => Sys2Proof.Machine.execBreakX e s
  | .joinX e => Sys2Proof.Machine.execJoinX e s
  | .bra e => Sys2Proof.Machine.execBra e s
  | .bz e => Sys2Proof.Machine.execBz e s
  | .bnz e => Sys2Proof.Machine.execBnz e s
  | .call e => Sys2Proof.Machine.execCall e s
  | .calli e => Sys2Proof.Machine.execCalli e s
  | .ret e => Sys2Proof.Machine.execRet e s
  | .exit e => Sys2Proof.Machine.execExit e s
  | .nop e => Sys2Proof.Machine.execNop e s
  | .yield e => Sys2Proof.Machine.execYield e s
  | .ld e => Sys2Proof.Machine.execLd e s
  | .ldb e => Sys2Proof.Machine.execLdb e s
  | .ldc e => Sys2Proof.Machine.execLdc e s
  | .lda e => Sys2Proof.Machine.execLda e s
  | .prf e => Sys2Proof.Machine.execPrf e s
  | .st e => Sys2Proof.Machine.execSt e s
  | .stb e => Sys2Proof.Machine.execStb e s
  | .stl e => Sys2Proof.Machine.execStl e s
  | .fao e => Sys2Proof.Machine.execFao e s
  | .cas e => Sys2Proof.Machine.execCas e s
  | .red e => Sys2Proof.Machine.execRed e s
  | .vat e => Sys2Proof.Machine.execVat e s
  | .xacc e => Sys2Proof.Machine.execXacc e s
  | .xrd e => Sys2Proof.Machine.execXrd e s
  | .xclr e => Sys2Proof.Machine.execXclr e s
  | .fence e => Sys2Proof.Machine.execFence e s
  | .qfence e => Sys2Proof.Machine.execQfence e s
  | .barX e => Sys2Proof.Machine.execBar e s
  | .bara e => Sys2Proof.Machine.execBara e s
  | .barw e => Sys2Proof.Machine.execBarw e s
  | .qpush e => Sys2Proof.Machine.execQpush e s
  | .qpop e => Sys2Proof.Machine.execQpop e s
  | .qpeek e => Sys2Proof.Machine.execQpeek e s
  | .trapX e => Sys2Proof.Machine.execTrap e s
  | .tret e => Sys2Proof.Machine.execTret e s
  | .sysc e => Sys2Proof.Machine.execSysc e s
  | .bkpt e => Sys2Proof.Machine.execBkpt e s
  | .rds e => Sys2Proof.Machine.execRds e s
  | .wrs e => Sys2Proof.Machine.execWrs e s
  | .icf e => Sys2Proof.Machine.execIcf e s
  | .haltX e => Sys2Proof.Machine.execHalt e s
  | .cpy e => Sys2Proof.Machine.execCpy e s
  | .cpy2d e => Sys2Proof.Machine.execCpy2d e s
  | .gth e => Sys2Proof.Machine.execGth e s
  | .sct e => Sys2Proof.Machine.execSct e s
  | .xcode e => Sys2Proof.Machine.execXcode e s
  | .coll e => Sys2Proof.Machine.execColl e s
  | .mma e => Sys2Proof.Machine.execMma e s
  | .mzero e => Sys2Proof.Machine.execMzero e s
  | .mlda e => Sys2Proof.Machine.execMlda e s
  | .mldb e => Sys2Proof.Machine.execMldb e s
  | .munf e => Sys2Proof.Machine.execMunf e s
  | .mdrn e => Sys2Proof.Machine.execMdrn e s
  | .mhist e => Sys2Proof.Machine.execMhist e s
  | .mstat e => Sys2Proof.Machine.execMstat e s
  | .draw e => Sys2Proof.Machine.execDraw e s
  | .drawf e => Sys2Proof.Machine.execDrawf e s
  | .kdraw e => Sys2Proof.Machine.execKdraw e s
  | .chsite e => Sys2Proof.Machine.execChsite e s
  | .chrec e => Sys2Proof.Machine.execChrec e s
  | .result e => Sys2Proof.Machine.execResult e s
  | .chmut e => Sys2Proof.Machine.execChmut e s
  | .chstat e => Sys2Proof.Machine.execChstat e s
  | .chkey e => Sys2Proof.Machine.execChkey e s
  | .tsamp e => Sys2Proof.Machine.execTsamp e s
  | .tdraft e => Sys2Proof.Machine.execTdraft e s
  | .tconf e => Sys2Proof.Machine.execTconf e s
  | .trej e => Sys2Proof.Machine.execTrej e s
  | .twatchSet e => Sys2Proof.Machine.execTwatchSet e s
  | .twatchClear e => Sys2Proof.Machine.execTwatchClear e s
  | .twatchOpen e => Sys2Proof.Machine.execTwatchOpen e s
  | .twatchClose e => Sys2Proof.Machine.execTwatchClose e s
  | .twatchThaw e => Sys2Proof.Machine.execTwatchThaw e s
  | .twatchSync e => Sys2Proof.Machine.execTwatchSync e s
  | .tinj e => Sys2Proof.Machine.execTinj e s
  | .tfork e => Sys2Proof.Machine.execTfork e s
  | .tstat e => Sys2Proof.Machine.execTstat e s
  | .trav e => Sys2Proof.Machine.execTrav e s
  | .travc e => Sys2Proof.Machine.execTravc e s
  | .tres e => Sys2Proof.Machine.execTres e s
  | .ttok e => Sys2Proof.Machine.execTtok e s
  | .smpl e => Sys2Proof.Machine.execSmpl e s
  | .sres e => Sys2Proof.Machine.execSres e s
  | .asbeg e => Sys2Proof.Machine.execAsbeg e s
  | .assegMove e => Sys2Proof.Machine.execAssegMove e s
  | .assegLine e => Sys2Proof.Machine.execAssegLine e s
  | .assegQuad e => Sys2Proof.Machine.execAssegQuad e s
  | .assegCubic e => Sys2Proof.Machine.execAssegCubic e s
  | .assegV e => Sys2Proof.Machine.execAssegV e s
  | .asend e => Sys2Proof.Machine.execAsend e s
  | .asdrn e => Sys2Proof.Machine.execAsdrn e s
  | .asstat e => Sys2Proof.Machine.execAsstat e s
  | .lnch e => Sys2Proof.Machine.execLnch e s
  | .armX e => Sys2Proof.Machine.execArm e s
  | .sigh e => Sys2Proof.Machine.execSigh e s
  | .xswapPair => Sys2Proof.Machine.execXswapPair s
  | .xswapTimeout => Sys2Proof.Machine.execXswapTimeout s
  | .splitMerge => Sys2Proof.Machine.execSplitMerge s
  | .joinRelease => Sys2Proof.Machine.execJoinRelease s
  | .yieldExpiry => Sys2Proof.Machine.execYieldExpiry s
  | .barrierComplete => Sys2Proof.Machine.execBarrierComplete s
  | .longLatencyComplete => Sys2Proof.Machine.execLongLatencyComplete s
  | .tokenWrite => Sys2Proof.Machine.execTokenWrite s
  | .performLsEntry => Sys2Proof.Machine.execPerformLsEntry s
  | .drainLq => Sys2Proof.Machine.execDrainLq s
  | .propagateCb => Sys2Proof.Machine.execPropagateCb s
  | .writeBackDw => Sys2Proof.Machine.execWriteBackDw s
  | .dropCopy => Sys2Proof.Machine.execDropCopy s
  | .deliverPq => Sys2Proof.Machine.execDeliverPq s
  | .bufferMerge => Sys2Proof.Machine.execBufferMerge s
  | .remoteRequest => Sys2Proof.Machine.execRemoteRequest s
  | .hostMemAccess => Sys2Proof.Machine.execHostMemAccess s
  | .pageWalk => Sys2Proof.Machine.execPageWalk s
  | .combinePair => Sys2Proof.Machine.execCombinePair s
  | .combineReturn => Sys2Proof.Machine.execCombineReturn s
  | .guardExpiry => Sys2Proof.Machine.execGuardExpiry s
  | .trapEntry => Sys2Proof.Machine.execTrapEntry s
  | .watchdog => Sys2Proof.Machine.execWatchdog s
  | .engineFault => Sys2Proof.Machine.execEngineFault s
  | .debugStop => Sys2Proof.Machine.execDebugStop s
  | .pcmatch => Sys2Proof.Machine.execPcmatch s
  | .q15DebugEntry => Sys2Proof.Machine.execQ15DebugEntry s
  | .timeSliceExpiry => Sys2Proof.Machine.execTimeSliceExpiry s
  | .deadlineExpiry => Sys2Proof.Machine.execDeadlineExpiry s
  | .contextStopped => Sys2Proof.Machine.execContextStopped s
  | .contextAutoResume => Sys2Proof.Machine.execContextAutoResume s
  | .cpyEntry => Sys2Proof.Machine.execCpyEntry s
  | .cpy2dEntry => Sys2Proof.Machine.execCpy2dEntry s
  | .gthEntry => Sys2Proof.Machine.execGthEntry s
  | .sctEntry => Sys2Proof.Machine.execSctEntry s
  | .xcodeEntry => Sys2Proof.Machine.execXcodeEntry s
  | .collInstance => Sys2Proof.Machine.execCollInstance s
  | .collTimeout => Sys2Proof.Machine.execCollTimeout s
  | .mmaEntry => Sys2Proof.Machine.execMmaEntry s
  | .joinInstanceForm => Sys2Proof.Machine.execJoinInstanceForm s
  | .joinInstanceStart => Sys2Proof.Machine.execJoinInstanceStart s
  | .joinTimeout => Sys2Proof.Machine.execJoinTimeout s
  | .mzeroEntry => Sys2Proof.Machine.execMzeroEntry s
  | .mldaEntry => Sys2Proof.Machine.execMldaEntry s
  | .mldbEntry => Sys2Proof.Machine.execMldbEntry s
  | .munfEntry => Sys2Proof.Machine.execMunfEntry s
  | .mdrnEntry => Sys2Proof.Machine.execMdrnEntry s
  | .mhistEntry => Sys2Proof.Machine.execMhistEntry s
  | .matrixStatusPost => Sys2Proof.Machine.execMatrixStatusPost s
  | .mBuild => Sys2Proof.Machine.execMBuild s
  | .drawRecord => Sys2Proof.Machine.execDrawRecord s
  | .chrecEntry => Sys2Proof.Machine.execChrecEntry s
  | .resultEntry => Sys2Proof.Machine.execResultEntry s
  | .resultPost => Sys2Proof.Machine.execResultPost s
  | .chmutEntry => Sys2Proof.Machine.execChmutEntry s
  | .tsampEntry => Sys2Proof.Machine.execTsampEntry s
  | .tdraftEntry => Sys2Proof.Machine.execTdraftEntry s
  | .tconfEntry => Sys2Proof.Machine.execTconfEntry s
  | .trejEntry => Sys2Proof.Machine.execTrejEntry s
  | .twatchSetEntry => Sys2Proof.Machine.execTwatchSetEntry s
  | .twatchClearEntry => Sys2Proof.Machine.execTwatchClearEntry s
  | .twatchOpenEntry => Sys2Proof.Machine.execTwatchOpenEntry s
  | .twatchCloseEntry => Sys2Proof.Machine.execTwatchCloseEntry s
  | .twatchThawEntry => Sys2Proof.Machine.execTwatchThawEntry s
  | .twatchSyncEntry => Sys2Proof.Machine.execTwatchSyncEntry s
  | .tinjEntry => Sys2Proof.Machine.execTinjEntry s
  | .tforkEntry => Sys2Proof.Machine.execTforkEntry s
  | .tokenResultPost => Sys2Proof.Machine.execTokenResultPost s
  | .rayTraversal => Sys2Proof.Machine.execRayTraversal s
  | .tresEntry => Sys2Proof.Machine.execTresEntry s
  | .continuationRecord => Sys2Proof.Machine.execContinuationRecord s
  | .batchTimeout => Sys2Proof.Machine.execBatchTimeout s
  | .smplEntry => Sys2Proof.Machine.execSmplEntry s
  | .asbegEntry => Sys2Proof.Machine.execAsbegEntry s
  | .assegEntry => Sys2Proof.Machine.execAssegEntry s
  | .asendEntry => Sys2Proof.Machine.execAsendEntry s
  | .asdrnEntry => Sys2Proof.Machine.execAsdrnEntry s
  | .ashlarStatusPost => Sys2Proof.Machine.execAshlarStatusPost s
  | .lnchEntry => Sys2Proof.Machine.execLnchEntry s
  | .armEntry => Sys2Proof.Machine.execArmEntry s
  | .sighEntry => Sys2Proof.Machine.execSighEntry s
  | .nodeEnd => Sys2Proof.Machine.execNodeEnd s
  | .nodeLaunch => Sys2Proof.Machine.execNodeLaunch s
  | .nodeRelaunch => Sys2Proof.Machine.execNodeRelaunch s
  | .nodeCond => Sys2Proof.Machine.execNodeCond s
  | .nodeWhile => Sys2Proof.Machine.execNodeWhile s
  | .nodeJoin => Sys2Proof.Machine.execNodeJoin s
  | .nodeArm => Sys2Proof.Machine.execNodeArm s
  | .nodeSignal => Sys2Proof.Machine.execNodeSignal s
  | .messageX => Sys2Proof.Machine.execMessage s
  | .workgroupPlace => Sys2Proof.Machine.execWorkgroupPlace s
  | .workgroupRetire => Sys2Proof.Machine.execWorkgroupRetire s
  | .completionEvent => Sys2Proof.Machine.execCompletionEvent s
  | .preempt => Sys2Proof.Machine.execPreempt s
  | .resumeX => Sys2Proof.Machine.execResume s
  | .invalPage => Sys2Proof.Machine.execInvalPage s
  | .invalAll => Sys2Proof.Machine.execInvalAll s
  | .invalIcache => Sys2Proof.Machine.execInvalIcache s
  | .invalComplete => Sys2Proof.Machine.execInvalComplete s
  | .calwWrite => Sys2Proof.Machine.execCalwWrite s
  | .seqnWrite => Sys2Proof.Machine.execSeqnWrite s
  | .ringTailWrite => Sys2Proof.Machine.execRingTailWrite s
  | .ringAppend => Sys2Proof.Machine.execRingAppend s
  | .msgsend => Sys2Proof.Machine.execMsgsend s
  | .contextError => Sys2Proof.Machine.execContextError s
  | .cerrClear => Sys2Proof.Machine.execCerrClear s
  | .dcmdHalt => Sys2Proof.Machine.execDcmdHalt s
  | .dcmdResume => Sys2Proof.Machine.execDcmdResume s
  | .dcmdSend => Sys2Proof.Machine.execDcmdSend s
  | .dbgenClear => Sys2Proof.Machine.execDbgenClear s
  | .debugWindowWrite => Sys2Proof.Machine.execDebugWindowWrite s
  | .pstateD0 => Sys2Proof.Machine.execPstateD0 s
  | .pstateD1 => Sys2Proof.Machine.execPstateD1 s
  | .pstateD2 => Sys2Proof.Machine.execPstateD2 s
  | .pstateD3 => Sys2Proof.Machine.execPstateD3 s
  | .pstateD4 => Sys2Proof.Machine.execPstateD4 s
  | .pstateDone => Sys2Proof.Machine.execPstateDone s
  | .pwrcapWrite => Sys2Proof.Machine.execPwrcapWrite s
  | .powerAlarm => Sys2Proof.Machine.execPowerAlarm s
  | .thermalAlarm => Sys2Proof.Machine.execThermalAlarm s
  | .thermalCritical => Sys2Proof.Machine.execThermalCritical s
  | .correctedError => Sys2Proof.Machine.execCorrectedError s
  | .uncorrectableError => Sys2Proof.Machine.execUncorrectableError s
  | .linkReplay => Sys2Proof.Machine.execLinkReplay s
  | .packageReset => Sys2Proof.Machine.execPackageReset s
  | .functionReady => Sys2Proof.Machine.execFunctionReady s
  | .measExtend => Sys2Proof.Machine.execMeasExtend s
  | .attgo => Sys2Proof.Machine.execAttgo s
  | .attestComplete => Sys2Proof.Machine.execAttestComplete s
  | .registerWrite => Sys2Proof.Machine.execRegisterWrite s
  | .unimplMajor => Sys2Proof.Machine.execUnimplMajor s
  | .illegalEnc => Sys2Proof.Machine.execIllegalEnc s
  | .fetchFault => Sys2Proof.Machine.execFetchFault s
  | .icfComplete => Sys2Proof.Machine.execIcfComplete s
  | .remoteLoad => Sys2Proof.Machine.execRemoteLoad s

end Sys2Proof.Machine
end

