-- ==== Sys2Proof/WellFormed.lean ====
section
/-! DEFINITION. Which instructions are well formed: those whose fields the spec admits, so that some words encode
them (03 R33–R41, R49, R55). -/

namespace Sys2Proof

/-- The constructors that one minor shares go with their own X field (19 R341, 22 R380). -/
def Instr.selectorOk : Instr → Bool
  | .twatchSet e => e.x == 0
  | .twatchClear e => e.x == 1
  | .twatchOpen e => e.x == 2
  | .twatchClose e => e.x == 3
  | .twatchThaw e => e.x == 4
  | .twatchSync e => decide (5 ≤ e.x.toNat)
  | .assegMove e => e.x == 0
  | .assegLine e => e.x == 1
  | .assegQuad e => e.x == 2
  | .assegCubic e => e.x == 3
  | .assegV e => decide (4 ≤ e.x.toNat)
  | _ => true

/-- An instruction whose fields its description admits.
A step of the machine carries no fields and is always well formed. -/
def Instr.wf (i : Instr) : Bool :=
  match i with
  | .dref c => encodeCode c != 0xFFFF
  | i =>
    match extOf i with
    | some (major, minor, e) =>
      i.selectorOk &&
      match extRow major minor e with
      | some (f, _) => f.accepts e
      | none => false
    | none => true

/-- A step of the machine that no instruction word stands for. -/
def Instr.isStep (i : Instr) : Bool :=
  match i with
  | .dref _ => false
  | i => (encode i).isEmpty

end Sys2Proof
end

