-- ==== Sys2Proof/Machine/Poison.lean ====
section
/-! DEFINITION. What a step consumes of poisoned register words, queue entries, dictionary entries and open sequences
(25 R428): the tenants that are to be reset for it. -/

namespace Sys2Proof.Machine

open Sys2Proof

/-! ## Registers that an instruction reads -/

/-- An instruction's operands that are no destination: vector and scalar registers, and mask registers, K among them. -/
def sourcesOf (i : Instr) : Uses × List Nat :=
  let masks (os : List Opnd) : List Nat := os.filterMap fun o => match o with
    | .k r => some r.toNat
    | _ => none
  match extOf i with
  | some (major, minor, e) =>
    match extRow major minor e with
    | some (f, _) =>
      (usesOf { f with d := .unused } e, masks [e.a, e.b, e.c] ++ if f.k && e.k != 0 then [e.k.toNat] else [])
    | none => ({}, [])
  | none =>
    match baseOf i with
    | some (major, _, b) =>
      let e := extOfBase b (decide (major ≤ 3)) .n32
      ((({} : Uses).add e.a 1).add e.b 1, [])
    | none =>
      match i with
      | .iaddi b | .andi b | .ori b | .xori b | .ishli b => ({ sr := [b.a.toNat] }, [])
      | _ => ({}, [])

/-- The words of a register in some lanes. -/
def wordsIn (lanes rs : List Nat) : List RegWord := rs.flatMap fun r => lanes.map fun l => RegWord.v r l

/-- The lanes from which a shuffle's acting lanes take vA (08 R175, R176). -/
def sourceLanes (w : Wave) (i : Instr) (act : List Nat) : List Nat :=
  let of (e : Ext) (j : Nat → Nat → Nat) : List Nat :=
    act.map fun l => let k := j l (w.src e.lit e.b 32 l); if k < w.id.width then k else l
  match i with
  | .shfl e => of e fun _ b => b
  | .shflx e => of e fun l b => l ^^^ b
  | .shflup e => of e fun l b => if b ≤ l then l - b else l
  | .shfldn e => of e fun l b => l + b
  | .bcast e => [w.src e.lit e.b 32 (act.headD 0) % w.id.width]
  | _ => []

/-- The register words that an instruction of a split reads. One that has no effect, its split having no active lane,
reads none, but for WRS (07 R144, 09 R195); an 8-bit PACK reads the half of D that it keeps (08 R173). -/
def readWords (w : Wave) (sp : Split) (i : Instr) : List RegWord :=
  let (u, ks) := sourcesOf i
  let kr : Nat := match extOf i with
    | some (_, _, e) => e.k.toNat
    | none => 0
  let act := lanesOf (w.active sp &&& w.getK kr)
  let vector : List RegWord :=
    match i with
    | .shfl e | .shflx e | .shflup e | .shfldn e | .bcast e =>
      wordsIn (sourceLanes w i act) (vregsOf e.a (e.ty.bits / 32)) ++ wordsIn act (vregsOf e.b 1)
    | .movx e =>
      (act.flatMap fun l => wordsIn [l] (regRange (effReg e e.a w l).toNat (e.ty.bits / 32))) ++ wordsIn act (vregsOf e.b 1)
    | .pack e => wordsIn act (u.vr ++ if e.ty.bits = 8 then vregsOf e.d 1 else [])
    | _ => wordsIn act u.vr
  let kept : List Nat := match i with
    | .pack e => if e.ty.bits = 8 then sregsOf e.d 1 else []
    | _ => []
  let idle : Bool := w.active sp == 0 && match i with
    | .wrs _ => false
    | _ => true
  if idle then [] else vector ++ (u.sr ++ kept).map .s ++ (ks.filter (· != 0)).map .k

/-! ## What a step has consumed -/

/-- An instruction has issued: its split stands elsewhere, waits or has gone. One that stalls or traps has not. -/
def State.hasIssued (s t : State) (c : Issue) : Bool :=
  match (s.wave c.key).bind fun w => SMap.find w.splits c.split with
  | none => false
  | some p =>
    match (t.wave c.key).bind fun w => SMap.find w.splits c.split with
    | none => true
    | some q => { q with latch := none } != { p with latch := none }

/-- An issued instruction has read a poisoned register word, or a code a poisoned dictionary entry. -/
def State.readBad (s t : State) (i : Instr) : List (Nat × Nat) :=
  match s.cur with
  | none => []
  | some c =>
    match s.wave c.key with
    | none => []
    | some w =>
      let sp := SMap.read {} w.splits c.split
      let entry : Bool := match i with
        | .dref d => s.dicts.any fun x =>
            x.core == w.id.pcore && x.tenant == w.id.tenant && x.addr == (s.group w.id.group).kd.dicta &&
            x.bad.contains d.index.toNat
        | _ => false
      if entry || (w.bad != [] && s.hasIssued t c && (readWords w sp i).any w.holdsBad) then [(w.id.tenant, 7)] else []

/-- A wave's trap frame has been written from poisoned registers: s0 to s7 and k1 (10 R233). -/
def State.savedBad (s t : State) : List (Nat × Nat) :=
  s.waves.filterMap fun p =>
    if p.2.bad != [] && p.2.shadow.isNone && ((t.wave p.1).map (·.shadow.isSome)) == some true &&
        (RegWord.k 1 :: (List.range (min 8 p.2.b)).map .s).any p.2.holdsBad then some (p.2.id.tenant, 7) else none

/-- The steps with which engines and the debugger take entries of queues. -/
def takingSteps : List Instr :=
  [.cpyEntry, .cpy2dEntry, .gthEntry, .sctEntry, .xcodeEntry, .collInstance, .collTimeout, .mmaEntry, .joinInstanceForm,
   .joinInstanceStart, .joinTimeout, .mzeroEntry, .mldaEntry, .mldbEntry, .munfEntry, .mdrnEntry, .mhistEntry,
   .mBuild, .drawRecord, .chrecEntry, .resultEntry, .chmutEntry, .tsampEntry, .tdraftEntry, .tconfEntry, .trejEntry,
   .twatchSetEntry, .twatchClearEntry, .twatchOpenEntry, .twatchCloseEntry, .twatchThawEntry, .twatchSyncEntry, .tinjEntry,
   .tforkEntry, .rayTraversal, .tresEntry, .smplEntry, .asbegEntry, .assegEntry, .asendEntry, .asdrnEntry, .lnchEntry,
   .armEntry, .sighEntry, .q15DebugEntry]

/-- A step has taken an entry from the head of its queue: an engine step performs it, or finds a fault in it; an
instruction pops it. -/
def State.hasTaken (s t : State) (i : Instr) (e : QEntry) : Bool :=
  (takingSteps.contains i || (i.isStep == false && (popOnly e.q || e.q == 16))) &&
  e.post.isNone && ((s.headOf e.uid e.q).map (·.id)) == some e.id &&
  match t.entries.find? fun x => x.id == e.id with
  | none => true
  | some x =>
    { x with began := e.began, inst := e.inst } != e ||
    t.stops.any fun y => y.uid == e.uid && y.q == e.q && y.age == e.age && !s.stops.contains y

/-- A step has taken a poisoned entry, or performed a token command on a sequence of which the home holds a poisoned word. -/
def State.takenBad (s t : State) (i : Instr) : List (Nat × Nat) :=
  if s.entries.all (fun e => !e.bad) && s.seqs.all (fun q => !q.bad) then []
  else (s.entries.filter (s.hasTaken t i)).filterMap fun e =>
    let tenant := (s.ctx e.uid).id.tenant
    let seq : Bool := e.q == 6 && match s.openSeq tenant (tokenSeq e) with
      | some q => q.bad
      | none => false
    if e.bad || seq then some (tenant, 7) else none

/-- What a step has consumed of poisoned words: the tenants, with the kind of 25 R430. -/
def State.consumes (s t : State) (i : Instr) : List (Nat × Nat) := s.readBad t i ++ s.savedBad t ++ s.takenBad t i

/-- The outcome of a step on a state, with what it has consumed noted. -/
def State.consumed (s : State) (i : Instr) (o : Host.Outcome State Fault Refusal) : Host.Outcome State Fault Refusal :=
  match o with
  | .next t => .next (match s.consumes t i with
    | [] => t
    | xs => { t with struck := t.struck ++ xs })
  | o => o

end Sys2Proof.Machine
end

