-- ==== Sys2Proof/Machine/Schedule.lean ====
section
/-! DEFINITION. How the machine goes on: the fetch and issue of one split's next instruction (03 R31, R48–R56), the
choice of a core's issues in a clock (07 R146–R150), the steps that the machine takes of itself, and the end of a clock.

The spec fixes no order between the steps of different agents; `State.agenda` names the steps to be taken next, and an
empty agenda takes the order of this file (log entry 5). -/

namespace Sys2Proof.Machine

open Sys2Proof

/-- What a step answers. -/
abbrev StepResult := Host.Outcome State Fault Refusal

/-- The state that an outcome goes on with. -/
def stateOf (o : StepResult) : Option State :=
  match o with
  | .next s => some s
  | _ => none

/-- After a step on a state nothing issues and no subject is set. A step that has reached a memory stack that is not
ready waits, so the state stands as it stood (25 R414). -/
def endStep (s : State) (o : StepResult) : StepResult :=
  match o with
  | .next t => .next { (if t.stalled then s else t) with cur := none, subject := .none }
  | .fault f => .fault f
  | .refused r => .refused r

/-- Take a step on a prepared state, noting what it consumes of poisoned words (25 R428). -/
def takeStep (s : State) (i : Instr) (s' : State) : StepResult := endStep s (s'.consumed i (exec i s'))

/-! ## Fetch (03 R31, R48–R56, 10 R229, R239) -/

/-- What a split comes to: an instruction with the issue it takes, and the subject of a fetch fault. -/
structure Fetched where
  s : State
  cur : Issue
  instr : Instr
  subject : Subject := .none

/-- The instruction that words decode to; else the step that takes their trap. -/
def instrOf : Decoded → Instr
  | .instr i => i
  | .unimpl => .unimplMajor
  | .illegal => .illegalEnc

/-- A dictionary entry holds no clause header, no instruction of major 0x18 or 0x19 and no TRET (03 R53).
DEDUCED: one that does, in a table that no loader has checked, breaks a dictionary rule. -/
def codeInstr (ws : List Word) : Instr :=
  let i := instrOf (decodeWords ws)
  match i with
  | .clause _ | .tret _ => .illegalEnc
  | i =>
    match extOf i with
    | some (major, _, _) => if major = 0x18 ∨ major = 0x19 then .illegalEnc else i
    | none => i

/-- A comparator stops the split before it issues (10 R239). -/
def State.matched (s : State) (w : Wave) (sp : Split) (pc : Dword) : Bool :=
  !w.handling && !sp.noMatch && s.comparatorHits w.id pc

/-- The next instruction of a split outside dictionary codes. -/
def State.fetchPlain (s : State) (cur : Issue) (w : Wave) (sp : Split) : Fetched :=
  match s.fetchInstr w.id sp.pc with
  | (s, .error f) => { s, cur, instr := .fetchFault, subject := .value f.1 0 f.2 }
  | (s, .ok ws) =>
    let cur := { cur with npc := sp.pc + BitVec.ofNat 64 (4 * ws.length) }
    if s.matched w sp sp.pc then { s, cur, instr := .pcmatch }
    else { s, cur, instr := instrOf (decodeWords ws) }

/-- The codes left at a code: a pad in the high half of the clause's last dictionary word is none (03 R49). -/
def codesLeft (pc : Dword) (x : Word) (codes : Nat) : Nat :=
  if !pc.getLsbD 1 && codes == 2 && x.extractLsb' 16 16 == (0xFFFF : BitVec 16) then 1 else codes

/-- The next dictionary code of a split: its half of the word at the code's PC. A pad that stands elsewhere than in the
high half of the last word is ILLEGAL_ENC. -/
def State.fetchCode (s : State) (cur : Issue) (w : Wave) (sp : Split) : Fetched :=
  let cur := { cur with pc := sp.codePc, npc := sp.codePc + 2 }
  let word := sp.codePc &&& ~~~3
  match s.fetchWord w.id word with
  | (s, .error c) => { s, cur, instr := .fetchFault, subject := .value c 0 word }
  | (s, .ok x) =>
    let half : BitVec 16 := if sp.codePc.getLsbD 1 then x.extractLsb' 16 16 else x.extractLsb' 0 16
    if s.matched w sp sp.codePc then { s, cur, instr := .pcmatch }
    else
      let s := s.mapWave cur.key fun w => w.mapSplit cur.split fun p => { p with codes := codesLeft p.codePc x p.codes }
      match decodeCode half with
      | some c => { s, cur, instr := .dref c }
      | none => { s, cur, instr := .illegalEnc }

/-- What the split of an issue comes to. -/
def State.fetchNext (s : State) (cur : Issue) (w : Wave) (sp : Split) : Fetched :=
  match sp.latch with
  | some ws => { s, cur := { cur with pc := sp.codePc, npc := sp.codePc + 2, code := true }, instr := codeInstr ws }
  | none => if sp.codes = 0 then s.fetchPlain { cur with pc := sp.pc } w sp else s.fetchCode cur w sp

/-! ## Classes (07 R147) -/

/-- The issue classes; a clause header and the resolving of a code take no slot. -/
inductive Slots where
  | none | vector | scalar | memory | engine
  deriving DecidableEq, Repr

/-- An operand names a queue. -/
def isQueue : Opnd → Bool
  | .q _ => true
  | _ => false

/-- The class of an extended instruction; KDRAW is of the vector class whatever its operands (17 R317). -/
def extClass (major minor : Nat) (e : Ext) : Slots :=
  if [0x1A, 0x1B, 0x1C, 0x1D, 0x33, 0x34].contains major then .memory
  else if isQueue e.d || isQueue e.a then .engine
  else if major = 0x30 ∧ minor = 2 then .vector
  else if [0x15, 0x18, 0x19].contains major then .scalar
  else
    match extRow major minor e with
    | some (f, _) => if hasVector f e then .vector else .scalar
    | none => .scalar

/-- The class of an instruction. -/
def classOf (i : Instr) : Slots :=
  match extOf i with
  | some (major, minor, e) => extClass major minor e
  | none =>
    match baseOf i with
    | some (major, _, _) => if major ≤ 3 then .vector else .scalar
    | none =>
      match i with
      | .iaddi _ | .andi _ | .ori _ | .xori _ | .ishli _ | .shi _ => .scalar
      | _ => .none

/-- An FP64 instruction with a vector destination holds its slot for two clocks (08 R170). -/
def holdsTwo (i : Instr) : Bool :=
  match i with
  | .dadd e | .dmul e | .dfma e => e.d.isV
  | _ => false

/-! ## Readiness and offers (07 R146, R148) -/

/-- The workgroup of a wave is to be discarded: its context drains, and it still holds IDEMP (10 R231, R243). DESIGN CHOICE
(log entry 107): its waves issue nothing more from then on, though one of them may yet be in a handler, a held event or a stop
that the discard waits for. -/
def State.doomed (s : State) (w : WaveId) : Bool := (s.tenant w.tenant).state == .drain && (s.group w.group).idemp

/-- A wave may issue: no trap is being taken, no stop or held event keeps it, and its die runs (10 R228, R231, R232). -/
def State.mayIssue (s : State) (w : Wave) : Bool :=
  !w.halted && w.trap.isNone && s.dieRuns w.id.die &&
  match w.shadow with
  | some sh => !sh.debug
  | none => w.heldTraps == [] && w.engFaults == [] && !w.haltReq && !s.doomed w.id

/-- Issue the next instruction of a split; where a step taken since its choice has stopped the wave, nothing issues. -/
def State.issueOne (s : State) (p : Issue) : StepResult :=
  match s.wave p.key with
  | none => .next s
  | some w =>
    match SMap.find w.splits p.split with
    | none => .next s
    | some sp =>
      if !s.mayIssue w then .next s
      else
        let f := s.fetchNext { key := p.key, split := p.split } w sp
        takeStep s f.instr { f.s with cur := some f.cur, subject := f.subject }

/-- A split holds the words of a code that it has resolved. -/
def State.latched (s : State) (p : Issue) : Bool :=
  match s.wave p.key with
  | some w => (SMap.read {} w.splits p.split).latch.isSome
  | none => false

/-- A split's next instruction is a dictionary code. -/
def State.atCode (s : State) (p : Issue) : Bool :=
  match s.wave p.key with
  | some w => (SMap.read {} w.splits p.split).codes != 0
  | none => false

/-- Issue a split: a dictionary code is resolved and executed in one clock (03 R49, 07 R147); it stalls as its instruction
does. -/
def State.issue (s : State) (p : Issue) : StepResult :=
  match s.issueOne p with
  | .next t =>
    if s.atCode p && t.latched p && !s.latched p then
      match t.issueOne p with
      | .next u => if u.wave p.key = t.wave p.key then .next s else .next u
      | o => o
    else .next t
  | o => o

/-- A split is ready: it waits for nothing, and issuing it would change its wave. -/
def State.splitReady (s : State) (k : Nat) (w : Wave) (j : Nat) (sp : Split) : Bool :=
  sp.wait == .ready && !sp.park &&
  match stateOf (s.issue { key := k, split := j }) with
  | some t => decide (t.wave k ≠ some w)
  | none => true

/-- What a core may issue: a wave's candidate, or both halves of a ganged slot at one PC. -/
structure SlotOffer where
  issues : List Issue
  cls : Slots
  two : Bool
  expired : Option Nat
  prio : Nat
  born : Nat
  slot : Nat
  last : Nat
  deriving DecidableEq, Repr

/-- The least of a list by a measure, the first on equal measures. -/
def leastBy {α : Type} (f : α → Nat) : List α → Option α
  | [] => none
  | x :: xs =>
    match leastBy f xs with
    | some y => if f y < f x then some y else some x
    | none => some x

/-- The instruction whose class a split's issue takes: a code's is that of the instruction it stands for. -/
def State.offeredInstr (s : State) (k : Nat) (w : Wave) (j : Nat) (sp : Split) : Instr :=
  match (s.fetchNext { key := k, split := j } w sp).instr with
  | .dref d =>
    match ((s.group w.id.group).kd.table[d.index.toNat]?).bind fun x => applyPatch x d.patch with
    | some ws => codeInstr ws
    | none => .illegalEnc
  | i => i

/-- The candidate of a wave: the instruction of its ready split that issued least recently. `last` is when the wave, a
half of a ganged slot, itself last issued. -/
def State.offerOf (s : State) (k : Nat) (w : Wave) : Option SlotOffer :=
  if !s.mayIssue w then none
  else
    match leastBy (fun p => p.2.lastIssue) (w.splits.filter fun p => s.splitReady k w p.1 p.2) with
    | none => none
    | some (j, sp) =>
      let i := s.offeredInstr k w j sp
      some { issues := [{ key := k, split := j, pc := sp.at }], cls := classOf i, two := holdsTwo i,
             expired := w.expired, prio := w.prio, born := w.born, slot := w.id.slot, last := w.lastIssue }

/-- The candidate of a ganged slot with two ready halves: both at equal PCs, else the half that issued less recently,
the low half first. -/
def gangOffer (lo hi : SlotOffer) : SlotOffer :=
  if lo.issues.map (·.pc) = hi.issues.map (·.pc) then { lo with issues := lo.issues ++ hi.issues }
  else if hi.last < lo.last then hi else lo

/-- Join the offers of one slot, which follow one another. -/
def joinGangs : List SlotOffer → List SlotOffer
  | a :: b :: rest => if a.slot = b.slot then gangOffer a b :: joinGangs rest else a :: joinGangs (b :: rest)
  | xs => xs

/-- The waves of a core. -/
def State.wavesOn (s : State) (c : Nat) : SMap Wave := s.waves.filter fun p => p.1 / 96 == c

/-- What a core's slots offer in this clock. -/
def State.offers (s : State) (c : Nat) : List SlotOffer :=
  joinGangs ((s.wavesOn c).filterMap fun p => s.offerOf p.1 p.2)

/-! ## The choice (07 R147, R149) -/

/-- Older: resident first, then by slot. -/
def SlotOffer.older (a b : SlotOffer) : Bool := a.born < b.born || (a.born == b.born && a.slot ≤ b.slot)

/-- The precedence of R149. -/
def SlotOffer.before (a b : SlotOffer) : Bool :=
  let rank := a.prio > b.prio || (a.prio == b.prio && a.older b)
  match a.expired, b.expired with
  | some x, some y => x < y || (x == y && rank)
  | some _, none => true
  | none, some _ => false
  | none, none => rank

/-- Put an offer in its place. -/
def insertOffer (a : SlotOffer) : List SlotOffer → List SlotOffer
  | [] => [a]
  | b :: rest => if a.before b then a :: b :: rest else b :: insertOffer a rest

/-- The offers of a class that its slots take. -/
def takeClass (os : List SlotOffer) (c : Slots) (n : Nat) : List SlotOffer :=
  ((os.filter fun o => o.cls == c).foldr insertOffer []).take n

/-- The slots of each class that accept an instruction: two vector slots but for those that an FP64 instruction still
holds, one of each other class, the memory slot but for the passes of an earlier access (06 R113). -/
def State.slotsOf (s : State) (core : Nat) (c : Slots) : Nat :=
  let h : Hold := SMap.read {} s.held core
  let now := s.dieClock (core / Config.coresPerDie)
  match c with
  | .vector => 2 - (if now = h.wideAt + 1 then h.wide else 0)
  | .memory => if now < h.memTo then 0 else 1
  | _ => 1

/-- Guards (07 R150): an offer that is the oldest of its priority and class and did not issue counts a clock in which
the class accepted an instruction; every other guard is zero. The halves of a ganged slot hold one guard (07 R146). -/
def guardOf (os taken : List SlotOffer) (w : Wave) : Wave :=
  match os.find? fun o => o.slot == w.id.slot with
  | none => { w with guard := 0, expired := none }
  | some o =>
    let oldest := os.all fun p => !(p.cls == o.cls && p.prio == o.prio) || o.older p
    if o.cls == .none || !oldest || taken.contains o then { w with guard := 0, expired := none }
    else if taken.any fun p => p.cls == o.cls then { w with guard := w.guard + 1 }
    else w

/-- Choose what a core issues in this clock; a core whose die is stopped chooses nothing, and its guards stand (25 R426). -/
def State.choose (s : State) (c : Nat) : State :=
  let d := c / Config.coresPerDie
  if !s.dieRuns d then { s with picks := [], focus := c + 1 }
  else
    let os := s.offers c
    let taken := os.filter (·.cls == .none) ++
      [Slots.vector, .scalar, .memory, .engine].flatMap fun k => takeClass os k (s.slotsOf c k)
    let h : Hold := SMap.read {} s.held c
    { s with
      picks := taken.flatMap (·.issues)
      focus := c + 1
      held := SMap.write {} s.held c { h with wide := (taken.filter (·.two)).length, wideAt := s.dieClock d }
      waves := s.waves.map fun (p : Nat × Wave) => (p.1, if p.1 / 96 = c then guardOf os taken p.2 else p.2) }

/-! ## The steps that the machine takes of itself -/

/-- An entry of one of some queues stands. -/
def State.queued (s : State) (qs : List Nat) : Bool := s.entries.any fun e => qs.contains e.q

/-- Some wave meets a condition. -/
def State.anyWave (s : State) (p : Wave → Bool) : Bool := s.waves.any fun x => p x.2

/-- Steps of waves, each with a condition without which it does nothing. -/
def State.waveWork (s : State) : List (Bool × Instr) :=
  [(s.xswaps != [], .xswapPair), (s.xswaps != [], .xswapTimeout),
   (s.anyWave fun w => w.mergePair.isSome, .splitMerge), (s.anyWave fun w => w.splits.all fun p => p.2.park, .joinRelease),
   (s.anyWave fun w => w.waiters (Wait.rested (s.dieClock w.id.die)) != [], .yieldExpiry),
   (s.anyWave fun w => w.owed != [] || w.arrived != [], .barrierComplete),
   (s.ops != [], .longLatencyComplete), (s.tokens != [], .tokenWrite),
   (s.anyWave fun w => decide (guardLimit ≤ w.guard), .guardExpiry),
   (s.anyWave fun w => w.trap.isSome, .trapEntry), (s.anyWave fun w => w.shadow.isSome, .watchdog),
   (s.anyWave fun w => w.engFaults != [], .engineFault), (s.anyWave fun w => w.trap.isSome || w.haltReq, .debugStop),
   (s.queued [15], .q15DebugEntry), (s.anyWave fun w => w.waiters s.icfDue != [], .icfComplete)]

/-- Steps of the ordering machine. -/
def State.memoryWork (s : State) : List (Bool × Instr) :=
  [(s.ls != [], .performLsEntry), (s.lq != [], .drainLq), (s.cb != [], .propagateCb), (s.dw != [], .writeBackDw),
   (s.pq != [], .deliverPq), (s.combs != [], .combineReturn), (s.struck != [], .uncorrectableError)]

/-- Steps of the engines. -/
def State.engineWork (s : State) : List (Bool × Instr) :=
  let q0 := s.queued [0]
  let q2 := s.queued [2]
  let q3 := s.queued [3]
  let q4 := s.queued [4]
  let q6 := s.queued [6]
  let q8 := s.queued [8]
  let q12 := s.queued [12]
  let q14 := s.queued [14]
  [(q2, .cpyEntry), (q2, .cpy2dEntry), (q2, .gthEntry), (q2, .sctEntry), (q2, .xcodeEntry), (q3, .collInstance),
   (q3, .collTimeout), (q0, .mmaEntry), (q0, .joinInstanceForm), (q0, .joinInstanceStart), (q0, .joinTimeout),
   (q0, .mzeroEntry), (q0, .mldaEntry), (q0, .mldbEntry), (q0, .munfEntry), (q0, .mdrnEntry), (q0, .mhistEntry),
   (q0, .matrixStatusPost), (q4, .mBuild), (q4, .drawRecord), (q4, .chrecEntry), (q4, .resultEntry), (q4, .resultPost),
   (q4, .chmutEntry), (q6, .tsampEntry), (q6, .tdraftEntry), (q6, .tconfEntry), (q6, .trejEntry), (q6, .twatchSetEntry),
   (q6, .twatchClearEntry), (q6, .twatchOpenEntry), (q6, .twatchCloseEntry), (q6, .twatchThawEntry),
   (q6, .twatchSyncEntry), (q6, .tinjEntry), (q6, .tforkEntry), (q6, .tokenResultPost),
   (q8 || s.rays != [] || s.jobs != [], .rayTraversal), (q8, .tresEntry), (s.rays != [], .continuationRecord), (s.bins != [], .batchTimeout),
   (s.queued [10], .smplEntry), (q12, .asbegEntry), (q12, .assegEntry), (q12, .asendEntry), (q12, .asdrnEntry),
   (q12, .ashlarStatusPost), (q14, .lnchEntry), (q14, .armEntry), (q14, .sighEntry)]

/-- Steps of the launch engine and the host interface. -/
def State.launchWork (s : State) : List (Bool × Instr) :=
  let r := s.releases != []
  let g := s.grids != []
  let t := s.tenants != []
  [(r, .nodeEnd), (r, .nodeLaunch), (r, .nodeRelaunch), (r, .nodeCond), (r, .nodeWhile), (r, .nodeJoin), (r, .nodeArm),
   (r, .nodeSignal), (s.messages != [], .messageX), (g || s.batches != [], .workgroupPlace),
   (s.groups != [], .workgroupRetire), (g, .completionEvent), (t, .timeSliceExpiry), (t, .deadlineExpiry),
   (t, .contextStopped), (t, .contextAutoResume), (t, .invalComplete), (t, .dcmdResume), (t, .dcmdSend),
   (s.mgmt.pstate != [], .pstateDone), (s.mgmt.attgo, .attestComplete)]

/-- The steps that may be due. -/
def State.due (s : State) : List Instr :=
  ((s.waveWork ++ s.memoryWork ++ s.engineWork ++ s.launchWork).filter (·.1)).map (·.2)

/-- The first of some steps that changes more than the walkers' entries and the counter of the free values. -/
def State.firstOf (s : State) : List Instr → Option StepResult
  | [] => none
  | i :: rest =>
    let o := takeStep s i { s with cur := none, subject := .none }
    match stateOf o with
    | some t => if { t with fresh := s.fresh, tlb := s.tlb } = s then s.firstOf rest else some o
    | none => some o

/-- A list from its n-th element on, and round. -/
def rotate {α : Type} (xs : List α) (n : Nat) : List α :=
  let k := n % max 1 xs.length
  xs.drop k ++ xs.take k

/-- The cores of the package. -/
def allCores : Nat := Config.dies * Config.coresPerDie

/-- The steps that one clock takes at most, MODEL. -/
def workLimit : Nat := 4096

/-- Does a context's time pass: does a die run on which a wave of it is resident, or any die where none is? DEDUCED (log
entry 28): 25 R426 stops a count with the clock of its die, and a context has no one die. -/
def State.contextRuns (s : State) (t : Nat) : Bool :=
  match (s.waves.map (·.2)).filter fun w => w.id.tenant == t with
  | [] => (List.range Config.dies).any s.dieRuns
  | ws => ws.any fun w => s.dieRuns w.id.die

/-- Deadline timers count; a tenant's stands still while a wave of it is in a debug stop, which one that a double fault has
halted is no longer (10 R238, R241). -/
def State.countDeadline (s : State) (t : Nat) (x : Tenant) : Tenant :=
  let stopped := s.anyWave fun w => w.id.tenant == t && !w.halted && match w.shadow with
    | some sh => sh.debug
    | none => false
  if stopped then x else { x with deadline := x.deadline.map (· - 1) }

/-- A clock of a context: its deadline and its slice count where its time passes, and where it does not while the package's
does, its slice begins a clock later (23 R401, 25 R426). -/
def State.countContext (s : State) (t : Nat) (x : Tenant) : Tenant :=
  if s.contextRuns t then s.countDeadline t x
  else if (List.range Config.dies).any s.dieRuns then { x with runClock := x.runClock + 1 }
  else x

/-- The clocks of stopped dies stand still, and the package's counts while every die is stopped (25 R426, R427). -/
def State.pauseDies (s : State) : State :=
  let stopped := (List.range Config.dies).filter fun d => !s.dieRuns d
  let more := if stopped.length = Config.dies then stopped ++ [Config.dies] else stopped
  { s with paused := more.foldl (fun m d => SMap.insert m d (SMap.read 0 m d + 1)) s.paused }

/-- Does a core's slot stay held in the next clock? -/
def State.stillHeld (s : State) (core : Nat) (h : Hold) : Bool :=
  let now := s.dieClock (core / Config.coresPerDie)
  decide (now < h.memTo) || (h.wide != 0 && decide (now ≤ h.wideAt))

/-- A guard that has reached its limit has expired at the end of the clock, whether or not GUARD_EXPIRY has been taken
(07 R150). -/
def Wave.guardTick (w : Wave) (clock : Nat) : Wave :=
  if guardLimit ≤ w.guard ∧ w.expired = none then { w with expired := some clock } else w

/-- The end of a clock: the clocks count, the deadlines and slices of the contexts too, guards expire, and a split whose YIELD
is over is ready from the next clock on (07 R150, 08 R192). The management timer counts microseconds (25 R413, R429). -/
def State.tick (s : State) : State :=
  let s := s.stampHeads.pauseDies
  let s : State := { s with
    clock := s.clock + 1, focus := 0
    held := s.held.filter fun (p : Nat × Hold) => s.stillHeld p.1 p.2
    tenants := s.tenants.map fun (p : Nat × Tenant) => (p.1, s.countContext p.1 p.2)
    waves := s.waves.map fun (p : Nat × Wave) => (p.1, p.2.guardTick s.clock)
    mgmt := { s.mgmt with timer := if (s.clock + 1) % 1700 = 0 then s.mgmt.timer + 1 else s.mgmt.timer } }
  { s with waves := s.waves.map fun (p : Nat × Wave) => (p.1, p.2.wake (s.dieClock p.2.id.die)) }

/-- The next core that holds a wave. -/
def State.nextCore (s : State) : Option Nat :=
  (s.waves.find? fun p => decide (s.focus ≤ p.1 / 96)).map fun p => p.1 / 96

/-- One step of the machine's own: a core's choice, a step that is due, or the end of the clock. -/
def State.goOn (s : State) : StepResult :=
  match s.nextCore with
  | some c => .next (s.choose c)
  | none =>
    let n := s.focus - allCores
    if workLimit ≤ n then .next s.tick
    else
      match s.firstOf (rotate s.due (s.clock + n)) with
      | some (.next t) => .next { t with focus := allCores + n + 1 }
      | some o => o
      | none => .next s.tick

/-- The next issue, or the machine's own step. -/
def State.issueNext (s : State) : StepResult :=
  match s.picks with
  | p :: rest => ({ s with picks := rest }).issue p
  | [] => s.goOn

/-- The clock ends once its issues have been chosen and made, whatever steps are due: each of them may be taken in a later
clock (05 R87). -/
def State.endClock (s : State) (rest : List (Instr × Subject)) : StepResult :=
  match s.picks, s.nextCore with
  | [], none => .next ({ s with agenda := rest }).tick
  | _, _ => s.issueNext

/-- One step of the machine. An entry of the agenda that is a step is taken; any other stands for an issue, or for the end of
the clock. -/
def State.advance (s : State) : StepResult :=
  match s.agenda with
  | [] => s.issueNext
  | (i, x) :: rest =>
    if i.isStep then takeStep { s with agenda := rest } i { s with agenda := rest, cur := none, subject := x }
    else if x = .clockEnd then s.endClock rest
    else ({ s with agenda := rest }).issueNext

/-! ## A wave at an instruction -/

/-- The virtual and the physical address of the placed instruction (log entry 7). -/
def placedPc : Dword := 0x1000
def placedPa : Nat := 0x40001000

/-- Page tables of three levels in HBM: one leaf of 1 GiB with V, LEAF, R, W, X, A and D. -/
def placedTables (m : Memory) : Memory :=
  let put (m : Memory) (a v : Nat) : Memory := m.setBytes a (leBytes 16 v)
  put (put (put m 0x10000 0x12001) 0x12000 0x14001) 0x14000 0x4000007F

/-- The instruction's bytes, and zeros up to the longest instruction. -/
def placedBytes (nbits w : Nat) : List Byte := leBytes 20 (w % 2 ^ nbits)

/-- A resident wave on core 0 of die 0 about to issue the instruction placed in memory, for tenant 0. -/
def State.placeWord (s : State) (nbits w : Nat) : State :=
  let n := s.nextId
  let id : WaveId := { uid := n, grid := n + 2, group := n + 1 }
  let kd : KernelDesc := { vregs := 256, sregs := 128, entry := placedPc }
  let wave : Wave :=
    { id, a := 256, b := 128, born := s.clock, splits := [(0, { pc := placedPc, members := 0xFFFFFFFFFFFFFFFF })] }
  { s with
    agenda := [(.nop {}, .none)]
    picks := [{ key := 0, split := 0 }]
    nextId := n + 3
    waves := SMap.insert s.waves 0 wave
    ctxs := SMap.insert s.ctxs n { id, b := 128 }
    groups := SMap.insert s.groups (n + 1) { id := n + 1, grid := n + 2, kd }
    grids := SMap.insert s.grids (n + 2) { id := n + 2, kd, nwg := 1, placed := 1, open_ := [(4000, 1)] }
    tenants := SMap.write {} s.tenants 0 { s.tenant 0 with root := 0x10000, state := .run, en := true }
    mem := (placedTables s.mem).setBytes placedPa (placedBytes nbits w)
    icache := SMap.dropRange s.icache 0 (2 ^ 50)
    tlb := s.tlb.filter fun (e : TlbEnt) => e.asid != 0
    mgmt := { s.mgmt with ready := BitVec.allOnes 45 } }

end Sys2Proof.Machine
end

