-- ==== Sys2Proof/Machine/Step.lean ====
section
/-! DEFINITION. One step of the machine, and a state whose next step runs a given instruction. -/

namespace Sys2Proof.Machine

open Sys2Proof

/-- One step: the next entry of the agenda, an issue, or a step of the machine's own. -/
def step (s : State) : Host.Outcome State Fault Refusal := s.advance

/-- The state with the instruction of the given bits placed where the next step fetches (log entry 7). -/
def State.withFetchWord (s : State) (nbits w : Nat) : State := s.placeWord nbits w

end Sys2Proof.Machine
end

