-- ==== Sys2Proof/Safety.lean ====
section
/-! DEFINITION. The terms in which claims about the machine are stated: a split that issues, the checks it has passed,
what of a wave an instruction leaves alone, and what a safe state is. -/

namespace Sys2Proof.Machine

open Sys2Proof

/-! ## An issue -/

/-- The issue `i` is that of the split `sp` of the wave `w`. -/
structure Issuing (s : State) (i : Issue) (w : Wave) (sp : Split) : Prop where
  cur : s.cur = some i
  wave : s.wave i.key = some w
  split : SMap.find w.splits i.split = some sp

/-- The registers that an instruction names lie within the allocation, none is pending, a vector destination of a
long-latency instruction attaches to a flag, and no named scalar register waits for a result (03 R56, 01 R15). -/
def Wave.clear (w : Wave) (sp : Split) (u : Uses) : Bool := !w.outOfBounds u && !w.hazard sp u && !w.scoreboard u

/-! ## Destinations -/

/-- The word of register r' of a destination of n bits from register r up. -/
def partAt (r n x r' : Nat) : Word := if n ≤ 32 then BitVec.ofNat 32 x else BitVec.ofNat 32 (x / 2 ^ (32 * (r' - r)))

/-- The number of registers that n bits take. -/
def regCount (n : Nat) : Nat := if n ≤ 32 then 1 else n / 32

/-! ## Frames -/

/-- A wave but for its registers and its status: what a lane instruction leaves alone. -/
def Wave.rest (w : Wave) : Wave :=
  { w with v := [], s := [], k := [], bad := [], fpstat := 0, shadow := w.shadow.map fun sh => { sh with extra := [] } }

/-- The same registers: vector, scalar and mask. -/
def Wave.sameRegs (w w' : Wave) : Prop :=
  (∀ r l, l < 64 → w'.getV r l = w.getV r l) ∧ (∀ r, w'.getS r = w.getS r) ∧ ∀ r, w'.getK r = w.getK r

/-- The memories of the machine: M, the scratchpads, the quad memories, the capacity layer, the slices of the lanes. -/
structure State.sameMemory (s t : State) : Prop where
  mem : t.mem = s.mem
  sp : t.sp = s.sp
  qm : t.qm = s.qm
  cal : t.cal = s.cal
  slice : t.slice = s.slice

/-- What a lane instruction with the fields `e` and a result of n bits has written: in each lane of `ls` the result of
that lane into a vector destination, the one result into a scalar destination, or every bit of a mask destination, a
lane that does not act giving 0; and the status bits of all the results (08 R154, R155, 04 R62). -/
structure LaneWritten (w w' : Wave) (e : Ext) (n : Nat) (ls : List Nat) (res : Nat → Num.Res) : Prop where
  v : ∀ r l, l < 64 → w'.getV r l =
    match e.d with
    | .v d =>
      if l ∈ ls ∧ d.toNat ≤ r ∧ r < d.toNat + regCount n then partAt d.toNat n (widen e.ty n (res l).bits) r
      else w.getV r l
    | _ => w.getV r l
  s : ∀ r, w'.getS r =
    match e.d, ls with
    | .s d, l :: _ =>
      if d.toNat ≤ r ∧ r < d.toNat + regCount n then partAt d.toNat n (widen e.ty n (res l).bits) r else w.getS r
    | _, _ => w.getS r
  k : ∀ r, w'.getK r =
    match e.d with
    | .k d => if r = d.toNat ∧ r ≠ 0 then maskOf ls (fun l => (res l).bits % 2 == 1) &&& w.id.full else w.getK r
    | _ => w.getK r
  fpstat : w'.fpstat = w.fpstat ||| (ls.foldl (fun f l => f ||| (res l).fl) 0 &&& 0x3F)
  rest : w'.rest = w.rest

/-! ## Safe states -/

/-- Every memory stands in canonical form. -/
def State.memWf (s : State) : Bool := s.mem.wf && s.sp.wf && s.qm.wf && s.cal.wf && s.slice.wf

/-- Every lane stands in at most one split of its wave (07 R141). -/
def Wave.apart (w : Wave) : Prop :=
  ∀ a ∈ w.splits, ∀ b ∈ w.splits, a.1 ≠ b.1 → a.2.members &&& b.2.members = 0

end Sys2Proof.Machine
end

