-- ==== Sys2Proof/Certificates/Slice0/Obligations.lean ====
section
/-! DEFINITION. The statements for the provers: what the instructions and the machine do, rule by rule. -/

open Sys2Proof Sys2Proof.Machine

/-! ## Lane instructions -/

namespace Sys2Proof.Machine

/-- A lane instruction as a rule describes it: its operand form, its fields, how many draws a lane takes under SR, and
the result of a lane from the wave, the split's active lanes, the lane and its draws. -/
structure LaneRow where
  form : Form
  ext : Ext
  draws : Nat := 0
  value : Wave → Mask → Nat → List Nat → Num.Res

/-- A row with its fields named in order. -/
def mkRow (form : Form) (ext : Ext) (draws : Nat) (value : Wave → Mask → Nat → List Nat → Num.Res) : Option LaneRow :=
  some { form, ext, draws, value }

/-- The extended instruction of which a three-register base form is the short spelling (03 R34). -/
def asExtended : Instr → Instr
  | .iaddBaseV b => .iadd (extOfBase b true .i32)
  | .isubBaseV b => .isub (extOfBase b true .i32)
  | .imulBaseV b => .imul (extOfBase b true .i32)
  | .andBaseV b => .andX (extOfBase b true .b32)
  | .orBaseV b => .orX (extOfBase b true .b32)
  | .xorBaseV b => .xorX (extOfBase b true .b32)
  | .ishlBaseV b => .ishl (extOfBase b true .n32)
  | .lshrBaseV b => .lshr (extOfBase b true .n32)
  | .iminI32BaseV b => .imin (extOfBase b true .i32)
  | .imaxI32BaseV b => .imax (extOfBase b true .i32)
  | .iminN32BaseV b => .imin (extOfBase b true .n32)
  | .imaxN32BaseV b => .imax (extOfBase b true .n32)
  | .imulhI32BaseV b => .imulh (extOfBase b true .i32)
  | .imulhN32BaseV b => .imulh (extOfBase b true .n32)
  | .ishrI32BaseV b => .ishr (extOfBase b true .i32)
  | .iaddBaseS b => .iadd (extOfBase b false .i32)
  | .isubBaseS b => .isub (extOfBase b false .i32)
  | .imulBaseS b => .imul (extOfBase b false .i32)
  | .andBaseS b => .andX (extOfBase b false .b32)
  | .orBaseS b => .orX (extOfBase b false .b32)
  | .xorBaseS b => .xorX (extOfBase b false .b32)
  | .ishlBaseS b => .ishl (extOfBase b false .n32)
  | .lshrBaseS b => .lshr (extOfBase b false .n32)
  | .iminI32BaseS b => .imin (extOfBase b false .i32)
  | .imaxI32BaseS b => .imax (extOfBase b false .i32)
  | .iminN32BaseS b => .imin (extOfBase b false .n32)
  | .imaxN32BaseS b => .imax (extOfBase b false .n32)
  | .imulhI32BaseS b => .imulh (extOfBase b false .i32)
  | .imulhN32BaseS b => .imulh (extOfBase b false .n32)
  | .ishrI32BaseS b => .ishr (extOfBase b false .i32)
  | .faddBaseV b => .fadd (extOfBase b true .f32)
  | .fsubBaseV b => .fsub (extOfBase b true .f32)
  | .fmulBaseV b => .fmul (extOfBase b true .f32)
  | .fminBaseV b => .fmin (extOfBase b true .f32)
  | .fmaxBaseV b => .fmax (extOfBase b true .f32)
  | .faddBaseS b => .fadd (extOfBase b false .f32)
  | .fsubBaseS b => .fsub (extOfBase b false .f32)
  | .fmulBaseS b => .fmul (extOfBase b false .f32)
  | .fminBaseS b => .fmin (extOfBase b false .f32)
  | .fmaxBaseS b => .fmax (extOfBase b false .f32)
  | i => i

/-- a, b and c of 08 R157: the operands read under TYPE. -/
def valA (e : Ext) (w : Wave) (l : Nat) : Int := Num.ival e.ty (w.src e.lit e.a e.ty.bits l)
def valB (e : Ext) (w : Wave) (l : Nat) : Int := Num.ival e.ty (w.src e.lit e.b e.ty.bits l)
def valC (e : Ext) (w : Wave) (l : Nat) : Int := Num.ival e.ty (w.src e.lit e.c e.ty.bits l)
/-- a′ and b′: the operands read as natural numbers. -/
def natA (e : Ext) (w : Wave) (l : Nat) : Nat := w.src e.lit e.a e.ty.bits l
def natB (e : Ext) (w : Wave) (l : Nat) : Nat := w.src e.lit e.b e.ty.bits l
/-- s of 08 R158. -/
def shiftBy (e : Ext) (w : Wave) (l : Nat) : Nat := w.src e.lit e.b 32 l

/-- o′ and w′ of a descriptor (08 R160). -/
def fieldO (n d : Nat) : Nat := min (d % 256) n
def fieldW (n d : Nat) : Nat := min (d / 256 % 256) (n - fieldO n d)

/-- BFX (08 R160): the field, sign-extended from its top bit under a signed type. -/
def fieldGet (t : DType) (a d : Nat) : Int :=
  let o := fieldO t.bits d
  let k := fieldW t.bits d
  if k = 0 then 0
  else if t.isSigned then Num.sval k (a / 2 ^ o % 2 ^ k) else (a / 2 ^ o % 2 ^ k : Nat)

/-- BFI (08 R160): bit j of the result is bit j − o′ of b inside the field, bit j of a outside it. -/
def fieldPut (n a b d : Nat) : Nat :=
  (List.range n).foldl
    (fun acc j =>
      let o := fieldO n d
      let bit := if o ≤ j ∧ j < o + fieldW n d then b.testBit (j - o) else a.testBit j
      acc + bit.toNat * 2 ^ j) 0

/-- The conditions of ICMP (08 R161). -/
def condOf (c : Nat) (a b : Int) : Bool :=
  match c with
  | 0 => a = b
  | 1 => a ≠ b
  | 2 => a < b
  | 3 => a ≤ b
  | 4 => a > b
  | _ => a ≥ b

/-- The selecting bit of SEL (08 R161). -/
def selects (e : Ext) (w : Wave) (active : Mask) (l : Nat) : Bool :=
  match e.c with
  | .k n => if e.d.isS then w.getK n.toNat &&& active != 0 else (w.getK n.toNat).getLsbD l
  | _ => false

/-- The exact result r of an integer instruction, to which Fit then applies (08 R157's table, R158, R160, R161). -/
def exactResult : Instr → Option (Form × Ext × (Wave → Mask → Nat → Int))
  | .iadd e => some (.int3 true, e, fun w _ l => valA e w l + valB e w l)
  | .isub e => some (.int3 true, e, fun w _ l => valA e w l - valB e w l)
  | .imul e => some (.int3 true, e, fun w _ l => valA e w l * valB e w l)
  | .imulh e => some (.imulh, e, fun w _ l => (valA e w l * valB e w l) / 2 ^ e.ty.bits)
  | .imad e => some (.imad, e, fun w _ l => valA e w l * valB e w l + valC e w l)
  | .imin e => some (.int3 false, e, fun w _ l => min (valA e w l) (valB e w l))
  | .imax e => some (.int3 false, e, fun w _ l => max (valA e w l) (valB e w l))
  | .iabs e => some (.iabs, e, fun w _ l => ((valA e w l).natAbs : Int))
  | .ineg e => some (.ineg, e, fun w _ l => -valA e w l)
  | .ishl e => some (.shift DType.isInt, e, fun w _ l => valA e w l * 2 ^ shiftBy e w l)
  | .ishr e => some (.shift DType.isSigned, e, fun w _ l => valA e w l / 2 ^ shiftBy e w l)
  | .lshr e => some (.shift DType.isInt, e, fun w _ l => natA e w l / 2 ^ shiftBy e w l)
  | .andX e => some (.logic3, e, fun w _ l => (natA e w l &&& natB e w l : Nat))
  | .orX e => some (.logic3, e, fun w _ l => (natA e w l ||| natB e w l : Nat))
  | .xorX e => some (.logic3, e, fun w _ l => (natA e w l ^^^ natB e w l : Nat))
  | .notX e => some (.not1, e, fun w _ l => -1 - natA e w l)
  | .popc e => some (.count1, e, fun w _ l => ((List.range e.ty.bits).countP fun j => (natA e w l).testBit j : Nat))
  | .clz e => some (.count1, e, fun w _ l => e.ty.bits - Num.bitLen (natA e w l))
  | .brev e => some (.brev, e, fun w _ l =>
      ((List.range e.ty.bits).foldl (fun acc j => 2 * acc + ((natA e w l).testBit j).toNat) 0 : Nat))
  | .bfx e => some (.bfx, e, fun w _ l => fieldGet e.ty (natA e w l) (w.src e.lit e.b 32 l))
  | .bfi e => some (.bfi, e, fun w _ l => fieldPut e.ty.bits (natA e w l) (natB e w l) (w.src e.lit e.c 32 l))
  | .icmp e => some (.icmp, e, fun w _ l => (condOf (e.x.toNat % 8) (valA e w l) (valB e w l)).toNat)
  | .selX e => some (.sel, e, fun w active l => (if selects e w active l then natA e w l else natB e w l : Nat))
  | _ => none

/-- The integer and bit instructions (08 R157), the base forms among them. -/
def integerRow (i : Instr) : Option LaneRow :=
  (exactResult (asExtended i)).map fun (f, e, r) =>
    { form := f, ext := e, value := fun w active l _ => Num.fitInt e.ty e.sat (r w active l) }

/-- Round(…) of an instruction's format and modifiers. -/
def floatFmt (e : Ext) : Num.Fmt := (Num.fmtOf e.ty).getD Num.fp32
def roundBy (e : Ext) (us : List Nat) : Num.RMode := { rnd := e.rnd, u := us.getD 0 0, sat := e.sat, ftz := e.ftz }

/-- The floating-point instructions that are not long-latency (08 R163, R165–R170), the base forms among them. -/
def floatRow (i : Instr) : Option LaneRow :=
  match asExtended i with
  | .fadd e => mkRow .float3 e 1 fun w _ l us => (floatFmt e).add (roundBy e us) (natA e w l) (natB e w l)
  | .fsub e => mkRow .float3 e 1 fun w _ l us => (floatFmt e).sub (roundBy e us) (natA e w l) (natB e w l)
  | .fmul e => mkRow .float3 e 1 fun w _ l us => (floatFmt e).mul (roundBy e us) (natA e w l) (natB e w l)
  | .fma e => mkRow .fma e 1 fun w _ l us =>
      (floatFmt e).fma (roundBy e us) (natA e w l) (natB e w l) (w.src e.lit e.c e.ty.bits l)
  | .fmin e => mkRow .fminmax e 0 fun w _ l _ => (floatFmt e).minMax e.ftz false (natA e w l) (natB e w l)
  | .fmax e => mkRow .fminmax e 0 fun w _ l _ => (floatFmt e).minMax e.ftz true (natA e w l) (natB e w l)
  | .fabs e => mkRow .fsign e 0 fun w _ l _ => { bits := natA e w l % 2 ^ (e.ty.bits - 1) }
  | .fneg e => mkRow .fsign e 0 fun w _ l _ =>
      { bits := (natA e w l + 2 ^ (e.ty.bits - 1)) % 2 ^ e.ty.bits }
  | .fcmp e => mkRow .fcmp e 0 fun w _ l _ =>
      let r := (floatFmt e).compare e.ftz (e.x.toNat % 8) (natA e w l) (natB e w l)
      { bits := r.1.toNat, fl := r.2 }
  | .fclass e => mkRow .fclass e 0 fun w _ l _ => { bits := (floatFmt e).classify (natA e w l) }
  | .frcp e => mkRow .ffun e 0 fun w _ l _ => Num.frcp e.ftz (natA e w l)
  | .frsq e => mkRow .ffun e 0 fun w _ l _ => Num.frsq e.ftz (natA e w l)
  | .fex2 e => mkRow .ffun e 0 fun w _ l _ => Num.fex2 e.ftz (natA e w l)
  | .flg2 e => mkRow .ffun e 0 fun w _ l _ => Num.flg2 e.ftz (natA e w l)
  | .dadd e => mkRow .dbl2 e 1 fun w _ l us => Num.fp64.add (roundBy e us) (natA e w l) (natB e w l)
  | .dmul e => mkRow .dbl2 e 1 fun w _ l us => Num.fp64.mul (roundBy e us) (natA e w l) (natB e w l)
  | .dfma e => mkRow .dbl3 e 1 fun w _ l us =>
      Num.fp64.fma (roundBy e us) (natA e w l) (natB e w l) (w.src e.lit e.c 64 l)
  | _ => none

/-- The type that X[4:0] of CVT names, and the wide side of PACK and UNPACK (08 R171, R173). -/
def sourceType (e : Ext) : DType := (DType.ofCode (e.x.toNat % 32)).getD .none
def wideType (t : DType) : DType := if t.isSigned then .i32 else if t.isNatural then .n32 else .f32

/-- Conversion and packing (08 R171–R173). -/
def convertRow : Instr → Option LaneRow
  | .cvt e => mkRow .cvt e 1 fun w _ l us =>
      Num.convert e.ty (sourceType e) (roundBy e us) (w.src e.lit e.a (sourceType e).bits l)
  | .frnd e => mkRow .frnd e 1 fun w _ l us =>
      Num.roundIntegral (floatFmt e) (roundBy e us) (natA e w l)
  | .pack e => mkRow .pack e 2 fun w _ l us =>
      let a := Num.convert e.ty (wideType e.ty) (roundBy e us) (w.src e.lit e.a 32 l)
      let b := Num.convert e.ty (wideType e.ty) (roundBy e (us.drop 1)) (w.src e.lit e.b 32 l)
      let old := w.src e.lit e.d 32 l
      { fl := a.fl ||| b.fl
        bits :=
          if e.ty.bits = 16 then a.bits + 2 ^ 16 * b.bits
          else if e.x.toNat % 2 = 0 then a.bits + 2 ^ 8 * b.bits + 2 ^ 16 * (old / 2 ^ 16)
          else old % 2 ^ 16 + 2 ^ 16 * (a.bits + 2 ^ 8 * b.bits) }
  | .unpack e => mkRow .unpack e 1 fun w _ l us =>
      Num.convert (wideType e.ty) e.ty (roundBy e us)
        (w.src e.lit e.a 32 l / 2 ^ (e.ty.bits * (e.x.toNat % 4)) % 2 ^ e.ty.bits)
  | _ => none

/-- The lane from which a shuffle takes its value, none when it lies outside the wave (08 R175). -/
def shuffleFrom : Instr → Option (Ext × (Wave → Nat → Nat → Option Nat))
  | .shfl e => some (e, fun w _ b => if b < w.id.width then some b else none)
  | .shflx e => some (e, fun w l b => if l ^^^ b < w.id.width then some (l ^^^ b) else none)
  | .shflup e => some (e, fun w l b => if b ≤ l ∧ l - b < w.id.width then some (l - b) else none)
  | .shfldn e => some (e, fun w l b => if l + b < w.id.width then some (l + b) else none)
  | _ => none

/-- Under COMPAT, SHFLUP and SHFLDN give 0 from outside the wave, in place of the lane's own value (24 R410). -/
def compatZero (s : State) (w : Wave) : Instr → Bool
  | .shflup _ | .shfldn _ => (s.grid w.id.grid).kd.compat
  | _ => false

/-- Cross-lane instructions (08 R175–R178). -/
def crossRow (s : State) (i : Instr) : Option LaneRow :=
  match shuffleFrom i with
  | some (e, j) => mkRow .shfl e 0 fun w _ l _ =>
      { bits := match j w l (w.src e.lit e.b 32 l) with
          | some k => natA e w k
          | none => if compatZero s w i then 0 else natA e w l }
  | none =>
    match i with
    | .bcast e => mkRow .bcast e 0 fun w _ l _ =>
        { bits := natA e w (w.src e.lit e.b 32 l % w.id.width) }
    | .redw e => mkRow .redw e 0 fun w active _ _ =>
        (treeNode e w active (log2W w) 0).getD { bits := 0 }
    | .scanw e => mkRow .scanw e 0 fun w active l _ =>
        (scanAt e w (active &&& w.getK e.k.toNat) l).getD { bits := 0 }
    | _ => none

/-- What a lane instruction does once its checks have passed: with no vector operand and no active lane it only goes
on; otherwise every acting lane takes its draws and its result stands in the destination, nothing else of the machine
changing. -/
def LaneInstruction (i : Instr) (row : State → Option LaneRow) : Prop :=
  ∀ (s : State) (c : Issue) (w : Wave) (sp : Split) (r : LaneRow), row s = some r → i.wf = true →
    Issuing s c w sp → w.clear sp (usesOf r.form r.ext) = true →
    let n := if r.ext.rnd = .sr then r.draws else 0
    let ls := w.actors sp r.ext
    let drawn := s.takeDraws w c n ls
    (n = 0 ∨ s.drawsBlocked w.id.uid ls = false) →
    if hasVector r.form r.ext = true ∨ w.active sp ≠ 0 then
      ∃ w', exec i s = .next (drawn.1.done c w') ∧
        LaneWritten w w' r.ext (r.form.d.w.bits r.ext) ls
          (fun l => r.value w (w.active sp) l (drawn.2.getD l []))
    else exec i s = .next (s.done c w)

end Sys2Proof.Machine

/-- O1. Integer and bit instructions (08 R157, R158, R160, R161; the base forms of 03 R34): every acting lane's D takes
Fit of the exact result that its row of the table gives, under `.sat` clamped with OF, and nothing else changes. -/
def Obligations.IntegerResults : Prop :=
  ∀ i : Instr, LaneInstruction i fun _ => integerRow i

/-- O2. Floating-point instructions that are not long-latency (08 R163, R165–R170; the base forms of 03 R34): every acting
lane's D takes the rounded exact result in the type's format, the flags it raises join %fpstat, and nothing else changes. -/
def Obligations.FloatResults : Prop :=
  ∀ i : Instr, LaneInstruction i fun _ => floatRow i

/-- O3. Conversion, rounding to integral values, packing and unpacking (08 R171–R173): every acting lane's D takes the
converted value, the flags it raises join %fpstat, and nothing else changes. -/
def Obligations.ConvertResults : Prop :=
  ∀ i : Instr, LaneInstruction i fun _ => convertRow i

/-- O4. Shuffles, broadcast, reduction and scan (08 R175–R178): every acting lane's D takes the value of the lane that the
instruction names, or what the acting lanes up to it, or all of them, give in ascending order; nothing else changes. -/
def Obligations.CrossLaneResults : Prop :=
  ∀ i : Instr, LaneInstruction i fun s => crossRow s i
/-! ## Carries, long-latency operations, immediates, masks, register-relative moves, exchanges -/

namespace Sys2Proof.Machine

/-- The long-latency floating-point instructions (08 R163, 03 R45). -/
def longRow : Instr → Option LaneRow
  | .fdiv e => mkRow .fdiv e 1 fun w _ l us => (floatFmt e).div (roundBy e us) (natA e w l) (natB e w l)
  | .fsqrt e => mkRow .fsqrt e 1 fun w _ l us => (floatFmt e).sqrt (roundBy e us) (natA e w l)
  | _ => none

/-- What a long-latency operation holds for its landing: the words of every acting lane's result, each once, and the
status bits of all of them. -/
structure HoldsResults (o : LongOp) (e : Ext) (n : Nat) (ls : List Nat) (res : Nat → Num.Res) : Prop where
  vw : ∀ r l x, (r, l, x) ∈ o.vw ↔ ∃ d, e.d = .v d ∧ l ∈ ls ∧ d.toNat ≤ r ∧ r < d.toNat + regCount n ∧
    x = BitVec.ofNat 32 ((res l).bits / 2 ^ (32 * (r - d.toNat)))
  sw : ∀ r x, (r, x) ∈ o.sw ↔ ∃ d l, e.d = .s d ∧ l ∈ ls ∧ d.toNat ≤ r ∧ r < d.toNat + regCount n ∧
    x = BitVec.ofNat 32 ((res l).bits / 2 ^ (32 * (r - d.toNat)))
  fl : o.fl = ls.foldl (fun f l => f ||| (res l).fl) 0

/-- The scalar-immediate operations on sA and the operand (08 R162). -/
def immResult : Instr → Option (BaseImm × (Word → Word))
  | .iaddi b => some (b, fun x => BitVec.ofInt 32 (x.toNat + (immSigned b.i).toInt))
  | .andi b => some (b, fun x => x &&& immSigned b.i)
  | .ori b => some (b, fun x => x ||| immSigned b.i)
  | .xori b => some (b, fun x => x ^^^ immSigned b.i)
  | .ishli b => some (b, fun x => BitVec.ofNat 32 (x.toNat * 2 ^ immCount b.i))
  | _ => none

/-- A 64-bit mask operand: a mask register, a scalar pair whose even register holds bits [31:0], or the literal. -/
def maskOperand (w : Wave) (e : Ext) : Opnd → Mask
  | .k n => w.getK n.toNat
  | .s n => w.getS (n.toNat + 1) ++ w.getS n.toNat
  | .lit => e.lit
  | _ => 0

/-- The mask instructions that give 64 bits (08 R174). -/
def maskResult : Instr → Option (Form × Ext × (Wave → Mask))
  | .kand e => some (.mask2, e, fun w => maskOperand w e e.a &&& maskOperand w e e.b)
  | .kor e => some (.mask2, e, fun w => maskOperand w e e.a ||| maskOperand w e e.b)
  | .kxor e => some (.mask2, e, fun w => maskOperand w e e.a ^^^ maskOperand w e e.b)
  | .knot e => some (.mask1, e, fun w => ~~~maskOperand w e e.a)
  | .kmov e => some (.kmov, e, fun w => maskOperand w e e.a)
  | _ => none

/-- Is n the index of the lowest 1 bit of a mask? -/
def LowestOne (m : Mask) (n : Nat) : Prop := m.getLsbD n = true ∧ ∀ j < n, m.getLsbD j = false

/-- The mask instructions that give a number (08 R174; 24 R410 for KFIRST of a zero mask under COMPAT). -/
def MaskNumber (s : State) (w : Wave) (active : Mask) (x : Nat) : Instr → Prop
  | .kpopc e => x = (List.range 64).countP fun j => (maskOperand w e e.a).getLsbD j
  | .kfirst e =>
    (maskOperand w e e.a = 0 ∧ x = if (s.grid w.id.grid).kd.compat then 63 else 64) ∨ LowestOne (maskOperand w e e.a) x
  | .kany e => x = ((List.range 64).any fun j => active.getLsbD j && (maskOperand w e e.a).getLsbD j).toNat
  | .kall e => x = ((List.range 64).all fun j => !active.getLsbD j || (maskOperand w e e.a).getLsbD j).toNat
  | _ => False

/-- The fields of an instruction of the second kind. -/
def maskCountExt : Instr → Option Ext
  | .kpopc e => some e
  | .kfirst e => some e
  | .kany e => some e
  | .kall e => some e
  | _ => none

/-- The effective register of a lane: the base named by a class 00 field plus the index (07 R139). -/
def effective (e : Ext) (base : BitVec 8) (w : Wave) (l : Nat) : Int := base.toNat + Num.sval 32 (w.src e.lit e.b 32 l)

/-- Every acting lane's effective registers are in range, even for a pair, and not pending (07 R139). -/
def reachesWell (e : Ext) (base : BitVec 8) (w : Wave) (sp : Split) : Prop :=
  ∀ l ∈ lanesOf (w.acting sp e.k), ∃ r : Nat, effective e base w l = r ∧ r + e.ty.bits / 32 ≤ w.a ∧
    (e.ty.bits = 64 → r % 2 = 0) ∧ ∀ j < e.ty.bits / 32, SMap.find w.marks (r + j) = none

/-- The two register-relative moves, each with the operand whose register the index is added to (07 R139). -/
def relativeMove : Instr → Option (Form × Ext × Opnd)
  | .movx e => some (.movx, e, e.a)
  | .movxw e => some (.movxw, e, e.d)
  | _ => none

/-- The effective register of a lane lies outside the allocation, or is odd in a 64-bit move (07 R139). -/
def offRange (e : Ext) (base : BitVec 8) (w : Wave) (l : Nat) : Prop :=
  effective e base w l < 0 ∨ (w.a : Int) < effective e base w l + (e.ty.bits / 32 : Nat) ∨
    (e.ty.bits = 64 ∧ effective e base w l % 2 ≠ 0)

/-- A register-relative move whose own registers are in bounds and whose scalars are not pending. -/
structure MovesIndexed (s : State) (c : Issue) (w : Wave) (sp : Split) (i : Instr) (f : Form) (e : Ext) (base : BitVec 8) :
    Prop where
  row : relativeMove i = some (f, e, .v base)
  wf : i.wf = true
  issuing : Issuing s c w sp
  bounds : w.outOfBounds (usesOf f e) = false
  scalars : w.scoreboard (usesOf f e) = false

end Sys2Proof.Machine

/-- O5. IADDC (08 R159): D takes a + b + carry modulo 2^n and the carry bit says whether the sum reaches 2^n; only the carry
bits of acting lanes change; with k0 the carry in is 1 and the carry out is discarded. -/
def Obligations.AddWithCarry : Prop :=
  ∀ (s : State) (c : Issue) (w : Wave) (sp : Split) (e : Ext), (Instr.iaddc e).wf = true →
    Issuing s c w sp → w.clear sp (usesOf .iaddc e) = true →
    let kc := match e.c with
      | .k n => n.toNat
      | _ => 0
    let bit := fun l : Nat => if e.d.isS then 0 else l
    let ls := w.actors sp e
    let sum := fun l => natA e w l + natB e w l + ((w.getK kc).getLsbD (bit l)).toNat
    ∃ w', exec (.iaddc e) s = .next (s.done c w') ∧ w'.rest = w.rest ∧ w'.fpstat = w.fpstat ∧
      (∀ r l, l < 64 → w'.getV r l =
        match e.d with
        | .v d =>
          if l ∈ ls ∧ d.toNat ≤ r ∧ r < d.toNat + regCount e.ty.bits then
            BitVec.ofNat 32 (sum l % 2 ^ e.ty.bits / 2 ^ (32 * (r - d.toNat)))
          else w.getV r l
        | _ => w.getV r l) ∧
      (∀ r, w'.getS r =
        match e.d, ls with
        | .s d, l :: _ =>
          if d.toNat ≤ r ∧ r < d.toNat + regCount e.ty.bits then
            BitVec.ofNat 32 (sum l % 2 ^ e.ty.bits / 2 ^ (32 * (r - d.toNat)))
          else w.getS r
        | _, _ => w.getS r) ∧
      (∀ r j, j < w.id.width → (w'.getK r).getLsbD j =
        if r = kc ∧ r ≠ 0 ∧ j ∈ ls.map bit then decide (∃ l ∈ ls, bit l = j ∧ 2 ^ e.ty.bits ≤ sum l)
        else (w.getK r).getLsbD j)

/-- O6. FDIV and FSQRT (08 R163, 03 R44–R46): an operation that holds every acting lane's result attaches to the
chosen flag, its destination is marked pending, and no register has changed yet. -/
def Obligations.LongLatencyIssue : Prop :=
  ∀ (i : Instr) (s : State) (c : Issue) (w : Wave) (sp : Split) (r : LaneRow), longRow i = some r → i.wf = true →
    Issuing s c w sp → w.clear sp { usesOf r.form r.ext with long := some (r.ext.fb, r.ext.d.isV) } = true →
    let n := if r.ext.rnd = .sr then r.draws else 0
    let ls := w.actors sp r.ext
    let drawn := s.takeDraws w c n ls
    let k := regCount r.ext.ty.bits
    let f := sp.flagOf r.ext.fb
    (n = 0 ∨ s.drawsBlocked w.id.uid ls = false) →
    if r.ext.d.isS = true ∧ ls = [] then exec i s = .next (s.done c w)
    else
      ∃ o : LongOp,
        exec i s = .next (({ drawn.1.bump with ops := drawn.1.ops ++ [o] } : State).done c
          (((w.flagUp f).markAll (vregsOf r.ext.d k) f).sbMark (sregsOf r.ext.d k) (.op drawn.1.nextId))) ∧
        o.id = drawn.1.nextId ∧ o.uid = w.id.uid ∧ o.flag = f ∧ o.ready = true ∧
        HoldsResults o r.ext r.ext.ty.bits ls (fun l => r.value w (w.active sp) l (drawn.2.getD l []))

/-- O7. The scalar-immediate instructions and SHI (08 R162, 03 R34): executed once, when the split has
an active lane; the one scalar register takes the value, and nothing else changes. -/
def Obligations.ImmediateResults : Prop :=
  (∀ (i : Instr) (s : State) (c : Issue) (w : Wave) (sp : Split) (b : BaseImm) (g : Word → Word),
    immResult i = some (b, g) → Issuing s c w sp → w.clear sp { sr := [b.d.toNat, b.a.toNat] } = true →
    if w.active sp = 0 then exec i s = .next (s.done c w)
    else ∃ w', exec i s = .next (s.done c w') ∧ w'.rest = w.rest ∧ w'.fpstat = w.fpstat ∧
      (∀ r l, w'.getV r l = w.getV r l) ∧ (∀ r, w'.getK r = w.getK r) ∧
      ∀ r, w'.getS r = if r = b.d.toNat then g (w.getS b.a.toNat) else w.getS r) ∧
  ∀ (s : State) (c : Issue) (w : Wave) (sp : Split) (b : BaseShi),
    Issuing s c w sp → w.clear sp { sr := [b.d.toNat] } = true →
    if w.active sp = 0 then exec (.shi b) s = .next (s.done c w)
    else ∃ w', exec (.shi b) s = .next (s.done c w') ∧ w'.rest = w.rest ∧ w'.fpstat = w.fpstat ∧
      (∀ r l, w'.getV r l = w.getV r l) ∧ (∀ r, w'.getK r = w.getK r) ∧
      ∀ r, w'.getS r = if r = b.d.toNat then BitVec.ofNat 32 (b.imm.toNat * 2 ^ 12) else w.getS r

/-- O8. KAND, KOR, KXOR, KNOT and KMOV (08 R174): executed once, when the split has an active lane; a write to k0 is
ignored, and in a ganged half the bits beyond the half are discarded. -/
def Obligations.MaskResults : Prop :=
  ∀ (i : Instr) (s : State) (c : Issue) (w : Wave) (sp : Split) (f : Form) (e : Ext) (g : Wave → Mask),
    maskResult i = some (f, e, g) → i.wf = true → Issuing s c w sp → w.clear sp (usesOf f e) = true →
    if w.active sp = 0 then exec i s = .next (s.done c w)
    else ∃ w', exec i s = .next (s.done c w') ∧ w'.rest = w.rest ∧ w'.fpstat = w.fpstat ∧
      (∀ r l, w'.getV r l = w.getV r l) ∧
      (∀ r, w'.getK r =
        match e.d with
        | .k d => if r = d.toNat ∧ r ≠ 0 then g w &&& w.id.full else w.getK r
        | _ => w.getK r) ∧
      ∀ r, w'.getS r =
        match e.d with
        | .s d =>
          if r = d.toNat then (g w).setWidth 32 else if r = d.toNat + 1 then (g w >>> 32).setWidth 32 else w.getS r
        | _ => w.getS r

/-- O9. KPOPC, KFIRST, KANY and KALL (08 R174, 24 R410): sD takes the number of ones, the lowest one's index or 64, or
whether a one stands in an active lane's bit or in each, and nothing else changes. -/
def Obligations.MaskNumbers : Prop :=
  ∀ (i : Instr) (s : State) (c : Issue) (w : Wave) (sp : Split) (e : Ext),
    maskCountExt i = some e → i.wf = true → Issuing s c w sp → w.clear sp (usesOf .maskToS e) = true →
    if w.active sp = 0 then exec i s = .next (s.done c w)
    else ∃ w' x d, e.d = .s d ∧ exec i s = .next (s.done c w') ∧ MaskNumber s w (w.active sp) x i ∧
      w'.rest = w.rest ∧ w'.fpstat = w.fpstat ∧ (∀ r l, w'.getV r l = w.getV r l) ∧ (∀ r, w'.getK r = w.getK r) ∧
      ∀ r, w'.getS r = if r = d.toNat then BitVec.ofNat 32 x else w.getS r

/-- O10. MOVX and MOVXW (07 R139, 08 R179, 12 R247): when every acting lane's effective registers are in range, MOVX reads
them and MOVXW writes them, each lane its own part; the operand is read before anything is written. An effective register
outside the allocation, or odd in a 64-bit move, takes REG_BOUNDS with the lowest such lane, with no effect; else one that is
pending takes FLAG_HAZARD. That a vector index register which is itself pending is checked on the value it holds before its
write lands is the model's choice (log entry 79). -/
def Obligations.RelativeMoves : Prop :=
  (∀ (s : State) (c : Issue) (w : Wave) (sp : Split) (e : Ext) (base d : BitVec 8), (Instr.movx e).wf = true →
    Issuing s c w sp → e.a = .v base → e.d = .v d → w.clear sp (usesOf .movx e) = true → reachesWell e base w sp →
    ∃ w', exec (.movx e) s = .next (s.done c w') ∧ w'.rest = w.rest ∧ w'.fpstat = w.fpstat ∧
      (∀ r, w'.getS r = w.getS r) ∧ (∀ r, w'.getK r = w.getK r) ∧
      ∀ r l, l < 64 → w'.getV r l =
        if l ∈ lanesOf (w.acting sp e.k) ∧ d.toNat ≤ r ∧ r < d.toNat + e.ty.bits / 32 then
          w.getV ((effective e base w l).toNat + (r - d.toNat)) l
        else w.getV r l) ∧
  (∀ (s : State) (c : Issue) (w : Wave) (sp : Split) (i : Instr) (f : Form) (e : Ext) (base : BitVec 8) (l : Nat),
    MovesIndexed s c w sp i f e base → l ∈ lanesOf (w.acting sp e.k) → offRange e base w l →
    (∀ j ∈ lanesOf (w.acting sp e.k), j < l → ¬offRange e base w j) → exec i s = .next (s.trapAt c tRegBounds 0 l 0)) ∧
  (∀ (s : State) (c : Issue) (w : Wave) (sp : Split) (i : Instr) (f : Form) (e : Ext) (base : BitVec 8),
    MovesIndexed s c w sp i f e base → (∀ l ∈ lanesOf (w.acting sp e.k), ¬offRange e base w l) →
    (w.hazard sp (usesOf f e) = true ∨ ∃ l ∈ lanesOf (w.acting sp e.k), ∃ j < e.ty.bits / 32,
      (SMap.find w.marks ((effective e base w l).toNat + j)).isSome = true) →
    exec i s = .next (s.trapAt c tFlagHazard 0 0 0)) ∧
  ∀ (s : State) (c : Issue) (w : Wave) (sp : Split) (e : Ext) (base a : BitVec 8), (Instr.movxw e).wf = true →
    Issuing s c w sp → e.d = .v base → e.a = .v a → w.clear sp (usesOf .movxw e) = true → reachesWell e base w sp →
    ∃ w', exec (.movxw e) s = .next (s.done c w') ∧ w'.rest = w.rest ∧ w'.fpstat = w.fpstat ∧
      (∀ r, w'.getS r = w.getS r) ∧ (∀ r, w'.getK r = w.getK r) ∧
      ∀ r l, l < 64 → w'.getV r l =
        let b := (effective e base w l).toNat
        if l ∈ lanesOf (w.acting sp e.k) ∧ b ≤ r ∧ r < b + e.ty.bits / 32 then w.getV (a.toNat + (r - b)) l
        else w.getV r l

/-- O11. XSWAP at issue (08 R180, R181): in a half of a ganged slot it takes ILLEGAL_ENC; with no active lane it has no
effect; naming the issuing core itself, it takes XSWAP_TIMEOUT at once; otherwise the exchange enters the list with vA of the
acting lanes, vD is marked pending on the chosen flag, and the split waits. That an exchange with active lanes of which none
acts under K enters the list all the same is the model's choice (log entry 62). -/
def Obligations.ExchangeIssue : Prop :=
  (∀ (s : State) (c : Issue) (w : Wave) (sp : Split) (e : Ext), (Instr.xswap e).wf = true → Issuing s c w sp →
    w.id.gang ≠ 0 → exec (.xswap e) s = .next (s.trapAt c tIllegalEnc 0 0 0)) ∧
  ∀ (s : State) (c : Issue) (w : Wave) (sp : Split) (e : Ext) (a d : BitVec 8) (b : BitVec 7),
    (Instr.xswap e).wf = true → Issuing s c w sp → w.id.gang = 0 → e.a = .v a → e.d = .v d → e.b = .s b →
    w.clear sp { usesOf .xswap e with long := some (e.fb, true) } = true →
    if w.active sp = 0 then exec (.xswap e) s = .next (s.done c w)
    else if (w.getS b.toNat).toNat % 8 = w.id.core % 8 then exec (.xswap e) s = .next (s.trapAt c tXswapTimeout 0 0 0)
    else ∃ t x w', exec (.xswap e) s = .next t ∧ t.wave c.key = some w' ∧ t.xswaps = s.xswaps ++ [x] ∧
      x.partner = w.id.core / 8 * 8 + (w.getS b.toNat).toNat % 8 ∧ x.tag = e.x.toNat ∧ x.uid = w.id.uid ∧
      x.clock = s.dieClock w.id.die ∧ x.dreg = d.toNat ∧
      (∀ l, (∃ ws, (l, ws) ∈ x.vals) ↔ l ∈ lanesOf (w.acting sp e.k)) ∧
      (∀ l ws, (l, ws) ∈ x.vals → ∀ j < e.ty.bits / 32, ws[j]? = some (w.getV (a.toNat + j) l)) ∧
      (∀ n, sp.flagOf e.fb = some n → ∀ j < e.ty.bits / 32, SMap.find w'.marks (d.toNat + j) = some n) ∧
      (SMap.find w'.splits c.split).map (·.wait) = some (.xswap x.op) ∧ w.sameRegs w' ∧ s.sameMemory t

/-! ## Control flow -/

namespace Sys2Proof.Machine

/-- The structured instructions and their fields (08 R182). -/
def structuredExt : Instr → Option Ext
  | .ifX e => some e
  | .elseX e => some e
  | .endif e => some e
  | .loopX e => some e
  | .endloop e => some e
  | .breakX e => some e
  | _ => none

/-- The bit of kx for a lane. -/
def maskBit (w : Wave) (e : Ext) (l : Nat) : Bool :=
  match e.a with
  | .k n => (w.getK n.toNat).getLsbD l
  | _ => false

/-- A member lane's counter after a structured instruction, from its counter c before (08 R183's table).
`any` says whether some member counter is zero before. -/
def counterAfter (w : Wave) (l c : Nat) (any : Bool) : Instr → Nat
  | .ifX e => if c ≠ 0 then c + 1 else if maskBit w e l then c else 1
  | .elseX _ => if c = 0 then 1 else if c = 1 then 0 else c
  | .endif _ => if c ≠ 0 then c - 1 else c
  | .loopX _ => if c ≠ 0 then c + 1 else c
  | .breakX e => if c = 0 ∧ maskBit w e l = true then e.x.toNat + 1 else c
  | .endloop _ => if any then c else if c ≠ 0 then c - 1 else c
  | _ => c

/-- Does a structured instruction transfer (08 R183)? IF, ELSE and LOOP do when they leave no member counter at zero,
ENDLOOP when it has found one at zero. -/
def transfers (before after : List Nat) : Instr → Bool
  | .ifX _ | .elseX _ | .loopX _ => after.all (· != 0)
  | .endloop _ => before.any (· == 0)
  | _ => false

/-- PC + SignExt(literal[31:0], 64) (08 R182). -/
def jumpTarget (c : Issue) (e : Ext) : Dword := c.pc + BitVec.ofInt 64 (e.lit.setWidth 32).toInt

/-- The number of a register operand. -/
def numberOf : Opnd → Nat
  | .v n => n.toNat
  | .s n => n.toNat
  | .k n => n.toNat
  | _ => 0

/-- Does a branch of major 0x19 go to its target (08 R185)? -/
def branches (w : Wave) : Instr → Option (Form × Ext × Bool)
  | .bra e => some (.jump, e, true)
  | .bz e => some (.bz, e, w.getS (numberOf e.a) = 0)
  | .bnz e => some (.bz, e, w.getS (numberOf e.a) ≠ 0)
  | _ => none

/-- The target that CALLI reads for a lane (08 R188). -/
def callTarget (w : Wave) (e : Ext) (l : Nat) : Dword :=
  match e.a with
  | .v n => w.getV (n.toNat + 1) l ++ w.getV n.toNat l
  | .s n => w.getS (n.toNat + 1) ++ w.getS n.toNat
  | _ => 0

/-- An instruction that has issued at a clock is the wave's last, and the wave's guard is zero (07 R146, R148, R150). -/
structure IssuedAt (w' : Wave) (clock : Nat) : Prop where
  last : w'.lastIssue = clock + 1
  guard : w'.guard = 0
  expired : w'.expired = none

/-- A link stands in vD:vD+1 of some lanes, whose words hold no poison any more (25 R428), and every other register word of
the lanes is as it was. -/
structure LinksIn (w w' : Wave) (d : Nat) (ls : List Nat) (link : Dword) : Prop where
  v : ∀ r l, l < 64 → w'.getV r l =
    if l ∈ ls ∧ r = d then link.setWidth 32 else if l ∈ ls ∧ r = d + 1 then (link >>> 32).setWidth 32 else w.getV r l
  bad : ∀ x, x ∈ w'.bad ↔ x ∈ w.bad ∧ ∀ l ∈ ls, x ≠ .v d l ∧ x ≠ .v (d + 1) l

/-- The link has been written into vD:vD+1 of some lanes, and nothing else of the wave has changed but its splits, what they
owe a barrier, and what an issue changes. -/
structure Linked (w w' : Wave) (d : Nat) (ls : List Nat) (link : Dword) (clock : Nat) : Prop extends
    LinksIn w w' d ls link, IssuedAt w' clock where
  frame : { w' with v := w.v, bad := w.bad, splits := w.splits, owed := w.owed, lastIssue := w.lastIssue, guard := w.guard,
                    expired := w.expired } = w

/-- A peel (08 R190) has given the lanes `go` the link P + 1 in vD:vD+1 and every lane the counter of a function, and
nothing else of the wave has changed but its splits and what an issue changes. -/
structure Peeled (w w' : Wave) (d : Nat) (p : Dword) (go : List Nat) (counter : Nat → Nat) (clock : Nat) : Prop extends
    LinksIn w w' d go (p + 1), IssuedAt w' clock where
  depth : ∀ l < 64, w'.depthOf l = counter l
  frame : { w' with v := w.v, bad := w.bad, depth := w.depth, splits := w.splits, lastIssue := w.lastIssue, guard := w.guard,
                    expired := w.expired } = w

/-- The issuing split has gone to an address with a CD, and no other entry has changed. -/
def Went (c : Issue) (w w' : Wave) (sp : Split) (pc : Dword) (cd : Nat) : Prop :=
  ∃ q, SMap.find w'.splits c.split = some q ∧ q.pc = pc ∧ q.cd = cd ∧ q.members = sp.members ∧ q.codes = 0 ∧
    ∀ j, j ≠ c.split → SMap.find w'.splits j = SMap.find w.splits j

end Sys2Proof.Machine

/-- O12. IF, ELSE, ENDIF, LOOP, ENDLOOP and BREAK (08 R183, 07 R140): the counters of every member lane, whether or
not a lane is active, and the transfer; a counter that would pass 255 takes DEPTH_OVERFLOW and changes nothing. -/
def Obligations.StructuredControl : Prop :=
  ∀ (i : Instr) (s : State) (c : Issue) (w : Wave) (sp : Split) (e : Ext), structuredExt i = some e → i.wf = true →
    Issuing s c w sp →
    let ls := lanesOf sp.members
    let any := ls.any fun l => w.depthOf l == 0
    let after := fun l => counterAfter w l (w.depthOf l) any i
    if ∃ l ∈ ls, 255 < after l then exec i s = .next (s.trapAt c tDepthOverflow 0 0 0)
    else ∃ w',
      exec i s = .next (if transfers (ls.map w.depthOf) (ls.map after) i then s.jump c w' (jumpTarget c e)
        else s.done c w') ∧
      (∀ l, w'.depthOf l = if l ∈ ls then after l else w.depthOf l) ∧ { w' with depth := w.depth } = w

/-- O13. BRA, BZ and BNZ (08 R185): the whole split goes to the target or on; with no active lane they have no effect,
and no branch changes a counter or a register. -/
def Obligations.Branches : Prop :=
  ∀ (i : Instr) (s : State) (c : Issue) (w : Wave) (sp : Split) (f : Form) (e : Ext) (taken : Bool),
    branches w i = some (f, e, taken) → i.wf = true → Issuing s c w sp → w.clear sp (usesOf f e) = true →
    exec i s = .next (if w.active sp ≠ 0 ∧ taken = true then s.jump c w (jumpTarget c e) else s.done c w) ∧
    (∀ w' t, exec i s = .next t → t.wave c.key = some w' → w.sameRegs w' ∧ w'.depth = w.depth) ∧
    ∀ t, exec i s = .next t → s.sameMemory t

/-- O14. CALL, and CALLI whose active lanes name one target (08 R186, R188, R185): the link stands in vD:vD+1 of every
active lane, whose words hold no poison then, CD is one more and the split goes to the target; with CD at 255 they take
CALL_DEPTH, and with no active lane they have no effect. -/
def Obligations.Calls : Prop :=
  (∀ (s : State) (c : Issue) (w : Wave) (sp : Split) (e : Ext), (Instr.call e).wf = true → Issuing s c w sp →
    w.clear sp (usesOf .call e) = true →
    if w.active sp = 0 then exec (.call e) s = .next (s.done c w)
    else if 255 ≤ sp.cd then exec (.call e) s = .next (s.trapAt c tCallDepth 0 0 0)
    else ∃ t w', exec (.call e) s = .next t ∧ t.wave c.key = some w' ∧ s.sameMemory t ∧
      Linked w w' (numberOf e.d) (lanesOf (w.active sp)) (c.pc + 20) s.clock ∧ w'.owed = w.owed ∧
      Went c w w' sp (jumpTarget c e) (sp.cd + 1)) ∧
  (∀ (s : State) (c : Issue) (w : Wave) (sp : Split) (e : Ext), (Instr.calli e).wf = true → Issuing s c w sp →
    w.clear sp (usesOf .calli e) = true → w.active sp = 0 → exec (.calli e) s = .next (s.done c w)) ∧
  ∀ (s : State) (c : Issue) (w : Wave) (sp : Split) (e : Ext) (x : Dword), (Instr.calli e).wf = true →
    Issuing s c w sp → w.clear sp (usesOf .calli e) = true → w.active sp ≠ 0 →
    (∀ l ∈ lanesOf (w.active sp), callTarget w e l = x) →
    if x.toNat % 4 ≠ 0 then exec (.calli e) s = .next (s.trapAt c tIllegalEnc 0 0 0)
    else if 255 ≤ sp.cd then exec (.calli e) s = .next (s.trapAt c tCallDepth 0 0 0)
    else ∃ t w', exec (.calli e) s = .next t ∧ t.wave c.key = some w' ∧ s.sameMemory t ∧
      Linked w w' (numberOf e.d) (lanesOf (w.active sp)) (c.pc + 12) s.clock ∧ w'.owed = w.owed ∧
      Went c w w' sp x (sp.cd + 1)

/-- O15. A CALLI with several targets (08 R188, R190). A target with a low bit set raises ILLEGAL_ENC, and then CD 255
CALL_DEPTH. With a free entry for each further target, every active lane stands in an entry at its own target with CD one
more and its link written, and the lanes that were not active stay in the issuing entry; the entries it makes owe the
departures that the issuing one owes (09 R218, log entry 27). With some free entries but too few,
the last of them holds the lanes of the targets left over, at the CALLI itself. With none, the split peels: it runs the
target of its lowest active lane with the link P + 1, the lanes of other targets wait at counter 1, every other member's
counter is two more, and one that would pass 255 takes DEPTH_OVERFLOW instead. -/
def Obligations.DividedCall : Prop :=
  ∀ (s : State) (c : Issue) (w : Wave) (sp : Split) (e : Ext), (Instr.calli e).wf = true → Issuing s c w sp →
    w.clear sp (usesOf .calli e) = true →
    let ls := lanesOf (w.active sp)
    let ts := (ls.map (callTarget w e)).eraseDups
    let free := (List.range 4).filter fun j => (SMap.find w.splits j).isNone
    let own := if ts.length ≤ free.length + 1 then ts else ts.take free.length
    2 ≤ ts.length →
    ((∃ x ∈ ts, x.toNat % 4 ≠ 0) → exec (.calli e) s = .next (s.trapAt c tIllegalEnc 0 0 0)) ∧
    ((∀ x ∈ ts, x.toNat % 4 = 0) → 255 ≤ sp.cd → exec (.calli e) s = .next (s.trapAt c tCallDepth 0 0 0)) ∧
    ((∀ x ∈ ts, x.toNat % 4 = 0) → sp.cd < 255 → free ≠ [] →
      ∃ t w', exec (.calli e) s = .next t ∧ t.wave c.key = some w' ∧ s.sameMemory t ∧
        Linked w w' (numberOf e.d) (ls.filter fun l => own.contains (callTarget w e l)) (c.pc + 12) s.clock ∧
        (w'.owed = w.owed.map fun p => (p.1, if c.split ∈ p.2 then p.2 ++ free.take (ts.length - 1) else p.2)) ∧
        (∀ l ∈ ls, callTarget w e l ∈ own → ∃ j q, SMap.find w'.splits j = some q ∧ q.members.getLsbD l = true ∧
          q.pc = callTarget w e l ∧ q.cd = sp.cd + 1 ∧ q.codes = 0 ∧ q.seta = sp.seta ∧ q.setb = sp.setb ∧
          (j = c.split ∨ j ∈ free)) ∧
        (free.length + 1 < ts.length → ∃ q, SMap.find w'.splits (free.getLastD 0) = some q ∧
          { q with members := sp.members } = sp ∧
          ∀ l < 64, q.members.getLsbD l = true ↔ l ∈ ls ∧ callTarget w e l ∉ own) ∧
        (∃ q, SMap.find w'.splits c.split = some q ∧
          ∀ l < 64, sp.members.getLsbD l = true → l ∉ ls → q.members.getLsbD l = true) ∧
        ∀ j, j ≠ c.split → j ∉ free → SMap.find w'.splits j = SMap.find w.splits j) ∧
    ((∀ x ∈ ts, x.toNat % 4 = 0) → sp.cd < 255 → free = [] →
      let x := callTarget w e (lowLane (w.active sp))
      let others := (lanesOf sp.members).filter fun l => l ∉ ls
      if ∃ l ∈ others, 253 < w.depthOf l then exec (.calli e) s = .next (s.trapAt c tDepthOverflow 0 0 0)
      else ∃ t w', exec (.calli e) s = .next t ∧ t.wave c.key = some w' ∧ s.sameMemory t ∧
        Peeled w w' (numberOf e.d) c.pc (ls.filter fun l => callTarget w e l = x)
          (fun l => if l ∈ others then w.depthOf l + 2 else if l ∈ ls ∧ callTarget w e l ≠ x then 1 else w.depthOf l)
          s.clock ∧
        Went c w w' sp x (sp.cd + 1))

/-- O16. RET (08 R187, R190, R185) by the link of its lowest active lane. With bits 0 and 1 clear, CD is one less and the
split goes to the link. With bit 0 set it ends a target of the peel of the CALLI at P, the link less 1: the active lanes
stand at counter 2; while a member waits at counter 1, the CALLI at P is read again and the target of the lowest such lane
runs; else every counter of 2 and more is two less, CD is one less and the split goes on behind the CALLI. Bit 1 set raises
ILLEGAL_ENC, CD 0 takes CALL_DEPTH, and with no active lane RET has no effect. That bit 1 is looked at before CD is the
model's choice (log entry 16), as are the checks and traps of the CALLI that is read again (log entry 83). -/
def Obligations.Returns : Prop :=
  ∀ (s : State) (c : Issue) (w : Wave) (sp : Split) (e : Ext), (Instr.ret e).wf = true → Issuing s c w sp →
    w.clear sp (usesOf .ret e) = true →
    let v := w.getV64 (numberOf e.a) (lowLane (w.active sp))
    let ls := lanesOf (w.active sp)
    let waiting := (lanesOf sp.members).filter fun l => w.depthOf l = 1
    (w.active sp = 0 → exec (.ret e) s = .next (s.done c w)) ∧
    (w.active sp ≠ 0 → v.getLsbD 1 = true → exec (.ret e) s = .next (s.trapAt c tIllegalEnc 0 0 0)) ∧
    (w.active sp ≠ 0 → v.getLsbD 1 = false → sp.cd = 0 → exec (.ret e) s = .next (s.trapAt c tCallDepth 0 0 0)) ∧
    (w.active sp ≠ 0 → v.getLsbD 1 = false → sp.cd ≠ 0 → v.getLsbD 0 = false →
      ∃ t w', exec (.ret e) s = .next t ∧ t.wave c.key = some w' ∧ s.sameMemory t ∧ w.sameRegs w' ∧
        w'.depth = w.depth ∧ Went c w w' sp v (sp.cd - 1)) ∧
    (w.active sp ≠ 0 → v.getLsbD 1 = false → sp.cd ≠ 0 → v.getLsbD 0 = true → waiting = [] →
      ∃ t w', exec (.ret e) s = .next t ∧ t.wave c.key = some w' ∧ s.sameMemory t ∧
        Peeled w w' 0 0 [] (fun l =>
          if l ∈ lanesOf sp.members ∧ 2 ≤ w.depthOf l then w.depthOf l - 2 else w.depthOf l) s.clock ∧
        Went c w w' sp (v - 1 + 12) (sp.cd - 1)) ∧
    (w.active sp ≠ 0 → v.getLsbD 1 = false → sp.cd ≠ 0 → v.getLsbD 0 = true → waiting ≠ [] →
      ∀ f u ws, s.fetchInstr w.id (v - 1) = (u, f) →
      (∀ p, f = .error p → exec (.ret e) s = .next (u.trapAt c tPageFault p.1 0 p.2)) ∧
      (f = .ok ws → (∀ x, decodeWords ws ≠ .instr (.calli x)) → exec (.ret e) s = .next (u.trapAt c tIllegalEnc 0 0 0)) ∧
      ∀ x, f = .ok ws → decodeWords ws = .instr (.calli x) → w.clear sp (usesOf .calli x) = true →
        let y := callTarget w x (waiting.headD 0)
        let go := waiting.filter fun l => callTarget w x l = y
        if y.toNat % 4 ≠ 0 then exec (.ret e) s = .next (u.trapAt c tIllegalEnc 0 0 0)
        else ∃ t w', exec (.ret e) s = .next t ∧ t.wave c.key = some w' ∧ u.sameMemory t ∧
          Peeled w w' (numberOf x.d) (v - 1) go
            (fun l => if l ∈ ls then 2 else if l ∈ go then 0 else w.depthOf l) s.clock ∧
          Went c w w' sp y sp.cd)

/-- O17. EXIT outside a handler, NOP, YIELD and JOIN (08 R192, R185, 07 R143): EXIT takes the active lanes out of the
split, whose entry goes with its last member, and the wave with its last entry; YIELD makes its split not ready for
the next 32 clocks of its die; JOIN parks its split where it stands. -/
def Obligations.ExitNopYieldJoin : Prop :=
  (∀ (s : State) (c : Issue) (w : Wave) (sp : Split) (e : Ext), Issuing s c w sp → w.handling = false →
    w.active sp ≠ 0 → w.engFaults = [] →
    let left := sp.members &&& ~~~(w.active sp)
    ∃ t, exec (.exit e) s = .next t ∧ s.sameMemory t ∧
      (left ≠ 0 → ∃ w' q, t.wave c.key = some w' ∧ SMap.find w'.splits c.split = some q ∧ q.members = left ∧
        w'.lastIssue = s.clock + 1 ∧ w.sameRegs w') ∧
      (left = 0 → (∀ p ∈ w.splits, p.1 = c.split) → t.wave c.key = none) ∧
      (left = 0 → (∃ p ∈ w.splits, p.1 ≠ c.split) → (∀ p ∈ w.splits, p.2.wait = .ready) →
        ∃ w', t.wave c.key = some w' ∧ SMap.find w'.splits c.split = none ∧
          (∀ j, j ≠ c.split → SMap.find w'.splits j = SMap.find w.splits j) ∧ w'.lastIssue = s.clock + 1 ∧
          w.sameRegs w')) ∧
  (∀ (s : State) (c : Issue) (w : Wave) (sp : Split) (e : Ext), Issuing s c w sp →
    exec (.nop e) s = .next (s.done c w)) ∧
  (∀ (s : State) (c : Issue) (w : Wave) (sp : Split) (e : Ext), Issuing s c w sp →
    ∃ t w' q, exec (.yield e) s = .next t ∧ t.wave c.key = some w' ∧ SMap.find w'.splits c.split = some q ∧
      (w.active sp ≠ 0 → q.wait = .until (s.dieClock w.id.die + 33)) ∧ (w.active sp = 0 → q.wait = sp.wait) ∧
      q.members = sp.members ∧ w.sameRegs w' ∧ s.sameMemory t) ∧
  ∀ (s : State) (c : Issue) (w : Wave) (sp : Split) (e : Ext), Issuing s c w sp →
    ∃ t w' q, exec (.joinX e) s = .next t ∧ t.wave c.key = some w' ∧ SMap.find w'.splits c.split = some q ∧
      q.park = true ∧ q.pc = sp.pc ∧ q.members = sp.members ∧ q.codes = sp.codes ∧ w.sameRegs w' ∧ s.sameMemory t
/-! ## Clauses, dictionary codes, system instructions -/

namespace Sys2Proof.Machine

/-- The word and the lowest bit of the field that a patch selector names (03 R52). -/
def patchField : Nat → Option (Nat × Nat)
  | 0x01 => some (0, 8)
  | 0x02 => some (0, 14)
  | 0x03 => some (0, 11)
  | 0x04 => some (0, 18)
  | 0x05 => some (0, 25)
  | 0x06 => some (0, 16)
  | 0x07 => some (0, 24)
  | 0x08 => some (1, 0)
  | 0x09 => some (1, 8)
  | _ => none

/-- The words that a code of a table entry executes (03 R50–R52): the entry's, with the six patch bits in the field
that the selector names. -/
structure Patched (entry : List Word × Word) (patch : BitVec 6) (ws : List Word) : Prop where
  count : ws.length = min entry.1.length (if entry.2.getLsbD 6 then 3 else 1)
  bits : ∀ j < ws.length, ∀ b < 32, (ws.getD j 0).getLsbD b =
    match patchField (entry.2.toNat % 64) with
    | some (k, n) => if j = k ∧ n ≤ b ∧ b < n + 6 then patch.getLsbD (b - n) else (entry.1.getD j 0).getLsbD b
    | none => (entry.1.getD j 0).getLsbD b

/-- The value of a special register for a lane (07 R138). -/
def specialValue (s : State) (w : Wave) (c : Issue) (l : Nat) : Nat → Nat
  | 0x00 => l
  | 0x01 => w.id.wave
  | 0x02 => w.id.nwaves
  | 0x03 => w.id.wg
  | 0x04 => w.id.ngrid
  | 0x05 => w.id.core
  | 0x06 => w.id.core / 4
  | 0x07 => w.id.die
  | 0x08 => s.mgmt.self
  | 0x09 => s.dieClock Config.dies
  | 0x0A => w.id.slot
  | 0x0B => c.split
  | 0x0C => w.depthOf l
  | 0x0D => w.id.gang
  | 0x0E => w.fpstat.toNat
  | 0x0F => w.resmiss.toNat
  | 0x10 => w.cursor.toNat
  | _ => 0

/-- The software traps, their causes and codes (09 R221). -/
def softTrapOf : Instr → Option (Nat × Nat)
  | .trapX e => some (tSwTrap, e.x.toNat)
  | .sysc e => some (tSyscall, e.x.toNat)
  | _ => none

/-- The trap record that an instruction which resumes behind itself leaves (10 R229). -/
structure TookTrap (w w' : Wave) (c : Issue) (sp : Split) (cause sub : Nat) : Prop where
  trap : w'.trap = some { cause, sub, split := c.split, pc := c.pc, resume := (sp.next c).at, active := w.active sp }
  regs : w.sameRegs w'
  depth : w'.depth = w.depth
  others : ∀ j, j ≠ c.split → SMap.find w'.splits j = SMap.find w.splits j

/-- The wave halts with a double fault: the context error carries both causes and both PCs (10 R236, 25 R424). -/
structure DoubleFaulted (s t : State) (k : Nat) (w : Wave) (first : Trap) (second : Nat) (pc2 : Dword) : Prop where
  wave : ∃ w', t.wave k = some w' ∧ w'.halted = true ∧ w.sameRegs w'
  error : (s.tenant w.id.tenant).cerr.cause = 0 →
    let e := (t.tenant w.id.tenant).cerr
    e.cause = 2 ∧ e.first = first.cause % 256 ∧ e.sub = second % 256 ∧ e.b = first.pc ∧ e.c = pc2 ∧ e.slot = w.id.slot
  overflow : (s.tenant w.id.tenant).cerr.cause ≠ 0 → (t.tenant w.id.tenant).cerr.ovf = true

/-- Can a faulting entry be performed again (14 R274, 15 R301, 17 R325, 22 R385)? -/
def mayRepeat (e : QEntry) (sub : Nat) : Bool :=
  !(e.q == 0 && e.bits 2 0 == 0 && matSpan e != 0) && e.q != 3 &&
  !(e.q == 4 && (sub == 1 || sub == 9 || sub == 10)) && !(e.q == 12 && e.bits 2 0 == 1)

/-- What ACTION does to the queue that the engine fault st has stopped, whose faulting entry is e (10 R237): that stop is
lifted; 1 leaves every entry where it stands, 2 takes the faulting one out (or leaves it waiting to post its result), any
other value all from the faulting one on. -/
structure QueueFate (s t : State) (uid q action : Nat) (e : QEntry) (st : StopRec) : Prop where
  runs : t.stops = s.stops.erase st
  again : action = 1 → mayRepeat e st.sub = true → t.entries = s.entries
  dropped : (action = 2 ∨ action = 1 ∧ mayRepeat e st.sub = false) →
    (∀ x ∈ t.entries, x.uid = uid → x.q = q → x.id = e.id → x.post.isSome = true) ∧
    (q ≠ 4 → ∀ x ∈ s.entries, x.uid = uid → x.q = q → x.id ≠ e.id → x ∈ t.entries)
  discarded : action ≠ 1 → action ≠ 2 → ∀ x ∈ t.entries, x.uid = uid → x.q = q → st.age ≤ x.age → x.post.isSome = true

/-- The conditions under which a TRET acts (10 R235): it is the handler's only split, every ls entry of the wave has been
performed, and the frame can be read. -/
structure MayReturn (s s' : State) (c : Issue) (w : Wave) (sp : Split) (sh : Shadow) (v : Nat) : Prop where
  issuing : Issuing s c w sp
  shadow : w.shadow = some sh
  single : w.splits.length = 1
  done : ∀ x ∈ s.ls, x.uid ≠ w.id.uid
  frame : s.readFrame w.id = (s', some v)

/-- RESUME can be taken: bit 0 clear, and bit 1 too unless it is the resume PC of the trap (10 R235). -/
def goodResume (sh : Shadow) (resume : Dword) : Prop :=
  resume.getLsbD 0 = false ∧ (resume.getLsbD 1 = false ∨ resume = sh.trap.resume)

end Sys2Proof.Machine

/-- O18. A clause header (03 R42, R43, R48): it stalls while a flag of WAIT is pending; then the marks of the waited
flags clear, SETA and SETB stand, and the DCOUNT words of codes come next, then the words behind them. A DCOUNT other
than zero without a table raises ILLEGAL_ENC at the header. -/
def Obligations.ClauseHeader : Prop :=
  ∀ (s : State) (c : Issue) (w : Wave) (sp : Split) (h : Clause), Issuing s c w sp →
    ((∃ n < 12, h.wait.getLsbD n = true ∧ SMap.read 0 w.flags n ≠ 0) → exec (.clause h) s = .next s) ∧
    ((∀ n < 12, h.wait.getLsbD n = true → SMap.read 0 w.flags n = 0) →
      if h.dcount ≠ 0 ∧ (s.group w.id.group).kd.dictn = 0 then
        exec (.clause h) s = .next (s.trapAt c tIllegalEnc 0 0 0)
      else ∃ t w' q, exec (.clause h) s = .next t ∧ t.wave c.key = some w' ∧ SMap.find w'.splits c.split = some q ∧
        (∀ p, p ∈ w'.marks ↔ p ∈ w.marks ∧ h.wait.getLsbD p.2 = false) ∧ q.seta = h.seta ∧ q.setb = h.setb ∧
        q.codes = 2 * h.dcount.toNat ∧ q.codePc = c.pc + 4 ∧
        q.pc = c.pc + 4 + BitVec.ofNat 64 (4 * h.dcount.toNat) ∧ q.members = sp.members ∧ q.cd = sp.cd ∧
        w.sameRegs w' ∧ w'.flags = w.flags ∧ s.sameMemory t)

/-- O19. A dictionary code (03 R50–R52): the split takes the table entry's words with the patch applied, to be executed
at the code's PC; an index beyond the table, or a patch that no field takes, raises ILLEGAL_ENC at the code's PC, but
UNIMPL_MAJOR, which comes first (03 R54, R56), where the entry's major is unassigned or reserved. -/
def Obligations.DictionaryCode : Prop :=
  ∀ (s : State) (c : Issue) (w : Wave) (sp : Split) (d : DictCode), Issuing s c w sp →
    let table := (s.group w.id.group).kd.table
    (table[d.index.toNat]? = none → exec (.dref d) s = .next (s.trapAt c tIllegalEnc 0 0 0)) ∧
    ∀ entry, table[d.index.toNat]? = some entry →
      if entry.2.toNat % 64 = 0 ∧ d.patch ≠ 0 then exec (.dref d) s = .next (s.trapAt c
        (if (entry.1.headD 0).toNat / 4 % 64 ∈ [0x0D, 0x0E, 0x0F] ++ List.range' 0x24 12 ++ List.range' 0x35 10 then
          tUnimplMajor else tIllegalEnc) 0 0 0)
      else entry.2.toNat % 64 ≤ 9 →
        ∃ t w' q ws, exec (.dref d) s = .next t ∧ t.wave c.key = some w' ∧ SMap.find w'.splits c.split = some q ∧
          q = { sp with latch := some ws } ∧ Patched entry d.patch ws ∧ w.sameRegs w' ∧ s.sameMemory t

/-- O20. TRAP and SYSC (09 R221), and BKPT (09 R223): the trap with its code is recorded, to resume behind the
instruction, with or without an active lane, with SUB 0 for BKPT; BKPT has no effect in a handler or while debugging is
disabled. -/
def Obligations.SoftwareTraps : Prop :=
  (∀ (i : Instr) (s : State) (c : Issue) (w : Wave) (sp : Split) (cause code : Nat),
    softTrapOf i = some (cause, code) → Issuing s c w sp →
    ∃ t w', exec i s = .next t ∧ t.wave c.key = some w' ∧ TookTrap w w' c sp cause code ∧ s.sameMemory t) ∧
  ∀ (s : State) (c : Issue) (w : Wave) (sp : Split) (e : Ext), Issuing s c w sp →
    if w.handling = true ∨ (s.tenant w.id.tenant).dbgen = false then exec (.bkpt e) s = .next (s.done c w)
    else ∃ t w', exec (.bkpt e) s = .next t ∧ t.wave c.key = some w' ∧ TookTrap w w' c sp tBreakpoint 0 ∧
      s.sameMemory t

/-- O21. HALT (09 R226, 25 R424): none of the wave's splits issues again, and a context error HALT with its PC stands
in the tenant's record when that was empty, else OVF; ERRVEC is raised. -/
def Obligations.HaltStopsTheWave : Prop :=
  ∀ (s : State) (c : Issue) (w : Wave) (sp : Split) (e : Ext), Issuing s c w sp →
    let x := s.tenant w.id.tenant
    ∃ t w', exec (.haltX e) s = .next t ∧ t.wave c.key = some w' ∧ w'.halted = true ∧ w.sameRegs w' ∧
      w'.splits = w.splits ∧ s.sameMemory t ∧
      (x.cerr.cause = 0 → (t.tenant w.id.tenant).cerr.cause = 1 ∧ (t.tenant w.id.tenant).cerr.b = c.pc ∧
        (t.tenant w.id.tenant).cerr.slot = w.id.slot ∧ (t.tenant w.id.tenant).cerr.core = w.id.core) ∧
      (x.cerr.cause ≠ 0 → (t.tenant w.id.tenant).cerr = { x.cerr with ovf := true }) ∧
      (t.tenant w.id.tenant).vectors.getLsbD (x.errvec % 64) = true

/-- O22. RDS (09 R224, 07 R138): every active lane of a vector register, or a scalar register or pair, takes the
special register's value, and nothing else changes. That %pkg is SELF of the route tables and %clock the package's clock
count is the model's choice (log entry 28). -/
def Obligations.ReadSpecial : Prop :=
  ∀ (s : State) (c : Issue) (w : Wave) (sp : Split) (e : Ext), (Instr.rds e).wf = true → Issuing s c w sp →
    w.clear sp (usesOf .rds e) = true →
    let n := e.x.toNat
    ∃ w', exec (.rds e) s = .next (s.done c w') ∧ w'.rest = w.rest ∧ w'.fpstat = w.fpstat ∧
      (∀ r, w'.getK r = w.getK r) ∧
      (∀ r l, l < 64 → w'.getV r l =
        if e.d = .v (BitVec.ofNat 8 r) ∧ r < 256 ∧ l ∈ lanesOf (w.active sp) then BitVec.ofNat 32 (specialValue s w c l n)
        else w.getV r l) ∧
      ∀ r, w'.getS r =
        match e.d with
        | .s d =>
          let k := if n = 0x09 ∨ n = 0x0F then 2 else 1
          if d.toNat ≤ r ∧ r < d.toNat + k then BitVec.ofNat 32 (specialValue s w c 0 n / 2 ^ (32 * (r - d.toNat)))
          else w.getS r
        | _ => w.getS r

/-- O23. WRS (09 R224): a 1 clears a bit of %fpstat or %resmiss, and %choice.cursor takes the value and starts the
wave's threads anew. -/
def Obligations.WriteSpecial : Prop :=
  ∀ (s : State) (c : Issue) (w : Wave) (sp : Split) (e : Ext), (Instr.wrs e).wf = true → Issuing s c w sp →
    w.clear sp (usesOf .wrs e) = true →
    (e.x = 0x0E → exec (.wrs e) s =
      .next (s.done c { w with fpstat := w.fpstat &&& ~~~BitVec.ofNat 32 (w.src e.lit e.a 32 0) })) ∧
    (e.x = 0x0F → exec (.wrs e) s =
      .next (s.done c { w with resmiss := w.resmiss &&& ~~~BitVec.ofNat 64 (w.src e.lit e.a 64 0) })) ∧
    (e.x = 0x10 → ∃ t w', exec (.wrs e) s = .next t ∧ t.wave c.key = some w' ∧ s.sameMemory t ∧ w.sameRegs w' ∧
      w'.cursor = BitVec.ofNat 32 (w.src e.lit e.a 32 0) ∧ (t.ctx w.id.uid).cursor = w.src e.lit e.a 32 0 ∧
      (t.ctx w.id.uid).threads = [] ∧ (t.ctx w.id.uid).starts = (s.ctx w.id.uid).starts + 1)

/-- O24. TRET (09 R222, 10 R235–R237): outside a handler PRIV_OP. In a handler it is a double fault TRETSPLIT with another
split valid, FRAME when the frame cannot be read and BADRESUME for a RESUME no split can take, and it stalls while an ls
entry of the wave is unperformed. Otherwise s0–s7, k1, the split table, the counters and the marks are restored, the split
that trapped goes on at RESUME, and for an engine fault ACTION decides the fate of the stopped queue. In a handler s0–s7
exist whatever the allocation (10 R234); behind TRET those beyond it do not. -/
def Obligations.TrapReturn : Prop :=
  (∀ (s : State) (c : Issue) (w : Wave) (sp : Split) (e : Ext), Issuing s c w sp → w.shadow = none →
    exec (.tret e) s = .next (s.trapAt c tPrivOp 0 0 0)) ∧
  (∀ (s s' : State) (c : Issue) (w : Wave) (sp : Split) (e : Ext) (sh : Shadow), Issuing s c w sp → w.shadow = some sh →
    (w.splits.length ≠ 1 → ∃ t, exec (.tret e) s = .next t ∧ DoubleFaulted s t c.key w sh.trap 0x42 c.pc) ∧
    (w.splits.length = 1 → (∃ x ∈ s.ls, x.uid = w.id.uid) → exec (.tret e) s = .next s) ∧
    (w.splits.length = 1 → (∀ x ∈ s.ls, x.uid ≠ w.id.uid) → s.readFrame w.id = (s', none) →
      ∃ t, exec (.tret e) s = .next t ∧ DoubleFaulted s' t c.key w sh.trap 0x44
        ((s'.tenant w.id.tenant).trapbase + BitVec.ofNat 64 (512 * (96 * w.id.pcore + 2 * w.id.slot + w.id.half))))) ∧
  (∀ (s s' : State) (c : Issue) (w : Wave) (sp : Split) (e : Ext) (sh : Shadow) (v : Nat), MayReturn s s' c w sp sh v →
    ¬goodResume sh (BitVec.ofNat 64 (v / 2 ^ 96)) →
    ∃ t, exec (.tret e) s = .next t ∧ DoubleFaulted s' t c.key w sh.trap 0x43 c.pc) ∧
  (∀ (s s' : State) (c : Issue) (w : Wave) (sp : Split) (e : Ext) (sh : Shadow) (v : Nat), MayReturn s s' c w sp sh v →
    let resume : Dword := BitVec.ofNat 64 (v / 2 ^ 96)
    goodResume sh resume →
    ∃ t w', exec (.tret e) s = .next t ∧ t.wave c.key = some w' ∧ s'.sameMemory t ∧ w'.shadow = none ∧
      w'.depth = sh.depth ∧ w'.marks = sh.marks ∧
      (SMap.rising 0 sh.held = true → ∀ r m, SMap.find sh.held r = some m → SMap.find w'.sb r = some m) ∧
      (∀ r < 8, r < w.b → w'.getS r = BitVec.ofNat 32 (v / 2 ^ (512 + 32 * r))) ∧
      (∀ r, 8 ≤ r ∨ w.b ≤ r → w'.getS r = SMap.read 0 w.s r) ∧ (∀ r, w.b ≤ r → w'.outOfBounds { sr := [r] } = true) ∧
      w'.getK 1 = BitVec.ofNat 64 (v / 2 ^ 448) &&& w.id.full ∧ (∀ r, r ≠ 1 → w'.getK r = w.getK r) ∧
      (∀ r l, w'.getV r l = w.getV r l) ∧
      (∀ j, j ≠ sh.trap.split → SMap.find w'.splits j = SMap.find sh.splits j) ∧
      ∀ q, SMap.find sh.splits sh.trap.split = some q → ∃ q', SMap.find w'.splits sh.trap.split = some q' ∧
        if resume = sh.trap.resume then q' = q
        else q'.pc = resume ∧ q'.codes = 0 ∧ q'.members = q.members ∧ q'.cd = q.cd) ∧
  (∀ (s s' : State) (c : Issue) (w : Wave) (sp : Split) (e : Ext) (sh : Shadow) (v : Nat) (st : StopRec) (x : QEntry)
    (xs : List QEntry), MayReturn s s' c w sp sh v → goodResume sh (BitVec.ofNat 64 (v / 2 ^ 96)) →
    sh.trap.cause = tEngineFault →
    (s'.stops.find? fun y => y.uid == w.id.uid && y.q == sh.trap.queue) = some st → st.job = none →
    s'.heldEntries w.id.uid sh.trap.queue st.age = x :: xs →
    ∃ t, exec (.tret e) s = .next t ∧ QueueFate s' t w.id.uid sh.trap.queue (v / 2 ^ 416 % 2 ^ 32) x st) ∧
  ∀ (w : Wave) (sh : Shadow) (r : Nat) (y : Word), w.shadow = some sh → sh.debug = false → r < 8 →
    w.outOfBounds { sr := [r] } = false ∧ (w.setS r y).getS r = y

/-- O25. ICF (09 R225): a release at its scope enters the wave's ls stream and the split waits until the caches are
invalidated. -/
def Obligations.InstructionCacheFence : Prop :=
  ∀ (s : State) (c : Issue) (w : Wave) (sp : Split) (e : Ext), Issuing s c w sp →
    ∃ t x w' q, exec (.icf e) s = .next t ∧ t.ls = s.ls ++ [x] ∧ x.kind = .fence ∧ x.ord = .rel ∧ x.scope = e.scope ∧
      x.uid = w.id.uid ∧ t.wave c.key = some w' ∧ SMap.find w'.splits c.split = some q ∧ q.wait = .icf e.scope x.id ∧
      w.sameRegs w' ∧ s.sameMemory t

/-! ## Fences, barriers, raw queue entries -/

/-- O26. FENCE (09 R215) and QFENCE (09 R216, 05 R105): FENCE enters the wave's ls stream with its order and scope, with
or without an active lane; a QFENCE of two streams or more holds the later entries of every stream it names while an
earlier entry of one of them is unperformed, and one of a single stream has no effect. That an entry whose accesses are done
while its result waits for room is performed, a joint MMA's excepted, is the model's choice (log entry 72). -/
def Obligations.Fences : Prop :=
  (∀ (s : State) (c : Issue) (w : Wave) (sp : Split) (e : Ext), Issuing s c w sp →
    ∃ t x w', exec (.fence e) s = .next t ∧ t.ls = s.ls ++ [x] ∧ x.kind = .fence ∧ x.ord = e.ord ∧ x.scope = e.scope ∧
      x.uid = w.id.uid ∧ x.op = none ∧ t.wave c.key = some w' ∧ w.sameRegs w' ∧ s.sameMemory t) ∧
  ∀ (s : State) (c : Issue) (w : Wave) (sp : Split) (e : Ext), Issuing s c w sp →
    let named := (List.range 17).filter fun n => e.lit.getLsbD n
    (named.length ≤ 1 → exec (.qfence e) s = .next (s.done c w)) ∧
    (2 ≤ named.length → ∃ t w', exec (.qfence e) s = .next t ∧ t.wave c.key = some w' ∧ w.sameRegs w' ∧
      t.entries = s.entries ∧ t.ls = s.ls ∧ s.sameMemory t ∧
      ((∃ x ∈ s.entries, x.uid = w.id.uid ∧ x.q < 16 ∧ x.q ∈ named ∧ x.age < s.nextId ∧ (x.post = none ∨ x.joined ≠ none)) ∨
        (16 ∈ named ∧ ∃ x ∈ s.ls, x.uid = w.id.uid ∧ x.age < s.nextId) →
        ∀ n ∈ named, ∀ a, s.nextId < a → t.fenced w.id.uid n a = true))

/-- O27. BAR, BARA and BARW at issue (09 R217, R218). At a scope of the grid without the co-residency flag they take
BAR_SCOPE, with no effect. Else BAR and BARA with the arrival bit clear: the split waits, and when
it is the wave's last the release of the arrival enters the ls stream. With the bit set they take BAR_SEQ, and a BARW
with it clear does, unless its split still owes the departure of an instance at which it arrived with the wave (log
entry 27): that BARW passes. BARW of a completed instance: the acquire of the departure enters the ls stream; else it
waits. -/
def Obligations.Barriers : Prop :=
  (∀ (i : Instr) (s : State) (c : Issue) (w : Wave) (sp : Split) (e : Ext), i = .barX e ∨ i = .bara e ∨ i = .barw e →
    Issuing s c w sp → 2 ≤ e.scope.code → (s.grid w.id.grid).kd.cor = false →
    exec i s = .next (s.trapAt c tBarScope 0 0 0)) ∧
  (∀ (i : Instr) (s : State) (c : Issue) (w : Wave) (sp : Split) (e : Ext), i = .barX e ∨ i = .bara e →
    Issuing s c w sp → (e.scope.code < 2 ∨ (s.grid w.id.grid).kd.cor = true) →
    let net := e.scope.code * 4 + e.x.toNat % 4
    ((SMap.find w.arrived net).isSome = true → exec i s = .next (s.trapAt c tBarSeq 0 0 0)) ∧
    (SMap.find w.arrived net = none →
      ∃ t w' q, exec i s = .next t ∧ t.wave c.key = some w' ∧ SMap.find w'.splits c.split = some q ∧
        q.pc = (sp.next c).pc ∧ q.members = sp.members ∧ w.sameRegs w' ∧ s.sameMemory t ∧
        ((∃ p ∈ w.splits, p.1 ≠ c.split ∧ p.2.wait = .ready) →
          q.wait = .arriving net (i = .barX e) ∧ t.ls = s.ls) ∧
        (w.splits = [(c.split, sp)] →
          q.wait = .released net (i = .barX e) ∧ ∃ x, t.ls = s.ls ++ [x] ∧ x.kind = .arrive net ∧ x.uid = w.id.uid))) ∧
  ∀ (s : State) (c : Issue) (w : Wave) (sp : Split) (e : Ext), Issuing s c w sp →
    (e.scope.code < 2 ∨ (s.grid w.id.grid).kd.cor = true) →
    let net := e.scope.code * 4 + e.x.toNat % 4
    (SMap.find w.arrived net = none → c.split ∉ SMap.read [] w.owed net →
      exec (.barw e) s = .next (s.trapAt c tBarSeq 0 0 0)) ∧
    (SMap.find w.arrived net = none → c.split ∈ SMap.read [] w.owed net →
      ∃ t x w' q, exec (.barw e) s = .next t ∧ t.wave c.key = some w' ∧ SMap.find w'.splits c.split = some q ∧
        q.pc = (sp.next c).pc ∧ q.wait = .leaving net ∧ t.ls = s.ls ++ [x] ∧ x.kind = .depart net ∧ x.uid = w.id.uid ∧
        x.split = c.split ∧ w.sameRegs w' ∧ s.sameMemory t) ∧
    ∀ n, SMap.find w.arrived net = some n → ∃ t w' q, exec (.barw e) s = .next t ∧ t.wave c.key = some w' ∧
      SMap.find w'.splits c.split = some q ∧ q.pc = (sp.next c).pc ∧ w.sameRegs w' ∧ s.sameMemory t ∧
      if n ≤ s.barrierDone net (s.barrierKey w.id net) then
        q.wait = .leaving net ∧ ∃ x, t.ls = s.ls ++ [x] ∧ x.kind = .depart net ∧ x.uid = w.id.uid ∧ x.split = c.split
      else q.wait = .departing net ∧ t.ls = s.ls

/-- O28. QPUSH, QPOP and QPEEK (09 R219, 01 R11, R12): QPUSH appends one raw entry that holds A and zeros above it,
QPOP takes the head entry and writes its first bytes, QPEEK counts the entries not yet consumed and takes none; a push without room and
a pop of an empty queue stall; against a queue's direction they take QUEUE_DIR. While debugging is disabled a push to q15 is
discarded and a pop of it gives 0. That q15's inbound side is a queue of its own under number 16, and that QPEEK then finds
q15 empty, is the model's choice (log entry 19). The pop of a token result first orders its command's writes (19 R346). -/
def Obligations.RawEntries : Prop :=
  (∀ (s : State) (c : Issue) (w : Wave) (sp : Split) (e : Ext) (q : BitVec 4), (Instr.qpush e).wf = true →
    Issuing s c w sp → e.d = .q q →
    (q.toNat ∈ [1, 5, 7, 9, 11, 13] → exec (.qpush e) s = .next (s.trapAt c tQueueDir 0 0 0)) ∧
    (q.toNat ∉ [1, 5, 7, 9, 11, 13] → w.clear sp (usesOf .qpush e) = true →
      if q.toNat = 15 ∧ (s.tenant w.id.tenant).dbgen = false then exec (.qpush e) s = .next (s.done c w)
      else if s.room w q.toNat = false then exec (.qpush e) s = .next s
      else ∃ t x w', exec (.qpush e) s = .next t ∧ t.entries = s.entries ++ [x] ∧ x.uid = w.id.uid ∧ x.q = q.toNat ∧
        x.raw = true ∧ x.imp = none ∧ x.pc = c.pc ∧ x.data = BitVec.ofNat 256 (w.src e.lit e.a e.ty.bits 0) ∧
        t.wave c.key = some w' ∧ w.sameRegs w' ∧ s.sameMemory t ∧
        w'.seqno = if q.toNat = 15 then w.seqno else if w.seqno = 0xFFFFFFFF then 1 else w.seqno + 1)) ∧
  (∀ (s : State) (c : Issue) (w : Wave) (sp : Split) (e : Ext) (q : BitVec 4) (d : BitVec 7), (Instr.qpop e).wf = true →
    Issuing s c w sp → e.a = .q q → e.d = .s d →
    (q.toNat ∈ [0, 2, 3, 4, 6, 8, 10, 12, 14] → exec (.qpop e) s = .next (s.trapAt c tQueueDir 0 0 0)) ∧
    (q.toNat ∉ [0, 2, 3, 4, 6, 8, 10, 12, 14] → w.clear sp (usesOf .qpop e) = true →
      let off := q.toNat = 15 ∧ (s.tenant w.id.tenant).dbgen = false
      (¬off → s.queue w.id.uid (if q.toNat = 15 then 16 else q.toNat) = [] → exec (.qpop e) s = .next s) ∧
      ∀ (s' : State) (x : Nat),
        (off ∧ s' = s ∧ x = 0) ∨
        (¬off ∧ ∃ y rest, s.queue w.id.uid (if q.toNat = 15 then 16 else q.toNat) = y :: rest ∧
          s' = (s.meetHome y).dropEntry y.id ∧ x = y.data.toNat) →
        ∃ w', exec (.qpop e) s = .next (s'.done c w') ∧ w'.rest = w.rest ∧ (∀ r l, w'.getV r l = w.getV r l) ∧
          ∀ r, w'.getS r =
            if d.toNat ≤ r ∧ r < d.toNat + e.ty.bits / 32 then BitVec.ofNat 32 (x / 2 ^ (32 * (r - d.toNat)))
            else w.getS r)) ∧
  ∀ (s : State) (c : Issue) (w : Wave) (sp : Split) (e : Ext) (q : BitVec 4) (d : BitVec 7), (Instr.qpeek e).wf = true →
    Issuing s c w sp → e.a = .q q → e.d = .s d → w.clear sp (usesOf .qpeek e) = true →
    let unconsumed := fun n => (s.queue w.id.uid n).filter fun x => x.post = none
    let xs := if q.toNat = 15 then (if (s.tenant w.id.tenant).dbgen then unconsumed 16 else []) else unconsumed q.toNat
    ∃ w', exec (.qpeek e) s = .next (s.done c w') ∧ w'.rest = w.rest ∧ (∀ r l, w'.getV r l = w.getV r l) ∧
      ∀ r, w'.getS r =
        if r = d.toNat then BitVec.ofNat 32 xs.length
        else if r = d.toNat + 1 then BitVec.ofNat 32 ((xs.head?.map fun x => x.data.toNat).getD 0)
        else w.getS r
/-! ## Memory instructions at issue -/

namespace Sys2Proof.Machine

/-- Addr(l) (09 R193): the scalar pair, the lane's vector offset when OFFV is set, and OFF. -/
def laneAddr (w : Wave) (e : Ext) (offv : Bool) (l : Nat) : Dword :=
  w.getS (numberOf e.a + 1) ++ w.getS (numberOf e.a) +
    (if offv then (w.getV (numberOf e.b) l).setWidth 64 else 0) + BitVec.ofInt 64 e.off.toInt

/-- OFFV of majors 0x1A and 0x1B, and of majors 0x1C and 0x33 (09 R194). -/
def offvLoad (e : Ext) : Bool := e.x.getLsbD 3
def offvAtomic (e : Ext) : Bool := e.x.getLsbD 2

/-- SPACE and ASPACE (09 R194). -/
def spaceLoad (e : Ext) : Space :=
  match e.x.toNat % 8 with
  | 0 => .g
  | 1 => .lane
  | 2 => .core
  | 3 => .quad
  | _ => .cald
def spaceAtomic (e : Ext) : Space :=
  match e.x.toNat % 4 with
  | 0 => .g
  | 1 => .core
  | 2 => .quad
  | _ => .cald

/-- Addresses of the n rows of LDB and STB (09 R198): base + 64·w·i + w·l. -/
def rowsAt (w : Wave) (e : Ext) (l : Nat) : List Dword :=
  (List.range (e.x.toNat / 16 % 8 + 1)).map fun i =>
    laneAddr w e false l + BitVec.ofNat 64 (64 * e.ty.bytes * i + e.ty.bytes * l)

/-- A memory instruction as its rule describes it. -/
structure MemRow where
  form : Form
  ext : Ext
  /-- it acts per lane (09 R195) -/
  per : Bool
  access : MemOp
  addrs : Nat → List Dword
  kind : LsKind
  ord : Ordr
  /-- it returns a value and is long-latency (03 R45) -/
  returns : Bool
  /-- how many draws a lane takes under SR -/
  draws : Nat := 0
  /-- the bytes that a lane's access brings, by lane and row -/
  data : Nat → Nat → List Byte := fun _ _ => []

/-- The registers that the checks of 03 R56 name. -/
def MemRow.uses (r : MemRow) : Uses :=
  if r.returns then { usesOf r.form r.ext with long := some (r.ext.fb, r.ext.d.isV) }
  else usesOf { r.form with d := .unused } r.ext

/-- n bytes of operand C of a lane, lowest first. -/
def bytesC (w : Wave) (e : Ext) (n l : Nat) : List Byte := leBytes n (w.src e.lit e.c (8 * n) l)

/-- Loads (09 R197–R200, R212). -/
def loadRow (s : State) (w : Wave) : Instr → Option MemRow
  | .ld e => some
    { form := .ld, ext := e, per := offvLoad e || e.d.isV, addrs := fun l => [laneAddr w e (offvLoad e) l],
      kind := .load, ord := .plain, returns := true, draws := if e.x.getLsbD 4 then 1 else 0,
      access := if e.x.getLsbD 4 then { space := .g, acc := .load, bytes := e.ty.bytes, dec := some e.ty }
        else { space := spaceLoad e, acc := .load, bytes := e.ty.bytes } }
  | .ldb e => some
    { form := .ldb, ext := e, per := true, addrs := rowsAt w e, kind := .load, ord := .plain, returns := true,
      access := { space := spaceLoad e, acc := .load, bytes := e.ty.bytes, align := e.ty.bytes } }
  | .ldc e => some
    { form := .ldc, ext := e, per := offvLoad e || e.d.isV, addrs := fun l => [laneAddr w e (offvLoad e) l],
      kind := .load, ord := .plain, returns := true,
      access := { space := .g, acc := .load, bytes := e.ty.bytes, align := e.ty.bytes,
                  const := some ((s.group w.id.group).kd.consta, (s.group w.id.group).kd.constn) } }
  | .lda e => some
    { form := .lda, ext := e, per := offvLoad e || e.d.isV, addrs := fun l => [laneAddr w e (offvLoad e) l],
      kind := .load, ord := .acq, returns := true,
      access := { space := spaceLoad e, acc := .load, bytes := e.ty.bytes, align := e.ty.bytes } }
  | .xrd e => some
    { form := .xrd, ext := e, per := offvAtomic e || e.d.isV, addrs := fun l => [laneAddr w e (offvAtomic e) l],
      kind := .xrd e.rnd, ord := e.ord, returns := true, draws := 1,
      access := { space := spaceAtomic e, acc := .load, bytes := 64, align := 64 } }
  | _ => none

/-- Stores and atomics (09 R202–R213). -/
def storeRow (w : Wave) : Instr → Option MemRow
  | .st e => some
    { form := .st, ext := e, per := offvLoad e || e.c.isV, addrs := fun l => [laneAddr w e (offvLoad e) l],
      kind := .store, ord := .plain, returns := false, data := fun l _ => bytesC w e e.ty.bytes l,
      access := { space := spaceLoad e, acc := .store, bytes := e.ty.bytes } }
  | .stb e => some
    { form := .stb, ext := e, per := true, addrs := rowsAt w e, kind := .store, ord := .plain, returns := false,
      data := fun l i => leBytes e.ty.bytes (w.getVs (numberOf e.c + i * (e.ty.bytes / 4)) (e.ty.bytes / 4) l),
      access := { space := spaceLoad e, acc := .store, bytes := e.ty.bytes, align := e.ty.bytes } }
  | .stl e => some
    { form := .stl, ext := e, per := offvLoad e || e.c.isV, addrs := fun l => [laneAddr w e (offvLoad e) l],
      kind := .store, ord := .rel, returns := false, data := fun l _ => bytesC w e e.ty.bytes l,
      access := { space := spaceLoad e, acc := .store, bytes := e.ty.bytes, align := e.ty.bytes } }
  | .fao e => some
    { form := .fao, ext := e, per := offvAtomic e || e.d.isV || e.c.isV,
      addrs := fun l => [laneAddr w e (offvAtomic e) l], kind := .fao (e.x.toNat / 8), ord := e.ord, returns := true,
      data := fun l _ => bytesC w e e.ty.bytes l,
      access := { space := spaceAtomic e, acc := .atomic, bytes := e.ty.bytes, align := e.ty.bytes } }
  | .cas e => some
    { form := .cas, ext := e, per := offvAtomic e || e.d.isV || e.c.isV,
      addrs := fun l => [laneAddr w e (offvAtomic e) l], kind := .cas, ord := e.ord, returns := true,
      data := fun l _ => bytesC w e (2 * e.ty.bytes) l,
      access := { space := spaceAtomic e, acc := .atomic, bytes := e.ty.bytes, align := e.ty.bytes } }
  | .red e => some
    { form := .red, ext := e, per := offvAtomic e || e.c.isV, addrs := fun l => [laneAddr w e (offvAtomic e) l],
      kind := .red (e.x.toNat / 8) e.rnd e.ftz, ord := e.ord, returns := false,
      data := fun l _ => bytesC w e e.ty.bytes l,
      access := { space := spaceAtomic e, acc := .red, bytes := e.ty.bytes, align := e.ty.bytes } }
  | .vat e => some
    { form := .vat, ext := e, per := true, addrs := fun l => [laneAddr w e (offvAtomic e) l],
      kind := .vat (vatOp e) (e.x.getLsbD 6) e.rnd e.ftz, ord := e.ord, returns := e.x.getLsbD 6,
      data := fun l _ => leBytes 32 (w.getVs (numberOf e.c) 8 l),
      access := { space := spaceAtomic e, acc := .atomic, bytes := 32, align := 32 } }
  | .xacc e => some
    { form := .xacc, ext := e, per := offvAtomic e || e.c.isV, addrs := fun l => [laneAddr w e (offvAtomic e) l],
      kind := .xacc, ord := e.ord, returns := false, data := fun l _ => bytesC w e 4 l,
      access := { space := spaceAtomic e, acc := .atomic, bytes := 64, align := 64 } }
  | .xclr e => some
    { form := .xclr, ext := e, per := offvAtomic e, addrs := fun l => [laneAddr w e (offvAtomic e) l],
      kind := .xclr, ord := e.ord, returns := false, data := fun _ _ => List.replicate 64 0,
      access := { space := spaceAtomic e, acc := .store, bytes := 64, align := 64 } }
  | _ => none

/-- The lanes of a memory instruction (09 R195): the acting ones, or the lowest active lane for the split. -/
def MemRow.lanes (r : MemRow) (w : Wave) (sp : Split) : List Nat :=
  if r.per then lanesOf (w.acting sp r.ext.k) else (lanesOf (w.active sp)).take 1

/-- The instruction has entered the wave's ls stream as the rule says: its kind, order and scope, one access of each
acting lane at each of its addresses, with that lane's bytes; no register of a program's has changed, and no memory,
but for the feedback records of sparse holes. -/
structure Entered (s s' : State) (w : Wave) (c : Issue) (r : MemRow) (cs : List Checked) (t : State) (x : LsEntry) (w' : Wave) :
    Prop where
  ls : t.ls = s.ls ++ [x]
  kind : x.kind = r.kind
  ord : x.ord = r.ord
  scope : x.scope = r.ext.scope
  wave : x.uid = w.id.uid ∧ x.core = w.id.pcore ∧ x.tenant = w.id.tenant ∧ x.pc = c.pc
  ty : x.ty = r.ext.ty
  op : x.op.isSome = r.returns
  lanes : x.lanes.map (fun y => (y.lane, y.locs, y.data)) =
    cs.flatMap fun k => k.places.zipIdx.map fun p => (k.lane, p.1.locs, r.data k.lane p.2)
  regs : w.sameRegs w'
  memory : (∀ k ∈ cs, ∀ p ∈ k.places, p.holes = []) → s'.sameMemory t

/-- A memory instruction whose registers are clear: with no lane of its own and none active it only goes on; when every
acting lane's address passes its checks it enters the ls stream, or stalls while its accesses would take its core beyond the
8,192 requests that may be outstanding. -/
def MemoryInstruction (i : Instr) (row : State → Wave → Option MemRow) : Prop :=
  ∀ (s : State) (c : Issue) (w : Wave) (sp : Split) (r : MemRow), row s w = some r → i.wf = true →
    Issuing s c w sp → w.clear sp r.uses = true →
    let ls := r.lanes w sp
    (r.per = false → ls = [] → (r.ext.rnd = .sr → s.drawsBlocked w.id.uid ls = false) → exec i s = .next (s.done c w)) ∧
    ∀ (s' : State) (cs : List Checked), (r.per = true ∨ ls ≠ []) →
      (r.ext.rnd = .sr → r.draws ≠ 0 → s.drawsBlocked w.id.uid ls = false) →
      s.checkLanes w.id r.access r.addrs ls = (s', .ok cs) →
      let sum := s.outstanding w.id.pcore + (cs.map fun k => k.places.length).sum
      if 8192 < sum then exec i s = .next s
      else ∃ t x w', exec i s = .next t ∧ t.wave c.key = some w' ∧ Entered s s' w c r cs t x w'

end Sys2Proof.Machine

/-- O29. LD, LDB, LDC, LDA and XRD at issue (09 R193–R200, R212, 05 R83): when every acting lane's access passes its checks,
one entry enters the wave's ls stream with an access of each acting lane at each of its addresses and a long-latency
operation, and no register changes, nor memory, but for what the checks wrote and the feedback records of sparse holes. It
stalls while its core would have more than 8,192 requests outstanding (06 R131). An access that acts once for its split goes
on when no lane is active. -/
def Obligations.LoadsIssue : Prop := ∀ i : Instr, MemoryInstruction i fun s w => loadRow s w i

/-- O30. ST, STB, STL, FAO, CAS, RED, VAT, XACC and XCLR at issue (09 R193–R196, R202–R213): when every acting lane's access
passes its checks, one entry enters the wave's ls stream with each acting lane's places and bytes, with a long-latency
operation when it returns a value, and no register changes, nor memory, but for what the checks wrote and the feedback
records of sparse holes. It stalls while its core would have more than 8,192 requests outstanding (06 R131). An access that
acts once for its split goes on when no lane is active. -/
def Obligations.StoresIssue : Prop := ∀ i : Instr, MemoryInstruction i fun _ w => storeRow w i

/-- O31. The precise trap of a memory instruction (09 R196, 06 R132): the lowest acting lane with a fault reports the
fault that comes first, and no access enters the ls stream. PRF never faults and changes no register (09 R201). -/
def Obligations.MemoryTraps : Prop :=
  (∀ (i : Instr) (s : State) (c : Issue) (w : Wave) (sp : Split) (r : MemRow),
    (loadRow s w i = some r ∨ storeRow w i = some r) → i.wf = true → Issuing s c w sp → w.clear sp r.uses = true →
    let ls := r.lanes w sp
    ∀ (s' : State) (f : AddrFault) (l : Nat) (a : Dword), (r.per = true ∨ ls ≠ []) →
      (r.ext.rnd = .sr → r.draws ≠ 0 → s.drawsBlocked w.id.uid ls = false) →
      s.checkLanes w.id r.access r.addrs ls = (s', .error (f, l, a)) →
      ∃ t w', exec i s = .next t ∧ t.ls = s.ls ∧ t.wave c.key = some w' ∧ w.sameRegs w' ∧
        (w'.trap.map fun x => (x.cause, x.sub, x.lane, x.pc, x.resume)) = some (f.cause, f.sub, l, c.pc, c.pc)) ∧
  ∀ (s : State) (c : Issue) (w : Wave) (sp : Split) (e : Ext), (Instr.prf e).wf = true → Issuing s c w sp →
    w.clear sp (usesOf .prf e) = true → exec (.prf e) s = .next (s.done c w)
/-! ## Engine commands, pops, and the choice engine's instructions -/

namespace Sys2Proof.Machine

/-- Bits [hi:lo] of an entry hold v. -/
def Holds (x : QEntry) (f : Nat × Nat × Nat) : Prop := x.data.toNat / 2 ^ f.2.1 % 2 ^ (f.1 + 1 - f.2.1) = f.2.2

/-- The entry layout of 14 R263: bits [hi:lo] and what they hold, the parameter words last. -/
def commandFields (e : Ext) (token : Option Nat) (op : Nat) (ws : List Nat) : List (Nat × Nat × Nat) :=
  [(2, 0, op), (9, 3, token.getD 0), (10, 10, token.isSome.toNat), (15, 11, e.ty.code), (22, 16, e.x.toNat),
   (25, 23, e.rnd.code), (26, 26, e.sat.toNat), (27, 27, e.ftz.toNat), (30, 28, e.scope.code), (31, 31, 0)] ++
  (List.range 7).map fun n => (32 * n + 63, 32 * n + 32, ws.getD n 0)

/-- A command as its rule describes it: operand form, queue, operation, parameter words, the token register, whether
a tile number must lie within the workgroup's, and the addresses whose first byte is checked at issue. -/
structure CommandRow where
  form : Form
  ext : Ext
  q : Nat
  op : Nat
  words : List Nat := []
  token : Option Nat := none
  tile : Bool := false
  /-- X[6] is SYNC (05 R106) -/
  sync : Bool := false
  first : List (Space × Acc × Dword) := []

/-- n words from the scalar registers that an operand names. -/
def scalarWords (w : Wave) (o : Opnd) (n : Nat) : List Nat := (List.range n).map fun j => (w.getS (numberOf o + j)).toNat

/-- The address in words n and n + 1 of a parameter group, counted from 1. -/
def groupAddr (w : Wave) (o : Opnd) (n : Nat) : Dword := w.getS (numberOf o + n) ++ w.getS (numberOf o + n - 1)

/-- DSP, SSP and the space of the index array (14 R262). -/
def toSpace (n : Nat) : Space :=
  match n with
  | 0 => .g
  | 2 => .core
  | 3 => .quad
  | 4 => .cald
  | _ => .lane
def copyPlaces (w : Wave) (e : Ext) : List (Space × Acc × Dword) :=
  [(toSpace (e.x.toNat % 8), .engWrite, groupAddr w e.b 1), (toSpace (e.x.toNat / 8 % 8), .engRead, groupAddr w e.b 3)]
def gatherPlaces (w : Wave) (e : Ext) : List (Space × Acc × Dword) :=
  copyPlaces w e ++ [(if e.x.getLsbD 6 then .core else .g, .engRead, groupAddr w e.b 5)]

/-- A copy command; with a count of zero nothing is checked (14 R261–R265). -/
def copyRow (w : Wave) (form : Form) (e : Ext) (q op count : Nat) (places : List (Space × Acc × Dword)) : CommandRow :=
  { form, ext := e, q, op, words := scalarWords w e.b 7, token := some (numberOf e.a)
    first := if count = 0 then [] else places }

/-- A command whose parameter group stands at A. -/
def groupRow (w : Wave) (form : Form) (e : Ext) (q op n : Nat) : CommandRow :=
  { form, ext := e, q, op, words := scalarWords w e.a n }

/-- Word n of the group at B, counted from 1. -/
def wordB (w : Wave) (e : Ext) (n : Nat) : Nat := (w.getS (numberOf e.b + n - 1)).toNat

/-- The commands that push one entry and do nothing else (14 R261–R265; 15 R284, R285, R292; 19 R340; 21 R357; 22 R380,
R381, R382; 23 R395, R396). -/
def commandRow (w : Wave) : Instr → Option CommandRow
  | .cpy e => some (copyRow w .copy e 2 0 (wordB w e 5) (copyPlaces w e))
  | .cpy2d e => some (copyRow w .copy e 2 1 ((wordB w e 5 / 2 ^ 20 + 1) * (wordB w e 5 % 2 ^ 20)) (copyPlaces w e))
  | .gth e => some (copyRow w .gather e 2 2 (wordB w e 7 % 2 ^ 24) (gatherPlaces w e))
  | .sct e => some (copyRow w .gather e 2 3 (wordB w e 7 % 2 ^ 24) (gatherPlaces w e))
  | .xcode e => some (copyRow w .xcode e 2 4 (wordB w e 5 % 2 ^ 24) (copyPlaces w e))
  | .coll e => some (copyRow w .coll e 3 5 (wordB w e 5 % 2 ^ 24) (copyPlaces w e))
  | .mma e => some
    { form := .mma, ext := e, q := 0, op := 0, words := [w.src e.lit e.a 32 0], tile := true, sync := e.x.getLsbD 6 }
  | .mzero e => some { form := .mzero, ext := e, q := 0, op := 1, tile := true, sync := e.x.getLsbD 6 }
  | .mlda e => some
    { form := .mld, ext := e, q := 0, op := 2, words := [w.src e.lit e.a 32 0, w.src e.lit e.b 32 0], sync := e.x.getLsbD 6 }
  | .mldb e => some
    { form := .mld, ext := e, q := 0, op := 3, words := [w.src e.lit e.a 32 0, w.src e.lit e.b 32 0], sync := e.x.getLsbD 6 }
  | .munf e => some { form := .munf, ext := e, q := 0, op := 4, words := scalarWords w e.b 5, sync := e.x.getLsbD 6 }
  | .mdrn e => some
    { form := .mdrn, ext := e, q := 0, op := 5, words := scalarWords w e.a 2 ++ [w.src e.lit e.b 32 0], tile := true
      sync := e.x.getLsbD 6, first := [(toSpace (e.x.toNat / 4 % 8), .engWrite, groupAddr w e.a 1)] }
  | .mhist e => some
    { form := .mld, ext := e, q := 0, op := 6, words := [w.src e.lit e.a 32 0, w.src e.lit e.b 32 0], sync := e.x.getLsbD 6 }
  | .tdraft e => some (groupRow w .tids e 6 1 7)
  | .tconf e => some (groupRow w (.group 6 7) e 6 2 7)
  | .trej e => some (groupRow w (.group 6 7) e 6 3 7)
  | .twatchSet e => some (groupRow w .twatch e 6 4 7)
  | .twatchClear e => some (groupRow w .twatch e 6 4 7)
  | .twatchOpen e => some (groupRow w .twatch e 6 4 7)
  | .twatchClose e => some (groupRow w .twatch e 6 4 7)
  | .twatchThaw e => some (groupRow w .twatch e 6 4 7)
  | .twatchSync e => some (groupRow w .twatch e 6 4 7)
  | .tinj e => some (groupRow w .tids e 6 5 7)
  | .tfork e => some (groupRow w (.group 6 7) e 6 6 7)
  | .tres e => some { form := .tres, ext := e, q := 8, op := 2, words := [w.src e.lit e.a 32 0, w.src e.lit e.b 32 0] }
  | .asbeg e => some
    { groupRow w .asbeg e 12 0 6 with
      first := (if e.x.toNat / 2 % 4 = 0 then [] else [(toSpace (e.x.toNat / 8), .engRead, groupAddr w e.a 1)]) ++
        [(toSpace (e.x.toNat / 8), .engWrite, groupAddr w e.a 1)] }
  | .assegMove e => some (groupRow w .asseg e 12 1 6)
  | .assegLine e => some (groupRow w .asseg e 12 1 6)
  | .assegQuad e => some (groupRow w .asseg e 12 1 6)
  | .assegCubic e => some (groupRow w .asseg e 12 1 6)
  | .asend e => some { form := .qOnly 12, ext := e, q := 12, op := 2 }
  | .asdrn e => some { form := .qOnly 12, ext := e, q := 12, op := 3 }
  | .lnch e => some (groupRow w (.group 14 7) e 14 0 7)
  | .armX e => some (groupRow w (.group 14 7) e 14 1 7)
  | .sigh e => some
    { groupRow w (.group 14 7) e 14 2 7 with
      first := if (w.getS (numberOf e.a + 2)).toNat % 2 ^ 13 = 0 then [] else [(.g, .engRead, groupAddr w e.a 1)] }
  | _ => none

/-- The number that follows a wave's sequence number (10 R237). -/
def seqAfter (n : Word) : Word := if n = 0xFFFFFFFF then 1 else n + 1

/-- The wave has pushed the entry x to the queue q: it stands behind all others, with the sequence number, the PC and the
wave that the push had, and no register and no memory has changed. -/
structure PushedEntry (s t : State) (w w' : Wave) (c : Issue) (q : Nat) (x : QEntry) : Prop where
  entry : x.uid = w.id.uid ∧ x.q = q ∧ x.raw = false ∧ x.imp = none ∧ x.post = none ∧ x.pc = c.pc
  seq : x.seq = seqAfter w.seqno ∧ w'.seqno = seqAfter w.seqno
  wave : t.wave c.key = some w'
  regs : w.sameRegs w'
  memory : s.sameMemory t

/-- The pops into scalar registers: queue, number of words, and whether an empty queue answers zeros at once. -/
def popRow : Instr → Option (Form × Ext × Nat × Nat × Bool)
  | .mstat e => some (.mstat, e, 1, 2, e.x.getLsbD 0)
  | .tstat e => some (.popNb 7 4 4, e, 7, 4, e.x.getLsbD 0)
  | .ttok e => some (.ttok, e, 9, 8, e.x.getLsbD 0)
  | .asstat e => some (.popNb 13 4 4, e, 13, 4, e.x.getLsbD 0)
  | _ => none

/-- The draw instructions: how a lane's result follows from its draw (17 R312). -/
def drawRow (w : Wave) : Instr → Option (Form × Ext × (Nat → Nat → Nat))
  | .draw e => some (.drawV, e, fun _ u => u)
  | .drawf e => some (.drawV, e, fun _ u => (Num.fp32.round {} { neg := false, mag := u / 2 ^ 8, exp := -24 }).bits)
  | .kdraw e => some (.kdraw, e, fun l u => (decide (u < w.src e.lit e.b 16 l * 2 ^ 16)).toNat)
  | _ => none

/-- The value that CHSTAT writes (17 R318). -/
def statOf (sel : Nat) (cd : ChoiceDesc) (th : Thread) : Word :=
  match sel with
  | 0 => if let some t := th.slot then BitVec.ofNat 32 t else 0xFFFFFFFF
  | 1 => th.draws
  | 2 => BitVec.ofNat 32 th.novel
  | 3 => BitVec.ofBoolListLE
      ([cd.rmode != 0, cd.rmode == 2, cd.recording, th.ovf, th.slot.isNone, th.finished, th.nosrc, th.badmut, th.miss]
        ++ List.replicate 23 false)
  | _ => BitVec.ofNat 32 (th.m.length - th.consumed.length)

/-- TRAVC's checks have passed: lanes act, q8 and the ray stores have room, and the root, the pool's descriptor and the resume
PC pass their checks (21 R358). -/
structure TravcReady (s s' : State) (c : Issue) (w : Wave) (sp : Split) (e : Ext) : Prop where
  wf : (Instr.travc e).wf = true
  issuing : Issuing s c w sp
  clear : w.clear sp (usesOf .travc e) = true
  acts : w.acting sp e.k ≠ 0
  room : s.room w 8 = true
  rays : s.raysAt w.id.place + popCount (w.acting sp e.k) ≤ 64
  places : s.checkFirst w.id
    [(.g, .engRead, groupAddr w e.b 1), (.g, .engRead, groupAddr w e.b 3), (.g, .fetch, groupAddr w e.b 5)] = (s', none)

/-- The entry of M that a replay finds for a draw (17 R311): in linear mode the one at the thread's draw count, in keyed mode
the lowest unconsumed one with the draw's site and occurrence. -/
def Replays (th : Thread) (rmode : Nat) (site occ : BitVec 16) (j : Nat) (x : Draw) : Prop :=
  th.m[j]? = some x ∧
  if rmode = 1 then j = th.draws.toNat
  else j ∉ th.consumed ∧ x.site = site ∧ x.occ = occ ∧
    ∀ i < j, ∀ y, th.m[i]? = some y → i ∉ th.consumed → ¬(y.site = site ∧ y.occ = occ)

/-- Do these lanes all have their M? -/
def State.built (s : State) (uid : Nat) (ls : List Nat) : Prop := ∀ l ∈ ls, ((s.ctx uid).thread l).building = false

/-- Can these lanes draw: is each one's M built, or its thread finished, whose draws need no M (17 R311)? A finished thread's
T must stand, which under list mapping the build gives. -/
def State.drawable (s : State) (uid : Nat) (ls : List Nat) : Prop :=
  ∀ l ∈ ls, ((s.ctx uid).thread l).building = true → ((s.ctx uid).thread l).finished = true ∧
    ((s.ctx uid).cd.listMap = true → ((s.ctx uid).thread l).slot.isSome = true)

end Sys2Proof.Machine

/-- O32. The engine commands that push one entry (14 R261–R265, 15 R284, R285, R292, 19 R340, 21 R357, 22 R380–R382,
23 R395, R396): nothing without an active lane; a stall without room; a precise trap when a tile number, or the first
byte of an address, fails its check; else one entry whose fields are the instruction's, its token register marked, and
under SYNC a fence before it, where an earlier ls entry or an earlier entry of q0 is not performed; one whose status only
waits for room is performed (05 R103, R105, 15 R295), unless a joint instance has taken it (15 R283), which is log entry 72.
That a tile number's check comes first (log entry 18) and LANE 0 of an address's trap (88) are the model's choice. -/
def Obligations.CommandsPush : Prop :=
  ∀ (i : Instr) (s : State) (c : Issue) (w : Wave) (sp : Split) (r : CommandRow), commandRow w i = some r →
    i.wf = true → Issuing s c w sp → w.clear sp (usesOf r.form r.ext) = true →
    if r.tile = true ∧ (s.group w.id.group).kd.macc ≤ r.ext.x.toNat % 4 then
      exec i s = .next (s.trapAt c tRegBounds 0 0 0)
    else if w.active sp = 0 then exec i s = .next (s.done c w)
    else if s.room w r.q = false then exec i s = .next s
    else
      match s.checkFirst w.id r.first with
      | (s', some g) => exec i s = .next (s'.trapAt c g.cause g.sub 0 g.at_)
      | (s', none) => ∃ t x w', exec i s = .next t ∧ t.entries = s.entries ++ [x] ∧ PushedEntry s' t w w' c r.q x ∧
          (∀ f ∈ commandFields r.ext r.token r.op r.words, Holds x f) ∧
          (∀ n, r.token = some n → SMap.find w'.sb n = some (.token x.id)) ∧
          (r.sync = true →
            ((∃ y ∈ s.entries, y.uid = w.id.uid ∧ y.q = 0 ∧ y.age < s.nextId ∧ (y.post = none ∨ y.joined ≠ none)) ∨
              ∃ y ∈ s.ls, y.uid = w.id.uid ∧ y.age < s.nextId) →
            t.fenced w.id.uid 0 x.age = true ∧ ∀ a, x.age ≤ a → t.fenced w.id.uid 16 a = true)

/-- O33. The commands that latch lanes (19 R339, R342; 21 R357–R359, R364, R368; 22 R381): TSAMP latches its draw, TRAV
and TRAVC their rays, SMPL its coordinates, ASSEG's vector form eight words of every acting lane; TRAVC ends its lanes'
threads, as EXIT does, and its split or wave with its last. That the permission TRAVC's resume PC needs is that of a fetch
(log entry 41), that a vector ASSEG with active lanes of which none acts under K pushes an entry all the same (43), and that
TRAVC in a handler is the double fault of an EXIT (17) is the model's choice. -/
def Obligations.CommandsLatch : Prop :=
  (∀ (s : State) (c : Issue) (w : Wave) (sp : Split) (e : Ext), (Instr.tsamp e).wf = true → Issuing s c w sp →
    w.clear sp (usesOf .tsamp e) = true → w.active sp ≠ 0 → s.room w 6 = true → s.drawable w.id.uid [lowLane (w.active sp)] →
    let d := s.takeDraw w.id.uid (lowLane (w.active sp)) (siteOfPc c.pc) c.pc w.seqno
    ∃ t x w', exec (.tsamp e) s = .next t ∧ t.entries = d.1.entries ++ [x] ∧ PushedEntry s t w w' c 6 x ∧
      (∀ f ∈ commandFields e none 0 (scalarWords w e.a 7), Holds x f) ∧
      x.draw.map (fun y => (y.1, y.2.index, y.2.site, y.2.occ)) =
        some (d.2.u, d.2.index, d.2.site.toNat, d.2.occ.toNat)) ∧
  (∀ (s : State) (c : Issue) (w : Wave) (sp : Split) (e : Ext), (Instr.assegV e).wf = true → Issuing s c w sp →
    w.clear sp (usesOf .asseg e) = true → w.active sp ≠ 0 → s.room w 12 = true →
    ∃ t x w', exec (.assegV e) s = .next t ∧ t.entries = s.entries ++ [x] ∧ PushedEntry s t w w' c 12 x ∧
      (∀ f ∈ commandFields e none 1 [], Holds x f) ∧
      x.latch = (lanesOf (w.acting sp e.k)).map fun l => (l, (List.range 8).map fun j => w.getV (numberOf e.a + j) l)) ∧
  (∀ (s s' : State) (c : Issue) (w : Wave) (sp : Split) (e : Ext), (Instr.smpl e).wf = true → Issuing s c w sp →
    w.clear sp (usesOf .smpl e) = true → w.acting sp e.k ≠ 0 → s.room w 10 = true → s.samples w.id.uid < 4 →
    s.checkFirst w.id [(.g, .engRead, groupAddr w e.b 1)] = (s', none) →
    ∃ t x w', exec (.smpl e) s = .next t ∧ t.entries = s.entries ++ [x] ∧ PushedEntry s' t w w' c 10 x ∧
      (∀ f ∈ commandFields e none 4 (scalarWords w e.b 6), Holds x f) ∧ x.mask = w.acting sp e.k ∧
      x.latch = (lanesOf (w.acting sp e.k)).map fun l => (l, (List.range 3).map fun j => w.getV (numberOf e.a + j) l)) ∧
  (∀ (s s' : State) (c : Issue) (w : Wave) (sp : Split) (e : Ext), (Instr.trav e).wf = true → Issuing s c w sp →
    w.clear sp (usesOf .trav e) = true → w.acting sp e.k ≠ 0 → s.room w 8 = true →
    s.raysAt w.id.place + popCount (w.acting sp e.k) ≤ 64 →
    s.checkFirst w.id [(.g, .engRead, groupAddr w e.b 1), (.g, .engWrite, groupAddr w e.b 3)] = (s', none) →
    ∃ t x w' rs, exec (.trav e) s = .next t ∧ t.entries = s.entries ++ [x] ∧ PushedEntry s' t w w' c 8 x ∧
      (∀ f ∈ commandFields e none 0 (scalarWords w e.b 6), Holds x f) ∧ t.rays = s.rays ++ rs ∧
      rs.map (fun y => (y.job, y.lane, y.regs)) = (lanesOf (w.acting sp e.k)).map fun l =>
        (x.id, l, (List.range 12).map fun j => w.getV (numberOf e.a + j) l)) ∧
  (∀ (s s' : State) (c : Issue) (w : Wave) (sp : Split) (e : Ext), TravcReady s s' c w sp e → w.handling = false →
    sp.members &&& ~~~(w.acting sp e.k) ≠ 0 →
    ∃ t x w' rs q, exec (.travc e) s = .next t ∧ t.entries = s.entries ++ [x] ∧ PushedEntry s' t w w' c 8 x ∧
      (∀ f ∈ commandFields e none 1 (scalarWords w e.b 6), Holds x f) ∧ t.rays = s.rays ++ rs ∧
      rs.map (fun y => (y.job, y.lane, y.regs, y.pay)) = (lanesOf (w.acting sp e.k)).map (fun l =>
        (x.id, l, (List.range 12).map (fun j => w.getV (numberOf e.a + j) l),
          (List.range e.x.toNat).map fun j => w.getV (numberOf e.c + j) l)) ∧
      SMap.find w'.splits c.split = some q ∧ q.members = sp.members &&& ~~~(w.acting sp e.k)) ∧
  (∀ (s s' : State) (c : Issue) (w : Wave) (sp : Split) (e : Ext), TravcReady s s' c w sp e → w.handling = false →
    sp.members &&& ~~~(w.acting sp e.k) = 0 → w.engFaults = [] →
    ∃ t x, exec (.travc e) s = .next t ∧ s'.sameMemory t ∧ x ∈ t.entries ∧ x.uid = w.id.uid ∧ x.q = 8 ∧
      (∀ f ∈ commandFields e none 1 (scalarWords w e.b 6), Holds x f) ∧
      ((∀ p ∈ w.splits, p.1 = c.split) → t.wave c.key = none) ∧
      ((∃ p ∈ w.splits, p.1 ≠ c.split) → (∀ p ∈ w.splits, p.2.wait = .ready) →
        ∃ w', t.wave c.key = some w' ∧ SMap.find w'.splits c.split = none ∧
          (∀ j, j ≠ c.split → SMap.find w'.splits j = SMap.find w.splits j) ∧ w.sameRegs w')) ∧
  ∀ (s s' : State) (c : Issue) (w : Wave) (sp : Split) (e : Ext) (sh : Shadow), TravcReady s s' c w sp e →
    w.shadow = some sh → sh.debug = false →
    ∃ t, exec (.travc e) s = .next t ∧ t.entries = s.entries ∧ DoubleFaulted s' t c.key w sh.trap 0x41 c.pc

/-- O34. MSTAT, TSTAT, TTOK and ASSTAT (15 R296, 19 R344, 21 R361, 22 R383): the first words of the head entry go to
scalar registers; an empty queue stalls, or under NB gives zeros at once. SRES (21 R368) gives its lanes their channels. -/
def Obligations.PopsOfResults : Prop :=
  (∀ (i : Instr) (s : State) (c : Issue) (w : Wave) (sp : Split) (f : Form) (e : Ext) (q n : Nat) (nb : Bool),
    popRow i = some (f, e, q, n, nb) → i.wf = true → Issuing s c w sp → w.clear sp (usesOf f e) = true →
    if w.active sp = 0 then exec i s = .next (s.done c w)
    else
      (s.queue w.id.uid q = [] → nb = false → exec i s = .next s) ∧
      ∀ (s' : State) (x : Nat),
        (s.queue w.id.uid q = [] ∧ nb = true ∧ s' = s ∧ x = 0) ∨
          (∃ y rest, s.queue w.id.uid q = y :: rest ∧ s' = (s.meetHome y).dropEntry y.id ∧ x = y.data.toNat) →
        ∃ w', exec i s = .next (s'.done c w') ∧ w'.rest = w.rest ∧ w'.fpstat = w.fpstat ∧
          (∀ r l, w'.getV r l = w.getV r l) ∧ (∀ r, w'.getK r = w.getK r) ∧
          ∀ r, w'.getS r =
            if numberOf e.d ≤ r ∧ r < numberOf e.d + n then BitVec.ofNat 32 (x / 2 ^ (32 * (r - numberOf e.d)))
            else w.getS r) ∧
  ∀ (s : State) (c : Issue) (w : Wave) (sp : Split) (e : Ext), (Instr.sres e).wf = true → Issuing s c w sp →
    w.clear sp (usesOf .sres e) = true → w.active sp ≠ 0 →
    (s.queue w.id.uid 11 = [] → exec (.sres e) s = .next s) ∧
    ∀ y rest, s.queue w.id.uid 11 = y :: rest → (∀ p ∈ y.latch, p.1 < 64) → (y.latch.map (·.1)).Nodup →
      (∀ p ∈ y.latch, p.2.length = 4) →
      ∃ w', exec (.sres e) s = .next (((s.meetHome y).dropEntry y.id).done c w') ∧
        w'.resmiss = w.resmiss ||| BitVec.ofNat 64 (y.data.toNat / 2 ^ 64) ∧
        (∀ r, w'.getS r = w.getS r) ∧ (∀ r, w'.getK r = w.getK r) ∧
        ∀ r l, l < 64 → w'.getV r l =
          match y.latch.find? fun p => p.1 == l with
          | some p => if numberOf e.d ≤ r ∧ r < numberOf e.d + 4 then p.2.getD (r - numberOf e.d) 0 else w.getV r l
          | none => w.getV r l

/-- O35. One draw of a lane (17 R309–R311): the site is its base with the site salt, the occurrence the site's count of
draws modulo 65,536. Outside a replay the value is Tephra of KEY, the thread's stream and its draw count. A replay serves the
entry of M that R311 finds and consumes it; when it finds none the value is Tephra of RKEY and the draw counts as novel; a
thread without a slot or finished takes Tephra of RKEY alone. An unfinished thread's draw at 1,024 or above sets OVF, and a
recorded draw with a slot and an index below 1,024 forms one implicit entry of q4. -/
def Obligations.ADraw : Prop :=
  ∀ (s : State) (uid lane : Nat) (base : BitVec 16) (pc : Dword) (seq : Word),
    let c := s.ctx uid
    let th := c.thread lane
    let site := base ^^^ c.sb
    let (t, d) := s.takeDraw uid lane base pc seq
    let th' := (t.ctx uid).thread lane
    let replays := c.cd.rmode ≠ 0 ∧ th.slot.isSome = true ∧ th.finished = false
    d.site = site ∧ d.index = th.draws.toNat ∧ d.occ = BitVec.ofNat 16 (SMap.read 0 th.occ site.toNat) ∧
    th'.draws = th.draws + 1 ∧
    (∀ n, SMap.read 0 th'.occ n =
      if n = site.toNat then (SMap.read 0 th.occ n + 1) % 65536 else SMap.read 0 th.occ n) ∧
    (∀ l, l ≠ lane → (t.ctx uid).thread l = c.thread l) ∧ th'.m = th.m ∧
    (th'.ovf = true ↔ th.ovf = true ∨ th.finished = false ∧ 1024 ≤ th.draws.toNat) ∧
    (c.cd.rmode = 0 → d.u = tephra c.cd.key th.stream th.draws ∧ th'.consumed = th.consumed ∧ th'.novel = th.novel) ∧
    (c.cd.rmode ≠ 0 → ¬replays →
      d.u = tephra c.cd.rkey th.stream th.draws ∧ th'.consumed = th.consumed ∧ th'.novel = th.novel) ∧
    (replays → ∀ j x, Replays th c.cd.rmode site d.occ j x →
      d.u = x.value ∧ (∀ i, i ∈ th'.consumed ↔ i ∈ th.consumed ∨ i = j) ∧ th'.novel = th.novel) ∧
    (replays → (∀ j x, ¬Replays th c.cd.rmode site d.occ j x) →
      d.u = tephra c.cd.rkey th.stream th.draws ∧ th'.consumed = th.consumed ∧ th'.novel = th.novel + 1) ∧
    (c.cd.recording = true → th.finished = false → th.draws.toNat < 1024 → ∀ n, th.slot = some n →
      ∃ x, t.entries = s.entries ++ [x] ∧ x.uid = uid ∧ x.q = 4 ∧
        x.imp = some (.draw lane th'.id n th.draws.toNat (d.occ ++ d.site ++ d.u))) ∧
    (c.cd.recording = false ∨ th.slot = none ∨ th.finished = true ∨ 1024 ≤ th.draws.toNat → t.entries = s.entries)

/-- O36. DRAW, DRAWF and KDRAW (17 R312, R317, R318): each acting lane takes one draw, at the site of `.site` or of its
PC, and its destination takes what R312's table gives; while the M of a lane that has not finished is being built the split
stalls. -/
def Obligations.DrawInstructions : Prop :=
  ∀ (i : Instr) (s : State) (c : Issue) (w : Wave) (sp : Split) (f : Form) (e : Ext) (g : Nat → Nat → Nat),
    drawRow w i = some (f, e, g) → i.wf = true → Issuing s c w sp →
    w.clear sp (usesOf { f with a := .unused } e) = true →
    let ls := lanesOf (w.acting sp e.k)
    let base : BitVec 16 := if e.a = .lit then BitVec.ofNat 16 e.lit.toNat else BitVec.ofNat 16 (c.pc.toNat / 4)
    let drawn := s.takeDrawsAt w c base 1 ls
    (s.built w.id.uid ls → ∃ w', exec i s = .next (drawn.1.done c w') ∧
      LaneWritten w w' e 32 ls fun l => { bits := g l ((drawn.2.getD l []).getD 0 0) }) ∧
    ((∃ l ∈ ls, ((s.ctx w.id.uid).thread l).building = true ∧ ((s.ctx w.id.uid).thread l).finished = false) →
      exec i s = .next s)

/-- O37. CHSITE, CHSTAT and CHKEY (17 R317, R318); the draws of finished lanes while their M is being built, which need none
once T stands (17 R307, R311, R318, log entry 110); and CHREC, RESULT and CHMUT at issue (17 R317, R319, R321, R323, R324):
with an acting lane and room, one entry of q4 with OP and MASK, the acting lanes' latched words and their threads as they
stood; RESULT sets F, TR and FINISHED of each. -/
def Obligations.ChoiceInstructions : Prop :=
  ((∀ (s : State) (c : Issue) (w : Wave) (sp : Split) (e : Ext), (Instr.chsite e).wf = true → Issuing s c w sp →
      w.clear sp (usesOf .chsite e) = true → w.active sp ≠ 0 → (SMap.find s.ctxs w.id.uid).isSome = true →
      ∃ t : State, exec (.chsite e) s = .next (t.done c w) ∧
        t.ctx w.id.uid = { s.ctx w.id.uid with sb := BitVec.ofNat 16 (w.src e.lit e.a 16 0) } ∧
        { t with ctxs := s.ctxs } = s ∧ ∀ n, n ≠ w.id.uid → t.ctx n = s.ctx n) ∧
    (∀ (s : State) (c : Issue) (w : Wave) (sp : Split) (e : Ext), (Instr.chstat e).wf = true → Issuing s c w sp →
      w.clear sp (usesOf .chstat e) = true →
      let ls := lanesOf (w.acting sp e.k)
      let x := s.ctx w.id.uid
      (s.built w.id.uid ls → ∃ w', exec (.chstat e) s = .next (s.done c w') ∧
        LaneWritten w w' e 32 ls fun l => { bits := (statOf (e.x.toNat % 8) x.cd (x.thread l)).toNat }) ∧
      (¬s.built w.id.uid ls → exec (.chstat e) s = .next s)) ∧
    ∀ (s : State) (c : Issue) (w : Wave) (sp : Split) (e : Ext), (Instr.chkey e).wf = true → Issuing s c w sp →
      w.clear sp (usesOf .chkey e) = true →
      if w.active sp = 0 then exec (.chkey e) s = .next (s.done c w)
      else ∃ w', exec (.chkey e) s = .next (s.done c w') ∧ w'.rest = w.rest ∧ w'.fpstat = w.fpstat ∧
        (∀ r l, w'.getV r l = w.getV r l) ∧ (∀ r, w'.getK r = w.getK r) ∧
        let cd := (s.ctx w.id.uid).cd
        let key := if e.x = 0 then cd.key else if e.x = 1 then cd.rkey else cd.ckey
        ∀ r, w'.getS r =
          if r = numberOf e.d then key.setWidth 32
          else if r = numberOf e.d + 1 then (key >>> 32).setWidth 32 else w.getS r) ∧
  (∀ (i : Instr) (s : State) (c : Issue) (w : Wave) (sp : Split) (f : Form) (e : Ext) (g : Nat → Nat → Nat),
      drawRow w i = some (f, e, g) → i.wf = true → Issuing s c w sp →
      w.clear sp (usesOf { f with a := .unused } e) = true →
      let ls := lanesOf (w.acting sp e.k)
      let base : BitVec 16 := if e.a = .lit then BitVec.ofNat 16 e.lit.toNat else BitVec.ofNat 16 (c.pc.toNat / 4)
      let drawn := s.takeDrawsAt w c base 1 ls
      (s.drawable w.id.uid ls → ∃ w', exec i s = .next (drawn.1.done c w') ∧
        LaneWritten w w' e 32 ls fun l => { bits := g l ((drawn.2.getD l []).getD 0 0) }) ∧
      (¬s.drawable w.id.uid ls → exec i s = .next s)) ∧
  (∀ (i : Instr) (s : State) (c : Issue) (w : Wave) (sp : Split) (f : Form) (e : Ext) (op : Nat) (ws : Nat → List Word),
      (i = .chrec e ∧ f = .chrec ∧ op = 4 ∧ ws = fun _ => []) ∨
      (i = .result e ∧ f = .result ∧ op = 5 ∧
        ws = fun l => [BitVec.ofNat 32 (w.src e.lit e.a 32 l), BitVec.ofNat 32 (w.src e.lit e.b 32 l)]) ∨
      (i = .chmut e ∧ f = .chmut ∧ op = 6 ∧
        ws = fun l => [BitVec.ofNat 32 (w.src e.lit e.a 64 l), BitVec.ofNat 32 (w.src e.lit e.a 64 l / 2 ^ 32)]) →
      i.wf = true → Issuing s c w sp → w.clear sp (usesOf f e) = true →
      let m := w.acting sp e.k
      if m = 0 then exec i s = .next (s.done c w)
      else if s.room w 4 = false then exec i s = .next s
      else (SMap.find s.ctxs w.id.uid).isSome = true →
        ∃ t x w', exec i s = .next t ∧ t.entries = s.entries ++ [x] ∧ PushedEntry s t w w' c 4 x ∧
          (∀ f ∈ [(3, 0, op), (63, 4, 0), (127, 64, m.toNat), (255, 128, 0)], Holds x f) ∧
          x.latch = (lanesOf m).map (fun l => (l, ws l)) ∧
          x.threads = (lanesOf m).map (fun l => (l, (s.ctx w.id.uid).thread l)) ∧
          (op ≠ 5 → t.ctxs = s.ctxs) ∧
          (op = 5 → ∀ l, (t.ctx w.id.uid).thread l =
            let th := (s.ctx w.id.uid).thread l
            if l ∈ lanesOf m then { th with f := (ws l).getD 0 0, tr := (ws l).getD 1 0, finished := true } else th))
/-! ## Steps of waves -/

namespace Sys2Proof.Machine

/-- The wave w stands at the key k, and it is the wave of its serial number. -/
structure Resident (s : State) (k : Nat) (w : Wave) : Prop where
  wave : s.wave k = some w
  uid : s.waveOf w.id.uid = some (k, w)

/-- The wave w stands at the key k, and the clock of its die runs (25 R426). -/
def Awake (s : State) (k : Nat) (w : Wave) : Prop := s.wave k = some w ∧ s.dieRuns w.id.die = true

/-- The conditions under which two waiting exchanges pair (08 R181). -/
structure MayPair (x y : XSwap) : Prop where
  waves : x.uid ≠ y.uid
  cores : x.die = y.die ∧ x.partner = y.core ∧ y.partner = x.core
  tenant : x.tenant = y.tenant
  tag : x.tag = y.tag
  types : x.wide = y.wide

/-- x issued before y, or in the same clock on a lower core, or on the same core in a lower slot. -/
def IssuedFirst (x y : XSwap) : Prop :=
  x.clock < y.clock ∨ (x.clock = y.clock ∧ (x.core < y.core ∨ (x.core = y.core ∧ x.slot ≤ y.slot)))

/-- The wave w has taken its side of a pairing: vD of the lanes that acted on both sides holds the partner's values, and
the split goes on. -/
structure Exchanged (w w' : Wave) (x y : XSwap) : Prop where
  v : ∀ r l, l < 64 → w'.getV r l =
    match x.vals.find? (fun p => p.1 == l), y.vals.find? fun p => p.1 == l with
    | some _, some q => if x.dreg ≤ r ∧ r < x.dreg + q.2.length then q.2.getD (r - x.dreg) 0 else w.getV r l
    | _, _ => w.getV r l
  s : ∀ r, w'.getS r = w.getS r
  k : ∀ r, w'.getK r = w.getK r
  split : x.hand = w.shadow.isSome → ∀ p, SMap.find w.splits x.split = some p →
    SMap.find w'.splits x.split = some { p with wait := .ready }

/-- Where a parked split goes on: behind its JOIN, which is 12 bytes long. -/
def behindJoin (p : Split) : Dword := p.pc + 12

/-- A list of register words with no register twice gives the word of a register. -/
def wordOf (xs : List (Nat × Nat × Word)) (r l : Nat) : Option Word :=
  (xs.find? fun p => p.1 == r && p.2.1 == l).map (·.2.2)

/-- The fields of a trap frame's first 128 bytes (10 R233). -/
def frameFields (w : Wave) (t : Trap) : List (Nat × Nat × Nat) :=
  [(7, 0, t.cause), (15, 8, t.sub), (23, 16, t.lane), (31, 24, t.split), (95, 32, t.pc.toNat), (159, 96, t.resume.toNat),
   (223, 160, t.active.toNat),
   (287, 224, if t.cause = 6 ∨ t.cause = 7 ∨ t.cause = 9 ∨ t.cause = 18 then t.addr.toNat else 0),
   (351, 288, t.site.toNat), (383, 352, t.seq.toNat), (391, 384, t.queue), (415, 392, 0), (447, 416, 0),
   (511, 448, (w.getK 1).toNat)] ++
  ((List.range 8).map fun r => (543 + 32 * r, 512 + 32 * r, if r < w.b then (w.getS r).toNat else 0)) ++ [(1023, 768, 0)]

/-- A handler has been entered for the trap t (10 R232, R234). -/
structure HandlerRuns (s t : State) (k : Nat) (w w' : Wave) (x : Trap) : Prop where
  wave : t.wave k = some w'
  split : w'.splits = [(0, { pc := (s.tenant w.id.tenant).hentry, members := w.members })]
  depth : w'.depth = []
  trap : w'.trap = none
  k1 : w'.getK 1 = x.active &&& w.id.full
  frame : w'.getS 1 ++ w'.getS 0 =
    (s.tenant w.id.tenant).trapbase + BitVec.ofNat 64 (512 * (96 * w.id.pcore + 2 * w.id.slot + w.id.half))
  cause : w'.getS 2 = BitVec.ofNat 32 x.cause ∧ w'.getS 3 = BitVec.ofNat 32 x.sub
  saved : w'.shadow.map (fun h => (h.splits, h.depth, h.marks, h.held, h.debug)) =
    some (w.splits, w.depth, w.marks, w.sb, false)
  regs : (∀ r l, w'.getV r l = w.getV r l) ∧ (∀ r, r ≠ 1 → w'.getK r = w.getK r) ∧
    ∀ r, 4 ≤ r → w'.getS r = if r < 8 ∧ w.b ≤ r then 0 else w.getS r

/-- The trap that a fetched word or its fetch takes, its sub-code and its reported PC (03 R54, R56, 10 R229). -/
def fetchTrapOf (s : State) (c : Issue) : Instr → Option (Nat × Nat × Dword)
  | .unimplMajor => some (tUnimplMajor, 0, c.pc)
  | .illegalEnc => some (tIllegalEnc, 0, c.pc)
  | .fetchFault =>
    match s.subject with
    | .value cause _ va => some (tPageFault, cause, va)
    | _ => none
  | _ => none

end Sys2Proof.Machine

/-- O38. XSWAP_PAIR and XSWAP_TIMEOUT (08 R181): the pair that forms meets the four conditions, its first side issued
before every other that has a candidate and its second before every other candidate; both sides take the partner's
values in the lanes that acted on both. An exchange that has waited 2^20 clocks traps at its own PC, leaves no pending
mark and writes no lane. On a die whose clock has stopped neither comes (25 R426). -/
def Obligations.ExchangesEnd : Prop :=
  (∀ (s : State) (x y : XSwap) (kx ky : Nat) (wx wy : Wave), 
    nextPair (s.xswaps.filter fun z => s.dieRuns z.die) = some (x, y) →
    (∀ z ∈ s.xswaps, z.core < 256 ∧ z.slot < 64) → Resident s kx wx → Resident s ky wy →
    wx.id.uid = x.uid → wy.id.uid = y.uid → (∀ p ∈ x.vals ++ y.vals, p.1 < 64) →
    x ∈ s.xswaps ∧ y ∈ s.xswaps ∧ MayPair x y ∧
    (∀ z ∈ s.xswaps, s.dieRuns z.die = true → (∃ u ∈ s.xswaps, MayPair z u) → IssuedFirst x z) ∧
    (∀ z ∈ s.xswaps, MayPair x z → IssuedFirst y z) ∧
    ∃ t wx' wy', exec .xswapPair s = .next t ∧ t.wave kx = some wx' ∧ t.wave ky = some wy' ∧
      Exchanged wx wx' x y ∧ Exchanged wy wy' y x ∧ s.sameMemory t ∧
      t.xswaps = s.xswaps.filter fun z => z.op ≠ x.op ∧ z.op ≠ y.op) ∧
  ∀ (s : State) (x : XSwap) (k : Nat) (w : Wave) (o : LongOp) (p : Split),
    (s.xswaps.filter fun z => decide (z.clock + 2 ^ 20 ≤ s.dieClock z.die) && s.dieRuns z.die) = [x] → Resident s k w → w.id.uid = x.uid →
    w.shadow = none → w.trap = none → x.hand = false → x.code = false → s.ops.find? (·.id == x.op) = some o →
    SMap.find w.splits x.split = some p →
    ∃ t w', exec .xswapTimeout s = .next t ∧ t.wave k = some w' ∧ w.sameRegs w' ∧ s.sameMemory t ∧
      w'.trap = some { cause := tXswapTimeout, split := x.split, pc := x.pc, resume := x.pc } ∧
      SMap.find w'.splits x.split = some { p with pc := x.pc, wait := .ready } ∧
      (∀ m, m ∈ w'.marks ↔ m ∈ w.marks ∧ m.1 ∉ o.vregs) ∧ t.xswaps = s.xswaps.filter fun z => z.op ≠ x.op

/-- O39. SPLIT_MERGE, JOIN_RELEASE, YIELD_EXPIRY, GUARD_EXPIRY and ICF_COMPLETE (07 R143, R150, 08 R192, 09 R225):
splits parked at one JOIN merge into one, a JOIN that all have reached lets its split go on, and a split's wait ends; a
guard of 252 expires, for both halves of a ganged slot (07 R146). All of them come on dies whose clock runs. -/
def Obligations.SplitSteps : Prop :=
  (∀ (s : State) (k a b : Nat) (w : Wave), s.subject = .ids k a b → Awake s k w →
    SMap.rising 0 w.splits = true →
    (∃ i j p q, i < j ∧ SMap.find w.splits i = some p ∧ SMap.find w.splits j = some q ∧ p.park = true ∧ q.park = true ∧
      p.at = q.at ∧ p.cd = q.cd) →
    ∃ i j p q w', i < j ∧ SMap.find w.splits i = some p ∧ SMap.find w.splits j = some q ∧ p.park = true ∧ q.park = true ∧
      p.at = q.at ∧ p.cd = q.cd ∧ exec .splitMerge s = .next (s.setWave k w') ∧ w.sameRegs w' ∧
      SMap.find w'.splits i = some { p with members := p.members ||| q.members } ∧ SMap.find w'.splits j = none ∧
      ∀ n, n ≠ i → n ≠ j → SMap.find w'.splits n = SMap.find w.splits n) ∧
  (∀ (s : State) (k a b : Nat) (w : Wave), s.subject = .ids k a b → Awake s k w →
    SMap.rising 0 w.splits = true → w.splits ≠ [] → (∀ p ∈ w.splits, p.2.park = true ∧ p.2.codes = 0) →
    ∃ w', exec .joinRelease s = .next (s.setWave k w') ∧ w.sameRegs w' ∧
      ∀ j p, SMap.find w.splits j = some p → ∃ i q, i ≤ j ∧ SMap.find w'.splits i = some q ∧ q.park = false ∧
        q.pc = behindJoin p ∧ q.cd = p.cd ∧ p.members &&& q.members = p.members) ∧
  (∀ (s : State) (k a b : Nat) (w : Wave), s.subject = .ids k a b → Awake s k w → w.shadow = none →
    (∃ p ∈ w.splits, ∃ n, p.2.wait = .until n ∧ n ≤ s.dieClock w.id.die) →
    ∃ w', exec .yieldExpiry s = .next (s.setWave k w') ∧ w.sameRegs w' ∧
      w'.splits = w.splits.map fun p => match p.2.wait with
        | .until n => if n ≤ s.dieClock w.id.die then (p.1, { p.2 with wait := .ready }) else p
        | _ => p) ∧
  (∀ (s : State) (k a b : Nat) (w : Wave), s.subject = .ids k a b → Awake s k w → 252 ≤ w.guard →
    w.expired = none →
    let s' := s.setWave k { w with expired := some s.clock }
    (w.id.gang = 0 → exec .guardExpiry s = .next s') ∧
    ∀ o, w.id.gang ≠ 0 → w.id.partner ≠ k → s.wave w.id.partner = some o →
      exec .guardExpiry s = .next (s'.setWave w.id.partner { o with expired := some s.clock })) ∧
  ∀ (s : State) (k a b j : Nat) (w : Wave) (sc : Scope) (id : Nat), s.subject = .ids k a b → Awake s k w →
    w.shadow = none → (∃ p, SMap.find w.splits j = some p ∧ p.wait = .icf sc id) → (∀ x ∈ s.ls, x.id ≠ id) →
    ∃ t w' p, exec .icfComplete s = .next t ∧ t.wave k = some w' ∧ SMap.find w'.splits j = some p ∧ p.wait = .ready ∧
      w.sameRegs w' ∧ s.sameMemory t ∧
      ∀ n, (coresOf sc w.id.pcore).1 ≤ n / 2 ^ 50 → n / 2 ^ 50 < (coresOf sc w.id.pcore).1 + (coresOf sc w.id.pcore).2 →
        SMap.find t.icache n = none

/-- O40. LONG_LATENCY_COMPLETE, TOKEN_WRITE and BARRIER_COMPLETE (03 R44, R46, 01 R15, 14 R264, 09 R218): results land in
their registers, the flag count and the scoreboard marks fall; a token's register takes its value; an instance whose
every participant has arrived completes, and the splits that wait for it go on to depart. -/
def Obligations.Completions : Prop :=
  (∀ (s : State) (o : LongOp) (a b k : Nat) (w : Wave), s.subject = .ids o.id a b → s.ops.find? (·.id == o.id) = some o →
    o.ready = true → Resident s k w → w.id.uid = o.uid → s.dieRuns (s.ctx o.uid).id.die = true → (∀ p ∈ o.vw, p.2.1 < 64) →
    (o.vw.map fun p => (p.1, p.2.1)).Nodup → (o.sw.map (·.1)).Nodup →
    ∃ t w', exec .longLatencyComplete s = .next t ∧ t.wave k = some w' ∧ s.sameMemory t ∧
      t.ops = s.ops.filter (fun x => x.id ≠ o.id) ∧
      (∀ r l, l < 64 → w'.getV r l = (wordOf o.vw r l).getD (w.getV r l)) ∧
      (∀ r, w'.getS r = ((o.sw.find? fun p => p.1 == r).map (·.2)).getD (w.getS r)) ∧ (∀ r, w'.getK r = w.getK r) ∧
      w'.fpstat = w.fpstat ||| (o.fl &&& 0x3F) ∧ w'.marks = w.marks ∧
      (∀ n, SMap.read 0 w'.flags n = if o.flag = some n then SMap.read 0 w.flags n - 1 else SMap.read 0 w.flags n) ∧
      (∀ m, m ∈ w'.sb ↔ m ∈ w.sb ∧ m.2 ≠ .op o.id)) ∧
  (∀ (s : State) (x : TokenWrite) (a b k : Nat) (w : Wave), s.subject = .ids x.id a b →
    s.tokens.find? (·.id == x.id) = some x → Resident s k w → w.id.uid = x.uid →
    s.dieRuns (s.ctx x.uid).id.die = true →
    ∃ t w', exec .tokenWrite s = .next t ∧ t.wave k = some w' ∧ s.sameMemory t ∧
      t.tokens = s.tokens.filter (fun y => y.id ≠ x.id) ∧ (∀ r, w'.getS r = if r = x.reg then x.val else w.getS r) ∧
      (∀ r l, w'.getV r l = w.getV r l) ∧ (∀ r, w'.getK r = w.getK r) ∧
      ∀ m, m ∈ w'.sb ↔ m ∈ w.sb ∧ m.2 ≠ .token x.id) ∧
  ∀ (s : State) (net : Nat) (key : Nat × Nat) (rest : List (Nat × (Nat × Nat))),
    s.fullBarriers = (net, key) :: rest →
    let n := s.barrierDone net key
    (∃ p ∈ s.waves, s.barrierKey p.2.id net = key ∧
      ∀ q ∈ s.waves, q.2.id.tenant = p.2.id.tenant → q.2.id.grid = p.2.id.grid → s.barrierKey q.2.id net = key →
        SMap.find q.2.arrived net = some (n + 1)) ∧
    ∃ t, exec .barrierComplete s = .next t ∧ t.barrierDone net key = n + 1 ∧ s.sameMemory t ∧
      ∀ k w, (∀ p ∈ s.waves, ∀ q ∈ s.waves, p.1 = q.1 → p = q) → s.wave k = some w → s.barrierKey w.id net = key →
        SMap.find w.arrived net = some (n + 1) → w.shadow = none →
        ∃ w', t.wave k = some w' ∧ w.sameRegs w' ∧
          ∀ j p, (j, p) ∈ w.splits → p.wait = .departing net →
            (∃ q, (j, q) ∈ w'.splits ∧ q.wait = .leaving net) ∧
            ∃ x ∈ t.ls, x.kind = .depart net ∧ x.uid = w.id.uid ∧ x.split = j

/-- O41. TRAP_ENTRY, WATCHDOG and ENGINE_FAULT (10 R229, R231–R237): once the wave is settled and the frame written, the
handler split runs with every lane that has not exited, k1, s0:s1, s2 and s3 as R234 gives; a trap in a handler, a
handler past its watchdog limit, a zero entry, and a frame that cannot be written are double faults. -/
def Obligations.EnteringTheHandler : Prop :=
  (∀ (s : State) (k a b : Nat) (w : Wave) (x : Trap), s.subject = .ids k a b → Awake s k w → w.trap = some x →
    x.cause < 32 → w.halted = false → w.shadow = none →
    let x' : Trap := { x with active := w.active (SMap.read {} w.splits x.split) }
    ((s.tenant w.id.tenant).hentry = 0 →
      ∃ t, exec .trapEntry s = .next t ∧ DoubleFaulted s t k w x 0x45 x.pc) ∧
    ((s.tenant w.id.tenant).hentry ≠ 0 → s.settledFor w = true → ∀ s',
      (s.writeFrame w x' = (s', true) → ∃ t w', exec .trapEntry s = .next t ∧ HandlerRuns s' t k w w' x' ∧ s'.sameMemory t) ∧
      (s.writeFrame w x' = (s', false) → ∃ t, exec .trapEntry s = .next t ∧ DoubleFaulted s' t k w x 0x44
        ((s'.tenant w.id.tenant).trapbase + BitVec.ofNat 64 (512 * (96 * w.id.pcore + 2 * w.id.slot + w.id.half)))))) ∧
  (∀ (w : Wave) (x : Trap), x.cause < 256 → x.sub < 256 → x.lane < 256 → x.split < 256 → x.queue < 256 →
    ∀ f ∈ frameFields w x, frameHead w x / 2 ^ f.2.1 % 2 ^ (f.1 + 1 - f.2.1) = f.2.2) ∧
  (∀ (s : State) (k a b : Nat) (w : Wave) (x : Trap) (h : Shadow), s.subject = .ids k a b → Awake s k w →
    w.trap = some x → x.cause < 32 → w.halted = false → w.shadow = some h → h.debug = false →
    ∃ t, exec .trapEntry s = .next t ∧ DoubleFaulted s t k w h.trap x.cause x.pc) ∧
  (∀ (s : State) (k a b : Nat) (w : Wave) (h : Shadow), s.subject = .ids k a b → Awake s k w →
    w.halted = false → w.shadow = some h → h.debug = false →
    h.clock + (s.tenant w.id.tenant).wdog.toNat < s.dieClock w.id.die →
    ∃ t, exec .watchdog s = .next t ∧ DoubleFaulted s t k w h.trap 0x40 w.lowest.2.at) ∧
  ∀ (s : State) (k a b i : Nat) (w : Wave) (f : EngineFault) (fs : List EngineFault) (p : Split) (ps : SMap Split),
    s.subject = .ids k a b → Awake s k w → w.engFaults = f :: fs → w.splits = (i, p) :: ps → w.trap = none →
    w.shadow = none → w.heldTraps = [] → w.halted = false → w.haltReq = false →
    exec .engineFault s = .next (s.setWave k
      { w with
        engFaults := fs
        trap := some { cause := 18, sub := f.sub, split := i, pc := p.at, resume := p.at, active := w.active p,
                       addr := f.addr, site := f.site, seq := f.seq, queue := f.queue } })

/-- O42. DEBUG_STOP, PCMATCH and Q15_DEBUG_ENTRY (10 R238, R239), and the traps of a word that is no instruction and of
a fetch that faults (03 R54, R56, 10 R229). An entry of q15 moves on a die whose clock runs (25 R426). -/
def Obligations.StopsAndFetchTraps : Prop :=
  (∀ (s s' : State) (k a b : Nat) (w : Wave) (x : Trap), s.subject = .ids k a b → Awake s k w → w.trap = some x →
    32 ≤ x.cause → w.shadow = none → w.halted = false → s.settledFor w = true →
    ((s.tenant w.id.tenant).dbgen = false → w.heldTraps = [] →
      exec .debugStop s = .next (s.setWave k { w with trap := none, haltReq := false })) ∧
    ((s.tenant w.id.tenant).dbgen = true →
      s.writeFrame w { x with active := w.active (SMap.read {} w.splits x.split) } = (s', true) →
      ∃ t w' h, exec .debugStop s = .next t ∧ t.wave k = some w' ∧ w'.splits = [] ∧ w'.trap = none ∧
        w'.shadow = some h ∧ h.debug = true ∧ h.splits = w.splits ∧ h.depth = w.depth ∧ h.marks = w.marks ∧
        (∀ r l, w'.getV r l = w.getV r l) ∧ (∀ r, w'.getK r = w.getK r) ∧ ∀ r, w'.getS r = w.getS r)) ∧
  (∀ (s : State) (c : Issue) (w : Wave) (sp : Split), Issuing s c w sp →
    if w.handling = false ∧ sp.noMatch = false ∧ s.comparatorHits w.id c.pc = true then
      ∃ t w' q, exec .pcmatch s = .next t ∧ t.wave c.key = some w' ∧ w.sameRegs w' ∧ s.sameMemory t ∧
        w'.trap = some { cause := 33, split := c.split, pc := c.pc, resume := c.pc, active := w.active sp } ∧
        SMap.find w'.splits c.split = some q ∧ q.noMatch = true ∧ q.pc = sp.pc ∧ q.codes = sp.codes
    else exec .pcmatch s = .next s) ∧
  (∀ (s : State) (x : QEntry), s.entries.find? (fun e => e.q == 15 && s.dieRuns (s.ctx e.uid).id.die) = some x →
    ∃ t, exec .q15DebugEntry s = .next t ∧ t.entries = s.entries.filter (fun e => e.id ≠ x.id) ∧
      ((s.tenant (s.ctx x.uid).id.tenant).dbgen = false → s.sameMemory t ∧ t.tenants = s.tenants)) ∧
  ∀ (i : Instr) (s : State) (c : Issue) (w : Wave) (sp : Split) (cause sub : Nat) (pc : Dword),
    Issuing s c w sp → fetchTrapOf s c i = some (cause, sub, pc) →
    ∃ t w', exec i s = .next t ∧ t.wave c.key = some w' ∧ w.sameRegs w' ∧ s.sameMemory t ∧
      (w'.trap.map fun x => (x.cause, x.sub, x.split, x.pc, x.resume, x.active)) =
        some (cause, sub, c.split, pc, c.pc, w.active sp)
/-! ## The ordering machine: ls entries are performed, buffered stores move, accesses come from outside -/

namespace Sys2Proof.Machine

/-- The byte of a location that is not in M, as a wave of a core reads it: the newest of its stores that its buffer
holds, else the array's; a sparse hole reads as 0 (05 R86, 06 R123). -/
def seen (s : State) (core : Nat) (l : Loc) : Byte :=
  match l.k with
  | .hole => 0
  | .slice => s.slice.byte l.a
  | .sp => (newestIn s.lq core l).getD (s.sp.byte l.a)
  | .qm => (newestIn s.cb core l).getD (s.qm.byte l.a)
  | .cal => (newestIn s.cb core l).getD (s.cal.byte l.a)
  | .m => s.mem.byte l.a

/-- The array of a kind of memory. -/
def memoryOf (s : State) : MemK → Memory
  | .sp => s.sp
  | .qm => s.qm
  | .cal => s.cal
  | .m => s.mem
  | .slice => s.slice
  | .hole => []

/-- The 32-bit pieces of a number, lowest first. -/
def wordsFrom (n v : Nat) : List Word := (List.range n).map fun j => BitVec.ofNat 32 (v / 2 ^ (32 * j))

/-- The registers' words of loaded bytes: a narrow integer is extended by its sign when its type has one (09 R197). -/
def loadedWords (ty : DType) (bs : List Byte) : List Word :=
  if bs.length < 4 then
    [if ty.isSigned then BitVec.ofInt 32 (Num.sval (8 * bs.length) (leNat bs)) else BitVec.ofNat 32 (leNat bs)]
  else wordsFrom (bs.length / 4) (leNat bs)

/-- n locations from an address up. -/
def locsFrom (k : MemK) (a n : Nat) : List Loc := (List.range n).map fun j => ⟨k, a + j⟩

/-- The bytes bs have been written from a on, and nothing else of a memory. -/
def Written (m m' : Memory) (a : Nat) (bs : List Byte) : Prop :=
  ∀ x, m'.byte x = if a ≤ x ∧ x < a + bs.length then bs.getD (x - a) 0 else m.byte x

/-- Only the memory of one kind may have changed. -/
def OnlyMemory (k : MemK) (s t : State) : Prop := ∀ j, j ≠ k → memoryOf t j = memoryOf s j

/-- The subject names an ls entry that may be performed now, on a part whose memories are ready, without poison and without
drill counters. -/
structure MayPerform (s : State) (e : LsEntry) : Prop where
  subject : ∃ a b, s.subject = .ids e.id a b
  entry : s.ls.find? (·.id == e.id) = some e
  performable : s.performable e = true
  ready : ∀ b < 45, s.mgmt.ready.getLsbD b = true
  clean : s.clean = true
  drill : SMap.find s.blocks e.core = none

/-- The entry has left the ls stream; its operation, if it has one, may land these words. -/
structure Performed (s t : State) (e : LsEntry) (vw : List (Nat × Nat × Word)) (sw : List (Nat × Word)) : Prop where
  ls : t.ls = s.ls.filter fun x => x.id ≠ e.id
  op : ∀ n, e.op = some n → ∀ o ∈ s.ops, o.id = n →
    ∃ o' ∈ t.ops, o'.id = n ∧ o'.uid = o.uid ∧ o'.ready = true ∧ o'.vw = vw ∧ o'.sw = sw

/-- The words of each lane, at a vector destination. -/
def vectorWords (d : Dest) (xs : List (Nat × List Word)) : List (Nat × Nat × Word) :=
  match d with
  | .vec r => xs.flatMap fun x => x.2.zipIdx.map fun p => (r + p.2, x.1, p.1)
  | _ => []
def scalarResult (d : Dest) (xs : List (Nat × List Word)) : List (Nat × Word) :=
  match d with
  | .scal r => xs.flatMap fun x => x.2.zipIdx.map fun p => (r + p.2, p.1)
  | _ => []

/-- New(o, b) of the integer operations of 09 R207. -/
def newValue (op : Nat) (ty : DType) (o b : Nat) : Nat :=
  match op with
  | 0 => (o + b) % 2 ^ ty.bits
  | 1 => ((o : Int) - b).emod (2 ^ ty.bits) |>.toNat
  | 2 => o &&& b
  | 3 => o ||| b
  | 4 => o ^^^ b
  | 5 => if Num.ival ty o ≤ Num.ival ty b then o else b
  | 6 => if Num.ival ty o ≤ Num.ival ty b then b else o
  | 7 => b
  | _ => if o < b then o + 1 else 0

/-- The n bytes from a on of a memory that holds no partial and no buffered store for them, at their home. -/
structure AtHome (s : State) (core : Nat) (k : MemK) (a n : Nat) : Prop where
  kind : k ≠ .hole
  buffers : ∀ y ∈ s.lq ++ s.cb ++ s.dw ++ s.pq, ∀ l ∈ locsFrom k a n,
    ¬(y.loc.k = l.k ∧ y.loc.a ≤ l.a ∧ l.a < y.loc.a + y.bytes.length)
  partials : k = .m → s.parts = []
  home : k = .m → ∀ j < n, homeDie (a + j) = some (core / Config.coresPerDie)

/-- The oldest entry of a buffer for its locations, which the subject names. -/
def Oldest (s : State) (buf : List BufEnt) (e : BufEnt) : Prop :=
  (∃ a b, s.subject = .ids e.id a b) ∧ buf.find? (·.id == e.id) = some e ∧ oldestIn buf e.id = true

/-- The clock of the die of a buffered store's core runs (25 R426). -/
def OnRunningDie (s : State) (e : BufEnt) : Prop := s.dieRuns (e.own / Config.coresPerDie) = true

/-- The buffers by name. -/
def bufferOf (s : State) : Buf → List BufEnt
  | .lq => s.lq
  | .cb => s.cb
  | .dw => s.dw
  | .pq => s.pq

end Sys2Proof.Machine

/-- O43. PERFORM_LS_ENTRY on loads, fences and barrier entries (05 R83, R86, R92, R93, 06 R123, 09 R197, R215, R218): a
load outside M reads what its core's buffer holds, else the array; a load of an aligned unit of M that no buffer on its
path holds reads the home after Fold; a release empties its core's CB and its die's DW, an acquire drops its die's
copies; an arrival sets the arrival bit, and a departure clears it and lets its split go on. A load that reaches a stack that
is neither ready nor failed waits: the step that tries it has no effect (25 R414). -/
def Obligations.LoadsAndFencesPerform : Prop :=
  (∀ (s : State) (e : LsEntry), MayPerform s e → e.kind = .load → e.form = .raw → e.ord = .plain →
    (∀ x ∈ e.lanes, ∃ k, k ≠ .m ∧ ∀ l ∈ x.locs, l.k = k) →
    let xs := e.lanes.map fun x => (x.lane, loadedWords e.ty (x.locs.map (seen s e.core)))
    ∃ t, exec .performLsEntry s = .next t ∧ s.sameMemory t ∧ t.lq = s.lq ∧ t.cb = s.cb ∧
      Performed s t e (vectorWords e.dest xs) (scalarResult e.dest xs)) ∧
  (∀ (s : State) (e : LsEntry) (x : LsLane) (a n : Nat), MayPerform s e → e.kind = .load → e.form = .raw →
    e.ord = .plain → e.lanes = [x] → x.locs = locsFrom .m a n → (n = 1 ∨ n = 2 ∨ n = 4 ∨ n = 8) → a % n = 0 →
    (∀ l ∈ x.locs, s.inPath (.wave e.core) l = none) → homeDie a = some (e.core / Config.coresPerDie) →
    let xs := [(x.lane, loadedWords e.ty ((s.fold a n).mem.bytes a n))]
    ∃ t, exec .performLsEntry s = .next t ∧ t.mem = (s.fold a n).mem ∧
      Performed s t e (vectorWords e.dest xs) (scalarResult e.dest xs)) ∧
  (∀ (s : State) (e : LsEntry) (x : LsLane) (a b c n : Nat), s.subject = .ids e.id b c →
    s.ls.find? (·.id == e.id) = some e → s.performable e = true → s.poison = [] → s.mgmt.fail = 0 → e.kind = .load →
    e.ord = .plain → SMap.find s.blocks e.core = none → e.lanes = [x] → x.locs = locsFrom .m a n →
    (n = 1 ∨ n = 2 ∨ n = 4 ∨ n = 8) → a % n = 0 → (∀ l ∈ x.locs, s.inPath (.wave e.core) l = none) →
    homeDie a = some (e.core / Config.coresPerDie) → s.memWaits a = true →
    endStep s (exec .performLsEntry s) = .next { s with cur := none, subject := .none }) ∧
  (∀ (s : State) (e : LsEntry), MayPerform s e → e.kind = .fence →
    let d := e.core / Config.coresPerDie
    ∃ t, exec .performLsEntry s = .next t ∧ t.ls = s.ls.filter (fun x => x.id ≠ e.id) ∧
      (e.ord = .rel ∨ e.ord = .ar → e.scope ≠ .core → ∀ x ∈ t.cb, x.own ≠ e.core) ∧
      (e.ord = .rel ∨ e.ord = .ar → e.scope = .pkg ∨ e.scope = .pod ∨ e.scope = .sys → ∀ x ∈ t.dw, x.own ≠ d) ∧
      (e.ord = .rel ∨ e.ord = .ar → e.scope = .pod → ∀ x ∈ t.pq, x.own ≠ d) ∧
      (e.ord = .acq ∨ e.ord = .ar → e.scope = .pkg ∨ e.scope = .pod ∨ e.scope = .sys →
        ∀ pa < 2 ^ 52, SMap.find t.ds (copyKey d pa) = none)) ∧
  (∀ (s : State) (e : LsEntry) (k net : Nat) (w : Wave), MayPerform s e → e.kind = .arrive net → Resident s k w →
    w.id.uid = e.uid → w.shadow = none → e.op = none →
    ∃ t w', exec .performLsEntry s = .next t ∧ t.wave k = some w' ∧ w.sameRegs w' ∧
      SMap.find w'.arrived net = some (s.barrierDone net (s.barrierKey w.id net) + 1) ∧
      w'.splits = w.splits.map fun p => (p.1, match p.2.wait with
        | .released n dep =>
          if n = net then { p.2 with wait := if dep then .departing net else .ready } else p.2
        | _ => p.2)) ∧
  ∀ (s : State) (e : LsEntry) (k net : Nat) (w : Wave), MayPerform s e → e.kind = .depart net → Resident s k w →
    w.id.uid = e.uid → w.shadow = none → e.op = none →
    ∃ t w', exec .performLsEntry s = .next t ∧ t.wave k = some w' ∧ w.sameRegs w' ∧
      SMap.find w'.arrived net = none ∧
      w'.splits = w.splits.map fun p =>
        if p.1 = e.split ∧ p.2.wait = .leaving net then (p.1, { p.2 with wait := .ready }) else p

/-- O44. Stores, and the moves of buffered stores (05 R82, R84, R86–R88, R102, 06 R127): a store enters its core's LQ or CB,
where a later read by the core finds it, or the lane's slice, and a sparse hole takes nothing; one through a page that lets
none stay behind leaves CB at once, and DW too when the page is uncached; LQ moves to SP, CB to QM,
CAL or the next level, DW to its home after Fold with a copy of a cached page, PQ to the remote M; a copy is dropped; and
an entry merges into a later one for the same bytes. -/
def Obligations.StoresMove : Prop :=
  (∀ (s : State) (e : LsEntry) (x : LsLane) (k : MemK) (a n : Nat), MayPerform s e → e.kind = .store → e.ord = .plain →
    e.lanes = [x] → x.locs = locsFrom k a n → x.data.length = n → 0 < n → e.op = none →
    ∃ t, exec .performLsEntry s = .next t ∧ Performed s t e [] [] ∧
      (k = .sp → x.through = false → s.sameMemory t ∧ t.cb = s.cb ∧ ∀ j < n, newestIn t.lq e.core ⟨k, a + j⟩ = x.data[j]?) ∧
      (k = .m → x.through = true → (∀ y ∈ t.cb, ∀ l ∈ x.locs, y.byteAt e.core l = none) ∧
        (x.uncached = true → ∀ y ∈ t.dw, ∀ l ∈ x.locs, y.byteAt (e.core / Config.coresPerDie) l = none)) ∧
      (k = .qm ∨ k = .cal ∨ k = .m → x.through = false →
        s.sameMemory t ∧ t.lq = s.lq ∧ ∀ j < n, newestIn t.cb e.core ⟨k, a + j⟩ = x.data[j]?) ∧
      (k = .slice → x.through = false → OnlyMemory .slice s t ∧ Written s.slice t.slice a x.data ∧ t.lq = s.lq ∧ t.cb = s.cb) ∧
      (k = .hole → x.through = false → s.sameMemory t ∧ t.lq = s.lq ∧ t.cb = s.cb)) ∧
  (∀ (s : State) (e : BufEnt), Oldest s s.lq e → OnRunningDie s e → e.loc.k = .sp →
    ∃ t, exec .drainLq s = .next t ∧ t.lq = s.lq.filter (fun x => x.id ≠ e.id) ∧ OnlyMemory .sp s t ∧
      Written s.sp t.sp e.loc.a e.bytes) ∧
  (∀ (s : State) (e : BufEnt), Oldest s s.cb e → OnRunningDie s e →
    ∃ t, exec .propagateCb s = .next t ∧ t.cb = s.cb.filter (fun x => x.id ≠ e.id) ∧
      (e.loc.k = .qm ∨ e.loc.k = .cal → OnlyMemory e.loc.k s t ∧
        Written (memoryOf s e.loc.k) (memoryOf t e.loc.k) e.loc.a e.bytes ∧ t.dw = s.dw ∧ t.pq = s.pq) ∧
      (e.loc.k = .m →
        let d := e.own / Config.coresPerDie
        if paKind e.loc.a = .remote then
          s.sameMemory t ∧ t.dw = s.dw ∧ ∃ y, t.pq = s.pq ++ [y] ∧ y.own = d ∧ y.loc = e.loc ∧ y.bytes = e.bytes
        else if homeDie e.loc.a = some d then
          OnlyMemory .m s t ∧ Written (s.fold e.loc.a e.bytes.length).mem t.mem e.loc.a e.bytes ∧ t.dw = s.dw ∧ t.pq = s.pq
        else s.sameMemory t ∧ t.pq = s.pq ∧ ∃ y, t.dw = s.dw ++ [y] ∧ y.own = d ∧ y.loc = e.loc ∧ y.bytes = e.bytes)) ∧
  (∀ (s : State) (e : BufEnt), Oldest s s.dw e → e.loc.k = .m → e.bytes ≠ [] →
    ∃ t, exec .writeBackDw s = .next t ∧ t.dw = s.dw.filter (fun x => x.id ≠ e.id) ∧ OnlyMemory .m s t ∧
      Written (s.fold e.loc.a e.bytes.length).mem t.mem e.loc.a e.bytes ∧
      (e.uncached = true → ∀ p ∈ s.copiesAt e.own e.loc.a e.bytes.length, SMap.find t.ds (copyKey e.own p.1) = none) ∧
      (e.uncached = true → s.copiesAt e.own e.loc.a e.bytes.length = [] → t.ds = s.ds) ∧
      (e.uncached = false → s.copiesAt e.own e.loc.a e.bytes.length = [] →
        t.copyBytes e.own e.loc.a e.bytes.length = some e.bytes)) ∧
  (∀ (s : State) (e : BufEnt), Oldest s s.pq e → e.loc.k = .m →
    ∃ t, exec .deliverPq s = .next t ∧ t.pq = s.pq.filter (fun x => x.id ≠ e.id) ∧ OnlyMemory .m s t ∧
      Written s.mem t.mem e.loc.a e.bytes) ∧
  (∀ (s : State) (d pa n : Nat), s.subject = .ids d pa n →
    ∃ t, exec .dropCopy s = .next t ∧ s.sameMemory t ∧
      ∀ j, SMap.find t.ds j = if j = copyKey d pa then none else SMap.find s.ds j) ∧
  ∀ (s : State) (b : Buf) (x y : BufEnt) (pre mid post : List BufEnt), s.subject = .merge b x.id y.id →
    bufferOf s b = pre ++ x :: mid ++ y :: post → ((bufferOf s b).map (·.id)).Nodup → x.own = y.own → x.loc = y.loc →
    x.bytes.length = y.bytes.length → (∀ z ∈ mid, ∀ l ∈ x.locs, z.byteAt x.own l = none) →
    ∃ t, exec .bufferMerge s = .next t ∧ bufferOf t b = pre ++ mid ++ y :: post ∧
      (∀ c, c ≠ b → bufferOf t c = bufferOf s c) ∧ s.sameMemory t

/-- O45. Atomics, REDs and exact accumulators at their home (05 R95, R96, 09 R205–R214, 04 R67–R69): FAO writes New(o, b)
and returns o; CAS writes its new value when o equals the compared one; XCLR writes zeros and XRD reads the
accumulator; RED in `.g` makes a partial of its core, elsewhere an atomic step; VAT takes its elements one by one. -/
def Obligations.AtomicsPerform : Prop :=
  (∀ (s : State) (e : LsEntry) (x : LsLane) (k : MemK) (a op : Nat), MayPerform s e → e.kind = .fao op → e.ord = .plain →
    s.combs = [] → e.lanes = [x] → x.old = none → (e.ty.bits = 32 ∨ e.ty.bits = 64) → Num.fmtOf e.ty = none →
    x.data.length = e.ty.bytes → x.locs = locsFrom k a e.ty.bytes → AtHome s e.core k a e.ty.bytes →
    let o := leNat ((memoryOf s k).bytes a e.ty.bytes)
    let xs := [(x.lane, wordsFrom (e.ty.bits / 32) o)]
    ∃ t, exec .performLsEntry s = .next t ∧ OnlyMemory k s t ∧
      Written (memoryOf s k) (memoryOf t k) a (leBytes e.ty.bytes (newValue op e.ty o (leNat x.data))) ∧
      Performed s t e (vectorWords e.dest xs) (scalarResult e.dest xs)) ∧
  (∀ (s : State) (e : LsEntry) (x : LsLane) (k : MemK) (a : Nat), MayPerform s e → e.kind = .cas → e.ord = .plain →
    e.lanes = [x] → (e.ty.bits = 32 ∨ e.ty.bits = 64) → x.data.length = 2 * e.ty.bytes →
    x.locs = locsFrom k a e.ty.bytes → AtHome s e.core k a e.ty.bytes →
    let old := (memoryOf s k).bytes a e.ty.bytes
    let xs := [(x.lane, wordsFrom (e.ty.bits / 32) (leNat old))]
    ∃ t, exec .performLsEntry s = .next t ∧ OnlyMemory k s t ∧
      Written (memoryOf s k) (memoryOf t k) a (if old = x.data.take e.ty.bytes then x.data.drop e.ty.bytes else old) ∧
      Performed s t e (vectorWords e.dest xs) (scalarResult e.dest xs)) ∧
  (∀ (s : State) (e : LsEntry) (x : LsLane) (k : MemK) (a op : Nat) (rnd : Rnd) (ftz : Bool), MayPerform s e →
    e.kind = .red op rnd ftz → e.ord = .plain → e.op = none → e.lanes = [x] → x.hole = false → 0 < e.ty.bytes →
    e.ty.bytes ≤ 8 → x.data.length = e.ty.bytes → x.locs = locsFrom k a e.ty.bytes → AtHome s e.core k a e.ty.bytes →
    ∃ t, exec .performLsEntry s = .next t ∧
      (k ≠ .m → Num.fmtOf e.ty = none → OnlyMemory k s t ∧ t.parts = s.parts ∧
        Written (memoryOf s k) (memoryOf t k) a
          (leBytes e.ty.bytes (newValue op e.ty (leNat ((memoryOf s k).bytes a e.ty.bytes)) (leNat x.data)))) ∧
      (k = .m → s.sameMemory t ∧
        t.parts = [{ core := e.core, pa := a, op, ty := e.ty, rnd, ftz, val := leNat x.data }])) ∧
  (∀ (s : State) (e : LsEntry) (x : LsLane) (k : MemK) (a : Nat), MayPerform s e → e.ord = .plain → e.lanes = [x] →
    x.hole = false → x.locs = locsFrom k a 64 → AtHome s e.core k a 64 →
    let old := (memoryOf s k).bytes a 64
    (e.kind = .xclr → e.op = none → x.data = List.replicate 64 0 →
      ∃ t, exec .performLsEntry s = .next t ∧ OnlyMemory k s t ∧
        Written (memoryOf s k) (memoryOf t k) a (List.replicate 64 0) ∧ Performed s t e [] []) ∧
    (e.kind = .xacc → e.op = none →
      ∃ t, exec .performLsEntry s = .next t ∧ OnlyMemory k s t ∧
        Written (memoryOf s k) (memoryOf t k) a (leBytes 64 (Num.accAdd (leNat old) (leNat x.data)).1) ∧
        Performed s t e [] []) ∧
    (∀ rnd f, e.kind = .xrd rnd → Num.fmtOf e.ty = some f → e.form = .dec rnd false false →
      (e.ty.bits = 32 ∨ e.ty.bits = 64) →
      let xs := [(x.lane, wordsFrom (e.ty.bits / 32) (Num.accRead f { rnd, u := x.u } (leNat old)).bits)]
      ∃ t, exec .performLsEntry s = .next t ∧ s.sameMemory t ∧
        Performed s t e (vectorWords e.dest xs) (scalarResult e.dest xs))) ∧
  ∀ (s : State) (e : LsEntry) (x : LsLane) (k : MemK) (a op : Nat) (ret ftz : Bool) (rnd : Rnd), MayPerform s e →
    e.kind = .vat op ret rnd ftz → e.ord = .plain → e.lanes = [x] → Num.fmtOf e.ty = none →
    (e.ty.bits = 16 ∨ e.ty.bits = 32 ∨ e.ty.bits = 64) → x.data.length = 32 → x.locs = locsFrom k a 32 →
    AtHome s e.core k a 32 →
    let n := e.ty.bytes
    let old := (memoryOf s k).bytes a 32
    let part (bs : List Byte) (j : Nat) : Nat := leNat ((bs.drop (n * j)).take n)
    let xs := if ret then [(x.lane, wordsFrom 8 (leNat old))] else []
    ∃ t, exec .performLsEntry s = .next t ∧ OnlyMemory k s t ∧
      Written (memoryOf s k) (memoryOf t k) a
        ((List.range (32 / n)).flatMap fun j => leBytes n (newValue op e.ty (part old j) (part x.data j))) ∧
      Performed s t e (vectorWords e.dest xs) (scalarResult e.dest xs)

namespace Sys2Proof.Machine

/-- A request that stands in the ordering machine: one lane of an FAO of a single lane, still to be taken. -/
structure LaneRequest (s : State) (e : LsEntry) (x : LsLane) (op : Nat) (l : Loc) (n : Nat) : Prop where
  entry : s.ls.find? (·.id == e.id) = some e
  kind : e.kind = .fao op
  ord : e.ord = .plain
  lanes : e.lanes = [x]
  locs : x.locs = l.range n ∧ 0 < n
  old : x.old = none
  performable : s.performable e = true

/-- What stands behind a waiting request: no request of the list names the location, be it an ls entry, a buffered store or an
engine's entry. -/
structure FreeBehind (s : State) (behind : List Nat) (l : Loc) : Prop where
  entries : ∀ g ∈ s.ls, g.id ∈ behind → l ∉ g.locs
  stores : ∀ b ∈ s.lq ++ s.cb ++ s.dw ++ s.pq, b.id ∈ behind → l ∉ b.locs
  engines : ∀ x ∈ s.entries, x.id ∉ behind

/-- What a pair carries for an operation (13 R253): `.sub` and `.add` sum their operands, `.incw` keeps its bound, and the
others apply the operation to the two operands. -/
def pairOperand (op : Nat) (ty : DType) (a b : Nat) : Nat :=
  if op = 8 then a else if op = 1 then (a + b) % 2 ^ ty.bits else newValue op ty a b

/-- n bytes from pa on lie in HBM or in LPDDR. -/
def DeviceRange (pa n : Nat) : Prop :=
  (paKind pa = .hbm ∧ paKind (pa + n - 1) = .hbm) ∨ (paKind pa = .lpddr ∧ paKind (pa + n - 1) = .lpddr)

end Sys2Proof.Machine

/-- O46. Combining, page walks and accesses from outside (13 R249, R252–R254; 06 R119, R121, R130; 05 R86, R100, R101): two
requests of one operation for one location that pass the same output pair there while a wait entry is free, the lower port
first in one clock, or the waiting one first when no request behind it names the location; the pair is applied once at the
home, and then the first member returns the old value and the second After(v, a); a request of another package that meets a
waiting one on its way is applied with it, and each returns its value of that order; a walk sets A, and D for a write, and the
leaf it finds stands in the die's TLB; a host's or a remote package's access reads or writes M after Fold, and a remote RED
takes its step at the home. That such an access at an address outside every range faults is the model's choice (log entry
53). -/
def Obligations.CombiningAndOutside : Prop :=
  (∀ (s : State) (e f : LsEntry) (x y : LsLane) (op n p q : Nat) (l : Loc) (out : Output) (same : Bool) (behind : List Nat),
    s.subject = .meet out e.id f.id same behind →
    e.id ≠ f.id → s.combs = [] → LaneRequest s e x op l n → LaneRequest s f y op l n → e.ty = f.ty →
    Num.fmtOf e.ty = none → (op = 8 → leNat x.data = leNat y.data) → l.k = .m → paKind l.a ≠ .host →
    (s.outputs e.core l).find? (fun o => o.1 == out) = some (out, p) →
    (s.outputs f.core l).find? (fun o => o.1 == out) = some (out, q) →
    (same = true → p < q) → (same = false → FreeBehind s behind l) →
    ∃ t c, exec .combinePair s = .next t ∧ t.combs = [c] ∧ c.point = out ∧ c.first = .lanes e.id ∧
      c.second = .lanes f.id ∧ c.loc = l ∧ c.op = op ∧ c.ty = e.ty ∧ c.opA = leNat x.data ∧ c.cntA = 1 ∧ c.cntP = 2 ∧
      c.opP = pairOperand op e.ty (leNat x.data) (leNat y.data) ∧ c.old = none ∧ s.sameMemory t) ∧
  (∀ (s : State) (c : Comb) (core a b : Nat) (e : LsEntry), s.subject = .ids c.id a b → s.combs = [c] → c.old = none →
    c.first = .lanes e.id → (∃ i, c.second = .lanes i) → s.ls.find? (·.id == e.id) = some e → e.core = core →
    (c.ty.bits = 32 ∨ c.ty.bits = 64) → Num.fmtOf c.ty = none → c.loc.k = .m → c.op ≠ 8 →
    AtHome s core .m c.loc.a c.ty.bytes →
    let o := leNat (s.mem.bytes c.loc.a c.ty.bytes)
    ∃ t, exec .combineReturn s = .next t ∧ OnlyMemory .m s t ∧
      Written s.mem t.mem c.loc.a (leBytes c.ty.bytes (newValue c.op c.ty o c.opP)) ∧
      t.combs = [{ c with old := some o }]) ∧
  (∀ (s : State) (c : Comb) (a b v op : Nat) (e f : LsEntry) (x y : LsLane), s.subject = .ids c.id a b → s.combs = [c] →
    c.old = some v → c.first = .lanes e.id → c.second = .lanes f.id → e.id ≠ f.id → s.ls = [e, f] → e.kind = .fao op →
    f.kind = .fao op → c.op = op → op ≠ 8 → Num.fmtOf c.ty = none → e.lanes = [x] → f.lanes = [y] →
    x.locs.head? = some c.loc → y.locs.head? = some c.loc → x.old = none → y.old = none →
    ∃ t, exec .combineReturn s = .next t ∧ t.combs = [] ∧ s.sameMemory t ∧
      t.ls = [{ e with lanes := [{ x with old := some v }] },
        { f with lanes := [{ y with old := some (newValue op c.ty v c.opA) }] }]) ∧
  (∀ (s s' : State) (r : WalkReq) (l : Leaf), s.subject = .walk r → s.walk r.tenant r.va = (s', .leaf l) →
    s.mgmt.fencedFrames = [] → s'.cached r.die none r.tenant r.va.toNat = [] → l.hole = false → 0 < l.size →
    ∃ t, exec .pageWalk s = .next t ∧ (leNat (t.mem.bytes l.pte 8)).testBit 5 = true ∧
      ((if r.write then l.w else l.r) = true →
        (r.write = true → (leNat (t.mem.bytes l.pte 8)).testBit 6 = true) ∧
        ∃ h, t.cached r.die none r.tenant r.va.toNat = [h] ∧ h.leaf = { l with d := l.d || r.write })) ∧
  (∀ (s : State) (pa n : Nat), s.subject = .host (.read pa n) →
    ((DeviceRange pa n ∨ paKind pa = .host) → ∃ t, exec .hostMemAccess s = .next t ∧ t.mem = (s.fold pa n).mem ∧
      t.answer = (s.fold pa n).mem.bytes pa n) ∧
    (¬DeviceRange pa n → paKind pa ≠ .host → exec .hostMemAccess s = .fault (.noSuchMemory pa))) ∧
  (∀ (s : State) (pa : Nat) (bs : List Byte), s.subject = .host (.write pa bs) ∨ s.subject = .remote (.store pa bs) →
    let i : Instr := if s.subject = .host (.write pa bs) then .hostMemAccess else .remoteRequest
    let named := DeviceRange pa bs.length ∨ (s.subject = .host (.write pa bs) ∧ paKind pa = .host)
    (named → ∃ t, exec i s = .next t ∧ OnlyMemory .m s t ∧ Written (s.fold pa bs.length).mem t.mem pa bs) ∧
    (¬named → exec i s = .fault (.noSuchMemory pa))) ∧
  (∀ (s : State) (pa n : Nat), s.subject = .remote (.load pa n) →
    (DeviceRange pa n → ∃ t, exec .remoteLoad s = .next t ∧ t.mem = (s.fold pa n).mem ∧
      t.answer = (s.fold pa n).mem.bytes pa n) ∧
    (¬DeviceRange pa n → exec .remoteLoad s = .fault (.noSuchMemory pa))) ∧
  (∀ (s : State) (pa : Nat) (op : BitVec 4) (ty : DType) (v : Dword) (rnd : Rnd) (ftz : Bool), Num.fmtOf ty = none →
    (ty.bits = 32 ∨ ty.bits = 64) → v.toNat < 2 ^ ty.bits → DeviceRange pa ty.bytes →
    (∀ p ∈ s.parts, p.hits pa ty.bytes = false) →
    let old := s.mem.bytes pa ty.bytes
    let new := leBytes ty.bytes (newValue op.toNat ty (leNat old) v.toNat)
    (s.subject = .remote (.atomic pa op ty rnd ftz v) →
      ∃ t, exec .remoteRequest s = .next t ∧ OnlyMemory .m s t ∧ Written s.mem t.mem pa new ∧ t.answer = old) ∧
    (∀ port, s.meets = [] → s.subject = .remote (.fao port pa op ty v 1) → op.toNat ≠ 8 →
      ∃ t, exec .remoteRequest s = .next t ∧ OnlyMemory .m s t ∧ Written s.mem t.mem pa new ∧ t.answer = old) ∧
    (s.subject = .remote (.red pa op ty rnd ftz v) →
      ∃ t, exec .remoteRequest s = .next t ∧ OnlyMemory .m s t ∧ Written s.mem t.mem pa new ∧ t.parts = s.parts) ∧
    ∀ u : Dword, u.toNat < 2 ^ ty.bits → s.subject = .remote (.cas pa ty v u) →
      ∃ t, exec .remoteRequest s = .next t ∧ OnlyMemory .m s t ∧ t.answer = old ∧
        Written s.mem t.mem pa (if leNat old = v.toNat then leBytes ty.bytes u.toNat else old)) ∧
  (∀ (s : State) (e : LsEntry) (x : LsLane) (port op : BitVec 4) (pa : Nat) (v : Dword) (out : Output) (p q : Nat) (waited : Bool),
    s.subject = .remote (.fao port pa op e.ty v 1) → op.toNat ≤ 7 → Num.fmtOf e.ty = none →
    (e.ty.bits = 32 ∨ e.ty.bits = 64) → v.toNat < 2 ^ e.ty.bits → DeviceRange pa e.ty.bytes → s.combs = [] →
    LaneRequest s e x op.toNat ⟨.m, pa⟩ e.ty.bytes → x.data.length = e.ty.bytes → AtHome s e.core .m pa e.ty.bytes →
    s.meets = [[{ out, other := some e.id, waited }]] →
    (s.outputs e.core ⟨.m, pa⟩).find? (fun o => o.1 == out) = some (out, p) →
    (s.aditWay port.toNat ⟨.m, pa⟩).find? (fun o => o.1 == out) = some (out, q) →
    let o := leNat (s.mem.bytes pa e.ty.bytes)
    let a := if waited then leNat x.data else v.toNat
    let mid := newValue op.toNat e.ty o a
    let b := if waited then v.toNat else leNat x.data
    ∃ t f, exec .remoteRequest s = .next t ∧ OnlyMemory .m s t ∧
      Written s.mem t.mem pa (leBytes e.ty.bytes (newValue op.toNat e.ty mid b)) ∧
      t.answer = leBytes e.ty.bytes (if waited then mid else o) ∧ t.ls.find? (·.id == e.id) = some f ∧
      f.lanes = [{ x with old := some (if waited then o else mid) }] ∧ ⟨.m, pa⟩ ∈ f.comb) ∧
  ∀ (s : State) (pa : Nat) (v : Word), DeviceRange pa 64 → (∀ p ∈ s.parts, p.hits pa 64 = false) →
    s.subject = .remote (.xacc pa v) →
    let sum := Num.accAdd (leNat (s.mem.bytes pa 64)) v.toNat
    ∃ t, exec .remoteRequest s = .next t ∧ OnlyMemory .m s t ∧ Written s.mem t.mem pa (leBytes 64 sum.1) ∧
      t.answer = leBytes 4 sum.2.toNat

/-! ## The entries of the engines -/

namespace Sys2Proof.Machine

/-- The entry e, named by the subject, stands at the head of its queue and its engine may take it (05 R104, R105). -/
structure Turn (s : State) (e : QEntry) : Prop where
  subject : ∃ a b, s.subject = .ids e.id a b
  entry : s.entries.find? (fun x => x.id == e.id) = some e
  head : s.heads e = true

/-- The subject names the entry e, wherever it stands in its queue. -/
structure Awaited (s : State) (e : QEntry) : Prop where
  subject : ∃ a b, s.subject = .ids e.id a b
  entry : s.entries.find? (fun x => x.id == e.id) = some e

/-- An entry e has left its queue after the work that ended in s. -/
def leaves (s : State) (e : QEntry) : State := s.dropEntry e.id

/-- The queue of e has stopped with SUB and ADDR, and the wave holds the fault (10 R237). -/
def faulted (s : State) (e : QEntry) (sub : Nat) (a : Dword) : State := s.engineFaultAt e sub a

/-- The token that a copy entry names receives v: it is not raw, bit 10 is set, and its wave has not exited (14 R264). -/
structure TokenGiven (s t : State) (e : QEntry) (v : Nat) : Prop where
  tokens : t.tokens =
    if e.raw = false ∧ e.data.getLsbD 10 = true ∧ s.alive e.uid = true then
      s.tokens ++ [{ id := e.id, uid := e.uid, reg := e.data.toNat / 8 % 128, val := BitVec.ofNat 32 v }]
    else s.tokens
  entries : t.entries = s.entries.filter fun x => x.id != e.id
  memory : s.sameMemory t

/-- The word of a copy entry: n counts from 0 as in 14 R263. -/
def copyWord (e : QEntry) (n : Nat) : Nat := e.data.toNat / 2 ^ (32 * n) % 2 ^ 32
def copyAddr (e : QEntry) (n : Nat) : Dword := BitVec.ofNat 64 (e.data.toNat / 2 ^ (32 * n) % 2 ^ 64)

/-- Work over the elements 0 to n − 1 in ascending order. -/
def ascending (n : Nat) (f : Nat → EM Unit) : EM Unit := do
  for i in List.range n do
    f i

/-- One element of GTH or SCT (14 R268): k := idx[i], then the element from one place to the other. -/
def gatherOne (p : Port) (e : QEntry) (scatter : Bool) (n i : Nat) : EM Unit := do
  let k ← EM.readNat p e.ixs (copyAddr e 5 + BitVec.ofNat 64 (4 * i)) 4
  let bs ← EM.read p e.ssp (copyAddr e 3 + BitVec.ofNat 64 (n * (if scatter then i else k))) n
  EM.write p e.dsp (copyAddr e 1 + BitVec.ofNat 64 (n * (if scatter then k else i))) bs

/-- A copy command once its entry holds what 14 R263 and R266 ask: its opcode, when it may act, its work and the number
of destination bytes that the token receives. -/
structure CopyRow where
  op : Nat
  may : State → QEntry → Bool := fun _ _ => true
  work : State → QEntry → EM Unit
  bytes : QEntry → Nat

/-- CPY, CPY2D, GTH and SCT (14 R267, R268). -/
def copyRowOf : Instr → Option CopyRow
  | .cpyEntry => some
    { op := 0, bytes := fun e => copyWord e 5
      work := fun s e => copyBytes (s.corePort e) e.dsp e.ssp (copyWord e 5) (copyAddr e 1) (copyAddr e 3) (copyWord e 5) }
  | .cpy2dEntry => some
    { op := 1, bytes := fun e => (copyWord e 5 / 2 ^ 20 + 1) * (copyWord e 5 % 2 ^ 20)
      work := fun s e => ascending (copyWord e 5 / 2 ^ 20 + 1) fun r =>
        copyBytes (s.corePort e) e.dsp e.ssp (copyWord e 5 % 2 ^ 20)
          (copyAddr e 1 + BitVec.ofNat 64 (16 * r * (copyWord e 6 / 2 ^ 16)))
          (copyAddr e 3 + BitVec.ofNat 64 (16 * r * (copyWord e 6 % 2 ^ 16))) (copyWord e 5 % 2 ^ 20) }
  | .gthEntry => some
    { op := 2, bytes := fun e => copyWord e 7 % 2 ^ 24 * elemSize e
      work := fun s e => ascending (copyWord e 7 % 2 ^ 24) (gatherOne (s.corePort e) e false (elemSize e)) }
  | .sctEntry => some
    { op := 3, bytes := fun e => copyWord e 7 % 2 ^ 24 * elemSize e
      work := fun s e => ascending (copyWord e 7 % 2 ^ 24) (gatherOne (s.corePort e) e true (elemSize e)) }
  | _ => none

/-- The formats of an XCODE, and the size of one of its groups (14 R269). -/
def xcodePair (p : Port) (e : QEntry) : EM (DType × DType) := do
  let df ← xcodeFormat p (e.data.toNat / 2 ^ 11 % 32) e.dsp .engWrite (copyAddr e 1)
  let sf ← xcodeFormat p (copyWord e 6 % 32) e.ssp .engRead (copyAddr e 3)
  pure (df, sf)
def xcodeSize (x : DType × DType) : Nat := if x.1.isBlock || x.2.isBlock then 32 else 1

end Sys2Proof.Machine

/-- O47. The entries of the copy engine (14 R264–R272): with its limits met, a CPY, CPY2D, GTH, SCT or XCODE does its work,
its entry leaves and its token receives the number of destination bytes; a breach of the limits is BADDESC before any
access, and a fault stops the queue; a copy within one line writes the bytes it read; an instance of COLL of one member
copies its source; an incomplete instance times out. -/
def Obligations.CopyEntries : Prop :=
  (∀ (i : Instr) (r : CopyRow) (s : State) (e : QEntry), copyRowOf i = some r → Turn s e → e.q = 2 →
    e.data.toNat % 8 = r.op →
    (copyOk e = false → exec i s = .next (faulted s e 1 0)) ∧
    ∀ s', copyOk e = true →
      ((r.work s e).go s = (.ok (), s') → ∃ t, exec i s = .next t ∧ TokenGiven s' t e (r.bytes e)) ∧
      ∀ f, (r.work s e).go s = (.error f, s') → exec i s = .next (faulted s' e f.sub f.addr)) ∧
  (∀ (s : State) (e : QEntry), Turn s e → e.q = 2 → 5 ≤ e.data.toNat % 8 →
    exec .cpyEntry s = .next (faulted s e 1 0)) ∧
  (∀ (s s1 s2 : State) (e : QEntry) (bs : List Byte) (ps : List Place), Turn s e → e.q = 2 → e.data.toNat % 8 = 0 →
    copyOk e = true → 0 < copyWord e 5 → (copyAddr e 1).toNat % 64 + copyWord e 5 ≤ 64 →
    (copyAddr e 3).toNat % 64 + copyWord e 5 ≤ 64 → (e.dsp = e.ssp → (copyAddr e 1 - copyAddr e 3).toNat = 0 ∨
      copyWord e 5 ≤ (copyAddr e 1 - copyAddr e 3).toNat) →
    (EM.read (s.corePort e) e.ssp (copyAddr e 3) (copyWord e 5)).go s = (.ok bs, s1) →
    (EM.places (s.corePort e) e.dsp .engWrite (copyAddr e 1) (copyWord e 5)).go s1 = (.ok ps, s2) → s2.mgmt.fail = 0 →
    (∀ x ∈ ps, ∀ l ∈ x.locs, l.k = .m → s2.memWaits l.a = false) →
    SMap.find s2.blocks (s.ctx e.uid).id.pcore = none →
    ∃ t, exec .cpyEntry s = .next t ∧ TokenGiven
      (ps.foldl (fun st x => (x.locs.zip bs).foldl
        (fun st y => st.storeThrough (s.corePort e).ag x.uncached x.through [y.1] [y.2]) st) s2) t e (copyWord e 5)) ∧
  (∀ (s : State) (e : QEntry), Turn s e → e.q = 2 → e.data.toNat % 8 = 4 → copyOk e = true →
    (entrySr e && s.drawsBlocked e.uid [e.lane]) = false → copyWord e 5 % 2 ^ 24 = 0 →
    ∃ t, exec .xcodeEntry s = .next t ∧ TokenGiven s t e 0) ∧
  (∀ (s s1 s2 : State) (e : QEntry) (x : DType × DType), Turn s e → e.q = 2 → e.data.toNat % 8 = 4 → copyOk e = true →
    (entrySr e && s.drawsBlocked e.uid [e.lane]) = false → 0 < copyWord e 5 % 2 ^ 24 →
    (xcodePair (s.corePort e) e).go s = (.ok x, s1) →
    let count := copyWord e 5 % 2 ^ 24
    (count % xcodeSize x ≠ 0 → exec .xcodeEntry s = .next (faulted s1 e 1 0)) ∧
    (count % xcodeSize x = 0 →
      (ascending (count / xcodeSize x) (xcodeGroup (s.corePort e) e x.2 x.1 (xcodeSize x))).go s1 = (.ok (), s2) →
      ∃ t, exec .xcodeEntry s = .next t ∧
        TokenGiven s2 t e (if x.1.isBlock then count / 32 * Num.blockBytes x.1 else count * x.1.bytes))) ∧
  (∀ (s : State) (e : QEntry), Turn s e → e.q = 3 → collOk e = false →
    exec .collInstance s = .next (faulted s e 1 0)) ∧
  (∀ (s : State) (e : QEntry), Turn s e → e.q = 3 → collOk e = true → copyWord e 5 % 2 ^ 24 = 0 →
    ∃ t, exec .collInstance s = .next t ∧ t.tokens = (s.giveToken e 0).tokens ∧
      t.entries = s.entries.filter (fun x => x.id != e.id) ∧ s.sameMemory t) ∧
  (∀ (s : State) (e : QEntry), Turn s e → e.q = 3 → collOk e = true → copyWord e 5 % 2 ^ 24 ≠ 0 →
    s.collSet e = [e] → collN e = 1 → collRank e = 0 → collRoot e = 0 → collCop e = 0 →
    let sc := (Scope.ofCode (e.data.toNat / 2 ^ 28 % 8)).getD .core
    let s0 := s.release (s.corePort e).ag sc
    let p := s0.corePort e
    ∀ s1 s2 vs, (collSource p e (elemSize e)).go s0 = (.ok vs, s1) → s1.corePort e = p →
      (collWrite p e (elemSize e) vs).go s1 = (.ok (), s2) →
      ∃ t, exec .collInstance s = .next t ∧
        t = ((((s2.addStatus p.w.uid 0).acquire p.ag sc).giveToken e (collBytes e)).collLeave e)) ∧
  ∀ (s : State) (e : QEntry) (c : Nat), Turn s e → e.q = 3 → s.collReady e = false → e.began = some c →
    c + 2 ^ 24 ≤ s.dieClock (s.ctx e.uid).id.die → exec .collTimeout s = .next (faulted s e 5 0)

namespace Sys2Proof.Machine

/-- What the step i makes of the entry e through its work m: it leaves; or it owes the result d, which is delivered when
the wave's pop queue has room, goes nowhere when the wave has exited, and otherwise waits with its entry (01 R12); or a
fault stops its queue, and `keep` says whether what came before the fault stands (10 R237). -/
structure Outcomes (i : Instr) (s : State) (e : QEntry) (keep : Bool) (m : EM Answer) : Prop where
  done : ∀ s', m.go s = (.ok none, s') → exec i s = .next (leaves s' e)
  gone : ∀ s' d x, m.go s = (.ok (some d), s') → s'.entries.find? (fun y => y.id == e.id) = some x →
    s'.waveOf x.uid = none → exec i s = .next (leaves s' e)
  posted : ∀ s' d x k w, m.go s = (.ok (some d), s') → s'.entries.find? (fun y => y.id == e.id) = some x →
    s'.waveOf x.uid = some (k, w) → s'.room w (answerQueue x.q) = true →
    exec i s = .next (leaves (s'.deliver x.uid (answerQueue x.q) d (if x.q = 10 then x.latch else []) x.home) e)
  waits : ∀ s' d x k w, m.go s = (.ok (some d), s') → s'.entries.find? (fun y => y.id == e.id) = some x →
    s'.waveOf x.uid = some (k, w) → s'.room w (answerQueue x.q) = false →
    exec i s = .next { s' with entries := s'.entries.map fun y => if y.id = e.id then { y with post := some d } else y }
  fails : ∀ s' f, m.go s = (.error f, s') → exec i s = .next
    (faulted (if keep then s' else { s with stalled := s'.stalled, struck := s'.struck }) e f.sub f.addr)

/-- A result that waited for room in the pop queue of q is delivered (01 R12). -/
structure WaitingPost (s : State) (e : QEntry) (q : Nat) (d : BitVec 256) (k : Nat) (w : Wave) : Prop where
  turn : Turn s e
  queue : e.q = q
  post : e.post = some d
  wave : s.waveOf e.uid = some (k, w)
  room : s.room w (answerQueue q) = true

/-- Bits 31 to 8 of a status word hold CODE, FST, SPAN, ISS, MEM, ACC and OP, and bits 63 to 32 SEQ (15 R295). -/
structure StatusHolds (d : BitVec 256) (e : QEntry) (code fst span iss mem : Nat) : Prop where
  op : d.toNat % 8 = e.data.toNat % 8
  acc : d.toNat / 2 ^ 3 % 4 = e.data.toNat / 2 ^ 16 % 4
  mem : d.toNat / 2 ^ 5 % 4 = mem
  iss : d.toNat / 2 ^ 7 % 2 = iss
  span : d.toNat / 2 ^ 8 % 4 = span
  fst : d.toNat / 2 ^ 10 % 64 = fst % 64
  zero : d.toNat / 2 ^ 16 % 256 = 0
  code : d.toNat / 2 ^ 24 % 256 = code
  seq : d.toNat / 2 ^ 32 = e.seq.toNat

/-- The descriptor of MLDA and MLDB (15 R287): a multiple of 16 and a pitch that is a non-zero multiple of 16. -/
def plainOk (e : QEntry) : Prop := copyWord e 1 % 16 = 0 ∧ copyWord e 2 % 16 = 0 ∧ copyWord e 2 ≠ 0

/-- The parameter words of MUNF that are in order (15 R288). -/
def unfoldOk (e : QEntry) : Prop :=
  copyWord e 1 % 16 = 0 ∧ copyWord e 2 / 2 ^ 16 ≠ 0 ∧ copyWord e 2 % 2 ^ 16 ≠ 0 ∧ copyWord e 3 / 2 ^ 24 ≠ 0 ∧
  copyWord e 3 / 2 ^ 16 % 256 ≠ 0 ∧ copyWord e 3 % 2 ^ 16 ≠ 0 ∧ copyWord e 4 / 2 ^ 16 ≠ 0 ∧ copyWord e 4 % 256 ≠ 0

/-- w2 of MHIST, as a signed number (15 R293). -/
def histBase (e : QEntry) : Int :=
  if copyWord e 2 < 2 ^ 31 then (copyWord e 2 : Int) else (copyWord e 2 : Int) - 2 ^ 32

/-- The descriptor instructions: opcode, what must hold, and how the wave's descriptors change. -/
structure DescRow where
  op : Nat
  ok : QEntry → Prop
  set : QEntry → Ctx → Ctx

def descRow : Instr → Option DescRow
  | .mldaEntry => some { op := 2, ok := plainOk, set := fun e c => { c with adesc := .plain (copyWord e 1) (copyWord e 2) } }
  | .mldbEntry => some { op := 3, ok := plainOk, set := fun e c => { c with bdesc := .plain (copyWord e 1) (copyWord e 2) } }
  | .munfEntry => some
    { op := 4, ok := unfoldOk
      set := fun e c => { c with
        adesc := .virtual (copyWord e 1) (copyWord e 2) (copyWord e 3) (copyWord e 4) (copyWord e 5) } }
  | .mhistEntry => some
    { op := 6, ok := fun e => copyWord e 1 % 128 = 0 ∧ -160 ≤ histBase e ∧ histBase e ≤ 127
      set := fun e c => { c with hdesc := some (copyWord e 1, histBase e) } }
  | _ => none

/-- Does a wave's A come from an unfolding (15 R288)? -/
def virtualA (s : State) (e : QEntry) : Bool :=
  match (s.ctx e.uid).adesc with
  | .virtual _ _ _ _ _ => true
  | _ => false

/-- An MMA of one core (15 R288–R290): the fields are checked, then the shares are read, then every element of the tile
takes its sum. -/
def mmaWork (s : State) (e : QEntry) : EM Answer := do
  EM.require (s.rawMatrixOk e)
  EM.require (matSpan e == 0) 6
  EM.require (decide (copyWord e 1 < 2 ^ 13) && kOk (matType e) (copyWord e 1))
  EM.require (!virtualA s e || !(matType e).isBlock) 3
  let x ← memberShares (s.corePort e) (s.ctx e.uid) (matType e) (copyWord e 1) 64 64
  let fl ← finishTile e (matType e) (copyWord e 1) (matZero e) x.1 x.2
  pure (some (statusWord e 0 fl 0 1 0))

/-- The poison of the tile that an entry reads is noted (25 R428). -/
def noteTile (s : State) (e : QEntry) : EM Unit := EM.change fun t => t.strikeTile (s.ctx e.uid).id.tenant (s.entryTile e)

/-- The 64 rows of an MDRN (15 R292). -/
def drainRows (s : State) (e : QEntry) : EM Unit := do
  for r in List.range 64 do
    drainRow (s.corePort e) e (matType e) (toSpace (e.data.toNat / 2 ^ 18 % 8))
      (copyAddr e 1 + BitVec.ofNat 64 (r * copyWord e 3)) (((s.tileRead (s.entryTile e)).drop (64 * r)).take 64)

/-- Does a tile value fall in bin b (15 R294): min(max(floor(log2 |v|) − EB, 0), 31) of a finite non-zero one, 31 of an
infinity? -/
def fallsIn (eb : Int) (b : Nat) (v : Word) : Bool :=
  match Num.fp32.decode v.toNat with
  | .fin x => x.mag != 0 && min (max (x.exp + (Nat.log2 x.mag : Int) - eb) 0) 31 == (b : Int)
  | .inf _ => b == 31
  | .nan _ => false

/-- The counters of an MDRN with HIST, each as one atomic step that saturates (15 R294). -/
def countBins (s : State) (e : QEntry) (o : Nat) (eb : Int) : EM Unit := do
  for b in List.range 32 do
    let n := ((s.tileRead (s.entryTile e)).filter (fallsIn eb b)).length
    let _ ← EM.atomic (s.corePort e) .cald (BitVec.ofNat 64 (o + 4 * b)) 4 fun x => min 0xFFFFFFFF (x + n)

/-- The status of an MDRN, with the bits it has set (15 R295). -/
def drainStatus (e : QEntry) : EM Answer := do
  let s ← get
  pure (some (statusWord e 0 (s.entryFst e) 0 0 0))

/-- The fields of the issuer of an instance that are in order (15 R278, R281, R301). -/
def issuerFields (s : State) (e : QEntry) : Bool :=
  s.rawMatrixOk e && decide (copyWord e 1 < 2 ^ 13) && kOk (matType e) (copyWord e 1)

/-- An instance of the pair e, f, formed in an earlier clock, of which e is the issuer. -/
structure PairInstance (s : State) (j : JoinInst) (e f : QEntry) : Prop where
  subject : ∃ a b, s.subject = .ids j.id a b
  joins : s.joins = [j]
  clock : j.clock < s.clock
  members : j.members = [e.id, f.id] ∧ e.id ≠ f.id
  issuer : j.issuer = 0
  first : s.entries.find? (fun x => x.id == e.id) = some e
  second : s.entries.find? (fun x => x.id == f.id) = some f
  heads : s.heads e = true ∧ s.heads f = true
  span : matSpan e = 1 ∨ matSpan e = 2

end Sys2Proof.Machine

/-- O48. The entries of the matrix engine (15 R280–R295, R298–R301): MZERO clears its tile and no other; MLDA, MLDB,
MUNF and MHIST set their descriptor, or meet BADDESC and leave it; an MMA of one core replaces its tile by the sums and
posts its status; a joint MMA of a core workgroup meets BADSPAN; MDRN faults keep what was written, and with HIST it counts
the tile's values; a joint instance forms from the quad's cores on any die, takes its candidates and advances its counter,
then all tiles change, or none does and every member but the faulty one receives JOIN_ABORT; a candidate, held by a QFENCE
or not, times out. -/
def Obligations.MatrixEntries : Prop :=
  (∀ (s : State) (e : QEntry), Turn s e → s.matTurn e = true → e.data.toNat % 8 = 1 → s.rawMatrixOk e = true →
    ∃ t, exec .mzeroEntry s = .next t ∧ t.entries = s.entries.filter (fun x => x.id != e.id) ∧ s.sameMemory t ∧
      (∀ n, s.entryTile e ≤ n → n < s.entryTile e + 4096 → SMap.read 0 t.tiles n = 0) ∧
      ∀ n, n < s.entryTile e ∨ s.entryTile e + 4096 ≤ n → SMap.read 0 t.tiles n = SMap.read 0 s.tiles n) ∧
  (∀ (i : Instr) (r : DescRow) (s : State) (e : QEntry) (c : Ctx), descRow i = some r → Turn s e → s.matTurn e = true →
    e.data.toNat % 8 = r.op → s.rawMatrixOk e = true → SMap.find s.ctxs e.uid = some c →
    (r.ok e → ∃ t, exec i s = .next t ∧ t.ctx e.uid = r.set e c ∧ (∀ u, u ≠ e.uid → t.ctx u = s.ctx u) ∧
      t.entries = s.entries.filter (fun x => x.id != e.id) ∧ t.tiles = s.tiles ∧ s.sameMemory t) ∧
    (¬r.ok e → exec i s = .next (faulted s e 1 0))) ∧
  (∀ (s : State) (e : QEntry), Turn s e → s.matTurn e = true → e.data.toNat % 8 = 0 →
    Outcomes .mmaEntry s e false (mmaWork s e)) ∧
  (∀ (s : State) (e : QEntry), Awaited s e → s.seen e = true → e.q = 0 → e.data.toNat % 8 = 0 → matSpan e ≠ 0 → e.post = none →
    s.rawMatrixOk e = true → (s.group (s.ctx e.uid).id.group).kd.quadwg = false →
    exec .mmaEntry s = .next (faulted s e 6 0)) ∧
  (∀ (s : State) (e : QEntry), Turn s e → s.matTurn e = true → e.data.toNat % 8 = 7 →
    exec .mmaEntry s = .next (faulted s e 1 0)) ∧
  (∀ (s : State) (e : QEntry), Turn s e → s.matTurn e = true → e.data.toNat % 8 = 5 → s.rawMatrixOk e = true →
    (entrySr e && s.drawsBlocked e.uid [e.lane]) = false →
    let t := matType e
    let bytes := if t.isBlock then 2 * Num.blockBytes t else 64 * t.bytes
    let ok := copyWord e 1 % 16 = 0 ∧ copyWord e 3 % 16 = 0 ∧ bytes ≤ copyWord e 3 ∧ copyWord e 3 < 2 ^ 24
    let space := e.data.toNat / 2 ^ 18 % 8
    (¬ok → exec .mdrnEntry s = .next (faulted s e 1 0)) ∧
    (ok → e.data.getLsbD 21 = false → (space = 0 ∨ space ∈ [2, 3, 4]) → Outcomes .mdrnEntry s e true (do
      noteTile s e
      drainRows s e
      drainStatus e)) ∧
    (ok → e.data.getLsbD 21 = true → ((s.ctx e.uid).hdesc = none ∨ t = .i8 ∨ t = .i32) →
      exec .mdrnEntry s = .next (faulted s e 1 0)) ∧
    ∀ o eb, ok → e.data.getLsbD 21 = true → (s.ctx e.uid).hdesc = some (o, eb) → t ≠ .i8 → t ≠ .i32 →
      (space = 0 ∨ space ∈ [2, 3, 4]) → Outcomes .mdrnEntry s e true (do
        noteTile s e
        EM.canWrite (s.corePort e) .cald (BitVec.ofNat 64 o) 128
        drainRows s e
        countBins s e o eb
        drainStatus e)) ∧
  (∀ (e : QEntry) (code fst span iss mem : Nat), code < 256 → span < 4 → iss < 2 → mem < 4 →
    StatusHolds (statusWord e code fst span iss mem) e code fst span iss mem) ∧
  (∀ (s : State) (g : Group) (kind : Nat) (es : List QEntry) (rest : List (Group × Nat × List QEntry)),
    s.formable = (g, kind, es) :: rest →
    ∃ t j pre post, exec .joinInstanceForm s = .next t ∧ s.joins = pre ++ post ∧ t.joins = pre ++ j :: post ∧
      (∀ x ∈ pre, x.clock < s.clock ∨ x.clock = s.clock ∧ x.kind ≤ kind) ∧
      (∀ x, post.head? = some x → ¬(x.clock < s.clock ∨ x.clock = s.clock ∧ x.kind ≤ kind)) ∧
      j.clock = s.clock ∧ j.group = g.id ∧ j.kind = kind ∧
      j.members = es.map (·.id) ∧ j.issuer = g.counter kind ∧ t.group g.id = g.advance kind ∧
      (∀ x ∈ t.entries, x.id ∈ j.members → x.inst = some j.id ∧ ∀ y, es[j.issuer]? = some y →
        x.joined = some (matSpan y, decide (x.id = y.id))) ∧ t.tiles = s.tiles ∧ s.sameMemory t) ∧
  (∀ (s : State) (g : Group) (kind : Nat), kind < 3 → g.kd.quadwg = true →
    (∀ n, (kind = 0 ∧ n < 4 ∨ kind ≠ 0 ∧ 2 * (kind - 1) ≤ n ∧ n < 2 * kind) → ∃ e ∈ s.entries, s.joint e = true ∧
      e.inst = none ∧ s.standsFirst e = true ∧ (s.ctx e.uid).id.group = g.id ∧ s.joinKind e = kind ∧
      (s.ctx e.uid).id.pcore = g.core / 4 * 4 + n) →
    ∃ es, s.fullGroup g kind = some es ∧ ∀ e ∈ es, e ∈ s.entries ∧ s.joint e = true) ∧
  (∀ (s : State) (j : JoinInst) (e f : QEntry), PairInstance s j e f →
    (issuerFields s e = false →
      ∃ t, exec .joinInstanceStart s = .next t ∧ t.tiles = s.tiles ∧ t.joins = [] ∧
        t = faulted (faulted { s with joins := [] } e 1 0) f 8 0) ∧
    (issuerFields s e = true → (matType e).isBlock = true → (virtualA s e = true ∨ virtualA s f = true) →
      ∃ t, exec .joinInstanceStart s = .next t ∧ t.tiles = s.tiles ∧ t.joins = [] ∧
        t = faulted (faulted { s with joins := [] } e 3 0) f 8 0)) ∧
  (∀ (s s1 s2 s3 : State) (j : JoinInst) (e f : QEntry) (x y : List MatRow × List MatRow) (fe ff : Nat),
    PairInstance s j e f → issuerFields s e = true →
    ((matType e).isBlock = true → virtualA s e = false ∧ virtualA s f = false) →
    let t := matType e
    let k := copyWord e 1
    let sizes := shareSizes (matSpan e)
    let s0 := { s with joins := [] }
    joinShares t k sizes.1 sizes.2 [e, f] s0 = (s1, .ok [x, y]) →
    let inputs (m : Nat) := tileInputs (matSpan e) m [x, y]
    (finishTile e t k (matZero e) (inputs 0).1 (inputs 0).2).go s1 = (.ok fe, s2) →
    (finishTile f t k (matZero e) (inputs 1).1 (inputs 1).2).go
      (s2.postResult e (statusWord e 0 fe (matSpan e) 1 0)) = (.ok ff, s3) →
    exec .joinInstanceStart s = .next (s3.postResult f (statusWord f 0 ff (matSpan e) 0 1))) ∧
  (∀ (s : State) (e : QEntry) (c : Nat), Awaited s e → s.standsFirst e = true → s.joint e = true → e.inst = none → e.began = some c →
    c + 2 ^ 24 ≤ s.dieClock (s.ctx e.uid).id.die → exec .joinTimeout s = .next (faulted s e 7 0)) ∧
  ∀ (s : State) (e : QEntry) (d : BitVec 256) (k : Nat) (w : Wave), WaitingPost s e 0 d k w →
    exec .matrixStatusPost s = .next (leaves (s.deliver e.uid 1 d [] e.home) e)

namespace Sys2Proof.Machine

/-- The address of slot T of an area (17 R308). -/
def recordAt (area : Dword) (t : Nat) : Dword := area + BitVec.ofNat 64 (8256 * t)

/-- The header of a record (17 R313) but for the fields of a comparison: word 0, F and TR, and what the thread did. -/
def headerNumber (th : Thread) (w0 orph f tr : Nat) (key : Dword) : Nat :=
  w0 + th.draws.toNat * 2 ^ 224 + min th.novel 0xFFFF * 2 ^ 256 + orph % 65536 * 2 ^ 272 + f * 2 ^ 288 + tr * 2 ^ 320 +
    key.toNat * 2 ^ 448

/-- The flags that a thread and its launch give every header: OVF, REPLAY, KEYED, LOST, NOSRC, BADMUT and MISS. -/
def launchFlags (cd : ChoiceDesc) (th : Thread) : Nat :=
  th.ovf.toNat * 2 ^ 17 + (if cd.rmode = 0 then 0 else 2 ^ 18) +
    (if cd.rmode = 2 then 2 ^ 19 else 0) + th.lost.toNat * 2 ^ 23 + th.nosrc.toNat * 2 ^ 24 + th.badmut.toNat * 2 ^ 25 +
    th.miss.toNat * 2 ^ 28

/-- Word 0 of the header of a complete record without a comparison. -/
def headerFlags (cd : ChoiceDesc) (th : Thread) : Nat := min th.draws.toNat 1024 + 2 ^ 16 + launchFlags cd th

/-- The port of the engine that reads for a lane. -/
def lanePort (s : State) (e : QEntry) (lane : Nat) : Port := { s.corePort e with lane := some lane }

/-- A build of M heads a q4, for the thread th of a lane. -/
structure BuildTurn (s : State) (e : QEntry) (lane : Nat) (th : Thread) : Prop where
  turn : Turn s e
  build : ∃ l, e.imp = some (.build l)
  threads : ∃ rest, e.threads = (lane, th) :: rest

/-- A build without a mutation list that has still to read its source, slot T of SRCA, found changing n times: the reading
gives src. -/
structure BuildHeads (s s1 : State) (e : QEntry) (c : Ctx) (lane t n : Nat) (th : Thread) (src : Source) : Prop where
  turn : BuildTurn s e lane th
  slot : th.slot = some t ∧ th.list = none
  plain : (s.ctx e.uid).cd.listMap = false
  begun : e.build.getD {} = { tries := n }
  inside : t < (s.ctx e.uid).cd.nslot
  source : (readSource (lanePort s e lane) (s.ctx e.uid).cd t).go s = (.ok src, s1)
  ctx : SMap.find s1.ctxs e.uid = some c ∧ (c.thread lane).id = th.id

/-- The reading of the relaunch list for a build under list mapping (17 R307): its count of entries, then entry T. -/
structure ListRead (s s1 s2 : State) (e : QEntry) (c : Ctx) (lane : Nat) (th : Thread) (head v : Nat) : Prop where
  turn : BuildTurn s e lane th
  mapped : (s.ctx e.uid).cd.listMap = true
  count : (EM.readNat (lanePort s e lane) .g (s.ctx e.uid).cd.muta 4).go s = (.ok head, s1)
  entry : (EM.readNat (lanePort s e lane) .g ((s.ctx e.uid).cd.muta + BitVec.ofNat 64 (64 + 16 * th.t)) 16).go s1 =
    (.ok v, s2)
  ctx : SMap.find s1.ctxs e.uid = some c ∧ SMap.find s2.ctxs e.uid = some c ∧ (c.thread lane).id = th.id

/-- An entry of q4 that is a command, with its opcode. -/
structure ChoiceHeads (s : State) (e : QEntry) (op : Nat) : Prop where
  turn : Turn s e
  queue : e.q = 4
  plain : e.imp = none ∧ e.post = none ∧ e.raw = false
  op : e.data.toNat % 16 = op

/-- The one lane of an entry with its thread, of slot T, and the words latched for it. -/
structure OneThread (e : QEntry) (lane t : Nat) (th : Thread) (a b : Word) : Prop where
  threads : e.threads = [(lane, th)]
  inWave : lane < 64
  slot : th.slot = some t
  latch : e.latch = [(lane, [a, b])]

/-- The partial headers that CHREC writes (17 R313, R321), lane by lane: NDRAW, PART, the flags, DRAWS, NOVEL and KEY. -/
def partialHeaders (p : Port) (cd : ChoiceDesc) : SMap Thread → EM Unit
  | [] => pure ()
  | (_, th) :: rest => do
    match th.slot with
    | some t =>
      let key := if cd.rmode = 0 then cd.key else cd.rkey
      let n := headerNumber th (min th.draws.toNat 1024 + 2 ^ 21 + launchFlags cd th) 0 0 0 key
      if th.finished then pure () else EM.write p .g (recordAt cd.reca t) (leBytes 64 n)
    | none => pure ()
    partialHeaders p cd rest

end Sys2Proof.Machine

/-- O49. The entries of the choice engine (17 R308, R311, R314–R316, R319–R323, R325, R327): a build fills M from its source slot,
leaves M empty and sets NOSRC where the slot is not valid, or still changing after 65,536 retries, and reads again while the
slot changes; under list mapping the thread has its T from the list, whatever befalls the build behind; a recorded draw is
written to its place; CHREC writes partial headers after a release; RESULT writes the header, then releases, then writes word 0 and
posts its entry; a second RESULT meets CHSEQ; CHMUT appends to the relaunch list or counts a drop. The model's choices, and
not the spec's: a fault of DRAW_RECORD, CHREC, RESULT or CHMUT leaves everything as it was (log entry 30), a source that
merely changes while it is read counts among the 65,536 retries and a partial header has KEY and the flags of R313 (log entry
35), IV for a signalling NaN in a METRO (log entry 99), and CHMUT's atomic steps are FAO requests (log entry 52). -/
def Obligations.ChoiceEntries : Prop :=
  (∀ (s s1 : State) (e : QEntry) (c : Ctx) (lane t n : Nat) (th : Thread) (src : Source),
    BuildHeads s s1 e c lane t n th src →
    (∀ ds, src = .entries ds → ∃ t', exec .mBuild s = .next t' ∧ ((t'.ctx e.uid).thread lane).m = ds ∧
      ((t'.ctx e.uid).thread lane).nosrc = false ∧ ((t'.ctx e.uid).thread lane).building = false ∧
      ((t'.ctx e.uid).thread lane).slot = (c.thread lane).slot ∧ t'.mem = s1.mem ∧ ∀ x ∈ t'.entries, x.id ≠ e.id) ∧
    (src = .invalid ∨ (src = .changing ∧ 65536 ≤ n) → ∃ t', exec .mBuild s = .next t' ∧
      ((t'.ctx e.uid).thread lane).m = [] ∧ ((t'.ctx e.uid).thread lane).nosrc = true ∧
      ((t'.ctx e.uid).thread lane).building = false ∧ ∀ x ∈ t'.entries, x.id ≠ e.id) ∧
    (src = .changing → n < 65536 → exec .mBuild s = .next { s1 with
      entries := s1.entries.map fun x => if x.id = e.id then { x with build := some { tries := n + 1 } } else x })) ∧
  (∀ (s : State) (e : QEntry) (lane t : Nat) (th : Thread), BuildTurn s e lane th → th.slot = some t →
    (s.ctx e.uid).cd.listMap = false → (s.ctx e.uid).cd.nslot ≤ t → exec .mBuild s = .next (faulted
      { s with entries := s.entries.map fun x => if x.id = e.id then { x with build := none } else x } e 0x0A 0)) ∧
  (∀ (s s1 s2 : State) (e : QEntry) (c : Ctx) (lane : Nat) (th : Thread) (head v : Nat),
    ListRead s s1 s2 e c lane th head v →
    (min head (s.ctx e.uid).cd.rqn ≤ th.t → ∃ t', exec .mBuild s = .next t' ∧
      ((t'.ctx e.uid).thread lane).building = false ∧ ((t'.ctx e.uid).thread lane).slot = (c.thread lane).slot ∧
      ∀ x ∈ t'.entries, x.id ≠ e.id) ∧
    (th.t < min head (s.ctx e.uid).cd.rqn → (s.ctx e.uid).cd.nslot ≤ v % 2 ^ 32 →
      ∃ u, exec .mBuild s = .next (faulted u e 0x0A 0) ∧ ((u.ctx e.uid).thread lane).slot = some (v % 2 ^ 32) ∧
        ((u.ctx e.uid).thread lane).stream = BitVec.ofNat 64 (v % 2 ^ 32) ∧
        ((u.ctx e.uid).thread lane).list = some (BitVec.ofNat 64 (v / 2 ^ 64)))) ∧
  (∀ (s : State) (e : QEntry) (lane id slot index : Nat) (word : Dword), Turn s e →
    e.imp = some (.draw lane id slot index word) →
    let cd := (s.ctx e.uid).cd
    (cd.nslot ≤ slot → exec .drawRecord s = .next (faulted s e 0x0A 0)) ∧
    (slot < cd.nslot → Outcomes .drawRecord s e false (do
      EM.writeNat (s.corePort e) .g (recordAt cd.reca slot + BitVec.ofNat 64 (64 + 8 * index)) 8 word.toNat
      pure none))) ∧
  (∀ (s : State) (e : QEntry), ChoiceHeads s e 4 → (s.ctx e.uid).cd.recording = true →
    (∀ x ∈ e.threads, ∀ t, x.2.slot = some t → x.2.finished = false → t < (s.ctx e.uid).cd.nslot) →
    Outcomes .chrecEntry s e false (do
      EM.release (s.corePort e) .pkg
      partialHeaders (s.corePort e) (s.ctx e.uid).cd e.threads
      pure none)) ∧
  (∀ (s : State) (e : QEntry) (lane t : Nat) (th : Thread), ChoiceHeads s e 4 → (s.ctx e.uid).cd.recording = true →
    e.threads = [(lane, th)] → th.slot = some t → th.finished = false → (s.ctx e.uid).cd.nslot ≤ t →
    exec .chrecEntry s = .next (faulted s e 0x0A 0)) ∧
  (∀ (s : State) (e : QEntry), ChoiceHeads s e 5 → (∃ x ∈ e.threads, x.2.finished = true) →
    exec .resultEntry s = .next (faulted s e 9 0)) ∧
  (∀ (s : State) (e : QEntry), ChoiceHeads s e 5 → (∀ x ∈ e.threads, x.2.finished = false) →
    (s.ctx e.uid).cd.recording = false →
    Outcomes .resultEntry s e false (do
      EM.release (s.corePort e) .pkg
      pure (some (BitVec.ofNat 256 (e.seq.toNat * 2 ^ 32 + (finishedMask e).toNat * 2 ^ 128))))) ∧
  (∀ (s : State) (e : QEntry) (lane t : Nat) (th : Thread) (f r : Word), ChoiceHeads s e 5 → OneThread e lane t th f r →
    th.finished = false → (s.ctx e.uid).cd.recording = true → (s.ctx e.uid).cd.cmp = 0 →
    let cd := (s.ctx e.uid).cd
    let p := s.corePort e
    (cd.nslot ≤ t → exec .resultEntry s = .next (faulted s e 0x0A 0)) ∧
    (t < cd.nslot → Outcomes .resultEntry s e false (do
      EM.write p .g (recordAt cd.reca t + 4)
        ((leBytes 64 (headerNumber th (headerFlags cd th) (th.m.length - th.consumed.length) f.toNat r.toNat
          (if cd.rmode = 0 then cd.key else cd.rkey))).drop 4)
      EM.release p .pkg
      EM.writeNat p .g (recordAt cd.reca t) 4 (headerFlags cd th)
      pure (some (BitVec.ofNat 256 (e.seq.toNat * 2 ^ 32 + 2 ^ lane * 2 ^ 128)))))) ∧
  (∀ (s : State) (e : QEntry) (d : BitVec 256) (k : Nat) (w : Wave), WaitingPost s e 4 d k w →
    exec .resultPost s = .next (leaves (s.deliver e.uid 5 d [] e.home) e)) ∧
  (∀ (s : State) (e : QEntry), Turn s e → e.q = 4 → e.imp = none → e.post = none → e.raw = true →
    exec .chmutEntry s = .next (faulted s e 1 0)) ∧
  (∀ (s : State) (e : QEntry), ChoiceHeads s e 6 →
    ((∃ x ∈ e.threads, x.2.finished = false ∨ x.2.slot = none) → exec .chmutEntry s = .next (faulted s e 9 0)) ∧
    ((∀ x ∈ e.threads, x.2.finished = true ∧ x.2.slot ≠ none) → (s.ctx e.uid).cd.rqa = 0 →
      exec .chmutEntry s = .next (faulted s e 1 0))) ∧
  (∀ (s : State) (e : QEntry) (lane t : Nat) (th : Thread) (lo hi : Word), ChoiceHeads s e 6 →
    OneThread e lane t th lo hi → th.finished = true → (s.ctx e.uid).cd.rqa ≠ 0 →
    let cd := (s.ctx e.uid).cd
    let p := s.corePort e
    Outcomes .chmutEntry s e false (do
      let k ← EM.fao p .g cd.rqa 0 .n32 1
      if k < cd.rqn then
        EM.writeNat p .g (cd.rqa + BitVec.ofNat 64 (64 + 16 * k)) 16 (t + (lo.toNat + 2 ^ 32 * hi.toNat) * 2 ^ 64)
      else
        let _ ← EM.fao p .g (cd.rqa + 4) 0 .n32 1
        pure ()
      pure none)) ∧
  (∀ (fn tr u : Nat) (x y : Num.Exact), Num.fp32.decode fn = .fin x → Num.fp32.decode tr = .fin y → x.neg = false →
    y.neg = false → metro fn tr 0 u = (false, true, { bits := 0x3F800000 })) ∧
  (∀ (fn tr fo u : Nat), (∃ b, Num.fp32.decode fn = .nan b) ∨ (∃ b, Num.fp32.decode tr = .nan b) ∨
    (∃ b, Num.fp32.decode fo = .nan b) →
    let r := metro fn tr fo u
    r.1 = true ∧ r.2.1 = false ∧ r.2.2.bits = 0 ∧
    ((Num.fp32.decode fn = .nan true ∨ Num.fp32.decode tr = .nan true ∨ Num.fp32.decode fo = .nan true) →
      r.2.2.fl.getLsbD 0 = true)) ∧
  ∀ (cd : ChoiceDesc) (stream : Dword) (m : List Draw) (j : Nat) (d : Draw), m[j]? = some d →
    (∀ f, (setValue m j f)[j]? = some { d with value := f d.value }) ∧
    (∀ f i, i ≠ j → (setValue m j f)[i]? = m[i]?) ∧
    ∀ k : Nat, ((shiftDraws cd stream m k)[j]?).map (·.value) = some
      (if k ≤ j then ((m[j - k]?).map (·.value)).getD 0 else tephra cd.rkey stream (BitVec.ofNat 32 (2 ^ 31 + j)))

namespace Sys2Proof.Machine

/-- A command of q6 (19 R340, R341): its opcode, OPC for a TWATCH, whether it writes the whole record, whether it closes
the sequence, and its plan from the home's port, the ids in `.core`, LEN before it and what it starts from. -/
structure TokenRow where
  op : Nat
  opc : Option Nat := none
  full : Bool := false
  close : Bool := false
  plan : QEntry → Port → List Nat → Nat → TokenPlan → EM TokenPlan

def tokenRow : Instr → Option TokenRow
  | .tsampEntry => some { op := 0, plan := fun e p _ old t => workTsamp p e old t }
  | .tdraftEntry => some { op := 1, plan := fun e p ids _ t => workTdraft p e ids t }
  | .tconfEntry => some { op := 2, plan := fun e p _ old t => workTconf p e old t }
  | .trejEntry => some
    { op := 3, plan := fun _ _ _ _ t => pure { t with val := t.q.drafts.length, q := { t.q with drafts := [] } } }
  | .twatchSetEntry => some { op := 4, opc := some 0, plan := fun e p _ _ t => workTwatchSet p e t }
  | .twatchClearEntry => some
    { op := 4, opc := some 1
      plan := fun e _ _ _ t => pure { t with q := { t.q with watch := t.q.watch.set (copyWord e 2) 0 } } }
  | .twatchCloseEntry => some { op := 4, opc := some 3, full := true, close := true, plan := fun _ _ _ _ t => pure t }
  | .twatchThawEntry => some { op := 4, opc := some 4, plan := fun _ _ _ _ t => workTwatchThaw t }
  | .twatchSyncEntry => some { op := 4, opc := some 5, full := true, plan := fun _ _ _ _ t => pure t }
  | .tinjEntry => some { op := 5, plan := fun e p ids old t => workTinj p e ids old t }
  | .tforkEntry => some { op := 6, plan := fun _ p _ old t => workTfork p old t }
  | _ => none

/-- An entry of q6 with the opcode of a row, not waiting with its result. -/
structure TokenHeads (s : State) (e : QEntry) (op : Nat) (opc : Option Nat) : Prop where
  turn : Turn s e
  queue : e.q = 6
  post : e.post = none
  op : e.data.toNat % 8 = op
  opc : ∀ n, opc = some n → e.data.toNat / 2 ^ 16 % 8 = n

/-- The sequence that a command names, and its tenant. -/
def namedSeq (e : QEntry) : Nat := e.data.toNat / 2 ^ 32 % 2 ^ 16
def seqTenant (s : State) (e : QEntry) : Nat := (s.ctx e.uid).id.tenant

/-- The result of 19 R344. -/
structure ResultHolds (d : BitVec 256) (e : QEntry) (val index code entry status : Nat) : Prop where
  op : d.toNat % 8 = e.data.toNat % 8
  status : d.toNat / 2 ^ 8 % 16 = status
  entry : d.toNat / 2 ^ 20 % 16 = entry
  code : d.toNat / 2 ^ 24 % 256 = code
  seq : d.toNat / 2 ^ 32 % 2 ^ 32 = e.seq.toNat
  index : d.toNat / 2 ^ 64 % 2 ^ 32 = index
  val : d.toNat / 2 ^ 96 % 2 ^ 32 = val
  named : d.toNat / 2 ^ 128 = namedSeq e

/-- No ids stand in `.core` for the command. -/
def noCoreIds (e : QEntry) : Prop := (e.data.toNat % 8 ≠ 1 ∧ e.data.toNat % 8 ≠ 5) ∨ e.data.getLsbD 16 = false

/-- VAL of a command that has appended no draft with a hit: 0xFFFFFFFF for a TDRAFT (19 R344), else 0. -/
def noHit (e : QEntry) : Nat := if e.data.toNat % 8 = 1 then 0xFFFFFFFF else 0

/-- How a command begins (19 R343): a release at the pushing core, and of what it has written to other packages (16 R303);
what the die of the q6 entry before it still holds goes home (05 R104). -/
def beginsAt (s : State) (e : QEntry) : EM Unit := do
  EM.release (s.corePort e) .pod
  match (s.ctx e.uid).tokHome with
  | some h => EM.change fun t => t.release (.die h) .pod
  | none => pure ()

/-- The die at which a command was performed. -/
def noteDie (e : QEntry) (die : Nat) : EM Unit := EM.change fun s => s.mapCtx e.uid fun c => { c with tokHome := some die }

/-- The home whose writes of a command come before the accesses that follow its result (19 R346). -/
def noteHome (e : QEntry) (home : Nat) : EM Unit := do
  noteDie e home
  EM.change fun s => { s with entries := s.entries.map fun y => if y.id = e.id then { y with home := some home } else y }

/-- A command on an open sequence that is not held back by FROZEN (19 R341, R343): the release at the pushing core, the
acquire at the home, the plan, and the writes that end it. -/
def openCommand (s : State) (e : QEntry) (q : OpenSeq) (r : TokenRow) : EM Answer := do
  beginsAt s e
  let p := homePort (s.ctx e.uid).id e.seq q.home
  EM.acquire p .pkg
  let t ← r.plan e p [] (q.hdr % 2 ^ 32) { q, val := noHit e }
  finishToken p q.hdr r.full r.close t
  noteHome e q.home
  pure (some (t.result e))

/-- Watch entry i of a record (19 R329). -/
def watchAt (i : Nat) : Nat := 256 + 128 * i

/-- A TWATCH.open of a sequence that is not open (19 R341), at the pushing wave's die: a record whose STATE is not 0 answers
11; else watch entries and KV list are read and checked; a home that has 8,192 open sequences answers 7, and otherwise the
sequence opens with STATE 1, no drafts and the tokens before LEN. -/
def openClosed (s : State) (e : QEntry) : EM Answer := do
  beginsAt s e
  let w := (s.ctx e.uid).id
  let p := homePort w e.seq w.die
  EM.acquire p .pkg
  let rec_ := s.recordOf w.tenant (namedSeq e)
  let hdr ← EM.readNat p .g rec_ 256
  if hdr / 2 ^ 32 % 4 ≠ 0 then pure (some (tokenResult e 0 0 0 0 11))
  else do
    let nkv := hdr / 2 ^ 448 % 2 ^ 16
    let watch ← (List.range 16).mapM fun i => EM.readNat p .g (rec_ + BitVec.ofNat 64 (watchAt i)) 128
    EM.require (decide (nkv ≤ 224) && watch.all watchOk)
    let kv ← (List.range nkv).mapM fun i => EM.readNat p .g (rec_ + BitVec.ofNat 64 (2304 + 8 * i)) 8
    if 8192 ≤ (s.seqs.filter fun q => q.home == w.die).length then pure (some (tokenResult e 0 0 0 0 7))
    else do
      let q : OpenSeq := { tenant := w.tenant, id := namedSeq e, home := w.die, hdr, watch, kv, recent := [] }
      let q := (q.setField 33 32 1).setField 47 40 0
      let recent ← recentTokens p q
      finishToken p hdr false false { q := { q with recent } }
      noteDie e w.die
      pure (some (tokenResult e 0 0 0 0 0))

end Sys2Proof.Machine

/-- O50. The entries of the token engine (19 R331–R347): a malformed command meets BADDESC, one that names no record
BADSEQ, one whose sequence is not open answers STATUS 8; on an open sequence the plan is made at the home after a release
and an acquire, and its result posted; a FROZEN sequence answers 4 and keeps its tokens; a TSAMP of logits in `.cald` meets
BADDESC when the home is another die; TWATCH.open opens a sequence whose record is closed, with its header, watch entries, KV
list and recent tokens (a full home answers 7, a record that is not closed or an open sequence 11); TWATCH.close ends the
sequence; the highest status stands, SHORT only by itself; an entry fires with HITS and ONCE; with k = 1 the first candidate
is sampled; results that waited are posted. The model's choices, and not the spec's (log entry 37): BADDESC comes before
BADSEQ, STATUS 8 before FROZEN, VAL and INDEX of a refused command are 0, but TDRAFT's VAL, and the recent tokens are read
from TOKA when the sequence opens. -/
def Obligations.TokenEntries : Prop :=
  (∀ (i : Instr) (r : TokenRow) (s : State) (e : QEntry), tokenRow i = some r → TokenHeads s e r.op r.opc →
    (tokenOk e = false → exec i s = .next (faulted s e 1 0)) ∧
    (tokenOk e = true → (s.tenant (seqTenant s e)).seqn ≤ namedSeq e → exec i s = .next (faulted s e 0x0B 0)) ∧
    (tokenOk e = true → namedSeq e < (s.tenant (seqTenant s e)).seqn → noCoreIds e →
      s.openSeq (seqTenant s e) (namedSeq e) = none →
      Outcomes i s e false (do
        beginsAt s e
        pure (some (tokenResult e (noHit e) 0 0 0 8)))) ∧
    (∀ q, tokenOk e = true → namedSeq e < (s.tenant (seqTenant s e)).seqn → noCoreIds e →
      s.openSeq (seqTenant s e) (namedSeq e) = some q → (q.hdr / 2 ^ 32 % 4 = 2 → r.op ∉ [0, 1, 2, 5]) →
      (r.op = 0 → e.data.getLsbD 17 = true → q.home = (s.ctx e.uid).id.die) →
      Outcomes i s e false (openCommand s e q r)) ∧
    (∀ q, tokenOk e = true → namedSeq e < (s.tenant (seqTenant s e)).seqn → noCoreIds e →
      s.openSeq (seqTenant s e) (namedSeq e) = some q → q.hdr / 2 ^ 32 % 4 = 2 → r.op ∈ [0, 1, 2, 5] →
      (r.op = 0 → e.data.getLsbD 17 = true → q.home = (s.ctx e.uid).id.die) →
      Outcomes i s e false (do
        beginsAt s e
        EM.acquire (homePort (s.ctx e.uid).id e.seq q.home) .pkg
        finishToken (homePort (s.ctx e.uid).id e.seq q.home) q.hdr r.full r.close { q, codes := [4], val := noHit e }
        noteHome e q.home
        pure (some (tokenResult e (noHit e) 0 0 0 4)))) ∧
    ∀ q, tokenOk e = true → namedSeq e < (s.tenant (seqTenant s e)).seqn → noCoreIds e →
      s.openSeq (seqTenant s e) (namedSeq e) = some q → r.op = 0 → e.data.getLsbD 17 = true →
      q.home ≠ (s.ctx e.uid).id.die →
      Outcomes i s e false (do
        beginsAt s e
        EM.acquire (homePort (s.ctx e.uid).id e.seq q.home) .pkg
        EM.require false
        pure none)) ∧
  (∀ (s : State) (e : QEntry), TokenHeads s e 7 none → exec .tforkEntry s = .next (faulted s e 1 0)) ∧
  (∀ (s : State) (e : QEntry) (n : Nat), TokenHeads s e 4 (some n) → n = 6 ∨ n = 7 →
    exec .twatchSyncEntry s = .next (faulted s e 1 0)) ∧
  (∀ (s : State) (e : QEntry), TokenHeads s e 4 (some 2) →
    (tokenOk e = false → exec .twatchOpenEntry s = .next (faulted s e 1 0)) ∧
    (tokenOk e = true → (s.tenant (seqTenant s e)).seqn ≤ namedSeq e →
      exec .twatchOpenEntry s = .next (faulted s e 0x0B 0)) ∧
    (tokenOk e = true → namedSeq e < (s.tenant (seqTenant s e)).seqn →
      s.openSeq (seqTenant s e) (namedSeq e) = none → Outcomes .twatchOpenEntry s e false (openClosed s e)) ∧
    ∀ q, tokenOk e = true → namedSeq e < (s.tenant (seqTenant s e)).seqn →
      s.openSeq (seqTenant s e) (namedSeq e) = some q →
      let p := homePort (s.ctx e.uid).id e.seq (s.ctx e.uid).id.die
      Outcomes .twatchOpenEntry s e false (do
        beginsAt s e
        EM.acquire p .pkg
        let _ ← EM.readNat p .g (s.recordOf (seqTenant s e) (namedSeq e)) 256
        pure (some (tokenResult e 0 0 0 0 11)))) ∧
  (∀ (p : Port) (before : Nat) (full : Bool) (t : TokenPlan) (s s' : State),
    ((finishToken p before full true t).go s = (.ok (), s') → s'.openSeq t.q.tenant t.q.id = none) ∧
    ((finishToken p before full false t).go s = (.ok (), s') →
      s'.openSeq t.q.tenant t.q.id = some (t.q.setField 47 40 t.q.drafts.length))) ∧
  (∀ (e : QEntry) (val index code entry status : Nat), val < 2 ^ 32 → index < 2 ^ 32 → code < 256 → entry < 16 →
    status < 16 → ResultHolds (tokenResult e val index code entry status) e val index code entry status) ∧
  (∀ cs : List Nat, (∀ c ∈ cs, c ≠ 0) → (cs = [] → tokenStatus cs = 0) ∧
    (cs ≠ [] → (∀ c ∈ cs, c = 12) → tokenStatus cs = 12) ∧
    ∀ c ∈ cs, c ≠ 12 → (∀ d ∈ cs, d ≠ 12 → d ≤ c) → tokenStatus cs = c) ∧
  (∀ (t : TokenPlan) (xs : List (Nat × Option Chosen)), 64 < t.q.drafts.length + xs.length →
    (appendDrafts xs t).1.q = t.q ∧ (appendDrafts xs t).1.codes = t.codes ++ [10]) ∧
  (∀ (q : OpenSeq) (tok : Nat) (c : Option Chosen), q.hdr < 2 ^ 2048 → tok < 2 ^ 32 → q.hdr % 2 ^ 32 < 2 ^ 32 - 1 →
    (q.put tok c).hdr % 2 ^ 32 = q.hdr % 2 ^ 32 + 1 ∧ (q.put tok c).hdr / 2 ^ 224 % 2 ^ 32 = tok ∧
    (q.put tok c).drafts = q.drafts ∧ (q.put tok c).watch = q.watch) ∧
  (∀ x : Nat, x < 2 ^ 1024 → x / 2 ^ 576 % 2 ^ 32 < 2 ^ 32 - 1 →
    fire x / 2 ^ 576 % 2 ^ 32 = x / 2 ^ 576 % 2 ^ 32 + 1 ∧
    (x.testBit 546 = true → (fire x).testBit 544 = false) ∧
    (x.testBit 546 = false → (fire x).testBit 544 = x.testBit 544)) ∧
  (∀ (zs : List Nat) (p u : Nat), u < 2 ^ 32 → sampleToken zs 1 p u = (candidates 1 zs).head?.map (·.1)) ∧
  ∀ (s : State) (e : QEntry) (d : BitVec 256) (k : Nat) (w : Wave), WaitingPost s e 6 d k w →
    exec .tokenResultPost s = .next (leaves (s.deliver e.uid 7 d [] e.home) e)

namespace Sys2Proof.Machine

/-- The step of RAY_TRAVERSAL falls to the ray r of the job j: no entry has its number. -/
structure RayTurn (s : State) (j : RayJob) (r : Ray) (pick : Nat) : Prop where
  subject : ∃ b, s.subject = .ids r.id pick b
  noEntry : s.entries.find? (fun e => e.id == r.id && e.isTrav && s.heads e) = none
  ray : s.rays = [r]
  job : s.jobs = [j] ∧ j.e.id = r.job
  runs : s.stopped j.e.uid 8 = false
  awake : s.dieRuns (s.ctx j.e.uid).id.die = true
  free : r.token = 0 ∧ r.binned = false

/-- The hit record of a ray that ended at a hit (21 R360). -/
def hitNumber (h : Hit) : Nat :=
  1 + h.back.toNat * 2 ^ 8 + h.inst * 2 ^ 32 + h.geom * 2 ^ 64 + h.prim * 2 ^ 96 + h.t * 2 ^ 128 + h.u * 2 ^ 160 +
    h.v * 2 ^ 192

/-- The ray that a good TRES answers. -/
structure Answering (s : State) (e : QEntry) (j : RayJob) (r : Ray) (o : Offer) (verdict : Nat) : Prop where
  turn : Turn s e
  queue : e.q = 8 ∧ e.raw = false ∧ e.data.toNat % 8 = 2
  word : copyWord e 1 = r.token + verdict * 2 ^ 16 ∧ r.token < 2 ^ 16 ∧ r.token ≠ 0
  verdict : verdict < 3
  ray : s.rays = [r] ∧ r.offer = some o
  job : s.jobs = [j] ∧ j.e.id = r.job ∧ j.e.uid = e.uid

/-- The path of the wave of an entry is p, alone on the machine. -/
structure AshlarHeads (s : State) (e : QEntry) (op : Nat) : Prop where
  turn : Turn s e
  queue : e.q = 12 ∧ e.post = none
  op : e.data.toNat % 8 = op

/-- The end of a path p that is in order (22 R382, R383): it is closed, `work` writes its elements, it leaves, and its
status is posted. -/
def pathEnd (s : State) (e : QEntry) (p : Path) (work : PathWork) : EM Answer := do
  EM.setPath p.close
  let _ ← work (s.corePort e) p.close none
  let s' ← get
  let pixels := ((s'.pathOf e.uid).map (·.pixels)).getD 0
  set { s' with paths := s'.paths.filter fun x => x.uid != e.uid }
  pure (some (BitVec.ofNat 256
    (e.data.toNat % 8 + e.seq.toNat * 2 ^ 32 + p.close.cells.length * 2 ^ 64 + pixels * 2 ^ 96)))

/-- The end i of a path p in order (22 R382–R385): with at most 262,144 cells it is done; with more, a fault of its
accesses stands before CELLFULL and nothing is written. DESIGN CHOICE (log entry 29): a step that its subject limits to n
elements leaves the entry where it is while elements are left. -/
structure PathEnds (i : Instr) (s : State) (e : QEntry) (p : Path) (work : PathWork) : Prop where
  all : p.close.cells.length ≤ 262144 → s.elementLimit = none → Outcomes i s e true (pathEnd s e p work)
  some_ : ∀ n s', p.close.cells.length ≤ 262144 → s.elementLimit = some n →
    (do EM.setPath p.close; work (s.corePort e) p.close (some n)).go s = (.ok (some 0), s') → exec i s = .next s'
  full : ∀ r s', 262144 < p.close.cells.length → (work (s.corePort e) p.close none).go s = (.ok r, s') →
    exec i s = .next (faulted { s with stalled := s'.stalled, struck := s'.struck } e 0x0F 0)
  faults : ∀ f s', 262144 < p.close.cells.length → (work (s.corePort e) p.close none).go s = (.error f, s') →
    exec i s = .next (faulted { s with stalled := s'.stalled, struck := s'.struck } e f.sub f.addr)

/-- A path after the segments of a vector ASSEG, one of each lane (22 R379). -/
def withSegments (p : Path) (e : QEntry) (kind : Nat) : Path :=
  e.latch.foldl (fun (p : Path) x => p.addChain (chainOf ((latchedPoints x.2 (kind + 1)).map half))) p

/-- The record of a batch of one is written to its slot, with a release (21 R365). -/
def batchWrites (p : Port) (a : Dword) (bs : List Byte) : EM Unit := do
  EM.write p .g a bs
  EM.release p .pkg

/-- A bin may start a batch for its one record x of job j (21 R365): the time since the record arrived is over, the pool
has a free slot, the die runs and q8 is not stopped. -/
structure BatchTurn (s : State) (b : Bin) (x : BinRecord) (j : RayJob) (slot : Nat) : Prop where
  due : x.clock + 2 ^ b.fl ≤ s.dieClock b.die
  slot : s.freePoolSlot b = some slot
  job : s.jobs = [j] ∧ j.e.id = x.job
  runs : s.dieRuns b.die = true ∧ s.stopped j.e.uid 8 = false

/-- A SIGH entry in order: LEN, the tag, the package and HOST (23 R397). -/
structure Signals (s : State) (e : QEntry) (len tag pkg : Nat) (host : Bool) : Prop where
  turn : Turn s e
  queue : e.q = 14 ∧ e.data.toNat % 2 ^ 32 = 2
  len : copyWord e 3 = len ∧ len ≤ 4096
  word : copyWord e 4 = tag + pkg * 2 ^ 16 + host.toNat * 2 ^ 31 ∧ tag < 256 ∧ pkg < 32
  zero : e.data.toNat / 2 ^ 160 = 0

end Sys2Proof.Machine

/-- O51. The entries of the traversal engine, the sampler, the Ashlar engine and the launch port (21 R358–R368; 22 R380–R385;
23 R395–R397): a TRAV's rays start; a ray with nothing left to visit ends, posts its offer or writes its hit record; the
last posts DONE; a TRES answers its token or meets BADTOKEN; a continuation record enters its bin and a bin that is due
starts a batch; a sample is posted; a path is begun once, moved, extended and ended; LNCH releases its node, ARM arms its
tag, and SIGH sends its message, to its own package too by the route table. The model's choices, and not the spec's: the release that LNCH, ARM and SIGH make at the
wave's core and die, for remote windows too (log entry 66); the token 1 of a ray's first offer (log entry 38); a fault of a
batch's write is reported against the job of its first record (log entry 41); the ADDR of a SIGH without a route (log entry
47); the step of a path that its subject limits (log entry 29). -/
def Obligations.RayAndPathEntries : Prop :=
  (∀ (s : State) (e : QEntry), Turn s e → e.q = 8 → e.raw = false → e.data.toNat % 8 = 0 →
    let ok := (copyAddr e 1).toNat % 256 = 0 ∧ (copyAddr e 3).toNat % 32 = 0 ∧ e.data.toNat / 2 ^ 160 = 0
    (¬ok → exec .rayTraversal s = .next (faulted s e 1 0)) ∧
    (ok → ∃ t, exec .rayTraversal s = .next t ∧ t.jobs = s.jobs ++ [{ e := e }] ∧
      t.rays = s.rays.map (fun r => if r.job = e.id then r.start (copyAddr e 1) else r) ∧
      t.entries = s.entries.filter (fun x => x.id != e.id) ∧ s.sameMemory t)) ∧
  (∀ (s : State) (j : RayJob) (r : Ray) (pick : Nat), RayTurn s j r pick → r.offer = none → r.ended = none →
    r.todo = [] →
    exec .rayTraversal s = .next { s with rays := [{ r with ended := some (if r.best = none then 0 else 1) }] }) ∧
  (∀ (s s' : State) (j : RayJob) (r : Ray) (pick : Nat) (h : Hit), RayTurn s j r pick → j.e.data.toNat % 8 = 0 →
    r.offer = none → r.ended = some 1 → r.best = some h →
    (EM.write (s.corePort j.e) .g (copyAddr j.e 3 + BitVec.ofNat 64 (32 * r.lane)) (leBytes 32 (hitNumber h))).go
      { s with fresh := s.fresh + 3 } = (.ok (), s') → s'.rays = [r] → s'.jobs = [j] →
    exec .rayTraversal s = .next { s' with rays := [], jobs := [{ j with hits := j.hits + 1 }] }) ∧
  (∀ (s : State) (j : RayJob) (r : Ray) (pick k : Nat) (w : Wave) (kind : Nat) (h : Hit), RayTurn s j r pick →
    j.e.data.toNat % 8 = 0 → r.offer = some (.candidate kind h) → r.ended = none → s.waveOf j.e.uid = some (k, w) →
    s.room w 9 = true →
    let d := r.lane * 2 ^ 8 + 1 * 2 ^ 16 + j.e.seq.toNat * 2 ^ 32 + kind + h.inst * 2 ^ 64 + h.geom * 2 ^ 96 +
      h.prim * 2 ^ 128 + h.t * 2 ^ 160 + h.u * 2 ^ 192 + h.v * 2 ^ 224
    let t := s.deliver j.e.uid 9 (BitVec.ofNat 256 d)
    exec .rayTraversal s = .next { t with rays := [{ r with token := 1 }] }) ∧
  (∀ (s : State) (j : RayJob) (a b k : Nat) (w : Wave), s.subject = .ids j.e.id a b → s.entries = [] → s.rays = [] →
    s.jobs = [j] → s.dieRuns (s.ctx j.e.uid).id.die = true → j.e.data.toNat % 8 = 0 → j.e.post = none → s.waveOf j.e.uid = some (k, w) → s.room w 9 = true →
    let t := s.deliver j.e.uid 9 (BitVec.ofNat 256 (j.e.seq.toNat * 2 ^ 32 + j.hits * 2 ^ 64))
    exec .rayTraversal s = .next { t with jobs := [] }) ∧
  (∀ (s : State) (e : QEntry), Turn s e → e.q = 8 → e.data.toNat % 8 = 2 →
    ((e.raw = true ∨ 2 ^ 18 ≤ copyWord e 1 ∨ copyWord e 1 / 2 ^ 16 % 4 = 3) →
      exec .tresEntry s = .next (faulted s e 1 0)) ∧
    (e.raw = false → copyWord e 1 < 2 ^ 18 → copyWord e 1 / 2 ^ 16 % 4 ≠ 3 →
      (∀ r ∈ s.rays, r.token = copyWord e 1 % 2 ^ 16 → r.token = 0) →
      exec .tresEntry s = .next (faulted s e 0x0C 0))) ∧
  (∀ (s : State) (e : QEntry) (j : RayJob) (r : Ray) (o : Offer) (verdict : Nat), Answering s e j r o verdict →
    ∃ t, exec .tresEntry s = .next t ∧ t.rays = [r.answer o verdict (copyWord e 2)] ∧ s.sameMemory t ∧
      t.entries = s.entries.filter fun x => x.id != e.id) ∧
  (∀ (r : Ray) (h : Hit) (part : RayPart) (va : Dword) (b : Nat),
    r.answer (.candidate 1 h) 1 b = { r with offer := none, token := 0 } ∧
    r.answer (.candidate 1 h) 2 b =
      { r with offer := none, token := 0, best := some h, todo := [], ended := some 1 } ∧
    (r.firstHit = true → r.answer (.candidate 1 h) 0 b =
      { r with offer := none, token := 0, best := some h, todo := [], ended := some 1 }) ∧
    (r.firstHit = false → r.best = none → (r.answer (.candidate 1 h) 0 b).ended = r.ended) ∧
    ((Num.fp32.decode b).isNan = true → ∀ v < 3, r.answer (.candidate 2 h) v b = { r with offer := none, token := 0 }) ∧
    r.answer (.hole part va) 0 b = { r with offer := none, token := 0, todo := part :: r.todo } ∧
    r.answer (.hole part va) 1 b = { r with offer := none, token := 0 } ∧
    r.answer (.hole part va) 2 b =
      { r with offer := none, token := 0, todo := [], ended := some (if r.best = none then 0 else 1) }) ∧
  (∀ (s : State) (j : RayJob) (r : Ray) (b : Bin), s.endedCont = some (j, r) →
    let w := (s.ctx j.e.uid).id
    b.die = w.die → b.tenant = w.tenant → b.pool = copyAddr j.e 3 → b.pc = copyAddr j.e 5 → s.bins = [b] →
    b.records.length < 63 →
    ∃ t x, exec .continuationRecord s = .next t ∧ t.bins = [{ b with records := b.records ++ [x] }] ∧
      x.ray = r.id ∧ x.job = j.e.id ∧ x.grid = w.grid ∧ x.clock = s.dieClock w.die ∧
      t.rays = s.rays.map (fun y => if y.id = r.id then { y with binned := true } else y) ∧ s.sameMemory t) ∧
  (∀ (s s' : State) (b : Bin) (x : BinRecord) (j : RayJob) (slot : Nat), s.bins = [b] → b.records = [x] →
    BatchTurn s b x j slot →
    (batchWrites (s.diePort j.e) (b.base + BitVec.ofNat 64 (16384 * slot)) x.bytes).go s = (.ok (), s') → s'.bins = [b] →
    ∃ t, exec .batchTimeout s = .next t ∧ t.bins = [] ∧ t.rays = s'.rays.filter (fun r => x.ray != r.id) ∧
      t.batches = s'.batches ++
        [{ id := s'.nextId, die := b.die, tenant := b.tenant, pool := b.pool, slot, pc := b.pc, grids := [x.grid]
           at_ := b.base + BitVec.ofNat 64 (16384 * slot) }]) ∧
  (∀ (s s' : State) (b : Bin) (x : BinRecord) (j : RayJob) (slot : Nat) (f : EFault), s.bins = [b] → b.records = [x] →
    BatchTurn s b x j slot →
    (batchWrites (s.diePort j.e) (b.base + BitVec.ofNat 64 (16384 * slot)) x.bytes).go s = (.error f, s') →
    exec .batchTimeout s = .next ({ s with stalled := s'.stalled, struck := s'.struck }.jobFault j f.sub f.addr)) ∧
  (∀ (s : State) (e : QEntry), Turn s e → (∀ x ∈ s.entries, x.id = e.id → x = e) → e.q = 10 → e.post = none → (e.raw = true ∨ e.data.toNat / 2 ^ 96 ≠ 0) →
    exec .smplEntry s = .next (faulted s e 1 0)) ∧
  (∀ (s s1 s2 : State) (e : QEntry) (tx : Texture) (l k : Nat) (u v lod : Word) (cs : List Word) (miss : Bool) (w : Wave),
    Turn s e → (∀ x ∈ s.entries, x.id = e.id → x = e) → e.q = 10 → e.post = none → e.raw = false → e.data.toNat / 2 ^ 96 = 0 → l < 64 →
    e.latch = [(l, [u, v, lod])] →
    (readTexture (s.corePort e) (copyAddr e 1)).go s = (.ok tx, s1) →
    (sampleLane (s.corePort e) tx u.toNat v.toNat lod.toNat).go s1 = (.ok (cs, miss), s2) → s2.entries = [e] →
    e.id < s2.nextId → s2.waveOf e.uid = some (k, w) → s2.room w 11 = true →
    ∃ t x, exec .smplEntry s = .next t ∧ t.entries = [x] ∧ x.q = 11 ∧ x.uid = e.uid ∧ x.latch = [(l, cs)] ∧
      x.data = BitVec.ofNat 256
        (e.mask.toNat + (if miss then 2 ^ l else 0) * 2 ^ 64 + e.seq.toNat * 2 ^ 128)) ∧
  (∀ (s : State) (e : QEntry), AshlarHeads s e 0 → ashlarOk e = true →
    ((∃ p, s.pathOf e.uid = some p) → exec .asbegEntry s = .next (faulted s e 0x0E 0)) ∧
    (s.paths = [] → ∃ t p, exec .asbegEntry s = .next t ∧ t.paths = [p] ∧ p.uid = e.uid ∧ p.base = copyAddr e 1 ∧
      p.pitch = copyWord e 3 ∧ p.x0 = copyWord e 4 % 2 ^ 13 ∧ p.y0 = copyWord e 4 / 2 ^ 16 % 2 ^ 13 ∧
      p.w = copyWord e 5 % 2 ^ 13 ∧ p.h = copyWord e 5 / 2 ^ 16 % 2 ^ 13 ∧ p.point = none ∧ p.cells = [] ∧
      t.entries = s.entries.filter (fun x => x.id != e.id) ∧ s.sameMemory t)) ∧
  (∀ (s : State) (e : QEntry), AshlarHeads s e 1 → ashlarOk e = true → s.pathOf e.uid = none →
    exec .assegEntry s = .next (faulted s e 0x0E 0)) ∧
  (∀ (s : State) (e : QEntry) (p : Path), AshlarHeads s e 1 → ashlarOk e = true → s.paths = [p] → p.uid = e.uid →
    e.data.getLsbD 18 = false →
    let kind := e.data.toNat / 2 ^ 16 % 4
    let point (k : Nat) : Pt := (copyWord e (2 * k + 1), copyWord e (2 * k + 2))
    let dest : Pt := point (kind - 1)
    (kind = 0 → p.close.cells.length ≤ 262144 → ∃ t, exec .assegEntry s = .next t ∧
      t.paths = [{ p.close with point := some (dest, dest) }] ∧ s.sameMemory t) ∧
    (kind = 0 → 262144 < p.close.cells.length → exec .assegEntry s = .next (faulted s e 0x0F 0)) ∧
    (kind ≠ 0 → p.point = none → exec .assegEntry s = .next (faulted s e 0x0E 0)) ∧
    ∀ start cur, kind ≠ 0 → p.point = some (start, cur) →
      let q := p.addChain (chainOf ((cur :: (List.range kind).map point).map half))
      (262144 < q.cells.length → exec .assegEntry s = .next (faulted s e 0x0F 0)) ∧
      (q.cells.length ≤ 262144 → ∃ t, exec .assegEntry s = .next t ∧
        t.paths = [{ q with point := some (start, dest) }] ∧ s.sameMemory t)) ∧
  (∀ (s : State) (e : QEntry) (p : Path), AshlarHeads s e 1 → ashlarOk e = true → s.paths = [p] → p.uid = e.uid →
    e.data.getLsbD 18 = true →
    let q := withSegments p e (e.data.toNat / 2 ^ 16 % 4)
    (262144 < q.cells.length → exec .assegEntry s = .next (faulted s e 0x0F 0)) ∧
    (q.cells.length ≤ 262144 → ∃ t, exec .assegEntry s = .next t ∧ t.paths = [q] ∧ s.sameMemory t)) ∧
  (∀ (s : State) (e : QEntry) (p : Path), AshlarHeads s e 2 → ashlarOk e = true →
    (s.pathOf e.uid = none → exec .asendEntry s = .next (faulted s e 0x0E 0)) ∧
    (s.pathOf e.uid = some p → PathEnds .asendEntry s e p composite)) ∧
  (∀ (s : State) (e : QEntry) (p : Path), AshlarHeads s e 3 → ashlarOk e = true → s.pathOf e.uid = some p →
    (p.wide = false → exec .asdrnEntry s = .next (faulted s e 1 0)) ∧
    (p.wide = true → PathEnds .asdrnEntry s e p drainPath)) ∧
  (∀ (s : State) (e : QEntry) (d : BitVec 256) (k : Nat) (w : Wave), WaitingPost s e 12 d k w →
    exec .ashlarStatusPost s = .next (leaves (s.deliver e.uid 13 d [] e.home) e)) ∧
  (∀ (s : State) (e : QEntry), Turn s e → e.q = 14 → e.data.toNat % 2 ^ 32 = 0 →
    let ok := copyWord e 1 % 64 = 0 ∧ e.data.toNat / 2 ^ 120 = 0
    (¬ok → exec .lnchEntry s = .next (faulted s e 1 0)) ∧
    (ok → exec .lnchEntry s = .next (leaves
      ((s.release (s.corePort e).ag .pod).releaseNode (s.ctx e.uid).id.tenant (copyAddr e 1) (copyWord e 3)) e))) ∧
  (∀ (s : State) (e : QEntry), Turn s e → e.q = 14 → e.data.toNat % 2 ^ 32 = 1 →
    let ok := 1 ≤ copyWord e 1 ∧ copyWord e 1 ≤ 255 ∧ copyWord e 4 ≤ 4096 ∧ e.data.toNat / 2 ^ 248 = 0 ∧
      copyWord e 2 % 64 = 0 ∧ copyWord e 5 % 64 = 0
    (¬ok → exec .armEntry s = .next (faulted s e 1 0)) ∧
    (ok → exec .armEntry s = .next (leaves ((s.release (s.corePort e).ag .pod).armTag (s.ctx e.uid).id.tenant (copyWord e 1) (copyAddr e 2) (copyWord e 4)
      (copyAddr e 5) (copyWord e 7)) e))) ∧
  (∀ (s : State) (e : QEntry) (len tag pkg : Nat) (host : Bool), Signals s e len tag pkg host →
    let s0 := { s with fresh := s.fresh + 1 }
    let ag := (s.corePort e).ag
    (host = false → pkg = s.mgmt.self → (s.routeTo pkg).isSome = true → len = 0 → exec .sighEntry s = .next
      (leaves ((s0.release ag .pod).sendMessage (s.ctx e.uid).id.tenant 17 (leBytes 16 tag)) e)) ∧
    (∀ bs s2, host = false → pkg = s.mgmt.self → (s.routeTo pkg).isSome = true → len ≠ 0 →
      (EM.read (s.hubPort e) .g (copyAddr e 1) len).go (s0.release ag .pod) = (.ok bs, s2) → s2.mgmt = s.mgmt →
      exec .sighEntry s = .next
        (leaves (s2.sendMessage (s.ctx e.uid).id.tenant 17 (leBytes 16 (tag + len * 2 ^ 16) ++ bs)) e)) ∧
    (host = false → s.routeTo pkg = none →
      exec .sighEntry s = .next (faulted { s0 with stalled := (s0.release ag .pod).stalled
                                                   struck := (s0.release ag .pod).struck }
        e (0x10 + pBadPa) (Config.freeWord s.fresh))) ∧
    (∀ out, host = false → pkg ≠ s.mgmt.self → s.routeTo pkg = some out → len = 0 →
      ∃ t, exec .sighEntry s = .next t ∧ t.mem = (s0.release ag .pod).mem ∧
        t.outbound = (s0.release ag .pod).outbound ++
          [(pkg, { tenant := (s.ctx e.uid).id.tenant, source := 1 + out, bytes := leBytes 16 tag, clock := s.clock })] ∧
        t.entries = s.entries.filter fun x => x.id != e.id) ∧
    (host = true → len = 0 → ∃ t, exec .sighEntry s = .next t ∧
      t.mem = ((s0.release ag .pod).ringAppend (.receive (s.ctx e.uid).id.tenant) (leBytes 16 tag)).1.mem ∧
      t.entries = s.entries.filter fun x => x.id != e.id)) ∧
  ∀ (s : State) (e : QEntry), Turn s e → e.q = 14 → e.data.toNat % 2 ^ 32 = 2 → 4096 < copyWord e 3 →
    exec .sighEntry s = .next (faulted { s with fresh := s.fresh + 1 } e 1 0)

/-! ## The launch engine and the contexts -/

namespace Sys2Proof.Machine

/-- The walker of a tenant serves the release r, whose node reads as the number raw; s' is the state after the read. -/
structure Served (s s' : State) (r : Release) (raw : Nat) : Prop where
  next : s.nextRelease = some r
  read : (EM.readNat (tenantPort r.tenant) .g (r.gbase + BitVec.ofNat 64 (64 * r.node)) 64).go (s.acquire .hub .pkg) =
    (.ok raw, s')
  fits : nodeClear raw = true ∧ nodeInRange raw = true

/-- The state with the release taken. -/
def taken (s : State) (r : Release) : State := { s with releases := s.releases.erase r }

/-- The step of each TYPE of node (23 R388). -/
def nodeStep : Nat → Option Instr
  | 0 => some .nodeEnd
  | 1 => some .nodeLaunch
  | 2 => some .nodeCond
  | 3 => some .nodeWhile
  | 4 => some .nodeJoin
  | 5 => some .nodeRelaunch
  | 6 => some .nodeArm
  | 7 => some .nodeSignal
  | _ => none

/-- n bytes of a node from byte b up. -/
def nodeBytes (raw b n : Nat) : Nat := raw / 2 ^ (8 * b) % 2 ^ (8 * n)

/-- What a node that branches releases: NEXT, NEXTZ or BODY (23 R389). -/
def branchTo (raw v : Nat) : Nat :=
  let next := nodeBytes raw 1 3
  let other := nodeBytes raw 16 3
  if raw % 16 = 2 then (if v ≠ 0 then next else other) else (if v ≠ 0 then other else next)

/-- A tenant but for what pre-emption changes. -/
def Tenant.restOf (x : Tenant) : Tenant := { x with state := .stopped, deadline := none, yieldTo := none, runClock := 0 }

/-- The context t is in the new state, no other tenant changes, and no memory. -/
structure ContextIs (s s' : State) (t : Nat) (st : RunState) (deadline : Option Nat) : Prop where
  state : (s'.tenant t).state = st
  deadline : (s'.tenant t).deadline = deadline
  rest : (s'.tenant t).restOf = (s.tenant t).restOf
  others : ∀ u, u ≠ t → s'.tenant u = s.tenant u
  memory : s.sameMemory s'

/-- None of the waves of a workgroup is halted, traps, runs a handler or holds an event (10 R231). -/
def quiet (s : State) (g : Group) : Prop :=
  ∀ p ∈ s.waves, p.2.id.group = g.id → p.2.trap = none ∧ p.2.shadow = none ∧ p.2.heldTraps = [] ∧ p.2.engFaults = [] ∧
    p.2.haltReq = false ∧ p.2.halted = false

/-- No workgroup of the context t holds IDEMP (10 R243). -/
def noIdemp (s : State) (t : Nat) : Prop := ∀ p ∈ s.groups, p.2.tenant = t → p.2.idemp = false

/-- The workgroups have serial numbers that were taken before. -/
def groupsKnown (s : State) : Prop := SMap.rising 0 s.groups = true ∧ ∀ p ∈ s.groups, p.1 < s.nextId

/-- A start of the node of r (23 R390): the grid that runs. -/
structure Started (t : State) (r : Release) (raw : Nat) (x : Sources) (g : Grid) : Prop where
  found : SMap.find t.grids g.id = some g
  names : g.tenant = r.tenant ∧ g.gbase = r.gbase ∧ g.node = r.node ∧ g.next = nodeBytes raw 1 3
  count : g.nwg = countOf raw x g.kd g.cd ∧ g.placed = 0
  args : g.args = firedArgs x.args r.fired
  event : g.eva = BitVec.ofNat 64 (nodeBytes raw 28 8) ∧ g.evval = BitVec.ofNat 32 (nodeBytes raw 36 4) ∧
    g.evw = BitVec.ofNat 4 (nodeBytes raw 40 1) ∧ g.irq = BitVec.ofNat 4 (nodeBytes raw 40 1 / 16)
  running : (SMap.read {} t.nodes (nodeKey r.tenant r.gbase r.node)).running = true

end Sys2Proof.Machine

/-- O52. The walker, Geyser, the dispatchers and pre-emption (23 R387–R394, R398–R401; 10 R241–R243): an unreadable node is
FAULT and a malformed one BADNODE; each TYPE does what its rule says; a start that a launch error refuses runs nothing;
a message goes to its tag, waits or is lost; a placed workgroup's wave starts at the kernel's entry with its argument words; a
retired one is counted, and the package's completion ends the grid and releases NEXT; a
forced reset completes the instances that lose workgroups, with their events, and releases nothing; a context drains and
discards what still holds IDEMP, stops and runs again. The model's choices, and not the spec's: a COND or WHILE whose access
faults records FAULT and releases nothing, and a held start keeps the bytes that its node had (log entry 44); a workgroup takes
the lowest free slots and windows (log entry 45). -/
def Obligations.LaunchAndContexts : Prop :=
  (∀ (type : Nat) (i : Instr) (s s' : State) (r : Release), nodeStep type = some i → s.nextRelease = some r →
    let read := (EM.readNat (tenantPort r.tenant) .g (r.gbase + BitVec.ofNat 64 (64 * r.node)) 64).go (s.acquire .hub .pkg)
    (∀ f, read = (.error f, s') → exec i s = .next ((taken s' r).launchError r.tenant r.node 8)) ∧
    ∀ raw, read = (.ok raw, s') → (nodeClear raw && nodeInRange raw) = false →
      exec i s = .next ((taken s' r).launchError r.tenant r.node 5)) ∧
  (∀ (s s' : State) (r : Release) (raw : Nat), Served s s' r raw → raw % 16 = 0 →
    exec .nodeEnd s = .next (taken s' r)) ∧
  (∀ (i : Instr) (s s' s'' : State) (r : Release) (raw : Nat) (x : Sources), Served s s' r raw →
    (i = .nodeLaunch ∧ raw % 16 = 1 ∨ i = .nodeRelaunch ∧ raw % 16 = 5) →
    let n := SMap.read {} s'.nodes (nodeKey r.tenant r.gbase r.node)
    let k := { kernelOf x.kv with table := x.table }
    let c := choiceOf x.chv
    (n.running = true → n.held.length = 2 ^ 16 → exec i s = .next ((taken s' r).launchError r.tenant r.node 6)) ∧
    (n.running = true → n.held.length ≠ 2 ^ 16 → ∃ t, exec i s = .next t ∧
      SMap.read {} t.nodes (nodeKey r.tenant r.gbase r.node) = { n with held := n.held ++ [(raw, r.fired)] } ∧
      t.grids = s'.grids ∧ s'.sameMemory t) ∧
    (n.running = false → (readSources r.tenant raw).go (taken s' r) = (.ok x, s'') →
      (s''.startError r.tenant raw x k c (countOf raw x k c) = none → ∃ t g, exec i s = .next t ∧ Started t r raw x g) ∧
      ∀ code, s''.startError r.tenant raw x k c (countOf raw x k c) = some code → ∃ t, exec i s = .next t ∧
        t.grids = s''.grids ∧
        (SMap.read {} t.nodes (nodeKey r.tenant r.gbase r.node)).running = false ∧
        ((s''.tenant r.tenant).lerrCode = 0 → (t.tenant r.tenant).lerrCode = code))) ∧
  (∀ (s : State) (t raw : Nat) (x : Sources) (k : KernelDesc) (c : ChoiceDesc) (nwg : Nat),
    (badKernel x.kv k = true → s.startError t raw x k c nwg = some 1) ∧
    (badKernel x.kv k = false → badKind k = true → s.startError t raw x k c nwg = some 2) ∧
    (badKernel x.kv k = false → badKind k = false → badChoice x.chv c = true → s.startError t raw x k c nwg = some 3) ∧
    (badKernel x.kv k = false → badKind k = false → x.chda.toNat % 128 = 0 → badChoice x.chv c = false → raw % 16 ≠ 5 →
      s.startError t raw x k c nwg = if k.cor = true ∧ s.couldFit t k nwg = false then some 4 else none)) ∧
  (∀ (i : Instr) (s s' s'' : State) (r : Release) (raw v : Nat), Served s s' r raw →
    (i = .nodeCond ∧ raw % 16 = 2 ∨ i = .nodeWhile ∧ raw % 16 = 3) →
    let read := (EM.readNat (tenantPort r.tenant) .g (BitVec.ofNat 64 (nodeBytes raw 8 8)) 4).go
      ((taken s' r).acquire .hub .sys)
    (read = (.ok v, s'') → exec i s = .next (s''.releaseNode r.tenant r.gbase (branchTo raw v))) ∧
    ∀ f, read = (.error f, s'') → exec i s = .next (s''.launchError r.tenant r.node 8)) ∧
  (∀ (s s' : State) (r : Release) (raw : Nat), Served s s' r raw → raw % 16 = 4 →
    let key := nodeKey r.tenant r.gbase r.node
    let n := SMap.read {} s'.nodes key
    (n.cnt + 1 ≠ nodeBytes raw 4 2 → ∃ t, exec .nodeJoin s = .next t ∧ t.releases = s'.releases.erase r ∧
      SMap.read {} t.nodes key = { n with cnt := n.cnt + 1 } ∧ s'.sameMemory t) ∧
    (n.cnt + 1 = nodeBytes raw 4 2 → ∃ t, exec .nodeJoin s = .next t ∧
      t.releases = ((taken s' r).releaseNode r.tenant r.gbase (nodeBytes raw 1 3)).releases ∧
      SMap.read {} t.nodes key = { n with cnt := 0 } ∧ s'.sameMemory t)) ∧
  (∀ (s s' : State) (r : Release) (raw : Nat), Served s s' r raw → raw % 16 = 6 →
    exec .nodeArm s = .next (((taken s' r).armTag r.tenant (nodeBytes raw 4 1) (BitVec.ofNat 64 (nodeBytes raw 8 8))
      (nodeBytes raw 16 4) r.gbase (nodeBytes raw 20 3)).releaseNode r.tenant r.gbase (nodeBytes raw 1 3))) ∧
  (∀ (s s' s'' : State) (r : Release) (raw : Nat), Served s s' r raw → raw % 16 = 7 →
    let s1 := (taken s' r).release .hub .sys
    (nodeBytes raw 8 8 = 0 → raw.testBit 198 = false →
      exec .nodeSignal s = .next (s1.releaseNode r.tenant r.gbase (nodeBytes raw 1 3))) ∧
    (nodeBytes raw 8 8 ≠ 0 →
      (EM.writeNat (tenantPort r.tenant) .g (BitVec.ofNat 64 (nodeBytes raw 8 8)) 8 (nodeBytes raw 16 8)).go s1 =
        (.ok (), s'') →
      exec .nodeSignal s = .next ((if raw.testBit 198 = true then s''.raiseVec r.tenant (nodeBytes raw 24 1 % 64)
        else s'').releaseNode r.tenant r.gbase (nodeBytes raw 1 3)))) ∧
  (∀ (s : State) (t node : Nat) (gbase : Dword) (fired : Option (List Word)),
    s.releaseNode t gbase 0xFFFFFF fired = s ∧
    (node ≠ 0xFFFFFF → ∀ x, x ∈ (s.releaseNode t gbase node fired).releases ↔
      x ∈ s.releases ∨ x = { tenant := t, gbase, node, fired, clock := s.clock })) ∧
  (∀ (s : State) (m : Message) (a b : Nat), s.subject = .ids m.tenant a b → s.messages = [m] → m.source ≠ 0 → s.hubUp = true →
    let h := leNat (m.bytes.take 16)
    let payload := (m.bytes.drop 16).take (h / 2 ^ 16 % 2 ^ 13)
    let s0 := { s with messages := [] }
    let x := s.tag m.tenant (h % 256)
    (headerOk h = false → exec .messageX s = .next (s0.countDrop m.tenant)) ∧
    (headerOk h = true → h % 256 = 0 → h / 2 ^ 16 % 2 ^ 13 = 12 → leNat payload % 64 = 0 →
      leNat payload / 2 ^ 64 ≤ 0xFFFFFF →
      exec .messageX s = .next (s0.releaseNode m.tenant (BitVec.ofNat 64 (leNat payload)) (leNat payload / 2 ^ 64))) ∧
    (headerOk h = true → h % 256 = 0 → h / 2 ^ 16 % 2 ^ 13 ≠ 12 →
      exec .messageX s = .next (s0.countDrop m.tenant)) ∧
    (headerOk h = true → h % 256 ≠ 0 → x.armed = true → exec .messageX s = .next (s0.fire m.tenant (h % 256) payload)) ∧
    (headerOk h = true → h % 256 ≠ 0 → x.armed = false → x.pending.length < 4 → ∃ t, exec .messageX s = .next t ∧
      t.tag m.tenant (h % 256) = { x with pending := x.pending ++ [payload] } ∧ s.sameMemory t) ∧
    (headerOk h = true → h % 256 ≠ 0 → x.armed = false → 4 ≤ x.pending.length →
      exec .messageX s = .next (s0.countDrop m.tenant))) ∧
  (∀ (s s' : State) (t g : Nat) (payload : List Byte),
    let x := s.tag t g
    let s0 := s.setTag t g { pending := x.pending }
    (EM.write (tenantPort t) .g x.ra (payload.take x.rsize)).go s0 = (.ok (), s') →
    s.fire t g payload = (s'.release .hub .pkg).releaseNode t x.gbase x.target (some [BitVec.ofNat 32 x.ra.toNat,
      BitVec.ofNat 32 (x.ra.toNat / 2 ^ 32), BitVec.ofNat 32 payload.length, if x.rsize < payload.length then 1 else 0])) ∧
  (∀ (s : State) (d a b t n c : Nat) (g : Grid), s.subject = .ids d a b → d < 8 →
    SMap.read (0, 0) s.turns d = (t, n) → n < max 1 (s.tenant t).weight → (s.tenant t).en = true →
    (s.tenant t).state = .run → s.headGrid t = some g → s.batches = [] → g.kd.cor = false →
    s.findPlace t g.kd d = some c → groupsKnown s →
    ∃ t', exec .workgroupPlace s = .next t' ∧ SMap.read (0, 0) t'.turns d = (t, n + 1) ∧
      t'.waves = (s.placeAt g g.nextWg c).waves ∧ t'.groups = (s.placeAt g g.nextWg c).groups) ∧
  (∀ (s : State) (g : Grid) (wg c slot : Nat), g.kd.quadwg = false → g.kd.gang = false → g.kd.nwaves = 1 →
    g.kd.sregs ≤ 128 → (s.freeSlots c).head? = some slot →
    ∃ w, (s.placeAt g wg c).wave (96 * c + 2 * slot) = some w ∧ w.splits = [(0, { pc := g.kd.entry, members := w.id.full })] ∧
      w.id.tenant = g.tenant ∧ w.id.wg = wg ∧ w.id.wave = 0 ∧ w.id.pcore = c ∧ w.id.slot = slot ∧ w.a = g.kd.vregs ∧
      w.b = g.kd.sregs ∧ (∀ k x, k < g.kd.sregs → g.args[k]? = some x → w.getS k = x)) ∧
  (∀ (s : State) (g : Group) (x : Grid) (a b : Nat), s.subject = .ids g.id a b →
    SMap.rising 0 s.groups = true →
    (s.groups.map (·.2)).find? (fun y => y.id == g.id) = some g → s.retirable g = true →
    SMap.find s.grids g.grid = some x → s.grid g.grid = x → x.irq = 0 → x.evw = 0 → g.batch = none → g.core < 1536 →
    g.die < 8 → g.kd.quadwg = false →
    ∃ t y, exec .workgroupRetire s = .next t ∧ SMap.find t.grids g.grid = some y ∧
      (∀ k ∈ [g.core, 2000 + g.core / 4, 3000 + g.die, 4000], SMap.read 0 y.retired k = SMap.read 0 x.retired k + 1 ∧
        SMap.read 0 y.open_ k = SMap.read 0 x.open_ k - 1) ∧
      ∀ h, SMap.find t.groups g.id = some h → h.live = false ∧ h.idemp = false) ∧
  (∀ (s s' : State) (g : Grid) (a b k : Nat), s.subject = .ids g.id a b → s.grids = [(g.id, g)] →
    g.nextInstance = some k → k ≠ 4000 →
    let place := eventPlace k
    (g.evw.getLsbD place.1 = false → g.irq.getLsbD place.1 = false → exec .completionEvent s = .next
      { s with grids := [(g.id, { g with done := g.done ++ [k] })] }) ∧
    (g.evw.getLsbD place.1 = true → g.irq.getLsbD place.1 = false →
      (EM.write (tenantPort g.tenant) .g (g.eva + BitVec.ofNat 64 place.2)
        (leBytes 8 (SMap.read 0 g.retired k * 2 ^ 32 + g.evval.toNat))).go s = (.ok (), s') → s'.grids = s.grids →
      exec .completionEvent s = .next { s' with grids := [(g.id, { g with done := g.done ++ [k] })] })) ∧
  (∀ (s : State) (g : Grid) (a b : Nat), s.subject = .ids g.id a b → s.grids = [(g.id, g)] →
    g.nextInstance = some 4000 → g.evw = 0 → g.irq = 0 →
    (SMap.read {} s.nodes (nodeKey g.tenant g.gbase g.node)).held = [] →
    ∃ t, exec .completionEvent s = .next t ∧ t.grids = [] ∧
      t.releases = (s.releaseNode g.tenant g.gbase g.next).releases ∧
      SMap.read {} t.nodes (nodeKey g.tenant g.gbase g.node) =
        { SMap.read {} s.nodes (nodeKey g.tenant g.gbase g.node) with running := false, held := [] }) ∧
  (∀ (s s' : State) (g : Grid) (n : Nat), s.grids = [(g.id, g)] → g.open_ = [(4000, n)] → g.retired = [] → g.done = [] →
    g.allPlaced = true → g.evw.getLsbD 3 = true → g.irq = 0 →
    let g1 := { g with open_ := [], retired := [(4000, 0)], records := 0 }
    let s0 := { s with grids := [(g.id, g1)] }
    (EM.write (tenantPort g.tenant) .g (g.eva + BitVec.ofNat 64 15424) (leBytes 8 g.evval.toNat)).go s0 = (.ok (), s') →
      s'.grids = s0.grids →
    s.resetGrid g =
      ({ s' with grids := [(g.id, { g1 with done := [4000] })] }.launchError g.tenant g.node 7).endGrid g) ∧
  (eventPlace 5 = (0, 40) ∧ eventPlace 2003 = (1, 12288 + 24) ∧ eventPlace 3007 = (2, 15360 + 56) ∧
    eventPlace 4000 = (3, 15424)) ∧
  (∀ (s : State) (t a b : Nat), s.subject = .ids t a b → t < 64 →
    ((s.tenant t).state = .run → noIdemp s t → ∃ s', exec .preempt s = .next s' ∧
      ContextIs s s' t .drain (some (s.tenant t).dead.toNat) ∧ (s'.tenant t).yieldTo = none) ∧
    ((s.tenant t).state ≠ .run → exec .preempt s = .next s) ∧
    ((s.tenant t).state = .stopped → ∃ s', exec .resumeX s = .next s' ∧ ContextIs s s' t .run none) ∧
    ((s.tenant t).state ≠ .stopped → exec .resumeX s = .next s) ∧
    ((s.tenant t).state = .run → (s.tenant t).slice ≠ 0 → (s.tenant t).runClock + (s.tenant t).slice.toNat ≤ s.dieClock 8 →
      noIdemp s t → (∃ u < 64, u ≠ t ∧ s.waiting u = true) → ∃ s', exec .timeSliceExpiry s = .next s' ∧
        ContextIs s s' t .drain (some (s.tenant t).dead.toNat) ∧ ∃ l, (s'.tenant t).yieldTo = some l ∧ l ≠ [] ∧
          ∀ u, u ∈ l ↔ u < 64 ∧ u ≠ t ∧ s.waiting u = true) ∧
    ((s.tenant t).state = .drain → s.toDiscard t = none → s.resident t = false → ∃ s', exec .contextStopped s = .next s' ∧
      ContextIs s s' t .stopped none) ∧
    (∀ l, (s.tenant t).state = .stopped → (s.tenant t).yieldTo = some l → (∀ u ∈ l, s.headGrid u = none) →
      ∃ s', exec .contextAutoResume s = .next s' ∧ ContextIs s s' t .run none ∧ (s'.tenant t).runClock = s.dieClock 8) ∧
    ((s.tenant t).state = .drain → (s.tenant t).deadline = some 0 → s.resident t = true → s.ls = [] →
      (∀ n ∈ s.nodes, n.2.held = []) → (∀ g ∈ s.grids, g.2.evw = 0 ∧ g.2.irq = 0) →
      ∃ s', exec .deadlineExpiry s = .next s' ∧ (s'.tenant t).state = .stopped ∧ (s'.tenant t).deadline = none ∧
        (s'.tenant t).cerr.cause ≠ 0 ∧ s.sameMemory s' ∧
        ∀ p ∈ s'.waves, p ∈ s.waves ∧ ∀ c ∈ s.ctxs, c.2.id.tenant = t → c.2.id.uid ≠ p.2.id.uid)) ∧
  (∀ (s : State) (t a b : Nat) (g : Group) (x : Grid), s.subject = .ids t a b → t < 64 → (s.tenant t).state = .run →
    s.groups = [(g.id, g)] → g.live = true → g.idemp = true → g.tenant = t → quiet s g → g.batch = none →
    SMap.find s.grids g.grid = some x → s.ls = [] →
    ∃ s' y, exec .preempt s = .next s' ∧ (s'.tenant t).state = .drain ∧ SMap.find s'.grids g.grid = some y ∧
      y.again = x.again ++ [g.wg] ∧ s'.groups = [] ∧ s.sameMemory s' ∧
      ∀ p ∈ s'.waves, p ∈ s.waves ∧ ∀ c ∈ s.ctxs, c.2.id.group = g.id → c.2.id.uid ≠ p.2.id.uid) ∧
  ∀ (s : State) (t a b : Nat) (g : Group) (x : Grid), s.subject = .ids t a b → t < 64 → (s.tenant t).state = .drain →
    s.toDiscard t = some g → g.batch = none → SMap.find s.grids g.grid = some x → s.ls = [] →
    ∃ s' y, exec .contextStopped s = .next s' ∧ SMap.find s'.grids g.grid = some y ∧ y.again = x.again ++ [g.wg] ∧
      (∀ p ∈ s'.groups, p.1 ≠ g.id) ∧ s.sameMemory s'

/-! ## The host's side -/

namespace Sys2Proof.Machine

/-- Only the tenant t has changed, to x, and no memory. -/
structure TenantIs (s s' : State) (t : Nat) (x : Tenant) : Prop where
  tenant : s'.tenant t = x
  others : ∀ u, u ≠ t → s'.tenant u = s.tenant u
  memory : s.sameMemory s'

/-- The S fields of a tenant may be written (25 R415). -/
def Tenant.quiet (x : Tenant) : Prop := x.en = false ∧ x.state = .stopped

/-- A register of a tenant's block that reads as it was written: its offset, its width, and whether it is an S field
(23 R400; 25 R415). -/
def plainRegs : List (Nat × Nat × Bool) :=
  [(0x008, 64, true), (0x018, 64, false), (0x020, 64, true), (0x028, 32, false), (0x030, 64, true), (0x1008, 32, false),
   (0x1010, 32, false)]

/-- An access to a tenant's block. -/
def regAccess (t off : Nat) (write : Bool) (v : Dword) : Subject :=
  .reg { mgmt := false, tenant := t, off, write, value := v }

/-- A wave in a debug stop that can be resumed: no ls entry is left, its die runs, and the frame reads as v. -/
structure Resumable (s s' : State) (k : Nat) (w : Wave) (sh : Shadow) (v : Nat) : Prop where
  wave : s.wave k = some w
  shadow : w.shadow = some sh
  stopped : sh.debug = true ∧ w.halted = false
  done : s.lsDone w.id.uid = true ∧ s.dieRuns w.id.die = true
  frame : s.readFrame w.id = (s', some v)
  pc : badResume (BitVec.ofNat 64 (v / 2 ^ 96)) sh.trap.resume = false

end Sys2Proof.Machine

/-- O53. The host's registers of a tenant (06 R133; 10 R238, R239; 23 R400; 25 R415–R424): an invalidation begins unless one
runs, keeps its page and kind, and ends with its entries gone; CALW and SEQN are taken within their limits and otherwise
set CFGERR; TAIL never passes an unread entry; a full ring drops and counts; SEND hands the window's message over or is counted; a
debugger's SEND that waits goes to the wave that it was written for; a context error is recorded once; the debug commands act
on the selected wave; the debug window forces its tenant; a register reads as it was written, an S field only while the tenant
is quiet. The model's choices, and not the spec's: that a debugger's SEND waits while debugging is disabled (log entry 74); that
it stands under queue 16 (log entry 19); that an access at an offset that is no multiple of 8 has no effect (log entry 49); that
BASE of the management error ring is a physical address (log entry 6). -/
def Obligations.HostRegisters : Prop :=
  (∀ (i : Instr) (k : Nat) (s : State) (t a : Nat) (v : Dword),
    (i, k) ∈ [(Instr.invalPage, 0), (Instr.invalAll, 1), (Instr.invalIcache, 2)] → s.subject = .value t a v → t < 64 →
    ((s.tenant t).invalBusy = true → exec i s = .next s) ∧
    ((s.tenant t).invalBusy = false →
      let x := { s.tenant t with invalPage := BitVec.ofNat 48 (v.toNat / 2 ^ 16), invalKind := k, invalBusy := true
                                 invalRun := (v.toNat / 2 ^ 16, k) }
      (k ≠ 2 → ∃ s', exec i s = .next s' ∧ TenantIs s s' t x ∧ s'.tlb = s.tlb ∧ s'.icache = s.icache) ∧
      (k = 2 → exec i s = .next ((s.setTenant t x).release .hub .sys)))) ∧
  (∀ (s : State) (t a b : Nat), s.subject = .ids t a b → t < 64 → (s.tenant t).invalBusy = true → (s.tenant t).invalRun.2 < 3 →
    let page := (s.tenant t).invalRun.1 * 65536
    ∃ s', exec .invalComplete s = .next s' ∧ (s'.tenant t).invalBusy = false ∧
      ((s.tenant t).invalRun.2 = 0 → ∀ e, e ∈ s'.tlb ↔ e ∈ s.tlb ∧
        (e.asid = t → page + 65536 ≤ e.va ∨ e.va + e.leaf.size ≤ page)) ∧
      ((s.tenant t).invalRun.2 = 1 → ∀ e, e ∈ s'.tlb ↔ e ∈ s.tlb ∧ e.asid ≠ t) ∧
      ((s.tenant t).invalRun.2 = 2 → s'.tlb = s.tlb ∧ ∀ p ∈ s'.icache, 1536 * 2 ^ 50 ≤ p.1)) ∧
  (∀ (s : State) (t : Nat) (v : Dword), t < 64 → s.subject = regAccess t 0x010 true v → v.getLsbD 0 = false →
    ∃ s', exec .registerWrite s = .next s' ∧ TenantIs s s' t
      { s.tenant t with invalPage := BitVec.ofNat 48 (v.toNat / 2 ^ 16), invalKind := v.toNat / 4 % 4 }) ∧
  (∀ (s : State) (t d : Nat) (v : Dword), s.subject = .value t d v → t < 64 → d < 8 →
    let size := v.toNat / 2 ^ 16 % 2 ^ 10
    let base := v.toNat % 2 ^ 9
    let fits := base + size ≤ 512 ∧ ∀ u < 64, u ≠ t →
      let w := SMap.read (0, 0) (s.tenant u).calw d
      size = 0 ∨ w.1 = 0 ∨ w.2 + w.1 ≤ base ∨ base + size ≤ w.2
    ((s.tenant t).quiet → fits → ∃ s', exec .calwWrite s = .next s' ∧ SMap.read (0, 0) (s'.tenant t).calw d = (size, base) ∧
      (s'.tenant t).cfgerr = (s.tenant t).cfgerr ∧ ∀ u, u ≠ t → s'.tenant u = s.tenant u) ∧
    (¬(s.tenant t).quiet ∨ ¬fits →
      ∃ s', exec .calwWrite s = .next s' ∧ TenantIs s s' t { s.tenant t with cfgerr := true })) ∧
  (∀ (s : State) (t a : Nat) (v : Dword), s.subject = .value t a v → t < 64 →
    let n := v.toNat % 2 ^ 17
    let others := ((List.range 64).map fun u => if u = t then 0 else (s.tenant u).seqn).sum
    ((s.tenant t).quiet → others + n ≤ 65536 →
      ∃ s', exec .seqnWrite s = .next s' ∧ TenantIs s s' t { s.tenant t with seqn := n }) ∧
    (¬(s.tenant t).quiet ∨ 65536 < others + n →
      ∃ s', exec .seqnWrite s = .next s' ∧ TenantIs s s' t { s.tenant t with cfgerr := true })) ∧
  (∀ (s : State) (t : Nat) (v : Dword) (bs : List Byte), s.subject = .ring (.receive t) v bs →
    let r := (s.tenant t).receive
    ((r.head - BitVec.ofNat 32 v.toNat).toNat ≤ r.n.toNat → ∃ s', exec .ringTailWrite s = .next s' ∧
      TenantIs s s' t { s.tenant t with receive := { r with tail := BitVec.ofNat 32 v.toNat } }) ∧
    (r.n.toNat < (r.head - BitVec.ofNat 32 v.toNat).toNat → ∃ s', exec .ringTailWrite s = .next s' ∧
      TenantIs s s' t { s.tenant t with cfgerr := true }) ∧
    (r.n = 0 ∨ r.head - r.tail = r.n → ∃ s', exec .ringAppend s = .next s' ∧ TenantIs s s' t
      { s.tenant t with receive := { r with ovf := if r.ovf = 0xFFFFFFFF then r.ovf else r.ovf + 1 } })) ∧
  (∀ (s : State) (v : Dword) (bs : List Byte), s.subject = .ring .error v bs → bs.length = 32 →
    let r := s.mgmt.errRing
    r.n ≠ 0 → r.head - r.tail ≠ r.n → ∃ s', exec .ringAppend s = .next s' ∧ s'.mgmt.errRing = { r with head := r.head + 1 } ∧
      s'.mem = (((s.hubWrite (Loc.range ⟨.m, (r.base + BitVec.ofNat 64 (32 * (r.head.toNat % r.n.toNat))).toNat⟩ 32) bs)).release
        .hub .sys).mem) ∧
  (∀ (s : State) (t a b : Nat), s.subject = .ids t a b → t < 64 →
    let x := s.tenant t
    let n := x.msgHead.toNat / 2 ^ 16 % 2 ^ 13
    (x.sendBusy = true → exec .msgsend s = .next (s.countDrop t)) ∧
    (x.sendBusy = false → n ≤ 4096 → ∃ s', exec .msgsend s = .next s' ∧ TenantIs s s' t { x with sendBusy := true } ∧
      ∀ m, m ∈ s'.messages ↔ m ∈ s.messages ∨ m =
        { tenant := t, source := 0, clock := s.clock
          bytes := leBytes 16 x.msgHead.toNat ++ Memory.bytes x.msgBody 0 n }) ∧
    ∃ s', exec .cerrClear s = .next s' ∧ TenantIs s s' t { x with cerr := {} }) ∧
  (∀ (s : State) (e : CtxError), s.subject = .error e → ∃ s', exec .contextError s = .next s' ∧
    (s'.tenant e.tenant).vectors.getLsbD ((s.tenant e.tenant).errvec % 64) = true ∧
    ((s.tenant e.tenant).cerr.cause = 0 → (s'.tenant e.tenant).cerr =
      { ovf := (s.tenant e.tenant).cerr.ovf, first := e.first.toNat, queue := e.queue.toNat, sub := e.sub.toNat, die := e.die
        core := e.core, half := e.half == 1, slot := e.slot, cause := e.cause.toNat, b := e.pcB, c := e.pcC }) ∧
    ((s.tenant e.tenant).cerr.cause ≠ 0 →
      (s'.tenant e.tenant).cerr = { (s.tenant e.tenant).cerr with ovf := true }) ∧
    s.sameMemory s') ∧
  (∀ (s : State) (t a b k : Nat) (w : Wave), s.subject = .ids t a b → t < 64 → (s.tenant t).dbgen = true →
    (s.tenant t).dcmdBusy = false → s.selected t = some (k, w) →
    exec .dcmdHalt s = .next (s.setWave k { w with haltReq := true }) ∧
    (s.room w 15 = true → exec .dcmdSend s = .next (s.deliver w.id.uid 16 (s.tenant t).dqout)) ∧
    (s.room w 15 = false → ∃ s', exec .dcmdSend s = .next s' ∧ TenantIs s s' t
      { s.tenant t with dcmdBusy := true, sendTo := w.id.uid }) ∧
    (∀ s' sh v, Resumable s s' k w sh v → exec .dcmdResume s = .next (s'.leave k w sh v)) ∧
    (∀ sh, s.wave k = some w → w.shadow = some sh → sh.debug = true → w.halted = false → s.dieRuns w.id.die = false →
      exec .dcmdResume s = .next (s.setWave k { w with shadow := some { sh with leaving := true } })) ∧
    (w.shadow = none → s.wave k = some w → exec .dcmdResume s = .next s)) ∧
  (∀ (s : State) (t k : Nat) (w : Wave), s.subject = .none → t < 64 → (s.tenant t).dcmdBusy = true →
    (∀ u < 64, u ≠ t → (s.tenant u).dcmdBusy = false) →
    ((s.tenant t).dbgen = false → exec .dcmdSend s = .next s) ∧
    ((s.tenant t).dbgen = true → s.waveOf (s.tenant t).sendTo = some (k, w) → s.room w 15 = false →
      exec .dcmdSend s = .next s) ∧
    ((s.tenant t).dbgen = true → s.waveOf (s.tenant t).sendTo = some (k, w) → s.room w 15 = true → ∃ s',
      exec .dcmdSend s = .next s' ∧ TenantIs s s' t { s.tenant t with dcmdBusy := false } ∧
      s'.entries = (s.deliver (s.tenant t).sendTo 16 (s.tenant t).dqout).entries)) ∧
  (∀ (s : State) (t a b : Nat), s.subject = .ids t a b → t < 64 →
    ((s.tenant t).dbgen = false ∨ s.selected t = none → exec .dcmdHalt s = .next s ∧ exec .dcmdResume s = .next s ∧
      exec .dcmdSend s = .next s) ∧
    ((s.tenant t).dbgen = true → (∀ p ∈ s.waves, p.2.id.tenant ≠ t) → ∃ s', exec .dbgenClear s = .next s' ∧
      TenantIs s s' t { s.tenant t with dbgen := false } ∧
      ∀ c n, let x := SMap.read {} (s'.block c).cmp n
        let y := SMap.read {} (s.block c).cmp n
        x.pc = y.pc ∧ (y.tenant = t → x.en = false) ∧ (y.tenant ≠ t → x = y))) ∧
  (∀ (s : State) (t n : Nat) (v : Dword), n < 8 → t < 64 → (s.tenant t).dbgen = true → (s.tenant t).dselCore < 1536 →
    let c := (s.tenant t).dselCore
    let y := SMap.read {} (s.block c).cmp n
    (s.subject = .value t (0x108 + 32 * n) v → (y.en = false ∨ y.tenant = t) → ∃ s', exec .debugWindowWrite s = .next s' ∧
      SMap.read {} (s'.block c).cmp n = { y with tenant := t, anyten := false, en := v.getLsbD 0 }) ∧
    (s.subject = .value t (0x108 + 32 * n) v → y.en = true → y.tenant ≠ t → ∃ s', exec .debugWindowWrite s = .next s' ∧
      TenantIs s s' t { s.tenant t with cfgerr := true } ∧ s'.blocks = s.blocks) ∧
    (s.subject = .value t (0x100 + 32 * n) v → (y.en = false ∨ y.tenant = t) → ∃ s', exec .debugWindowWrite s = .next s' ∧
      SMap.read {} (s'.block c).cmp n = { y with pc := v &&& ~~~1 }) ∧
    (s.subject = .value t (0x110 + 32 * n) v → (y.en = false ∨ y.tenant = t) → ∃ s', exec .debugWindowWrite s = .next s' ∧
      SMap.read {} (s'.block c).cmp n = { y with wg := v }) ∧
    ∀ o, o % 8 ≠ 0 ∨ o = 0x118 + 32 * n → s.subject = .value t o v → exec .debugWindowWrite s = .next s) ∧
  (∀ (s : State) (t off n : Nat) (quiet : Bool) (v : Dword), (off, n, quiet) ∈ plainRegs → t < 64 →
    s.subject = regAccess t off true v →
    ((quiet = true → (s.tenant t).quiet) → ∃ s', exec .registerWrite s = .next s' ∧ s'.tenantRead t off = v.toNat % 2 ^ n ∧
      (∀ u, u ≠ t → s'.tenant u = s.tenant u) ∧ s.sameMemory s') ∧
    (quiet = true → ¬(s.tenant t).quiet → ∃ s', exec .registerWrite s = .next s' ∧
      TenantIs s s' t { s.tenant t with cfgerr := true })) ∧
  (∀ (s : State) (t off : Nat), t < 64 → off % 8 = 0 → s.subject = regAccess t off false 0 →
    exec .registerWrite s = .next { s with answer := leBytes 8 (s.tenantRead t off), answerPoison := false }) ∧
  (∀ (s : State) (t off : Nat) (write : Bool) (v : Dword), off % 8 ≠ 0 → s.subject = regAccess t off write v →
    exec .registerWrite s = .next s) ∧
  ∀ (s : State) (t : Nat) (v : Dword), t < 64 → s.subject = regAccess t 0x1000 true v → v.getLsbD 1 = false →
    v.getLsbD 2 = false → ∃ s', exec .registerWrite s = .next s' ∧
      TenantIs s s' t { s.tenant t with weight := v.toNat / 2 ^ 8 % 256, en := v.getLsbD 0 }

namespace Sys2Proof.Machine

/-- The bytes of a new entry of the management error ring (25 R430). -/
def errorBytes (s : State) (kind loc : Nat) (last unc : Bool) : List Byte :=
  leBytes 32 (s.mgmt.timer.toNat + kind * 2 ^ 64 + loc * 2 ^ 72 + last.toNat * 2 ^ 128 + unc.toNat * 2 ^ 129)

/-- ECC is set and the ring has taken the entry: what a memory error leaves (25 R427, R430). -/
structure ErrorLogged (s t : State) (bytes : List Byte) : Prop where
  alarm : t.mgmt.alarmEcc = true
  vector : s.mgmt.alarmEcc = false → t.mgmt.vectors.getLsbD 0 = true
  ring : t.mgmt.errRing = (s.ringAppend .error bytes).1.mgmt.errRing

/-- A die may be ready (25 R413, R431): the security engine has verified the firmware, and the die has not failed. -/
def verified (m : Mgmt) (d : Nat) : Prop :=
  m.ready.getLsbD 44 = true ∧ m.fail.getLsbD 44 = false ∧ m.fail.getLsbD (3 + d) = false

/-- A function may set its READY bit (25 R413, R431): it has not failed; the firmware, for all but the host link and the
security engine itself, is verified; a die's clock runs, and it has not lost its state since it was last in D0 to D2. -/
structure MayBeReady (m : Mgmt) (bit : Nat) : Prop where
  sound : m.fail.getLsbD bit = false
  first : bit ≠ 0 → m.fail.getLsbD 44 = false
  behind : bit ≠ 0 → bit ≠ 44 → m.ready.getLsbD 44 = true
  powered : 3 ≤ bit → bit < 11 → (SMap.read ({} : PState) m.pstate (bit - 3)).cur < 3 ∧
    (SMap.read ({} : PState) m.pstate (bit - 3)).off = false

/-- No more entries stand in the TLB of an entry than it has frames that are not fenced off (25 R429). -/
def framesSuffice (t : State) : Prop :=
  ∀ x ∈ t.tlb, (t.tlb.filter fun y => y.die == x.die && y.core == x.core && y.slice == x.slice).length ≤ t.tlbRoom x

/-- The command of each power state (25 R426). -/
def powerCode : Instr → Option Nat
  | .pstateD0 => some 0
  | .pstateD1 => some 1
  | .pstateD2 => some 2
  | .pstateD3 => some 3
  | .pstateD4 => some 4
  | _ => none

end Sys2Proof.Machine

/-- O54. Power, errors, readiness and attestation (25 R413, R426–R432): a command of a power state is taken unless the die is
busy or D4 would lose a resident wave; CAP is clamped; alarms set their bit once; a corrected error is lasting by the
rule of 86,400 s, and a TLB frame that it fences off holds no entry; an uncorrectable error poisons its unit, a register's
until its words are written, and a context that consumes the poison is reset; a stack that fails in place of getting ready
strikes the tenants whose stores wait for it; a link's replays are logged and the 16th that fails is uncorrectable and fails a port; no die and
no other function is ready before its firmware is verified; a package reset keeps memory and the timer; measurements extend by
SHAKE256 and stand in the report. The model's choices, and not the spec's: what a lost die's CAL reads as, and that a reset keeps
memory (log entry 3); that a lasting corrected error writes one record, with LAST set, and no second, what it is to consume a poisoned word, and that no
die gets ready while its clock stands (log entry 47); which register words make 64 bits, and that a step says what stands in a
word (log entry 92). -/
def Obligations.PackageEvents : Prop :=
  (∀ (i : Instr) (code : Nat) (s : State) (d a b : Nat), powerCode i = some code → s.subject = .ids d a b → d < 8 →
    let p := SMap.read ({} : PState) s.mgmt.pstate d
    let lost := code = 4 ∧ ∃ w ∈ s.waves, w.2.id.die = d
    (p.busy = true ∨ lost → exec i s = .next s) ∧
    (p.busy = false → ¬lost → exec i s = .next { s with mgmt := { s.mgmt with
      pstate := SMap.write {} s.mgmt.pstate d { p with cmd := code, busy := true } } })) ∧
  (∀ (s : State) (d a b : Nat), s.subject = .ids d a b → d < 8 →
    let p := SMap.read ({} : PState) s.mgmt.pstate d
    p.busy = true → p.cmd < 4 →
    ∃ t, exec .pstateDone s = .next t ∧ s.sameMemory t ∧
      SMap.read ({} : PState) t.mgmt.pstate d =
        { cmd := p.cmd, cur := p.cmd, busy := false, off := p.off && decide (p.cmd = 3) } ∧
      (∀ k, k < 45 → k ≠ 3 + d → t.mgmt.ready.getLsbD k = s.mgmt.ready.getLsbD k) ∧
      (p.off = true → p.cmd < 3 → verified s.mgmt d → t.mgmt.ready.getLsbD (3 + d) = true) ∧
      ((p.off = false ∨ p.cmd = 3 ∨ ¬verified s.mgmt d) → t.mgmt.ready = s.mgmt.ready)) ∧
  (∀ (s : State) (d a b : Nat), s.subject = .ids d a b → d < 8 →
    let p := SMap.read ({} : PState) s.mgmt.pstate d
    p.busy = true → p.cmd = 4 →
    ∃ t, exec .pstateDone s = .next t ∧ SMap.read ({} : PState) t.mgmt.pstate d =
        { cmd := 4, cur := 4, busy := false, off := p.off || s.mgmt.ready.getLsbD (3 + d) } ∧
      t.mgmt.ready.getLsbD (3 + d) = false ∧
      (∀ c ∈ s.ctxs, c.2.id.die = d → (∀ x ∈ t.entries, x.uid ≠ c.2.id.uid) ∧ ∀ x ∈ t.ls, x.uid ≠ c.2.id.uid) ∧
      ∀ o < 2 ^ 25, t.cal.byte (d * Config.calBytes + o) = Memory.blank) ∧
  (∀ (s : State) (d : Nat), d < 8 → 3 ≤ (SMap.read ({} : PState) s.mgmt.pstate d).cur → s.dieRuns d = false) ∧
  (∀ (s : State) (a b : Nat) (v : Dword), s.subject = .value a b v → exec .pwrcapWrite s = .next
    { s with mgmt := { s.mgmt with pwrcap := max 1800 (min 3600 (v.toNat % 2 ^ 16)) } }) ∧
  (∀ s : State, ∃ t, exec .powerAlarm s = .next t ∧ t.mgmt.alarmPower = true ∧
    (s.mgmt.alarmPower = false → t.mgmt.vectors.getLsbD 0 = true) ∧
    (s.mgmt.alarmPower = true → t.mgmt.vectors = s.mgmt.vectors) ∧ t.mgmt.pstate = s.mgmt.pstate ∧ s.sameMemory t) ∧
  (∀ (s : State) (d a : Nat) (v : Dword), s.subject = .value d a v → d < 8 →
    let temp : BitVec 16 := BitVec.ofNat 16 v.toNat
    (min s.mgmt.talarm.toInt 880 < temp.toInt → ∃ t, exec .thermalAlarm s = .next t ∧ t.mgmt.alarmTherm = true ∧
      SMap.read 0 t.mgmt.temp d = temp ∧ t.mgmt.pstate = s.mgmt.pstate ∧
      (s.mgmt.alarmTherm = false → t.mgmt.vectors.getLsbD 0 = true) ∧ s.sameMemory t) ∧
    (∀ i ∈ [Instr.thermalAlarm, .thermalCritical], 880 ≤ temp.toInt → ∃ t, exec i s = .next t ∧
      t.mgmt.alarmCrit = true ∧ (∀ e, t.dieRuns e = false) ∧ s.sameMemory t) ∧
    (∀ i ∈ [Instr.thermalAlarm, .thermalCritical],
      (∀ e < 8, e ≠ d → (SMap.read (0 : BitVec 16) s.mgmt.temp e).toInt ≤ min s.mgmt.talarm.toInt 879) →
      temp.toInt ≤ min s.mgmt.talarm.toInt 879 →
      exec i s = .next { s with mgmt := { s.mgmt with temp := SMap.write 0 s.mgmt.temp d temp } })) ∧
  (∀ (s : State) (e : ErrLoc) (c : Option Nat), s.subject = .loc e c → (∀ n, e ≠ .link n) →
    let now := s.mgmt.timer.toNat
    let old := s.historyOf (errUnit e)
    let last := ∃ x y, old = [x, y] ∧ now ≤ x + 86400 * 1000000
    ∃ t, exec .correctedError s = .next t ∧
      (last → ErrorLogged s t (errorBytes s (errKind e) (errNumber (errUnit e)) true false)) ∧
      (¬last → ErrorLogged s t (errorBytes s (errKind e) (errNumber (errUnit e)) false false) ∧
        t.mgmt.fencedFrames = s.mgmt.fencedFrames) ∧
      (∀ l d f, e = .cache l d f → last → (d, l * 2 ^ 32 + f) ∈ t.mgmt.fencedFrames) ∧
      (∀ x ∈ t.tlb, x ∈ s.tlb) ∧ framesSuffice t ∧
      (∀ x y, old = [x, y] → t.historyOf (errUnit e) = [y, now]) ∧
      (∀ x, old = [x] → t.historyOf (errUnit e) = [x, now]) ∧ (old = [] → t.historyOf (errUnit e) = [now]) ∧
      ∀ u, u ≠ errUnit e → t.historyOf u = s.historyOf u) ∧
  (∀ (s : State) (e : ErrLoc), s.subject = .loc e none → ∃ t, exec .uncorrectableError s = .next t ∧
    (s.mgmt.errRing.head - s.mgmt.errRing.tail = s.mgmt.errRing.n →
      ∀ l, l ∈ t.poison ↔ l ∈ s.poison ∨ l ∈ errBytes e) ∧
    (errBytes e = [] → (∀ n, e ≠ .link n) → errUnit e ∈ t.badWords) ∧
    ErrorLogged { s with poison := s.poison ++ (errBytes e).filter fun l => !s.poison.contains l } t
      (errorBytes s (errKind e) (errNumber (errUnit e)) false true)) ∧
  (∀ (s : State) (e : ErrLoc) (t : Nat), s.subject = .loc e (some t) → errUnit e ∈ s.badWords →
    exec .uncorrectableError s = .next ((s.forcedReset t).contextError
      { tenant := t, cause := 5, sub := BitVec.ofNat 8 (errKind e) })) ∧
  (∀ (s : State) (e : ErrLoc), s.subject = .rewritten e →
    ∃ t, exec .uncorrectableError s = .next t ∧ t.badWords = s.badWords.erase (errUnit e) ∧ s.sameMemory t) ∧
  (∀ (s : State) (t kind : Nat) (rest : List (Nat × Nat)), s.subject = .none → s.struck = (t, kind) :: rest →
    exec .uncorrectableError s = .next
      ((({ s with struck := s.struck.filter fun x => x.1 != t }).forcedReset t).contextError
        { tenant := t, cause := 5, sub := BitVec.ofNat 8 kind })) ∧
  (∀ (s : State) (e : ErrLoc) (x : Kept), s.subject = .kept e x → keptFits x e = true →
    ∃ t, exec .uncorrectableError s = .next t ∧ ErrorLogged s t (errorBytes s (errKind e) (errNumber (errUnit e)) false true) ∧
      (∀ k r w, x = .reg k r → s.wave k = some w → ∃ w', t.wave k = some w' ∧ w.sameRegs w' ∧ w'.holdsBad r = true) ∧
      ∀ id, x = .entry id → t.entries = s.entries.map fun y => if y.id = id then { y with bad := true } else y) ∧
  (∀ (w : Wave) (r l : Nat) (x y : Word), l % 2 = 0 → ((w.setV r l x).setV r (l + 1) y).holdsBad (.v r l) = false) ∧
  (∀ (w : Wave) (r : Nat) (x : Mask), r ≠ 0 → (w.setK r x).holdsBad (.k r) = false) ∧
  (∀ (s t : State) (c : Issue) (w : Wave) (sp : Split) (i : Instr) (x : RegWord), s.cur = some c → s.wave c.key = some w →
    SMap.find w.splits c.split = some sp → x ∈ readWords w sp i → w.holdsBad x = true → s.hasIssued t c = true →
    (w.id.tenant, 7) ∈ s.consumes t i) ∧
  (∀ (s t : State) (i : Instr) (y : QEntry), y ∈ s.entries → y.bad = true → s.hasTaken t i y = true →
    ((s.ctx y.uid).id.tenant, 7) ∈ s.consumes t i) ∧
  (∀ (s : State) (link ok b : Nat), s.subject = .ids link ok b →
    let n := SMap.read 0 s.mgmt.replays link
    let bytes := errorBytes s 8 (errNumber (.link link)) false
    (80 ≤ link ∨ 16 ≤ n → exec .linkReplay s = .next s) ∧
    (link < 80 → n < 16 → ∃ t, exec .linkReplay s = .next t ∧
      (ok ≠ 0 → SMap.read 0 t.mgmt.replays link = 0 ∧ ErrorLogged s t (bytes false) ∧ t.mgmt.fail = s.mgmt.fail) ∧
      (ok = 0 → SMap.read 0 t.mgmt.replays link = n + 1 ∧
        (n < 15 → t.mgmt.fail = s.mgmt.fail ∧ s.sameMemory t) ∧
        (n = 15 → ErrorLogged s t (bytes true) ∧
          ∀ k < 45, t.mgmt.fail.getLsbD k = (s.mgmt.fail.getLsbD k || decide (link < 16 ∧ k = 28 + link)))))) ∧
  (∀ s : State, ∃ t, exec .packageReset s = .next t ∧ t.mem = s.mem ∧ t.mgmt.timer = s.mgmt.timer ∧ t.waves = [] ∧
    t.entries = [] ∧ t.ls = [] ∧ t.tenants = [] ∧ t.grids = [] ∧ t.tlb = [] ∧ t.lq = [] ∧ t.cb = [] ∧
    t.mgmt.ready = 0 ∧ t.mgmt.fail = 0 ∧ t.mgmt.fencedFrames = [] ∧ t.mgmt.fencedCores = [] ∧ t.mgmt.alarmCrit = false ∧
    t.mgmt.meas = []) ∧
  (∀ (s : State) (bit ok b : Nat), s.subject = .ids bit ok b → bit < 45 →
    (ok ≠ 0 → MayBeReady s.mgmt bit → exec .functionReady s = .next
      { s with
        awaited := s.awaited.filter fun x => x.2 != bit
        mgmt := { s.mgmt with ready := s.mgmt.ready ||| BitVec.ofNat 45 (2 ^ bit) } }) ∧
    (ok ≠ 0 → ¬MayBeReady s.mgmt bit → exec .functionReady s = .next s) ∧
    (ok = 0 → exec .functionReady s = .next
      { s with
        awaited := s.awaited.filter fun x => x.2 != bit
        struck := if s.mgmt.ready.getLsbD bit then s.struck else
          s.struck ++ (s.awaited.filter fun x => x.2 == bit).map fun x => (x.1, if bit = 27 then 6 else 5)
        mgmt := { s.mgmt with
          ready := if bit = 44 then s.mgmt.ready &&& 1 else s.mgmt.ready
          fail := s.mgmt.fail ||| BitVec.ofNat 45 (2 ^ bit) } })) ∧
  (∀ (s : State) (j a b : Nat), s.subject = .ids j a b →
    (s.mgmt.attgo = true ∨ j < 8 ∨ 15 < j → exec .measExtend s = .next s) ∧
    (s.mgmt.attgo = false → 8 ≤ j → j ≤ 15 → ∃ t, exec .measExtend s = .next t ∧
      SMap.read (0 : BitVec 512) t.mgmt.meas j = BitVec.ofNat 512 (leNat (Keccak.shake256
        (leBytes 64 (SMap.read (0 : BitVec 512) s.mgmt.meas j).toNat ++
          Memory.bytes s.mgmt.mextData 0 (min 4096 s.mgmt.mextLen)))) ∧
      ∀ k, k ≠ j → SMap.read 0 t.mgmt.meas k = SMap.read 0 s.mgmt.meas k)) ∧
  (∀ (s : State) (j : Nat) (x : List Byte), s.subject = .extend j x →
    (8 ≤ j → exec .measExtend s = .next s) ∧
    (j < 8 → ∃ t, exec .measExtend s = .next t ∧
      SMap.read (0 : BitVec 512) t.mgmt.meas j =
        BitVec.ofNat 512 (leNat (Keccak.shake256 (leBytes 64 (SMap.read (0 : BitVec 512) s.mgmt.meas j).toNat ++ x))) ∧
      ∀ k, k ≠ j → SMap.read 0 t.mgmt.meas k = SMap.read 0 s.mgmt.meas k)) ∧
  (∀ s : State, ∃ t, exec .attgo s = .next t ∧ t.mgmt.attgo = true ∧ t.mgmt.nonce = s.mgmt.nonce ∧ s.sameMemory t) ∧
  ∀ s : State, (s.mgmt.attgo = false → exec .attestComplete s = .next s) ∧
    (s.mgmt.attgo = true → ∃ t, exec .attestComplete s = .next t ∧ t.mgmt.attgo = false ∧ s.sameMemory t ∧
      Memory.bytes t.mgmt.report 0 8 = leBytes 8 1 ∧ Memory.bytes t.mgmt.report 8 8 = leBytes 8 s.mgmt.timer.toNat ∧
      Memory.bytes t.mgmt.report 16 8 = leBytes 8 s.mgmt.ready.toNat ∧
      Memory.bytes t.mgmt.report 64 64 = leBytes 64 s.mgmt.nonce.toNat ∧
      ∀ j < 16, Memory.bytes t.mgmt.report (128 + 64 * j) 64 =
        leBytes 64 (SMap.read (0 : BitVec 512) s.mgmt.meas j).toNat)

/-! ## The machine: checks at issue, the step, decoding, reset, and the invariant of the memories -/

namespace Sys2Proof.Machine

/-- The registers that an instruction of the lane rows, the mask rows and the command rows names. -/
def namedRegisters (s : State) (w : Wave) (i : Instr) : Option Uses :=
  match integerRow i, floatRow i, convertRow i, crossRow s i, commandRow w i, maskResult i with
  | some r, _, _, _, _, _ | _, some r, _, _, _, _ | _, _, some r, _, _, _ | _, _, _, some r, _, _ =>
    some (usesOf r.form r.ext)
  | _, _, _, _, some r, _ => some (usesOf r.form r.ext)
  | _, _, _, _, _, some (f, e, _) => some (usesOf f e)
  | _, _, _, _, _, _ => none

/-- A trap of the issuing instruction: its cause, its own PC twice, its split and active lanes; nothing else. -/
structure Trapped (s t : State) (c : Issue) (w : Wave) (sp : Split) (cause : Nat) : Prop where
  trap : ∃ w', t.wave c.key = some w' ∧ w.sameRegs w' ∧
    (∀ j, SMap.find w'.splits j = if j = c.split then some { sp with latch := none } else SMap.find w.splits j) ∧
    w'.trap = some { cause, split := c.split, pc := c.pc, resume := c.pc, active := w.active sp }
  memory : s.sameMemory t
  entries : t.entries = s.entries

/-- The instruction's trap and length by the words at a PC: what the step runs there. -/
def runOf : Decoded → Instr
  | .instr i => i
  | .unimpl => .unimplMajor
  | .illegal => .illegalEnc

/-- Words written out from the encodings of 03 R33–R42, 09, 14, 15 R301, 17 R317, 19 R340, 21 R357, 22 R380 and 23 R395,
and the instruction that each stands for. -/
def writtenOut : List (List Nat × Instr) :=
  [([0x00000E06, 2, 0], .ishlBaseV { d := 1, a := 0, b := .lit 2 }),
   ([0x02C80047, 0x030000FF, 0x30, 0x3F800000, 0],
    .fadd { d := .v 200, a := .v 2, b := .lit, ty := .f32, rnd := .rtz, lit := 0x3F800000 }),
   ([0x0F0000FC], .clause { dcount := 0, setb := 15, seta := 0, wait := 0 }),
   ([0x1FF001FC], .clause { dcount := 1, setb := 15, seta := 15, wait := 1 }),
   ([0x00000020], .andi { d := 0, a := 0, i := .imm 0 }),
   ([0x00020069, 0x00300001, 0x10000004], .ld { d := .v 2, a := .s 0, b := .v 1, ty := .b32, x := 8 }),
   ([0x0200006D, 0x00300800, 0x00200044], .st { a := .s 2, c := .s 8, ty := .b32, off := 256 }),
   ([0x08020285, 0x00300010, 0x17], .gth { d := .q 2, a := .s 8, b := .s 16, ty := .b32 }),
   ([0xFF000083, 0x00F00000, 0xC000000F, 2, 0], .mma { d := .q 0, a := .lit, b := .v 0, ty := .bf16, x := 0x60, lit := 2 }),
   ([0x0C000583, 0x00F000FF, 0x50000037, 0x80, 0],
    .mdrn { d := .q 0, a := .s 12, b := .lit, ty := .bf16, x := 0x28, lit := 0x80 }),
   ([0x000500C1, 0, 0], .draw { d := .v 5 }),
   ([0xFF0601C3, 0, 0xC, 0x21, 0], .drawf { d := .v 6, a := .lit, lit := 0x21 }),
   ([0x000202C3, 0xFF, 0x32, 0x4000, 0], .kdraw { d := .k 2, b := .lit, lit := 0x4000 }),
   ([0x080405C1, 0x01000009, 3], .result { d := .q 4, a := .v 8, b := .v 9, ty := .f32 }),
   ([0x000707C1, 0, 0x06000000], .chstat { d := .v 7, x := 3 }),
   ([0x080600C5, 0x01000000, 7], .tsamp { d := .q 6, a := .s 8, ty := .f32 }),
   ([0x070C07C5, 0, 0xD], .tstat { d := .s 12, a := .q 7 }),
   ([0x10080189, 0x2808, 0x08000013], .travc { d := .q 8, a := .v 16, b := .s 8, c := .v 40, x := 4 }),
   ([0x0B080589, 0, 0xC], .sres { d := .v 8, a := .q 11 }),
   ([0x080C00C9, 0x00C00000, 0x04000007], .asbeg { d := .q 12, a := .s 8, ty := .n32, x := 2 }),
   ([0x100C01C9, 0, 0x0A000003], .assegV { d := .q 12, a := .v 16, x := 5 }),
   ([0x080E008D, 0, 7], .lnch { d := .q 14, a := .s 8 })]

end Sys2Proof.Machine

/-- O55. The order of the checks at issue (03 R56, 01 R15): a register beyond the allocation traps with REG_BOUNDS; else a
pending vector register traps with FLAG_HAZARD, also where a scalar register is pending; else a pending scalar register
stalls the split, which changes nothing. Each trap is precise: its PC is the instruction's and it has no effect, but that
a code's words are resolved again. Of a matrix command the tile number counts as a register field. -/
def Obligations.ChecksAtIssue : Prop :=
  ∀ (i : Instr) (s : State) (c : Issue) (w : Wave) (sp : Split) (u : Uses), namedRegisters s w i = some u →
    i.wf = true → Issuing s c w sp →
    (w.outOfBounds u = true → ∃ t, exec i s = .next t ∧ Trapped s t c w sp 4) ∧
    ((∀ r, commandRow w i = some r → r.tile = true → r.ext.x.toNat % 4 < (s.group w.id.group).kd.macc) →
    (w.outOfBounds u = false → (∃ r ∈ u.vr, (SMap.find w.marks r).isSome = true) →
      ∃ t, exec i s = .next t ∧ Trapped s t c w sp 5) ∧
    (w.outOfBounds u = false → (∀ r ∈ u.vr, SMap.find w.marks r = none) →
      (∃ r ∈ u.sr, (SMap.find w.sb r).isSome = true) → exec i s = .next s))

/-- O56. A step runs the decoded instruction (03 R31, R48–R50, R56; 10 R229, R231, R239; 25 R414). With an empty agenda the
step takes the next issue chosen, if its wave may still issue: the words at the split's PC, as many as LEN of the first says,
are decoded and their instruction is executed at that PC, with the PC behind it; words that are no instruction, a fault of
the fetch and a comparator's hit take their own step instead. At a dictionary code the code is resolved, and in the same
clock the words that it has latched are executed; where these stall, nothing has happened. A step of the machine that
stands in the agenda is taken with its subject. A step is its instruction's own execution, with the tenants noted that have
consumed a poisoned word by it (25 R428), none where nothing holds poison. What has reached a memory stack that is not ready
leaves the state as it was, and after a step nothing issues. -/
def Obligations.StepRunsDecoded : Prop :=
  (∀ (s : State) (p : Issue) (rest : List Issue) (w : Wave) (sp : Split), s.agenda = [] → s.picks = p :: rest →
    s.wave p.key = some w → SMap.find w.splits p.split = some sp →
    let s0 : State := { s with picks := rest }
    let run := fun (t : State) (c : Issue) (x : Subject) (i : Instr) =>
      takeStep s0 i { t with cur := some c, subject := x }
    let here : Issue := { key := p.key, split := p.split }
    (s0.mayIssue w = false → step s = .next s0) ∧
    (s0.mayIssue w = true → sp.latch = none → sp.codes = 0 →
      (∀ t ws, s0.fetchInstr w.id sp.pc = (t, .ok ws) →
        let c : Issue := { here with pc := sp.pc, npc := sp.pc + BitVec.ofNat 64 (4 * ws.length) }
        (∃ w0 ws', ws = w0 :: ws' ∧
          ws.length = if w0.toNat % 4 = 0 then 1 else if w0.toNat % 4 = 3 then 5 else 3) ∧
        (t.matched w sp sp.pc = true → step s = run t c .none .pcmatch) ∧
        (t.matched w sp sp.pc = false → step s = run t c .none (runOf (decodeWords ws)))) ∧
      ∀ t cause va, s0.fetchInstr w.id sp.pc = (t, .error (cause, va)) →
        step s = run t { here with pc := sp.pc } (.value cause 0 va) .fetchFault) ∧
    (s0.mayIssue w = true → sp.latch = none → sp.codes ≠ 0 →
      ∀ t x d, s0.fetchWord w.id (sp.codePc &&& ~~~3) = (t, .ok x) → t.matched w sp sp.codePc = false →
      decodeCode (if sp.codePc.getLsbD 1 then x.extractLsb' 16 16 else x.extractLsb' 0 16) = some d →
      ∃ t', t.sameMemory t' ∧
        let o := run t' { here with pc := sp.codePc, npc := sp.codePc + 2 } .none (.dref d)
        (∀ u, o = .next u → u.latched p = false → step s = .next u) ∧
        (∀ u v, o = .next u → u.latched p = true → u.issueOne p = .next v →
          step s = .next (if v.wave p.key = u.wave p.key then s0 else v))) ∧
    (∀ ws, s0.mayIssue w = true → sp.latch = some ws → ∀ i, decodeWords ws = .instr i →
      (∀ h, i ≠ .clause h) → (∀ e, i ≠ .tret e) → (∀ m n e, extOf i = some (m, n, e) → m ≠ 0x18 ∧ m ≠ 0x19) →
      let o := run s0 { here with pc := sp.codePc, npc := sp.codePc + 2, code := true } .none i
      s0.issueOne p = o ∧ step s = o)) ∧
  (∀ (s : State) (i : Instr) (x : Subject) (rest : List (Instr × Subject)), s.agenda = (i, x) :: rest →
    i.isStep = true →
    step s = takeStep { s with agenda := rest } i { s with agenda := rest, cur := none, subject := x }) ∧
  (∀ (s u t : State) (i : Instr), exec i u = .next t →
    takeStep s i u = endStep s (.next { t with struck := t.struck ++ u.consumes t i }) ∧
    ((∀ p ∈ u.waves, p.2.bad = []) → (∀ e ∈ u.entries, e.bad = false) → (∀ x ∈ u.dicts, x.bad = []) →
      (∀ q ∈ u.seqs, q.bad = false) → takeStep s i u = endStep s (exec i u))) ∧
  ∀ s t : State,
    (t.stalled = true → endStep s (.next t) = .next { s with cur := none, subject := .none }) ∧
    (t.stalled = false → endStep s (.next t) = .next { t with cur := none, subject := .none })

/-- O57. Decoding reads the spec's own encodings right (03 R33–R42 and the encoding tables of the engines), a zero major is
ILLEGAL_ENC, and an unassigned or reserved major is UNIMPL_MAJOR (03 R54). -/
def Obligations.DecodesWrittenWords : Prop :=
  (∀ p ∈ writtenOut, decodeWords (p.1.map (BitVec.ofNat 32)) = .instr p.2) ∧
  ∀ (w : Word) (ws : List Word),
    (w.toNat / 4 % 64 = 0 → decodeWords (w :: ws) = .illegal) ∧
    (w.toNat / 4 % 64 ∈ [0x0D, 0x0E, 0x0F] ++ (List.range' 0x24 12) ++ (List.range' 0x35 10) →
      decodeWords (w :: ws) = .unimpl)

/-- O58. Decoding and encoding agree on every instruction: the words of a well-formed instruction decode to it, whatever
words follow; whatever decodes is a well-formed instruction whose words are those it was decoded from; and a dictionary
code that is no pad likewise. -/
def Obligations.DecodeEncode : Prop :=
  (∀ (i : Instr) (rest : List Word), i.wf = true → i.isStep = false → (∀ d, i ≠ .dref d) →
    decodeWords (encode i ++ rest) = .instr i) ∧
  (∀ (ws : List Word) (i : Instr), decodeWords ws = .instr i →
    i.wf = true ∧ i.isStep = false ∧ (∃ rest, ws = encode i ++ rest) ∧ encode i ≠ []) ∧
  (∀ d : DictCode, (Instr.dref d).wf = true → decodeCode (encodeCode d) = some d) ∧
  ∀ (n : BitVec 16) (d : DictCode), decodeCode n = some d → (Instr.dref d).wf = true ∧ encodeCode d = n

/-- O59. What a package reset leaves (05 R85; 09 R225; 23 R400; 25 R413, R415, R418, R420–R422, R424, R426–R431): no wave, no
entry, no buffered store, no held copy, and the registers' reset values, read at their offsets. Every memory stands in
canonical form, which is the model's own (log entry 3). -/
def Obligations.ResetValues : Prop :=
  let s := State.reset
  s.waves = [] ∧ s.entries = [] ∧ s.ls = [] ∧ s.lq = [] ∧ s.cb = [] ∧ s.dw = [] ∧ s.pq = [] ∧ s.ds = [] ∧ s.icache = [] ∧
  s.tlb = [] ∧ s.grids = [] ∧ s.groups = [] ∧ s.clock = 0 ∧ s.memWf = true ∧
  (∀ t < 64, s.tenantRead t 0x000 = t * 2 ^ 36 + 2 ^ 22) ∧
  (∀ t < 64, ∀ o ∈ [0x008, 0x010, 0x018, 0x020, 0x030, 0x038, 0x140, 0x148, 0x150, 0x158, 0x1008, 0x1018, 0x1020] ++
    (List.range 8).map (fun d => 0x040 + 8 * d), s.tenantRead t o = 0) ∧
  (∀ t < 64, s.tenantRead t 0x028 = 2 ^ 21 ∧ s.tenantRead t 0x1000 = 0x120 ∧ s.tenantRead t 0x1010 = 3400000) ∧
  (∀ t < 64, ∀ n < 16, s.tenantRead t (0x1100 + 8 * n) = 256 * 2 ^ 16 + 2) ∧
  (∀ o ∈ [0x0000, 0x0008, 0x0600] ++ (List.range 8).map (fun d => 0x0100 + 8 * d), s.mgmtRead o = (s, 0)) ∧
  s.mgmtRead 0x0200 = (s, 3600) ∧ s.mgmtRead 0x0280 = (s, 760) ∧
  (∀ n < 24, s.mgmtRead (0x0400 + 8 * n) = (s, 2 ^ 64 - 1)) ∧
  ∀ j < 16, SMap.read (0 : BitVec 512) s.mgmt.meas j = 0

/-- O60. Every step keeps the memories in canonical form: addresses strictly rising, and no byte listed that an unlisted
address reads as. -/
def Obligations.MemoriesStayCanonical : Prop :=
  ∀ s t : State, s.memWf = true → step s = .next t → t.memWf = true
end

