-- ==== Sys2Proof/Laws/Sparse.lean ====
section
/-! SUPPORT. Reads after writes of sparse data and of memories, and the canonical form that every operation keeps. -/

namespace Sys2Proof

variable {α : Type}

/-! ## Reads after writes -/

theorem SMap.find_insert_self (m : SMap α) (k : Nat) (v : α) : (m.insert k v).find k = some v := by
  induction m with
  | nil => simp [SMap.insert, SMap.find]
  | cons p rest ih =>
    obtain ⟨j, w⟩ := p
    simp only [SMap.insert]
    split
    · simp [SMap.find]
    · split
      · simp [SMap.find]
      · have : j ≠ k := by omega
        simp [SMap.find, this, ih]

theorem SMap.find_insert_ne (m : SMap α) {k j : Nat} (v : α) (h : j ≠ k) : (m.insert k v).find j = m.find j := by
  induction m with
  | nil => simp [SMap.insert, SMap.find, h.symm]
  | cons p rest ih =>
    obtain ⟨i, w⟩ := p
    simp only [SMap.insert]
    split
    · simp [SMap.find, h.symm]
    · split
      · next hk => subst hk; simp [SMap.find, h.symm]
      · simp [SMap.find, ih]

theorem SMap.find_insert (m : SMap α) (k j : Nat) (v : α) :
    (m.insert k v).find j = if j = k then some v else m.find j := by
  split
  · next h => subst h; exact find_insert_self ..
  · next h => exact find_insert_ne _ _ h

theorem SMap.find_erase (m : SMap α) (k j : Nat) : (m.erase k).find j = if j = k then none else m.find j := by
  induction m with
  | nil => simp [SMap.erase, SMap.find]
  | cons p rest ih =>
    obtain ⟨i, w⟩ := p
    simp only [SMap.erase] at ih ⊢
    by_cases hi : i = k
    · subst hi
      simp only [List.filter_cons, bne_self_eq_false, Bool.false_eq_true, if_false, ih, SMap.find]
      by_cases hj : j = i
      · simp [hj]
      · simp [hj, Ne.symm hj]
    · have : (i != k) = true := by simpa using hi
      simp only [List.filter_cons, this, if_true, SMap.find, ih]
      by_cases hj : j = k
      · subst hj; simp [hi]
      · simp [hj]

/-- A read after a write: the value at the key written, every other key as before. -/
theorem SMap.read_write [DecidableEq α] (d : α) (m : SMap α) (k j : Nat) (v : α) :
    SMap.read d (SMap.write d m k v) j = if j = k then v else SMap.read d m j := by
  unfold SMap.read SMap.write
  split
  · next h => subst h; rw [find_erase]; split <;> simp
  · rw [find_insert]; split <;> simp

theorem SMap.read_insert (d : α) (m : SMap α) (k j : Nat) (v : α) :
    SMap.read d (SMap.insert m k v) j = if j = k then v else SMap.read d m j := by
  unfold SMap.read; rw [find_insert]; split <;> simp

/-! ## The canonical form -/

theorem SMap.rising_mono {m : SMap α} {a b : Nat} (h : a ≤ b) (hm : SMap.rising b m = true) : SMap.rising a m = true := by
  cases m with
  | nil => rfl
  | cons p rest =>
    obtain ⟨j, w⟩ := p
    simp only [SMap.rising, Bool.and_eq_true, decide_eq_true_eq] at hm ⊢
    exact ⟨by omega, hm.2⟩

theorem SMap.rising_insert {m : SMap α} {lo k : Nat} (v : α) (hk : lo ≤ k) (hm : SMap.rising lo m = true) :
    SMap.rising lo (m.insert k v) = true := by
  induction m generalizing lo with
  | nil => simp [SMap.insert, SMap.rising, hk]
  | cons p rest ih =>
    obtain ⟨j, w⟩ := p
    simp only [SMap.rising, Bool.and_eq_true, decide_eq_true_eq] at hm
    simp only [SMap.insert]
    split
    · simp only [SMap.rising, Bool.and_eq_true, decide_eq_true_eq]
      exact ⟨hk, by omega, hm.2⟩
    · split
      · next h => subst h; simp [SMap.rising, hk, hm.2]
      · simp only [SMap.rising, Bool.and_eq_true, decide_eq_true_eq]
        exact ⟨hm.1, ih (by omega) hm.2⟩

theorem SMap.rising_filter {m : SMap α} {lo : Nat} (p : Nat × α → Bool) (hm : SMap.rising lo m = true) :
    SMap.rising lo (m.filter p) = true := by
  induction m generalizing lo with
  | nil => rfl
  | cons q rest ih =>
    obtain ⟨j, w⟩ := q
    simp only [SMap.rising, Bool.and_eq_true, decide_eq_true_eq] at hm
    rw [List.filter_cons]
    split
    · simp only [SMap.rising, Bool.and_eq_true, decide_eq_true_eq]
      exact ⟨hm.1, ih hm.2⟩
    · exact rising_mono (by omega) (ih hm.2)

theorem SMap.mem_insert {m : SMap α} {k : Nat} {v : α} {q : Nat × α} (h : q ∈ m.insert k v) : q = (k, v) ∨ q ∈ m := by
  induction m with
  | nil => simpa [SMap.insert] using h
  | cons p rest ih =>
    obtain ⟨j, w⟩ := p
    simp only [SMap.insert] at h
    split at h
    · simpa using h
    · split at h
      · rcases List.mem_cons.1 h with h | h
        · exact .inl h
        · exact .inr (List.mem_cons_of_mem _ h)
      · rcases List.mem_cons.1 h with h | h
        · exact .inr (by simp [h])
        · rcases ih h with h | h
          · exact .inl h
          · exact .inr (List.mem_cons_of_mem _ h)

theorem SMap.wf_iff [DecidableEq α] (d : α) (m : SMap α) :
    SMap.wf d m = true ↔ SMap.rising 0 m = true ∧ ∀ p ∈ m, p.2 ≠ d := by
  simp [SMap.wf, List.all_eq_true]

/-- Writing keeps the canonical form. -/
theorem SMap.wf_write [DecidableEq α] {d : α} {m : SMap α} (k : Nat) (v : α) (h : SMap.wf d m = true) :
    SMap.wf d (SMap.write d m k v) = true := by
  rw [wf_iff] at h ⊢
  unfold SMap.write
  split
  · exact ⟨rising_filter _ h.1, fun p hp => h.2 p (List.mem_filter.1 hp).1⟩
  · next hv =>
    refine ⟨rising_insert v (Nat.zero_le k) h.1, fun p hp => ?_⟩
    rcases mem_insert hp with rfl | hp
    · exact hv
    · exact h.2 p hp

/-- Dropping entries keeps the canonical form. -/
theorem SMap.wf_filter [DecidableEq α] {d : α} {m : SMap α} (p : Nat × α → Bool) (h : SMap.wf d m = true) :
    SMap.wf d (m.filter p) = true := by
  rw [wf_iff] at h ⊢
  exact ⟨rising_filter _ h.1, fun q hq => h.2 q (List.mem_filter.1 hq).1⟩

theorem SMap.wf_dropRange [DecidableEq α] {d : α} {m : SMap α} (lo hi : Nat) (h : SMap.wf d m = true) :
    SMap.wf d (SMap.dropRange m lo hi) = true := wf_filter _ h

/-! ## Memories -/

theorem Memory.byte_setByte (m : Memory) (a x : Nat) (b : Byte) :
    (m.setByte a b).byte x = if x = a then b else m.byte x := SMap.read_write _ _ _ _ _

/-- A byte after a write of bytes from `a` up: the byte written there, or what stood there before. -/
theorem Memory.byte_setBytes (m : Memory) (a : Nat) (bs : List Byte) (x : Nat) :
    (m.setBytes a bs).byte x = if a ≤ x ∧ x < a + bs.length then bs.getD (x - a) 0 else m.byte x := by
  induction bs generalizing m a with
  | nil => rw [if_neg (by rw [List.length_nil]; omega)]; rfl
  | cons b rest ih =>
    rw [Memory.setBytes, ih, byte_setByte]
    by_cases hx : x = a
    · subst hx; rw [if_neg (by omega), if_pos rfl, if_pos (by simp)]; simp
    · by_cases h : a ≤ x ∧ x < a + (rest.length + 1)
      · rw [if_pos (by omega), if_pos (by simpa using h)]
        have : x - a = (x - (a + 1)) + 1 := by omega
        rw [this]; simp
      · rw [if_neg (by omega), if_neg hx, if_neg (by simpa using h)]

theorem Memory.wf_setByte {m : Memory} (a : Nat) (b : Byte) (h : m.wf = true) : (m.setByte a b).wf = true :=
  SMap.wf_write a b h

/-- Writing bytes keeps the canonical form. -/
theorem Memory.wf_setBytes {m : Memory} (a : Nat) (bs : List Byte) (h : m.wf = true) : (m.setBytes a bs).wf = true := by
  induction bs generalizing m a with
  | nil => exact h
  | cons b rest ih => exact ih _ (wf_setByte a b h)

theorem Memory.wf_zero {m : Memory} (a n : Nat) (h : m.wf = true) : (m.zero a n).wf = true := SMap.wf_dropRange _ _ h

theorem SMap.find_filter_keep (m : SMap α) (p : Nat → Bool) (k : Nat) :
    SMap.find (m.filter fun q => p q.1) k = if p k then SMap.find m k else none := by
  induction m with
  | nil => simp [SMap.find]
  | cons q rest ih =>
    obtain ⟨j, w⟩ := q
    by_cases hj : j = k
    · subst hj
      by_cases hp : p j <;> simp [SMap.find, hp, ih]
    · by_cases hp : p j <;> simp [SMap.find, hp, hj, ih]

/-- A byte after n bytes have been zeroed from `a` up. -/
theorem Memory.byte_zero (m : Memory) (a n x : Nat) :
    (m.zero a n).byte x = if a ≤ x ∧ x < a + n then 0 else m.byte x := by
  have h := SMap.find_filter_keep m (fun k => decide (k < a) || decide (a + n ≤ k)) x
  simp only [Memory.byte, SMap.read, Memory.zero, SMap.dropRange]
  rw [h]
  by_cases hx : a ≤ x ∧ x < a + n
  · have : (decide (x < a) || decide (a + n ≤ x)) = false := by simp; omega
    simp [this, hx, Memory.blank]
  · have : (decide (x < a) || decide (a + n ≤ x)) = true := by simp; omega
    simp [this, hx]

end Sys2Proof
end

