-- ==== Sys2Proof/Laws/Registers.lean ====
section
/-! SUPPORT. Reads of a wave's registers after a write to one of them, and the rest of the wave, which no write to a
register touches. -/

namespace Sys2Proof.Machine

open Sys2Proof

/-! ## One register -/

theorem laneKey {r r' l l' : Nat} (hl : l < 64) (hl' : l' < 64) : r' * 64 + l' = r * 64 + l ↔ r' = r ∧ l' = l := by
  omega

theorem Wave.getV_setV (w : Wave) (r l r' l' : Nat) (x : Word) (hl : l < 64) (hl' : l' < 64) :
    (w.setV r l x).getV r' l' = if r' = r ∧ l' = l then x else w.getV r' l' := by
  simp only [Wave.getV, Wave.setV, SMap.read_write, laneKey hl hl']

@[simp] theorem Wave.getS_setV (w : Wave) (r l r' : Nat) (x : Word) : (w.setV r l x).getS r' = w.getS r' := rfl
@[simp] theorem Wave.getK_setV (w : Wave) (r l r' : Nat) (x : Word) : (w.setV r l x).getK r' = w.getK r' := rfl
@[simp] theorem Wave.rest_setV (w : Wave) (r l : Nat) (x : Word) : (w.setV r l x).rest = w.rest := rfl

@[simp] theorem Wave.isExtra_setS (w : Wave) (r r' : Nat) (x : Word) : (w.setS r x).isExtra r' = w.isExtra r' := by
  unfold Wave.setS
  split
  · simp only [Wave.isExtra]; cases w.shadow <;> rfl
  · rfl

theorem Wave.getS_setS (w : Wave) (r r' : Nat) (x : Word) :
    (w.setS r x).getS r' = if r' = r then x else w.getS r' := by
  have he := w.isExtra_setS r r' x
  unfold Wave.getS
  rw [he]
  by_cases hr : w.isExtra r = true
  · cases hs : w.shadow with
    | none => simp [Wave.isExtra, hs] at hr
    | some sh =>
      by_cases hr' : w.isExtra r' = true
      · simp [Wave.setS, hr, hr', hs, SMap.read_write]
      · have : r' ≠ r := fun h => hr' (h ▸ hr)
        simp [Wave.setS, hr, hr', this]
  · by_cases hr' : w.isExtra r' = true
    · have : r' ≠ r := fun h => hr (h ▸ hr')
      simp [Wave.setS, hr, hr', this]
    · simp [Wave.setS, hr, hr', SMap.read_write]

@[simp] theorem Wave.getV_setS (w : Wave) (r r' l : Nat) (x : Word) : (w.setS r x).getV r' l = w.getV r' l := by
  unfold Wave.setS; split <;> rfl
@[simp] theorem Wave.getK_setS (w : Wave) (r r' : Nat) (x : Word) : (w.setS r x).getK r' = w.getK r' := by
  unfold Wave.setS; split <;> rfl
@[simp] theorem Wave.rest_setS (w : Wave) (r : Nat) (x : Word) : (w.setS r x).rest = w.rest := by
  unfold Wave.setS; split
  · simp only [Wave.rest]; cases w.shadow <;> rfl
  · rfl

@[simp] theorem Wave.id_setK (w : Wave) (r : Nat) (x : Mask) : (w.setK r x).id = w.id := by
  unfold Wave.setK; split <;> rfl

/-- k0 reads as all lanes of the wave and takes no write. -/
theorem Wave.getK_setK (w : Wave) (r r' : Nat) (x : Mask) :
    (w.setK r x).getK r' = if r' = r ∧ r ≠ 0 then x &&& w.id.full else w.getK r' := by
  unfold Wave.getK
  rw [id_setK]
  by_cases h0 : r' = 0
  · subst h0
    simp only [if_true]
    rw [if_neg (by omega)]
  · rw [if_neg h0, if_neg h0]
    unfold Wave.setK
    by_cases hr : r = 0
    · simp [hr]
    · simp [hr, SMap.read_write]

@[simp] theorem Wave.getV_setK (w : Wave) (r r' l : Nat) (x : Mask) : (w.setK r x).getV r' l = w.getV r' l := by
  unfold Wave.setK; split <;> rfl
@[simp] theorem Wave.getS_setK (w : Wave) (r r' : Nat) (x : Mask) : (w.setK r x).getS r' = w.getS r' := by
  unfold Wave.setK; split <;> rfl
@[simp] theorem Wave.rest_setK (w : Wave) (r : Nat) (x : Mask) : (w.setK r x).rest = w.rest := by
  unfold Wave.setK; split <;> rfl

@[simp] theorem Wave.getV_addStatus (w : Wave) (f : Word) (r l : Nat) : (w.addStatus f).getV r l = w.getV r l := rfl
@[simp] theorem Wave.getS_addStatus (w : Wave) (f : Word) (r : Nat) : (w.addStatus f).getS r = w.getS r := rfl
@[simp] theorem Wave.getK_addStatus (w : Wave) (f : Word) (r : Nat) : (w.addStatus f).getK r = w.getK r := rfl
@[simp] theorem Wave.rest_addStatus (w : Wave) (f : Word) : (w.addStatus f).rest = w.rest := rfl

@[simp] theorem Wave.fpstat_setS (w : Wave) (r : Nat) (x : Word) : (w.setS r x).fpstat = w.fpstat := by
  unfold Wave.setS; split <;> rfl
@[simp] theorem Wave.fpstat_setK (w : Wave) (r : Nat) (x : Mask) : (w.setK r x).fpstat = w.fpstat := by
  unfold Wave.setK; split <;> rfl

/-! ## Several registers -/

/-- A fold of writes to consecutive vector registers of one lane. -/
theorem Wave.getV_setVs (w : Wave) (r n l x r' l' : Nat) (hl : l < 64) (hl' : l' < 64) :
    (w.setVs r n l x).getV r' l' =
      if l' = l ∧ r ≤ r' ∧ r' < r + n then BitVec.ofNat 32 (x / 2 ^ (32 * (r' - r))) else w.getV r' l' := by
  unfold Wave.setVs
  induction n with
  | zero => rw [if_neg (by omega)]; rfl
  | succ n ih =>
    rw [List.range_succ, List.foldl_append, List.foldl_cons, List.foldl_nil, getV_setV _ _ _ _ _ _ hl hl', ih]
    by_cases h : r' = r + n ∧ l' = l
    · rw [if_pos h, if_pos (by omega)]
      obtain ⟨rfl, rfl⟩ := h
      simp
    · rw [if_neg h]
      by_cases h2 : l' = l ∧ r ≤ r' ∧ r' < r + n
      · rw [if_pos h2, if_pos (by omega)]
      · rw [if_neg h2, if_neg (by omega)]

theorem Wave.setVs_frame (w : Wave) (r n l x : Nat) :
    (∀ r', (w.setVs r n l x).getS r' = w.getS r') ∧ (∀ r', (w.setVs r n l x).getK r' = w.getK r') ∧
      (w.setVs r n l x).rest = w.rest ∧ (w.setVs r n l x).fpstat = w.fpstat := by
  unfold Wave.setVs
  induction n with
  | zero => simp
  | succ n ih => rw [List.range_succ, List.foldl_append, List.foldl_cons, List.foldl_nil]; exact ih

theorem Wave.getS_setSs (w : Wave) (r n x r' : Nat) :
    (w.setSs r n x).getS r' =
      if r ≤ r' ∧ r' < r + n then BitVec.ofNat 32 (x / 2 ^ (32 * (r' - r))) else w.getS r' := by
  unfold Wave.setSs
  induction n with
  | zero => rw [if_neg (by omega)]; rfl
  | succ n ih =>
    rw [List.range_succ, List.foldl_append, List.foldl_cons, List.foldl_nil, getS_setS, ih]
    by_cases h : r' = r + n
    · rw [if_pos h, if_pos (by omega)]; subst h; simp
    · rw [if_neg h]
      by_cases h2 : r ≤ r' ∧ r' < r + n
      · rw [if_pos h2, if_pos (by omega)]
      · rw [if_neg h2, if_neg (by omega)]

theorem Wave.setSs_frame (w : Wave) (r n x : Nat) :
    (∀ r' l, (w.setSs r n x).getV r' l = w.getV r' l) ∧ (∀ r', (w.setSs r n x).getK r' = w.getK r') ∧
      (w.setSs r n x).rest = w.rest ∧ (w.setSs r n x).fpstat = w.fpstat := by
  unfold Wave.setSs
  induction n with
  | zero => simp
  | succ n ih => rw [List.range_succ, List.foldl_append, List.foldl_cons, List.foldl_nil]; simpa using ih

/-! ## A register destination -/

theorem Wave.getV_put (w : Wave) (d : BitVec 8) (n l x r' l' : Nat) (hl : l < 64) (hl' : l' < 64) :
    (w.put (.v d) n l x).getV r' l' =
      if l' = l ∧ d.toNat ≤ r' ∧ r' < d.toNat + regCount n then partAt d.toNat n x r' else w.getV r' l' := by
  unfold Wave.put regCount partAt
  by_cases h : n ≤ 32
  · simp only [h, if_true]
    rw [getV_setV _ _ _ _ _ _ hl hl']
    by_cases h2 : r' = d.toNat ∧ l' = l
    · rw [if_pos h2, if_pos (by omega)]
    · rw [if_neg h2, if_neg (by omega)]
  · simp only [h, if_false]
    exact getV_setVs _ _ _ _ _ _ _ hl hl'

theorem Wave.getS_put (w : Wave) (d : BitVec 7) (n l x r' : Nat) :
    (w.put (.s d) n l x).getS r' =
      if d.toNat ≤ r' ∧ r' < d.toNat + regCount n then partAt d.toNat n x r' else w.getS r' := by
  unfold Wave.put regCount partAt
  by_cases h : n ≤ 32
  · simp only [h, if_true]
    rw [getS_setS]
    by_cases h2 : r' = d.toNat
    · rw [if_pos h2, if_pos (by omega)]
    · rw [if_neg h2, if_neg (by omega)]
  · simp only [h, if_false]
    exact getS_setSs _ _ _ _ _

theorem Wave.put_v_frame (w : Wave) (d : BitVec 8) (n l x : Nat) :
    (∀ r', (w.put (.v d) n l x).getS r' = w.getS r') ∧ (∀ r', (w.put (.v d) n l x).getK r' = w.getK r') ∧
      (w.put (.v d) n l x).rest = w.rest ∧ (w.put (.v d) n l x).fpstat = w.fpstat := by
  unfold Wave.put
  by_cases h : n ≤ 32
  · simp [h]; rfl
  · simpa [h] using setVs_frame w d.toNat (n / 32) l x

theorem Wave.put_s_frame (w : Wave) (d : BitVec 7) (n l x : Nat) :
    (∀ r' l', (w.put (.s d) n l x).getV r' l' = w.getV r' l') ∧ (∀ r', (w.put (.s d) n l x).getK r' = w.getK r') ∧
      (w.put (.s d) n l x).rest = w.rest ∧ (w.put (.s d) n l x).fpstat = w.fpstat := by
  unfold Wave.put
  by_cases h : n ≤ 32
  · simp [h]
  · simpa [h] using setSs_frame w d.toNat (n / 32) x

end Sys2Proof.Machine
end

