-- ==== Sys2Proof/Laws/LaneOps.lean ====
section
/-! SUPPORT. What the shape shared by the lane instructions does, said once: the checks passed, every acting lane's
result stands in the destination and nothing else of the wave has changed. -/

namespace Sys2Proof.Machine

open Sys2Proof

/-! ## Lanes -/

theorem mem_lanesOf {m : Mask} {l : Nat} : l ∈ lanesOf m ↔ l < 64 ∧ m.getLsbD l = true := by
  simp [lanesOf]

theorem lanesOf_nodup (m : Mask) : (lanesOf m).Nodup := List.Pairwise.filter _ List.nodup_range

theorem laneBit_getLsbD (l j : Nat) (hl : l < 64) : (laneBit l).getLsbD j = decide (j = l) := by
  simp only [laneBit, BitVec.getLsbD_ofNat, Nat.testBit_two_pow]
  by_cases h : j = l
  · subst h; simp [hl]
  · simp [h, Ne.symm h]

theorem maskOf_append (a b : List Nat) (p : Nat → Bool) (m : Mask) :
    (a ++ b).foldl (fun m l => if p l then m ||| laneBit l else m) m =
      b.foldl (fun m l => if p l then m ||| laneBit l else m)
        (a.foldl (fun m l => if p l then m ||| laneBit l else m) m) := List.foldl_append

/-- Bit l of a mask built from a predicate: a listed lane of which the predicate holds. -/
theorem maskOf_getLsbD (ls : List Nat) (p : Nat → Bool) (hls : ∀ l ∈ ls, l < 64) (j : Nat) :
    (maskOf ls p).getLsbD j = decide (j ∈ ls ∧ p j = true) := by
  suffices h : ∀ m : Mask, (ls.foldl (fun m l => if p l then m ||| laneBit l else m) m).getLsbD j =
      (m.getLsbD j || decide (j ∈ ls ∧ p j = true)) by
    simpa [maskOf] using h 0
  induction ls with
  | nil => simp
  | cons l rest ih =>
    intro m
    have hl : l < 64 := hls l (by simp)
    rw [List.foldl_cons, ih (fun x hx => hls x (by simp [hx]))]
    by_cases hp : p l = true
    · simp only [hp, if_true, BitVec.getLsbD_or, laneBit_getLsbD _ _ hl]
      by_cases hj : j = l
      · subst hj; simp [hp]
      · simp [hj]
    · simp only [hp]
      by_cases hj : j = l
      · subst hj; simp [hp]
      · simp [hj]

theorem Wave.actors_lt (w : Wave) (sp : Split) (e : Ext) : ∀ l ∈ w.actors sp e, l < 64 := by
  intro l hl
  unfold Wave.actors at hl
  split at hl
  · split at hl
    · simp at hl
    · next h =>
      simp only [List.mem_singleton] at hl
      subst hl
      unfold lowLane
      cases hls : lanesOf (w.active sp) with
      | nil => simp
      | cons a rest => simpa using (mem_lanesOf.1 (hls ▸ List.mem_cons_self : a ∈ lanesOf (w.active sp))).1
  · exact (mem_lanesOf.1 hl).1

theorem Wave.actors_nodup (w : Wave) (sp : Split) (e : Ext) : (w.actors sp e).Nodup := by
  unfold Wave.actors
  split
  · split <;> simp
  · exact lanesOf_nodup _

/-- A scalar destination has one acting lane at the most. -/
theorem Wave.actors_scalar (w : Wave) (sp : Split) (e : Ext) (d : BitVec 7) (h : e.d = .s d) :
    w.actors sp e = [] ∨ ∃ l, w.actors sp e = [l] := by
  simp only [Wave.actors, h, Opnd.isS, if_true]
  split
  · exact .inl rfl
  · exact .inr ⟨_, rfl⟩

/-! ## Writing the results -/

theorem statusOf_map (ls : List Nat) (res : Nat → Num.Res) :
    statusOf (ls.map fun l => (l, res l)) = ls.foldl (fun f l => f ||| (res l).fl) 0 := by
  simp [statusOf, List.foldl_map]

/-- The vector destination after the results of distinct lanes. -/
theorem putFold_v (e : Ext) (d : BitVec 8) (n : Nat) (ls : List Nat) (res : Nat → Num.Res) (w : Wave)
    (hls : ∀ l ∈ ls, l < 64) (hn : ls.Nodup) :
    let w' := ls.foldl (fun w l => w.put (.v d) n l (widen e.ty n (res l).bits)) w
    (∀ r l, l < 64 → w'.getV r l =
      if l ∈ ls ∧ d.toNat ≤ r ∧ r < d.toNat + regCount n then partAt d.toNat n (widen e.ty n (res l).bits) r
      else w.getV r l) ∧
    (∀ r, w'.getS r = w.getS r) ∧ (∀ r, w'.getK r = w.getK r) ∧ w'.rest = w.rest ∧ w'.fpstat = w.fpstat := by
  induction ls generalizing w with
  | nil => simp
  | cons a rest ih =>
    have ha : a < 64 := hls a (by simp)
    have hna : a ∉ rest := (List.nodup_cons.1 hn).1
    obtain ⟨hv, hs, hk, hr, hf⟩ := ih (w.put (.v d) n a (widen e.ty n (res a).bits))
      (fun x hx => hls x (by simp [hx])) (List.nodup_cons.1 hn).2
    obtain ⟨gs, gk, gr, gf⟩ := w.put_v_frame d n a (widen e.ty n (res a).bits)
    refine ⟨fun r l hl => ?_, fun r => (hs r).trans (gs r), fun r => (hk r).trans (gk r), hr.trans gr, hf.trans gf⟩
    rw [List.foldl_cons, hv r l hl, Wave.getV_put _ _ _ _ _ _ _ ha hl]
    by_cases h1 : l ∈ rest ∧ d.toNat ≤ r ∧ r < d.toNat + regCount n
    · rw [if_pos h1, if_pos ⟨by simp [h1.1], h1.2⟩]
    · rw [if_neg h1]
      by_cases h2 : l = a ∧ d.toNat ≤ r ∧ r < d.toNat + regCount n
      · rw [if_pos h2, if_pos ⟨by simp [h2.1], h2.2⟩, h2.1]
      · rw [if_neg h2, if_neg]
        rintro ⟨hm, hrange⟩
        rcases List.mem_cons.1 hm with rfl | hm
        · exact h2 ⟨rfl, hrange⟩
        · exact h1 ⟨hm, hrange⟩

theorem putFold_other (e : Ext) (o : Opnd) (n : Nat) (ls : List Nat) (res : Nat → Num.Res) (w : Wave)
    (ho : ∀ l x, w.put o n l x = w) :
    ls.foldl (fun w l => w.put o n l (widen e.ty n (res l).bits)) w = w := by
  induction ls with
  | nil => rfl
  | cons a rest ih => rw [List.foldl_cons, ho, ih]

/-- Every destination after the results of distinct lanes; a scalar one has one lane at the most. -/
theorem laneWritten_putAll (w : Wave) (e : Ext) (n : Nat) (ls : List Nat) (res : Nat → Num.Res)
    (hls : ∀ l ∈ ls, l < 64) (hn : ls.Nodup) (h1 : ∀ d, e.d = .s d → ls = [] ∨ ∃ l, ls = [l]) :
    LaneWritten w ((w.putAll e n (ls.map fun l => (l, res l))).addStatus (statusOf (ls.map fun l => (l, res l))))
      e n ls res := by
  rw [statusOf_map]
  have hmap : ∀ o, (ls.map fun l => (l, res l)).foldl (fun w p => w.put o n p.1 (widen e.ty n p.2.bits)) w =
      ls.foldl (fun w l => w.put o n l (widen e.ty n (res l).bits)) w := fun o => List.foldl_map ..
  cases hd : e.d with
  | v d =>
    obtain ⟨hv, hs, hk, hr, hf⟩ := putFold_v e d n ls res w hls hn
    refine ⟨?_, ?_, ?_, ?_, ?_⟩ <;> simp only [Wave.putAll, hd, hmap, Wave.getV_addStatus, Wave.getS_addStatus, Wave.getK_addStatus,
      Wave.rest_addStatus]
    · exact hv
    · exact hs
    · exact hk
    · simp only [Wave.addStatus, hf]
    · exact hr
  | s d =>
    rcases h1 d hd with rfl | ⟨l, rfl⟩
    · refine ⟨?_, ?_, ?_, ?_, ?_⟩ <;> simp [Wave.putAll, hd, Wave.addStatus]
    · obtain ⟨gv, gk, gr, gf⟩ := w.put_s_frame d n l (widen e.ty n (res l).bits)
      refine ⟨?_, ?_, ?_, ?_, ?_⟩ <;> simp only [Wave.putAll, hd, hmap, Wave.getV_addStatus, Wave.getS_addStatus, Wave.getK_addStatus,
        Wave.rest_addStatus, List.foldl_cons, List.foldl_nil]
      · exact fun r l' _ => gv r l'
      · exact fun r => Wave.getS_put ..
      · exact gk
      · simp only [Wave.addStatus, gf]
      · exact gr
  | k d =>
    have hm : (ls.map fun l => (l, res l)).foldl (fun m p => if p.2.bits % 2 = 1 then m ||| laneBit p.1 else m) 0 =
        maskOf ls (fun l => (res l).bits % 2 == 1) := by
      rw [List.foldl_map]; simp [maskOf]
    refine ⟨?_, ?_, ?_, ?_, ?_⟩ <;> simp only [Wave.putAll, hd, hm, Wave.getV_addStatus, Wave.getS_addStatus, Wave.getK_addStatus,
      Wave.rest_addStatus, Wave.getV_setK, Wave.getS_setK, Wave.getK_setK, Wave.rest_setK, implies_true]
    · intro r
      by_cases h : r = d.toNat ∧ r ≠ 0
      · rw [if_pos h, if_pos ⟨h.1, h.1 ▸ h.2⟩]
      · rw [if_neg h, if_neg]
        rintro ⟨h1, h2⟩
        exact h ⟨h1, h1 ▸ h2⟩
    · simp [Wave.addStatus]
  | q d =>
    have := putFold_other e (.q d) n ls res w (fun _ _ => rfl)
    refine ⟨?_, ?_, ?_, ?_, ?_⟩ <;> simp only [Wave.putAll, hd, hmap, this, Wave.addStatus] <;> intros <;> rfl
  | lit =>
    have := putFold_other e .lit n ls res w (fun _ _ => rfl)
    refine ⟨?_, ?_, ?_, ?_, ?_⟩ <;> simp only [Wave.putAll, hd, hmap, this, Wave.addStatus] <;> intros <;> rfl

/-! ## The shared shapes -/

theorem State.withCur_of {s : State} {i : Issue} {w : Wave} {sp : Split} (h : Issuing s i w sp)
    (f : Issue → Wave → Split → State) : s.withCur f = f i w sp := by
  simp [State.withCur, h.cur, h.wave, h.split]

/-- The checks passed, the instruction acts. -/
theorem State.checked_of {s : State} {i : Issue} {w : Wave} {sp : Split} {u : Uses} (h : Issuing s i w sp)
    (hc : w.clear sp u = true) (f : Issue → Wave → Split → State) : s.checked u f = f i w sp := by
  simp only [Wave.clear, Bool.and_eq_true, Bool.not_eq_true'] at hc
  simp [State.checked, State.withCur_of h, hc.1.1, hc.1.2, hc.2]

/-- An instruction that acts once for its split acts when the split has an active lane, and has no effect otherwise. -/
theorem State.once_of {s : State} {i : Issue} {w : Wave} {sp : Split} {u : Uses} (h : Issuing s i w sp)
    (hc : w.clear sp u = true) (f : Issue → Wave → Split → State) :
    s.once u f = if w.active sp = 0 then s.done i w else f i w sp := by
  simp [State.once, State.checked_of h hc]

/-- How many draws a lane takes: none unless the rounding is stochastic (04 R65). -/
def drawCount (e : Ext) (nd : Nat) : Nat := if e.rnd = .sr then nd else 0

/-- A lane instruction whose checks have passed and whose draws are at hand: each acting lane's result stands in the
destination, and the split goes on. -/
theorem State.alu_of {s : State} {i : Issue} {w : Wave} {sp : Split} {f : Form} {e : Ext} {nd : Nat}
    (op : Wave → Nat → List Nat → Num.Res) (h : Issuing s i w sp) (hc : w.clear sp (usesOf f e) = true)
    (ha : hasVector f e = true ∨ w.active sp ≠ 0)
    (hb : s.drawsBlocked w.id.uid (if drawCount e nd = 0 then [] else w.actors sp e) = false) :
    ∃ w', s.alu f e nd op = (s.takeDraws w i (drawCount e nd) (w.actors sp e)).1.done i w' ∧
      LaneWritten w w' e (f.d.w.bits e) (w.actors sp e)
        (fun l => op w l ((s.takeDraws w i (drawCount e nd) (w.actors sp e)).2.getD l [])) := by
  refine ⟨_, ?_, laneWritten_putAll w e _ _ _ (w.actors_lt sp e) (w.actors_nodup sp e)
    (fun d hd => w.actors_scalar sp e d hd)⟩
  have hno : ¬((!hasVector f e) = true ∧ w.active sp = 0) := by
    rintro ⟨h1, h2⟩
    rcases ha with ha | ha
    · simp [ha] at h1
    · exact ha h2
  unfold drawCount at hb
  simp only [State.alu, State.checked_of h hc, hno, if_false, hb, drawCount, Bool.false_eq_true]

/-- A lane instruction with no vector operand has no effect in a split with no active lane (07 R144). -/
theorem State.alu_idle {s : State} {i : Issue} {w : Wave} {sp : Split} {f : Form} {e : Ext} {nd : Nat}
    (op : Wave → Nat → List Nat → Num.Res) (h : Issuing s i w sp) (hc : w.clear sp (usesOf f e) = true)
    (hv : hasVector f e = false) (ha : w.active sp = 0) : s.alu f e nd op = s.done i w := by
  simp [State.alu, State.checked_of h hc, hv, ha]

end Sys2Proof.Machine
end

