-- ==== Sys2Proof/Laws/State.lean ====
section
/-! SUPPORT. What the updates of the state and of a wave leave in each field: one lemma for each field of each update,
so that no proof unfolds a record update. -/

namespace Sys2Proof.Machine

open Sys2Proof

/-! ## Updates of the state -/

@[simp] theorem State.setWave_agenda (s : State) (k : Nat) (w : Wave) : (s.setWave k w).agenda = s.agenda := rfl
@[simp] theorem State.setWave_subject (s : State) (k : Nat) (w : Wave) : (s.setWave k w).subject = s.subject := rfl
@[simp] theorem State.setWave_picks (s : State) (k : Nat) (w : Wave) : (s.setWave k w).picks = s.picks := rfl
@[simp] theorem State.setWave_focus (s : State) (k : Nat) (w : Wave) : (s.setWave k w).focus = s.focus := rfl
@[simp] theorem State.setWave_cur (s : State) (k : Nat) (w : Wave) : (s.setWave k w).cur = s.cur := rfl
@[simp] theorem State.setWave_fresh (s : State) (k : Nat) (w : Wave) : (s.setWave k w).fresh = s.fresh := rfl
@[simp] theorem State.setWave_nextId (s : State) (k : Nat) (w : Wave) : (s.setWave k w).nextId = s.nextId := rfl
@[simp] theorem State.setWave_clock (s : State) (k : Nat) (w : Wave) : (s.setWave k w).clock = s.clock := rfl
@[simp] theorem State.setWave_ctxs (s : State) (k : Nat) (w : Wave) : (s.setWave k w).ctxs = s.ctxs := rfl
@[simp] theorem State.setWave_groups (s : State) (k : Nat) (w : Wave) : (s.setWave k w).groups = s.groups := rfl
@[simp] theorem State.setWave_grids (s : State) (k : Nat) (w : Wave) : (s.setWave k w).grids = s.grids := rfl
@[simp] theorem State.setWave_mem (s : State) (k : Nat) (w : Wave) : (s.setWave k w).mem = s.mem := rfl
@[simp] theorem State.setWave_sp (s : State) (k : Nat) (w : Wave) : (s.setWave k w).sp = s.sp := rfl
@[simp] theorem State.setWave_qm (s : State) (k : Nat) (w : Wave) : (s.setWave k w).qm = s.qm := rfl
@[simp] theorem State.setWave_cal (s : State) (k : Nat) (w : Wave) : (s.setWave k w).cal = s.cal := rfl
@[simp] theorem State.setWave_slice (s : State) (k : Nat) (w : Wave) : (s.setWave k w).slice = s.slice := rfl
@[simp] theorem State.setWave_ls (s : State) (k : Nat) (w : Wave) : (s.setWave k w).ls = s.ls := rfl
@[simp] theorem State.setWave_ops (s : State) (k : Nat) (w : Wave) : (s.setWave k w).ops = s.ops := rfl
@[simp] theorem State.setWave_lq (s : State) (k : Nat) (w : Wave) : (s.setWave k w).lq = s.lq := rfl
@[simp] theorem State.setWave_cb (s : State) (k : Nat) (w : Wave) : (s.setWave k w).cb = s.cb := rfl
@[simp] theorem State.setWave_dw (s : State) (k : Nat) (w : Wave) : (s.setWave k w).dw = s.dw := rfl
@[simp] theorem State.setWave_pq (s : State) (k : Nat) (w : Wave) : (s.setWave k w).pq = s.pq := rfl
@[simp] theorem State.setWave_ds (s : State) (k : Nat) (w : Wave) : (s.setWave k w).ds = s.ds := rfl
@[simp] theorem State.setWave_parts (s : State) (k : Nat) (w : Wave) : (s.setWave k w).parts = s.parts := rfl
@[simp] theorem State.setWave_combs (s : State) (k : Nat) (w : Wave) : (s.setWave k w).combs = s.combs := rfl
@[simp] theorem State.setWave_fences (s : State) (k : Nat) (w : Wave) : (s.setWave k w).fences = s.fences := rfl
@[simp] theorem State.setWave_entries (s : State) (k : Nat) (w : Wave) : (s.setWave k w).entries = s.entries := rfl
@[simp] theorem State.setWave_stops (s : State) (k : Nat) (w : Wave) : (s.setWave k w).stops = s.stops := rfl
@[simp] theorem State.setWave_tokens (s : State) (k : Nat) (w : Wave) : (s.setWave k w).tokens = s.tokens := rfl
@[simp] theorem State.setWave_tiles (s : State) (k : Nat) (w : Wave) : (s.setWave k w).tiles = s.tiles := rfl
@[simp] theorem State.setWave_joins (s : State) (k : Nat) (w : Wave) : (s.setWave k w).joins = s.joins := rfl
@[simp] theorem State.setWave_seqs (s : State) (k : Nat) (w : Wave) : (s.setWave k w).seqs = s.seqs := rfl
@[simp] theorem State.setWave_rays (s : State) (k : Nat) (w : Wave) : (s.setWave k w).rays = s.rays := rfl
@[simp] theorem State.setWave_jobs (s : State) (k : Nat) (w : Wave) : (s.setWave k w).jobs = s.jobs := rfl
@[simp] theorem State.setWave_bins (s : State) (k : Nat) (w : Wave) : (s.setWave k w).bins = s.bins := rfl
@[simp] theorem State.setWave_batches (s : State) (k : Nat) (w : Wave) : (s.setWave k w).batches = s.batches := rfl
@[simp] theorem State.setWave_paths (s : State) (k : Nat) (w : Wave) : (s.setWave k w).paths = s.paths := rfl
@[simp] theorem State.setWave_xswaps (s : State) (k : Nat) (w : Wave) : (s.setWave k w).xswaps = s.xswaps := rfl
@[simp] theorem State.setWave_barriers (s : State) (k : Nat) (w : Wave) : (s.setWave k w).barriers = s.barriers := rfl
@[simp] theorem State.setWave_icache (s : State) (k : Nat) (w : Wave) : (s.setWave k w).icache = s.icache := rfl
@[simp] theorem State.setWave_tlb (s : State) (k : Nat) (w : Wave) : (s.setWave k w).tlb = s.tlb := rfl
@[simp] theorem State.setWave_dicts (s : State) (k : Nat) (w : Wave) : (s.setWave k w).dicts = s.dicts := rfl
@[simp] theorem State.setWave_tenants (s : State) (k : Nat) (w : Wave) : (s.setWave k w).tenants = s.tenants := rfl
@[simp] theorem State.setWave_nodes (s : State) (k : Nat) (w : Wave) : (s.setWave k w).nodes = s.nodes := rfl
@[simp] theorem State.setWave_releases (s : State) (k : Nat) (w : Wave) : (s.setWave k w).releases = s.releases := rfl
@[simp] theorem State.setWave_messages (s : State) (k : Nat) (w : Wave) : (s.setWave k w).messages = s.messages := rfl
@[simp] theorem State.setWave_outbound (s : State) (k : Nat) (w : Wave) : (s.setWave k w).outbound = s.outbound := rfl
@[simp] theorem State.setWave_turns (s : State) (k : Nat) (w : Wave) : (s.setWave k w).turns = s.turns := rfl
@[simp] theorem State.setWave_blocks (s : State) (k : Nat) (w : Wave) : (s.setWave k w).blocks = s.blocks := rfl
@[simp] theorem State.setWave_held (s : State) (k : Nat) (w : Wave) : (s.setWave k w).held = s.held := rfl
@[simp] theorem State.setWave_mgmt (s : State) (k : Nat) (w : Wave) : (s.setWave k w).mgmt = s.mgmt := rfl
@[simp] theorem State.setWave_answer (s : State) (k : Nat) (w : Wave) : (s.setWave k w).answer = s.answer := rfl
@[simp] theorem State.setWave_answerPoison (s : State) (k : Nat) (w : Wave) : (s.setWave k w).answerPoison = s.answerPoison := rfl
@[simp] theorem State.setWave_poison (s : State) (k : Nat) (w : Wave) : (s.setWave k w).poison = s.poison := rfl
@[simp] theorem State.setWave_struck (s : State) (k : Nat) (w : Wave) : (s.setWave k w).struck = s.struck := rfl
@[simp] theorem State.setWave_paused (s : State) (k : Nat) (w : Wave) : (s.setWave k w).paused = s.paused := rfl
@[simp] theorem State.setWave_stalled (s : State) (k : Nat) (w : Wave) : (s.setWave k w).stalled = s.stalled := rfl
@[simp] theorem State.setWave_badWords (s : State) (k : Nat) (w : Wave) : (s.setWave k w).badWords = s.badWords := rfl
@[simp] theorem State.setWave_badCopies (s : State) (k : Nat) (w : Wave) : (s.setWave k w).badCopies = s.badCopies := rfl
@[simp] theorem State.setWave_badFetch (s : State) (k : Nat) (w : Wave) : (s.setWave k w).badFetch = s.badFetch := rfl
@[simp] theorem State.setWave_awaited (s : State) (k : Nat) (w : Wave) : (s.setWave k w).awaited = s.awaited := rfl
@[simp] theorem State.setWave_waves (s : State) (k : Nat) (w : Wave) : (s.setWave k w).waves = SMap.insert s.waves k w := rfl

@[simp] theorem State.setCtx_agenda (s : State) (u : Nat) (c : Ctx) : (s.setCtx u c).agenda = s.agenda := rfl
@[simp] theorem State.setCtx_subject (s : State) (u : Nat) (c : Ctx) : (s.setCtx u c).subject = s.subject := rfl
@[simp] theorem State.setCtx_picks (s : State) (u : Nat) (c : Ctx) : (s.setCtx u c).picks = s.picks := rfl
@[simp] theorem State.setCtx_focus (s : State) (u : Nat) (c : Ctx) : (s.setCtx u c).focus = s.focus := rfl
@[simp] theorem State.setCtx_cur (s : State) (u : Nat) (c : Ctx) : (s.setCtx u c).cur = s.cur := rfl
@[simp] theorem State.setCtx_fresh (s : State) (u : Nat) (c : Ctx) : (s.setCtx u c).fresh = s.fresh := rfl
@[simp] theorem State.setCtx_nextId (s : State) (u : Nat) (c : Ctx) : (s.setCtx u c).nextId = s.nextId := rfl
@[simp] theorem State.setCtx_clock (s : State) (u : Nat) (c : Ctx) : (s.setCtx u c).clock = s.clock := rfl
@[simp] theorem State.setCtx_waves (s : State) (u : Nat) (c : Ctx) : (s.setCtx u c).waves = s.waves := rfl
@[simp] theorem State.setCtx_groups (s : State) (u : Nat) (c : Ctx) : (s.setCtx u c).groups = s.groups := rfl
@[simp] theorem State.setCtx_grids (s : State) (u : Nat) (c : Ctx) : (s.setCtx u c).grids = s.grids := rfl
@[simp] theorem State.setCtx_mem (s : State) (u : Nat) (c : Ctx) : (s.setCtx u c).mem = s.mem := rfl
@[simp] theorem State.setCtx_sp (s : State) (u : Nat) (c : Ctx) : (s.setCtx u c).sp = s.sp := rfl
@[simp] theorem State.setCtx_qm (s : State) (u : Nat) (c : Ctx) : (s.setCtx u c).qm = s.qm := rfl
@[simp] theorem State.setCtx_cal (s : State) (u : Nat) (c : Ctx) : (s.setCtx u c).cal = s.cal := rfl
@[simp] theorem State.setCtx_slice (s : State) (u : Nat) (c : Ctx) : (s.setCtx u c).slice = s.slice := rfl
@[simp] theorem State.setCtx_ls (s : State) (u : Nat) (c : Ctx) : (s.setCtx u c).ls = s.ls := rfl
@[simp] theorem State.setCtx_ops (s : State) (u : Nat) (c : Ctx) : (s.setCtx u c).ops = s.ops := rfl
@[simp] theorem State.setCtx_lq (s : State) (u : Nat) (c : Ctx) : (s.setCtx u c).lq = s.lq := rfl
@[simp] theorem State.setCtx_cb (s : State) (u : Nat) (c : Ctx) : (s.setCtx u c).cb = s.cb := rfl
@[simp] theorem State.setCtx_dw (s : State) (u : Nat) (c : Ctx) : (s.setCtx u c).dw = s.dw := rfl
@[simp] theorem State.setCtx_pq (s : State) (u : Nat) (c : Ctx) : (s.setCtx u c).pq = s.pq := rfl
@[simp] theorem State.setCtx_ds (s : State) (u : Nat) (c : Ctx) : (s.setCtx u c).ds = s.ds := rfl
@[simp] theorem State.setCtx_parts (s : State) (u : Nat) (c : Ctx) : (s.setCtx u c).parts = s.parts := rfl
@[simp] theorem State.setCtx_combs (s : State) (u : Nat) (c : Ctx) : (s.setCtx u c).combs = s.combs := rfl
@[simp] theorem State.setCtx_fences (s : State) (u : Nat) (c : Ctx) : (s.setCtx u c).fences = s.fences := rfl
@[simp] theorem State.setCtx_entries (s : State) (u : Nat) (c : Ctx) : (s.setCtx u c).entries = s.entries := rfl
@[simp] theorem State.setCtx_stops (s : State) (u : Nat) (c : Ctx) : (s.setCtx u c).stops = s.stops := rfl
@[simp] theorem State.setCtx_tokens (s : State) (u : Nat) (c : Ctx) : (s.setCtx u c).tokens = s.tokens := rfl
@[simp] theorem State.setCtx_tiles (s : State) (u : Nat) (c : Ctx) : (s.setCtx u c).tiles = s.tiles := rfl
@[simp] theorem State.setCtx_joins (s : State) (u : Nat) (c : Ctx) : (s.setCtx u c).joins = s.joins := rfl
@[simp] theorem State.setCtx_seqs (s : State) (u : Nat) (c : Ctx) : (s.setCtx u c).seqs = s.seqs := rfl
@[simp] theorem State.setCtx_rays (s : State) (u : Nat) (c : Ctx) : (s.setCtx u c).rays = s.rays := rfl
@[simp] theorem State.setCtx_jobs (s : State) (u : Nat) (c : Ctx) : (s.setCtx u c).jobs = s.jobs := rfl
@[simp] theorem State.setCtx_bins (s : State) (u : Nat) (c : Ctx) : (s.setCtx u c).bins = s.bins := rfl
@[simp] theorem State.setCtx_batches (s : State) (u : Nat) (c : Ctx) : (s.setCtx u c).batches = s.batches := rfl
@[simp] theorem State.setCtx_paths (s : State) (u : Nat) (c : Ctx) : (s.setCtx u c).paths = s.paths := rfl
@[simp] theorem State.setCtx_xswaps (s : State) (u : Nat) (c : Ctx) : (s.setCtx u c).xswaps = s.xswaps := rfl
@[simp] theorem State.setCtx_barriers (s : State) (u : Nat) (c : Ctx) : (s.setCtx u c).barriers = s.barriers := rfl
@[simp] theorem State.setCtx_icache (s : State) (u : Nat) (c : Ctx) : (s.setCtx u c).icache = s.icache := rfl
@[simp] theorem State.setCtx_tlb (s : State) (u : Nat) (c : Ctx) : (s.setCtx u c).tlb = s.tlb := rfl
@[simp] theorem State.setCtx_dicts (s : State) (u : Nat) (c : Ctx) : (s.setCtx u c).dicts = s.dicts := rfl
@[simp] theorem State.setCtx_tenants (s : State) (u : Nat) (c : Ctx) : (s.setCtx u c).tenants = s.tenants := rfl
@[simp] theorem State.setCtx_nodes (s : State) (u : Nat) (c : Ctx) : (s.setCtx u c).nodes = s.nodes := rfl
@[simp] theorem State.setCtx_releases (s : State) (u : Nat) (c : Ctx) : (s.setCtx u c).releases = s.releases := rfl
@[simp] theorem State.setCtx_messages (s : State) (u : Nat) (c : Ctx) : (s.setCtx u c).messages = s.messages := rfl
@[simp] theorem State.setCtx_outbound (s : State) (u : Nat) (c : Ctx) : (s.setCtx u c).outbound = s.outbound := rfl
@[simp] theorem State.setCtx_turns (s : State) (u : Nat) (c : Ctx) : (s.setCtx u c).turns = s.turns := rfl
@[simp] theorem State.setCtx_blocks (s : State) (u : Nat) (c : Ctx) : (s.setCtx u c).blocks = s.blocks := rfl
@[simp] theorem State.setCtx_held (s : State) (u : Nat) (c : Ctx) : (s.setCtx u c).held = s.held := rfl
@[simp] theorem State.setCtx_mgmt (s : State) (u : Nat) (c : Ctx) : (s.setCtx u c).mgmt = s.mgmt := rfl
@[simp] theorem State.setCtx_answer (s : State) (u : Nat) (c : Ctx) : (s.setCtx u c).answer = s.answer := rfl
@[simp] theorem State.setCtx_answerPoison (s : State) (u : Nat) (c : Ctx) : (s.setCtx u c).answerPoison = s.answerPoison := rfl
@[simp] theorem State.setCtx_poison (s : State) (u : Nat) (c : Ctx) : (s.setCtx u c).poison = s.poison := rfl
@[simp] theorem State.setCtx_struck (s : State) (u : Nat) (c : Ctx) : (s.setCtx u c).struck = s.struck := rfl
@[simp] theorem State.setCtx_paused (s : State) (u : Nat) (c : Ctx) : (s.setCtx u c).paused = s.paused := rfl
@[simp] theorem State.setCtx_stalled (s : State) (u : Nat) (c : Ctx) : (s.setCtx u c).stalled = s.stalled := rfl
@[simp] theorem State.setCtx_badWords (s : State) (u : Nat) (c : Ctx) : (s.setCtx u c).badWords = s.badWords := rfl
@[simp] theorem State.setCtx_badCopies (s : State) (u : Nat) (c : Ctx) : (s.setCtx u c).badCopies = s.badCopies := rfl
@[simp] theorem State.setCtx_badFetch (s : State) (u : Nat) (c : Ctx) : (s.setCtx u c).badFetch = s.badFetch := rfl
@[simp] theorem State.setCtx_awaited (s : State) (u : Nat) (c : Ctx) : (s.setCtx u c).awaited = s.awaited := rfl
@[simp] theorem State.setCtx_ctxs (s : State) (u : Nat) (c : Ctx) : (s.setCtx u c).ctxs = SMap.insert s.ctxs u c := rfl

@[simp] theorem State.setTenant_agenda (s : State) (t : Nat) (x : Tenant) : (s.setTenant t x).agenda = s.agenda := rfl
@[simp] theorem State.setTenant_subject (s : State) (t : Nat) (x : Tenant) : (s.setTenant t x).subject = s.subject := rfl
@[simp] theorem State.setTenant_picks (s : State) (t : Nat) (x : Tenant) : (s.setTenant t x).picks = s.picks := rfl
@[simp] theorem State.setTenant_focus (s : State) (t : Nat) (x : Tenant) : (s.setTenant t x).focus = s.focus := rfl
@[simp] theorem State.setTenant_cur (s : State) (t : Nat) (x : Tenant) : (s.setTenant t x).cur = s.cur := rfl
@[simp] theorem State.setTenant_fresh (s : State) (t : Nat) (x : Tenant) : (s.setTenant t x).fresh = s.fresh := rfl
@[simp] theorem State.setTenant_nextId (s : State) (t : Nat) (x : Tenant) : (s.setTenant t x).nextId = s.nextId := rfl
@[simp] theorem State.setTenant_clock (s : State) (t : Nat) (x : Tenant) : (s.setTenant t x).clock = s.clock := rfl
@[simp] theorem State.setTenant_waves (s : State) (t : Nat) (x : Tenant) : (s.setTenant t x).waves = s.waves := rfl
@[simp] theorem State.setTenant_ctxs (s : State) (t : Nat) (x : Tenant) : (s.setTenant t x).ctxs = s.ctxs := rfl
@[simp] theorem State.setTenant_groups (s : State) (t : Nat) (x : Tenant) : (s.setTenant t x).groups = s.groups := rfl
@[simp] theorem State.setTenant_grids (s : State) (t : Nat) (x : Tenant) : (s.setTenant t x).grids = s.grids := rfl
@[simp] theorem State.setTenant_mem (s : State) (t : Nat) (x : Tenant) : (s.setTenant t x).mem = s.mem := rfl
@[simp] theorem State.setTenant_sp (s : State) (t : Nat) (x : Tenant) : (s.setTenant t x).sp = s.sp := rfl
@[simp] theorem State.setTenant_qm (s : State) (t : Nat) (x : Tenant) : (s.setTenant t x).qm = s.qm := rfl
@[simp] theorem State.setTenant_cal (s : State) (t : Nat) (x : Tenant) : (s.setTenant t x).cal = s.cal := rfl
@[simp] theorem State.setTenant_slice (s : State) (t : Nat) (x : Tenant) : (s.setTenant t x).slice = s.slice := rfl
@[simp] theorem State.setTenant_ls (s : State) (t : Nat) (x : Tenant) : (s.setTenant t x).ls = s.ls := rfl
@[simp] theorem State.setTenant_ops (s : State) (t : Nat) (x : Tenant) : (s.setTenant t x).ops = s.ops := rfl
@[simp] theorem State.setTenant_lq (s : State) (t : Nat) (x : Tenant) : (s.setTenant t x).lq = s.lq := rfl
@[simp] theorem State.setTenant_cb (s : State) (t : Nat) (x : Tenant) : (s.setTenant t x).cb = s.cb := rfl
@[simp] theorem State.setTenant_dw (s : State) (t : Nat) (x : Tenant) : (s.setTenant t x).dw = s.dw := rfl
@[simp] theorem State.setTenant_pq (s : State) (t : Nat) (x : Tenant) : (s.setTenant t x).pq = s.pq := rfl
@[simp] theorem State.setTenant_ds (s : State) (t : Nat) (x : Tenant) : (s.setTenant t x).ds = s.ds := rfl
@[simp] theorem State.setTenant_parts (s : State) (t : Nat) (x : Tenant) : (s.setTenant t x).parts = s.parts := rfl
@[simp] theorem State.setTenant_combs (s : State) (t : Nat) (x : Tenant) : (s.setTenant t x).combs = s.combs := rfl
@[simp] theorem State.setTenant_fences (s : State) (t : Nat) (x : Tenant) : (s.setTenant t x).fences = s.fences := rfl
@[simp] theorem State.setTenant_entries (s : State) (t : Nat) (x : Tenant) : (s.setTenant t x).entries = s.entries := rfl
@[simp] theorem State.setTenant_stops (s : State) (t : Nat) (x : Tenant) : (s.setTenant t x).stops = s.stops := rfl
@[simp] theorem State.setTenant_tokens (s : State) (t : Nat) (x : Tenant) : (s.setTenant t x).tokens = s.tokens := rfl
@[simp] theorem State.setTenant_tiles (s : State) (t : Nat) (x : Tenant) : (s.setTenant t x).tiles = s.tiles := rfl
@[simp] theorem State.setTenant_joins (s : State) (t : Nat) (x : Tenant) : (s.setTenant t x).joins = s.joins := rfl
@[simp] theorem State.setTenant_seqs (s : State) (t : Nat) (x : Tenant) : (s.setTenant t x).seqs = s.seqs := rfl
@[simp] theorem State.setTenant_rays (s : State) (t : Nat) (x : Tenant) : (s.setTenant t x).rays = s.rays := rfl
@[simp] theorem State.setTenant_jobs (s : State) (t : Nat) (x : Tenant) : (s.setTenant t x).jobs = s.jobs := rfl
@[simp] theorem State.setTenant_bins (s : State) (t : Nat) (x : Tenant) : (s.setTenant t x).bins = s.bins := rfl
@[simp] theorem State.setTenant_batches (s : State) (t : Nat) (x : Tenant) : (s.setTenant t x).batches = s.batches := rfl
@[simp] theorem State.setTenant_paths (s : State) (t : Nat) (x : Tenant) : (s.setTenant t x).paths = s.paths := rfl
@[simp] theorem State.setTenant_xswaps (s : State) (t : Nat) (x : Tenant) : (s.setTenant t x).xswaps = s.xswaps := rfl
@[simp] theorem State.setTenant_barriers (s : State) (t : Nat) (x : Tenant) : (s.setTenant t x).barriers = s.barriers := rfl
@[simp] theorem State.setTenant_icache (s : State) (t : Nat) (x : Tenant) : (s.setTenant t x).icache = s.icache := rfl
@[simp] theorem State.setTenant_tlb (s : State) (t : Nat) (x : Tenant) : (s.setTenant t x).tlb = s.tlb := rfl
@[simp] theorem State.setTenant_dicts (s : State) (t : Nat) (x : Tenant) : (s.setTenant t x).dicts = s.dicts := rfl
@[simp] theorem State.setTenant_nodes (s : State) (t : Nat) (x : Tenant) : (s.setTenant t x).nodes = s.nodes := rfl
@[simp] theorem State.setTenant_releases (s : State) (t : Nat) (x : Tenant) : (s.setTenant t x).releases = s.releases := rfl
@[simp] theorem State.setTenant_messages (s : State) (t : Nat) (x : Tenant) : (s.setTenant t x).messages = s.messages := rfl
@[simp] theorem State.setTenant_outbound (s : State) (t : Nat) (x : Tenant) : (s.setTenant t x).outbound = s.outbound := rfl
@[simp] theorem State.setTenant_turns (s : State) (t : Nat) (x : Tenant) : (s.setTenant t x).turns = s.turns := rfl
@[simp] theorem State.setTenant_blocks (s : State) (t : Nat) (x : Tenant) : (s.setTenant t x).blocks = s.blocks := rfl
@[simp] theorem State.setTenant_held (s : State) (t : Nat) (x : Tenant) : (s.setTenant t x).held = s.held := rfl
@[simp] theorem State.setTenant_mgmt (s : State) (t : Nat) (x : Tenant) : (s.setTenant t x).mgmt = s.mgmt := rfl
@[simp] theorem State.setTenant_answer (s : State) (t : Nat) (x : Tenant) : (s.setTenant t x).answer = s.answer := rfl
@[simp] theorem State.setTenant_answerPoison (s : State) (t : Nat) (x : Tenant) : (s.setTenant t x).answerPoison = s.answerPoison := rfl
@[simp] theorem State.setTenant_poison (s : State) (t : Nat) (x : Tenant) : (s.setTenant t x).poison = s.poison := rfl
@[simp] theorem State.setTenant_struck (s : State) (t : Nat) (x : Tenant) : (s.setTenant t x).struck = s.struck := rfl
@[simp] theorem State.setTenant_paused (s : State) (t : Nat) (x : Tenant) : (s.setTenant t x).paused = s.paused := rfl
@[simp] theorem State.setTenant_stalled (s : State) (t : Nat) (x : Tenant) : (s.setTenant t x).stalled = s.stalled := rfl
@[simp] theorem State.setTenant_badWords (s : State) (t : Nat) (x : Tenant) : (s.setTenant t x).badWords = s.badWords := rfl
@[simp] theorem State.setTenant_badCopies (s : State) (t : Nat) (x : Tenant) : (s.setTenant t x).badCopies = s.badCopies := rfl
@[simp] theorem State.setTenant_badFetch (s : State) (t : Nat) (x : Tenant) : (s.setTenant t x).badFetch = s.badFetch := rfl
@[simp] theorem State.setTenant_awaited (s : State) (t : Nat) (x : Tenant) : (s.setTenant t x).awaited = s.awaited := rfl
@[simp] theorem State.setTenant_tenants (s : State) (t : Nat) (x : Tenant) : (s.setTenant t x).tenants = SMap.write {} s.tenants t x := rfl

@[simp] theorem State.bump_agenda (s : State)  : (s.bump).agenda = s.agenda := rfl
@[simp] theorem State.bump_subject (s : State)  : (s.bump).subject = s.subject := rfl
@[simp] theorem State.bump_picks (s : State)  : (s.bump).picks = s.picks := rfl
@[simp] theorem State.bump_focus (s : State)  : (s.bump).focus = s.focus := rfl
@[simp] theorem State.bump_cur (s : State)  : (s.bump).cur = s.cur := rfl
@[simp] theorem State.bump_fresh (s : State)  : (s.bump).fresh = s.fresh := rfl
@[simp] theorem State.bump_clock (s : State)  : (s.bump).clock = s.clock := rfl
@[simp] theorem State.bump_waves (s : State)  : (s.bump).waves = s.waves := rfl
@[simp] theorem State.bump_ctxs (s : State)  : (s.bump).ctxs = s.ctxs := rfl
@[simp] theorem State.bump_groups (s : State)  : (s.bump).groups = s.groups := rfl
@[simp] theorem State.bump_grids (s : State)  : (s.bump).grids = s.grids := rfl
@[simp] theorem State.bump_mem (s : State)  : (s.bump).mem = s.mem := rfl
@[simp] theorem State.bump_sp (s : State)  : (s.bump).sp = s.sp := rfl
@[simp] theorem State.bump_qm (s : State)  : (s.bump).qm = s.qm := rfl
@[simp] theorem State.bump_cal (s : State)  : (s.bump).cal = s.cal := rfl
@[simp] theorem State.bump_slice (s : State)  : (s.bump).slice = s.slice := rfl
@[simp] theorem State.bump_ls (s : State)  : (s.bump).ls = s.ls := rfl
@[simp] theorem State.bump_ops (s : State)  : (s.bump).ops = s.ops := rfl
@[simp] theorem State.bump_lq (s : State)  : (s.bump).lq = s.lq := rfl
@[simp] theorem State.bump_cb (s : State)  : (s.bump).cb = s.cb := rfl
@[simp] theorem State.bump_dw (s : State)  : (s.bump).dw = s.dw := rfl
@[simp] theorem State.bump_pq (s : State)  : (s.bump).pq = s.pq := rfl
@[simp] theorem State.bump_ds (s : State)  : (s.bump).ds = s.ds := rfl
@[simp] theorem State.bump_parts (s : State)  : (s.bump).parts = s.parts := rfl
@[simp] theorem State.bump_combs (s : State)  : (s.bump).combs = s.combs := rfl
@[simp] theorem State.bump_fences (s : State)  : (s.bump).fences = s.fences := rfl
@[simp] theorem State.bump_entries (s : State)  : (s.bump).entries = s.entries := rfl
@[simp] theorem State.bump_stops (s : State)  : (s.bump).stops = s.stops := rfl
@[simp] theorem State.bump_tokens (s : State)  : (s.bump).tokens = s.tokens := rfl
@[simp] theorem State.bump_tiles (s : State)  : (s.bump).tiles = s.tiles := rfl
@[simp] theorem State.bump_joins (s : State)  : (s.bump).joins = s.joins := rfl
@[simp] theorem State.bump_seqs (s : State)  : (s.bump).seqs = s.seqs := rfl
@[simp] theorem State.bump_rays (s : State)  : (s.bump).rays = s.rays := rfl
@[simp] theorem State.bump_jobs (s : State)  : (s.bump).jobs = s.jobs := rfl
@[simp] theorem State.bump_bins (s : State)  : (s.bump).bins = s.bins := rfl
@[simp] theorem State.bump_batches (s : State)  : (s.bump).batches = s.batches := rfl
@[simp] theorem State.bump_paths (s : State)  : (s.bump).paths = s.paths := rfl
@[simp] theorem State.bump_xswaps (s : State)  : (s.bump).xswaps = s.xswaps := rfl
@[simp] theorem State.bump_barriers (s : State)  : (s.bump).barriers = s.barriers := rfl
@[simp] theorem State.bump_icache (s : State)  : (s.bump).icache = s.icache := rfl
@[simp] theorem State.bump_tlb (s : State)  : (s.bump).tlb = s.tlb := rfl
@[simp] theorem State.bump_dicts (s : State)  : (s.bump).dicts = s.dicts := rfl
@[simp] theorem State.bump_tenants (s : State)  : (s.bump).tenants = s.tenants := rfl
@[simp] theorem State.bump_nodes (s : State)  : (s.bump).nodes = s.nodes := rfl
@[simp] theorem State.bump_releases (s : State)  : (s.bump).releases = s.releases := rfl
@[simp] theorem State.bump_messages (s : State)  : (s.bump).messages = s.messages := rfl
@[simp] theorem State.bump_outbound (s : State)  : (s.bump).outbound = s.outbound := rfl
@[simp] theorem State.bump_turns (s : State)  : (s.bump).turns = s.turns := rfl
@[simp] theorem State.bump_blocks (s : State)  : (s.bump).blocks = s.blocks := rfl
@[simp] theorem State.bump_held (s : State)  : (s.bump).held = s.held := rfl
@[simp] theorem State.bump_mgmt (s : State)  : (s.bump).mgmt = s.mgmt := rfl
@[simp] theorem State.bump_answer (s : State)  : (s.bump).answer = s.answer := rfl
@[simp] theorem State.bump_answerPoison (s : State)  : (s.bump).answerPoison = s.answerPoison := rfl
@[simp] theorem State.bump_poison (s : State)  : (s.bump).poison = s.poison := rfl
@[simp] theorem State.bump_struck (s : State)  : (s.bump).struck = s.struck := rfl
@[simp] theorem State.bump_paused (s : State)  : (s.bump).paused = s.paused := rfl
@[simp] theorem State.bump_stalled (s : State)  : (s.bump).stalled = s.stalled := rfl
@[simp] theorem State.bump_badWords (s : State)  : (s.bump).badWords = s.badWords := rfl
@[simp] theorem State.bump_badCopies (s : State)  : (s.bump).badCopies = s.badCopies := rfl
@[simp] theorem State.bump_badFetch (s : State)  : (s.bump).badFetch = s.badFetch := rfl
@[simp] theorem State.bump_awaited (s : State)  : (s.bump).awaited = s.awaited := rfl
@[simp] theorem State.bump_nextId (s : State) : s.bump.nextId = s.nextId + 1 := rfl

@[simp] theorem State.done_agenda (s : State) (i : Issue) (w : Wave) : (s.done i w).agenda = s.agenda := rfl
@[simp] theorem State.done_subject (s : State) (i : Issue) (w : Wave) : (s.done i w).subject = s.subject := rfl
@[simp] theorem State.done_picks (s : State) (i : Issue) (w : Wave) : (s.done i w).picks = s.picks := rfl
@[simp] theorem State.done_focus (s : State) (i : Issue) (w : Wave) : (s.done i w).focus = s.focus := rfl
@[simp] theorem State.done_cur (s : State) (i : Issue) (w : Wave) : (s.done i w).cur = s.cur := rfl
@[simp] theorem State.done_fresh (s : State) (i : Issue) (w : Wave) : (s.done i w).fresh = s.fresh := rfl
@[simp] theorem State.done_nextId (s : State) (i : Issue) (w : Wave) : (s.done i w).nextId = s.nextId := rfl
@[simp] theorem State.done_clock (s : State) (i : Issue) (w : Wave) : (s.done i w).clock = s.clock := rfl
@[simp] theorem State.done_ctxs (s : State) (i : Issue) (w : Wave) : (s.done i w).ctxs = s.ctxs := rfl
@[simp] theorem State.done_groups (s : State) (i : Issue) (w : Wave) : (s.done i w).groups = s.groups := rfl
@[simp] theorem State.done_grids (s : State) (i : Issue) (w : Wave) : (s.done i w).grids = s.grids := rfl
@[simp] theorem State.done_mem (s : State) (i : Issue) (w : Wave) : (s.done i w).mem = s.mem := rfl
@[simp] theorem State.done_sp (s : State) (i : Issue) (w : Wave) : (s.done i w).sp = s.sp := rfl
@[simp] theorem State.done_qm (s : State) (i : Issue) (w : Wave) : (s.done i w).qm = s.qm := rfl
@[simp] theorem State.done_cal (s : State) (i : Issue) (w : Wave) : (s.done i w).cal = s.cal := rfl
@[simp] theorem State.done_slice (s : State) (i : Issue) (w : Wave) : (s.done i w).slice = s.slice := rfl
@[simp] theorem State.done_ls (s : State) (i : Issue) (w : Wave) : (s.done i w).ls = s.ls := rfl
@[simp] theorem State.done_ops (s : State) (i : Issue) (w : Wave) : (s.done i w).ops = s.ops := rfl
@[simp] theorem State.done_lq (s : State) (i : Issue) (w : Wave) : (s.done i w).lq = s.lq := rfl
@[simp] theorem State.done_cb (s : State) (i : Issue) (w : Wave) : (s.done i w).cb = s.cb := rfl
@[simp] theorem State.done_dw (s : State) (i : Issue) (w : Wave) : (s.done i w).dw = s.dw := rfl
@[simp] theorem State.done_pq (s : State) (i : Issue) (w : Wave) : (s.done i w).pq = s.pq := rfl
@[simp] theorem State.done_ds (s : State) (i : Issue) (w : Wave) : (s.done i w).ds = s.ds := rfl
@[simp] theorem State.done_parts (s : State) (i : Issue) (w : Wave) : (s.done i w).parts = s.parts := rfl
@[simp] theorem State.done_combs (s : State) (i : Issue) (w : Wave) : (s.done i w).combs = s.combs := rfl
@[simp] theorem State.done_fences (s : State) (i : Issue) (w : Wave) : (s.done i w).fences = s.fences := rfl
@[simp] theorem State.done_entries (s : State) (i : Issue) (w : Wave) : (s.done i w).entries = s.entries := rfl
@[simp] theorem State.done_stops (s : State) (i : Issue) (w : Wave) : (s.done i w).stops = s.stops := rfl
@[simp] theorem State.done_tokens (s : State) (i : Issue) (w : Wave) : (s.done i w).tokens = s.tokens := rfl
@[simp] theorem State.done_tiles (s : State) (i : Issue) (w : Wave) : (s.done i w).tiles = s.tiles := rfl
@[simp] theorem State.done_joins (s : State) (i : Issue) (w : Wave) : (s.done i w).joins = s.joins := rfl
@[simp] theorem State.done_seqs (s : State) (i : Issue) (w : Wave) : (s.done i w).seqs = s.seqs := rfl
@[simp] theorem State.done_rays (s : State) (i : Issue) (w : Wave) : (s.done i w).rays = s.rays := rfl
@[simp] theorem State.done_jobs (s : State) (i : Issue) (w : Wave) : (s.done i w).jobs = s.jobs := rfl
@[simp] theorem State.done_bins (s : State) (i : Issue) (w : Wave) : (s.done i w).bins = s.bins := rfl
@[simp] theorem State.done_batches (s : State) (i : Issue) (w : Wave) : (s.done i w).batches = s.batches := rfl
@[simp] theorem State.done_paths (s : State) (i : Issue) (w : Wave) : (s.done i w).paths = s.paths := rfl
@[simp] theorem State.done_xswaps (s : State) (i : Issue) (w : Wave) : (s.done i w).xswaps = s.xswaps := rfl
@[simp] theorem State.done_barriers (s : State) (i : Issue) (w : Wave) : (s.done i w).barriers = s.barriers := rfl
@[simp] theorem State.done_icache (s : State) (i : Issue) (w : Wave) : (s.done i w).icache = s.icache := rfl
@[simp] theorem State.done_tlb (s : State) (i : Issue) (w : Wave) : (s.done i w).tlb = s.tlb := rfl
@[simp] theorem State.done_dicts (s : State) (i : Issue) (w : Wave) : (s.done i w).dicts = s.dicts := rfl
@[simp] theorem State.done_tenants (s : State) (i : Issue) (w : Wave) : (s.done i w).tenants = s.tenants := rfl
@[simp] theorem State.done_nodes (s : State) (i : Issue) (w : Wave) : (s.done i w).nodes = s.nodes := rfl
@[simp] theorem State.done_releases (s : State) (i : Issue) (w : Wave) : (s.done i w).releases = s.releases := rfl
@[simp] theorem State.done_messages (s : State) (i : Issue) (w : Wave) : (s.done i w).messages = s.messages := rfl
@[simp] theorem State.done_outbound (s : State) (i : Issue) (w : Wave) : (s.done i w).outbound = s.outbound := rfl
@[simp] theorem State.done_turns (s : State) (i : Issue) (w : Wave) : (s.done i w).turns = s.turns := rfl
@[simp] theorem State.done_blocks (s : State) (i : Issue) (w : Wave) : (s.done i w).blocks = s.blocks := rfl
@[simp] theorem State.done_held (s : State) (i : Issue) (w : Wave) : (s.done i w).held = s.held := rfl
@[simp] theorem State.done_mgmt (s : State) (i : Issue) (w : Wave) : (s.done i w).mgmt = s.mgmt := rfl
@[simp] theorem State.done_answer (s : State) (i : Issue) (w : Wave) : (s.done i w).answer = s.answer := rfl
@[simp] theorem State.done_answerPoison (s : State) (i : Issue) (w : Wave) : (s.done i w).answerPoison = s.answerPoison := rfl
@[simp] theorem State.done_poison (s : State) (i : Issue) (w : Wave) : (s.done i w).poison = s.poison := rfl
@[simp] theorem State.done_struck (s : State) (i : Issue) (w : Wave) : (s.done i w).struck = s.struck := rfl
@[simp] theorem State.done_paused (s : State) (i : Issue) (w : Wave) : (s.done i w).paused = s.paused := rfl
@[simp] theorem State.done_stalled (s : State) (i : Issue) (w : Wave) : (s.done i w).stalled = s.stalled := rfl
@[simp] theorem State.done_badWords (s : State) (i : Issue) (w : Wave) : (s.done i w).badWords = s.badWords := rfl
@[simp] theorem State.done_badCopies (s : State) (i : Issue) (w : Wave) : (s.done i w).badCopies = s.badCopies := rfl
@[simp] theorem State.done_badFetch (s : State) (i : Issue) (w : Wave) : (s.done i w).badFetch = s.badFetch := rfl
@[simp] theorem State.done_awaited (s : State) (i : Issue) (w : Wave) : (s.done i w).awaited = s.awaited := rfl
@[simp] theorem State.done_waves (s : State) (i : Issue) (w : Wave) :
    (s.done i w).waves =
      SMap.insert s.waves i.key ((w.mapSplit i.split (fun sp => sp.next i)).issued i.split s.clock) := rfl

@[simp] theorem State.jump_agenda (s : State) (i : Issue) (w : Wave) (pc : Dword) : (s.jump i w pc).agenda = s.agenda := rfl
@[simp] theorem State.jump_subject (s : State) (i : Issue) (w : Wave) (pc : Dword) : (s.jump i w pc).subject = s.subject := rfl
@[simp] theorem State.jump_picks (s : State) (i : Issue) (w : Wave) (pc : Dword) : (s.jump i w pc).picks = s.picks := rfl
@[simp] theorem State.jump_focus (s : State) (i : Issue) (w : Wave) (pc : Dword) : (s.jump i w pc).focus = s.focus := rfl
@[simp] theorem State.jump_cur (s : State) (i : Issue) (w : Wave) (pc : Dword) : (s.jump i w pc).cur = s.cur := rfl
@[simp] theorem State.jump_fresh (s : State) (i : Issue) (w : Wave) (pc : Dword) : (s.jump i w pc).fresh = s.fresh := rfl
@[simp] theorem State.jump_nextId (s : State) (i : Issue) (w : Wave) (pc : Dword) : (s.jump i w pc).nextId = s.nextId := rfl
@[simp] theorem State.jump_clock (s : State) (i : Issue) (w : Wave) (pc : Dword) : (s.jump i w pc).clock = s.clock := rfl
@[simp] theorem State.jump_ctxs (s : State) (i : Issue) (w : Wave) (pc : Dword) : (s.jump i w pc).ctxs = s.ctxs := rfl
@[simp] theorem State.jump_groups (s : State) (i : Issue) (w : Wave) (pc : Dword) : (s.jump i w pc).groups = s.groups := rfl
@[simp] theorem State.jump_grids (s : State) (i : Issue) (w : Wave) (pc : Dword) : (s.jump i w pc).grids = s.grids := rfl
@[simp] theorem State.jump_mem (s : State) (i : Issue) (w : Wave) (pc : Dword) : (s.jump i w pc).mem = s.mem := rfl
@[simp] theorem State.jump_sp (s : State) (i : Issue) (w : Wave) (pc : Dword) : (s.jump i w pc).sp = s.sp := rfl
@[simp] theorem State.jump_qm (s : State) (i : Issue) (w : Wave) (pc : Dword) : (s.jump i w pc).qm = s.qm := rfl
@[simp] theorem State.jump_cal (s : State) (i : Issue) (w : Wave) (pc : Dword) : (s.jump i w pc).cal = s.cal := rfl
@[simp] theorem State.jump_slice (s : State) (i : Issue) (w : Wave) (pc : Dword) : (s.jump i w pc).slice = s.slice := rfl
@[simp] theorem State.jump_ls (s : State) (i : Issue) (w : Wave) (pc : Dword) : (s.jump i w pc).ls = s.ls := rfl
@[simp] theorem State.jump_ops (s : State) (i : Issue) (w : Wave) (pc : Dword) : (s.jump i w pc).ops = s.ops := rfl
@[simp] theorem State.jump_lq (s : State) (i : Issue) (w : Wave) (pc : Dword) : (s.jump i w pc).lq = s.lq := rfl
@[simp] theorem State.jump_cb (s : State) (i : Issue) (w : Wave) (pc : Dword) : (s.jump i w pc).cb = s.cb := rfl
@[simp] theorem State.jump_dw (s : State) (i : Issue) (w : Wave) (pc : Dword) : (s.jump i w pc).dw = s.dw := rfl
@[simp] theorem State.jump_pq (s : State) (i : Issue) (w : Wave) (pc : Dword) : (s.jump i w pc).pq = s.pq := rfl
@[simp] theorem State.jump_ds (s : State) (i : Issue) (w : Wave) (pc : Dword) : (s.jump i w pc).ds = s.ds := rfl
@[simp] theorem State.jump_parts (s : State) (i : Issue) (w : Wave) (pc : Dword) : (s.jump i w pc).parts = s.parts := rfl
@[simp] theorem State.jump_combs (s : State) (i : Issue) (w : Wave) (pc : Dword) : (s.jump i w pc).combs = s.combs := rfl
@[simp] theorem State.jump_fences (s : State) (i : Issue) (w : Wave) (pc : Dword) : (s.jump i w pc).fences = s.fences := rfl
@[simp] theorem State.jump_entries (s : State) (i : Issue) (w : Wave) (pc : Dword) : (s.jump i w pc).entries = s.entries := rfl
@[simp] theorem State.jump_stops (s : State) (i : Issue) (w : Wave) (pc : Dword) : (s.jump i w pc).stops = s.stops := rfl
@[simp] theorem State.jump_tokens (s : State) (i : Issue) (w : Wave) (pc : Dword) : (s.jump i w pc).tokens = s.tokens := rfl
@[simp] theorem State.jump_tiles (s : State) (i : Issue) (w : Wave) (pc : Dword) : (s.jump i w pc).tiles = s.tiles := rfl
@[simp] theorem State.jump_joins (s : State) (i : Issue) (w : Wave) (pc : Dword) : (s.jump i w pc).joins = s.joins := rfl
@[simp] theorem State.jump_seqs (s : State) (i : Issue) (w : Wave) (pc : Dword) : (s.jump i w pc).seqs = s.seqs := rfl
@[simp] theorem State.jump_rays (s : State) (i : Issue) (w : Wave) (pc : Dword) : (s.jump i w pc).rays = s.rays := rfl
@[simp] theorem State.jump_jobs (s : State) (i : Issue) (w : Wave) (pc : Dword) : (s.jump i w pc).jobs = s.jobs := rfl
@[simp] theorem State.jump_bins (s : State) (i : Issue) (w : Wave) (pc : Dword) : (s.jump i w pc).bins = s.bins := rfl
@[simp] theorem State.jump_batches (s : State) (i : Issue) (w : Wave) (pc : Dword) : (s.jump i w pc).batches = s.batches := rfl
@[simp] theorem State.jump_paths (s : State) (i : Issue) (w : Wave) (pc : Dword) : (s.jump i w pc).paths = s.paths := rfl
@[simp] theorem State.jump_xswaps (s : State) (i : Issue) (w : Wave) (pc : Dword) : (s.jump i w pc).xswaps = s.xswaps := rfl
@[simp] theorem State.jump_barriers (s : State) (i : Issue) (w : Wave) (pc : Dword) : (s.jump i w pc).barriers = s.barriers := rfl
@[simp] theorem State.jump_icache (s : State) (i : Issue) (w : Wave) (pc : Dword) : (s.jump i w pc).icache = s.icache := rfl
@[simp] theorem State.jump_tlb (s : State) (i : Issue) (w : Wave) (pc : Dword) : (s.jump i w pc).tlb = s.tlb := rfl
@[simp] theorem State.jump_dicts (s : State) (i : Issue) (w : Wave) (pc : Dword) : (s.jump i w pc).dicts = s.dicts := rfl
@[simp] theorem State.jump_tenants (s : State) (i : Issue) (w : Wave) (pc : Dword) : (s.jump i w pc).tenants = s.tenants := rfl
@[simp] theorem State.jump_nodes (s : State) (i : Issue) (w : Wave) (pc : Dword) : (s.jump i w pc).nodes = s.nodes := rfl
@[simp] theorem State.jump_releases (s : State) (i : Issue) (w : Wave) (pc : Dword) : (s.jump i w pc).releases = s.releases := rfl
@[simp] theorem State.jump_messages (s : State) (i : Issue) (w : Wave) (pc : Dword) : (s.jump i w pc).messages = s.messages := rfl
@[simp] theorem State.jump_outbound (s : State) (i : Issue) (w : Wave) (pc : Dword) : (s.jump i w pc).outbound = s.outbound := rfl
@[simp] theorem State.jump_turns (s : State) (i : Issue) (w : Wave) (pc : Dword) : (s.jump i w pc).turns = s.turns := rfl
@[simp] theorem State.jump_blocks (s : State) (i : Issue) (w : Wave) (pc : Dword) : (s.jump i w pc).blocks = s.blocks := rfl
@[simp] theorem State.jump_held (s : State) (i : Issue) (w : Wave) (pc : Dword) : (s.jump i w pc).held = s.held := rfl
@[simp] theorem State.jump_mgmt (s : State) (i : Issue) (w : Wave) (pc : Dword) : (s.jump i w pc).mgmt = s.mgmt := rfl
@[simp] theorem State.jump_answer (s : State) (i : Issue) (w : Wave) (pc : Dword) : (s.jump i w pc).answer = s.answer := rfl
@[simp] theorem State.jump_answerPoison (s : State) (i : Issue) (w : Wave) (pc : Dword) : (s.jump i w pc).answerPoison = s.answerPoison := rfl
@[simp] theorem State.jump_poison (s : State) (i : Issue) (w : Wave) (pc : Dword) : (s.jump i w pc).poison = s.poison := rfl
@[simp] theorem State.jump_struck (s : State) (i : Issue) (w : Wave) (pc : Dword) : (s.jump i w pc).struck = s.struck := rfl
@[simp] theorem State.jump_paused (s : State) (i : Issue) (w : Wave) (pc : Dword) : (s.jump i w pc).paused = s.paused := rfl
@[simp] theorem State.jump_stalled (s : State) (i : Issue) (w : Wave) (pc : Dword) : (s.jump i w pc).stalled = s.stalled := rfl
@[simp] theorem State.jump_badWords (s : State) (i : Issue) (w : Wave) (pc : Dword) : (s.jump i w pc).badWords = s.badWords := rfl
@[simp] theorem State.jump_badCopies (s : State) (i : Issue) (w : Wave) (pc : Dword) : (s.jump i w pc).badCopies = s.badCopies := rfl
@[simp] theorem State.jump_badFetch (s : State) (i : Issue) (w : Wave) (pc : Dword) : (s.jump i w pc).badFetch = s.badFetch := rfl
@[simp] theorem State.jump_awaited (s : State) (i : Issue) (w : Wave) (pc : Dword) : (s.jump i w pc).awaited = s.awaited := rfl
@[simp] theorem State.jump_waves (s : State) (i : Issue) (w : Wave) (pc : Dword) :
    (s.jump i w pc).waves =
      SMap.insert s.waves i.key ((w.mapSplit i.split (fun sp => sp.goto pc)).issued i.split s.clock) := rfl

/-! ## Updates of a wave -/

@[simp] theorem Wave.setV_id (w : Wave) (r l : Nat) (x : Word) : (w.setV r l x).id = w.id := rfl
@[simp] theorem Wave.setV_a (w : Wave) (r l : Nat) (x : Word) : (w.setV r l x).a = w.a := rfl
@[simp] theorem Wave.setV_b (w : Wave) (r l : Nat) (x : Word) : (w.setV r l x).b = w.b := rfl
@[simp] theorem Wave.setV_s (w : Wave) (r l : Nat) (x : Word) : (w.setV r l x).s = w.s := rfl
@[simp] theorem Wave.setV_k (w : Wave) (r l : Nat) (x : Word) : (w.setV r l x).k = w.k := rfl
@[simp] theorem Wave.setV_depth (w : Wave) (r l : Nat) (x : Word) : (w.setV r l x).depth = w.depth := rfl
@[simp] theorem Wave.setV_splits (w : Wave) (r l : Nat) (x : Word) : (w.setV r l x).splits = w.splits := rfl
@[simp] theorem Wave.setV_flags (w : Wave) (r l : Nat) (x : Word) : (w.setV r l x).flags = w.flags := rfl
@[simp] theorem Wave.setV_marks (w : Wave) (r l : Nat) (x : Word) : (w.setV r l x).marks = w.marks := rfl
@[simp] theorem Wave.setV_sb (w : Wave) (r l : Nat) (x : Word) : (w.setV r l x).sb = w.sb := rfl
@[simp] theorem Wave.setV_fpstat (w : Wave) (r l : Nat) (x : Word) : (w.setV r l x).fpstat = w.fpstat := rfl
@[simp] theorem Wave.setV_resmiss (w : Wave) (r l : Nat) (x : Word) : (w.setV r l x).resmiss = w.resmiss := rfl
@[simp] theorem Wave.setV_cursor (w : Wave) (r l : Nat) (x : Word) : (w.setV r l x).cursor = w.cursor := rfl
@[simp] theorem Wave.setV_seqno (w : Wave) (r l : Nat) (x : Word) : (w.setV r l x).seqno = w.seqno := rfl
@[simp] theorem Wave.setV_prio (w : Wave) (r l : Nat) (x : Word) : (w.setV r l x).prio = w.prio := rfl
@[simp] theorem Wave.setV_born (w : Wave) (r l : Nat) (x : Word) : (w.setV r l x).born = w.born := rfl
@[simp] theorem Wave.setV_guard (w : Wave) (r l : Nat) (x : Word) : (w.setV r l x).guard = w.guard := rfl
@[simp] theorem Wave.setV_expired (w : Wave) (r l : Nat) (x : Word) : (w.setV r l x).expired = w.expired := rfl
@[simp] theorem Wave.setV_trap (w : Wave) (r l : Nat) (x : Word) : (w.setV r l x).trap = w.trap := rfl
@[simp] theorem Wave.setV_heldTraps (w : Wave) (r l : Nat) (x : Word) : (w.setV r l x).heldTraps = w.heldTraps := rfl
@[simp] theorem Wave.setV_shadow (w : Wave) (r l : Nat) (x : Word) : (w.setV r l x).shadow = w.shadow := rfl
@[simp] theorem Wave.setV_haltReq (w : Wave) (r l : Nat) (x : Word) : (w.setV r l x).haltReq = w.haltReq := rfl
@[simp] theorem Wave.setV_engFaults (w : Wave) (r l : Nat) (x : Word) : (w.setV r l x).engFaults = w.engFaults := rfl
@[simp] theorem Wave.setV_halted (w : Wave) (r l : Nat) (x : Word) : (w.setV r l x).halted = w.halted := rfl
@[simp] theorem Wave.setV_arrived (w : Wave) (r l : Nat) (x : Word) : (w.setV r l x).arrived = w.arrived := rfl
@[simp] theorem Wave.setV_owed (w : Wave) (r l : Nat) (x : Word) : (w.setV r l x).owed = w.owed := rfl
@[simp] theorem Wave.setV_qpol (w : Wave) (r l : Nat) (x : Word) : (w.setV r l x).qpol = w.qpol := rfl
@[simp] theorem Wave.setV_bad (w : Wave) (r l : Nat) (x : Word) : (w.setV r l x).bad = w.lift (.v r l) := rfl
@[simp] theorem Wave.setV_v (w : Wave) (r l : Nat) (x : Word) : (w.setV r l x).v = SMap.write 0 w.v (r * 64 + l) x := rfl

@[simp] theorem Wave.setS_id (w : Wave) (r : Nat) (x : Word) : (w.setS r x).id = w.id := by unfold Wave.setS; split <;> rfl
@[simp] theorem Wave.setS_a (w : Wave) (r : Nat) (x : Word) : (w.setS r x).a = w.a := by unfold Wave.setS; split <;> rfl
@[simp] theorem Wave.setS_b (w : Wave) (r : Nat) (x : Word) : (w.setS r x).b = w.b := by unfold Wave.setS; split <;> rfl
@[simp] theorem Wave.setS_v (w : Wave) (r : Nat) (x : Word) : (w.setS r x).v = w.v := by unfold Wave.setS; split <;> rfl
@[simp] theorem Wave.setS_k (w : Wave) (r : Nat) (x : Word) : (w.setS r x).k = w.k := by unfold Wave.setS; split <;> rfl
@[simp] theorem Wave.setS_depth (w : Wave) (r : Nat) (x : Word) : (w.setS r x).depth = w.depth := by unfold Wave.setS; split <;> rfl
@[simp] theorem Wave.setS_splits (w : Wave) (r : Nat) (x : Word) : (w.setS r x).splits = w.splits := by unfold Wave.setS; split <;> rfl
@[simp] theorem Wave.setS_flags (w : Wave) (r : Nat) (x : Word) : (w.setS r x).flags = w.flags := by unfold Wave.setS; split <;> rfl
@[simp] theorem Wave.setS_marks (w : Wave) (r : Nat) (x : Word) : (w.setS r x).marks = w.marks := by unfold Wave.setS; split <;> rfl
@[simp] theorem Wave.setS_sb (w : Wave) (r : Nat) (x : Word) : (w.setS r x).sb = w.sb := by unfold Wave.setS; split <;> rfl
@[simp] theorem Wave.setS_fpstat (w : Wave) (r : Nat) (x : Word) : (w.setS r x).fpstat = w.fpstat := by unfold Wave.setS; split <;> rfl
@[simp] theorem Wave.setS_resmiss (w : Wave) (r : Nat) (x : Word) : (w.setS r x).resmiss = w.resmiss := by unfold Wave.setS; split <;> rfl
@[simp] theorem Wave.setS_cursor (w : Wave) (r : Nat) (x : Word) : (w.setS r x).cursor = w.cursor := by unfold Wave.setS; split <;> rfl
@[simp] theorem Wave.setS_seqno (w : Wave) (r : Nat) (x : Word) : (w.setS r x).seqno = w.seqno := by unfold Wave.setS; split <;> rfl
@[simp] theorem Wave.setS_prio (w : Wave) (r : Nat) (x : Word) : (w.setS r x).prio = w.prio := by unfold Wave.setS; split <;> rfl
@[simp] theorem Wave.setS_born (w : Wave) (r : Nat) (x : Word) : (w.setS r x).born = w.born := by unfold Wave.setS; split <;> rfl
@[simp] theorem Wave.setS_guard (w : Wave) (r : Nat) (x : Word) : (w.setS r x).guard = w.guard := by unfold Wave.setS; split <;> rfl
@[simp] theorem Wave.setS_expired (w : Wave) (r : Nat) (x : Word) : (w.setS r x).expired = w.expired := by unfold Wave.setS; split <;> rfl
@[simp] theorem Wave.setS_trap (w : Wave) (r : Nat) (x : Word) : (w.setS r x).trap = w.trap := by unfold Wave.setS; split <;> rfl
@[simp] theorem Wave.setS_heldTraps (w : Wave) (r : Nat) (x : Word) : (w.setS r x).heldTraps = w.heldTraps := by unfold Wave.setS; split <;> rfl
@[simp] theorem Wave.setS_haltReq (w : Wave) (r : Nat) (x : Word) : (w.setS r x).haltReq = w.haltReq := by unfold Wave.setS; split <;> rfl
@[simp] theorem Wave.setS_engFaults (w : Wave) (r : Nat) (x : Word) : (w.setS r x).engFaults = w.engFaults := by unfold Wave.setS; split <;> rfl
@[simp] theorem Wave.setS_halted (w : Wave) (r : Nat) (x : Word) : (w.setS r x).halted = w.halted := by unfold Wave.setS; split <;> rfl
@[simp] theorem Wave.setS_arrived (w : Wave) (r : Nat) (x : Word) : (w.setS r x).arrived = w.arrived := by unfold Wave.setS; split <;> rfl
@[simp] theorem Wave.setS_owed (w : Wave) (r : Nat) (x : Word) : (w.setS r x).owed = w.owed := by unfold Wave.setS; split <;> rfl
@[simp] theorem Wave.setS_qpol (w : Wave) (r : Nat) (x : Word) : (w.setS r x).qpol = w.qpol := by unfold Wave.setS; split <;> rfl
@[simp] theorem Wave.setS_bad (w : Wave) (r : Nat) (x : Word) :
    (w.setS r x).bad = if w.isExtra r then w.bad else w.lift (.s r) := by unfold Wave.setS; split <;> rfl

@[simp] theorem Wave.setK_id (w : Wave) (r : Nat) (x : Mask) : (w.setK r x).id = w.id := by unfold Wave.setK; split <;> rfl
@[simp] theorem Wave.setK_a (w : Wave) (r : Nat) (x : Mask) : (w.setK r x).a = w.a := by unfold Wave.setK; split <;> rfl
@[simp] theorem Wave.setK_b (w : Wave) (r : Nat) (x : Mask) : (w.setK r x).b = w.b := by unfold Wave.setK; split <;> rfl
@[simp] theorem Wave.setK_v (w : Wave) (r : Nat) (x : Mask) : (w.setK r x).v = w.v := by unfold Wave.setK; split <;> rfl
@[simp] theorem Wave.setK_s (w : Wave) (r : Nat) (x : Mask) : (w.setK r x).s = w.s := by unfold Wave.setK; split <;> rfl
@[simp] theorem Wave.setK_depth (w : Wave) (r : Nat) (x : Mask) : (w.setK r x).depth = w.depth := by unfold Wave.setK; split <;> rfl
@[simp] theorem Wave.setK_splits (w : Wave) (r : Nat) (x : Mask) : (w.setK r x).splits = w.splits := by unfold Wave.setK; split <;> rfl
@[simp] theorem Wave.setK_flags (w : Wave) (r : Nat) (x : Mask) : (w.setK r x).flags = w.flags := by unfold Wave.setK; split <;> rfl
@[simp] theorem Wave.setK_marks (w : Wave) (r : Nat) (x : Mask) : (w.setK r x).marks = w.marks := by unfold Wave.setK; split <;> rfl
@[simp] theorem Wave.setK_sb (w : Wave) (r : Nat) (x : Mask) : (w.setK r x).sb = w.sb := by unfold Wave.setK; split <;> rfl
@[simp] theorem Wave.setK_fpstat (w : Wave) (r : Nat) (x : Mask) : (w.setK r x).fpstat = w.fpstat := by unfold Wave.setK; split <;> rfl
@[simp] theorem Wave.setK_resmiss (w : Wave) (r : Nat) (x : Mask) : (w.setK r x).resmiss = w.resmiss := by unfold Wave.setK; split <;> rfl
@[simp] theorem Wave.setK_cursor (w : Wave) (r : Nat) (x : Mask) : (w.setK r x).cursor = w.cursor := by unfold Wave.setK; split <;> rfl
@[simp] theorem Wave.setK_seqno (w : Wave) (r : Nat) (x : Mask) : (w.setK r x).seqno = w.seqno := by unfold Wave.setK; split <;> rfl
@[simp] theorem Wave.setK_prio (w : Wave) (r : Nat) (x : Mask) : (w.setK r x).prio = w.prio := by unfold Wave.setK; split <;> rfl
@[simp] theorem Wave.setK_born (w : Wave) (r : Nat) (x : Mask) : (w.setK r x).born = w.born := by unfold Wave.setK; split <;> rfl
@[simp] theorem Wave.setK_guard (w : Wave) (r : Nat) (x : Mask) : (w.setK r x).guard = w.guard := by unfold Wave.setK; split <;> rfl
@[simp] theorem Wave.setK_expired (w : Wave) (r : Nat) (x : Mask) : (w.setK r x).expired = w.expired := by unfold Wave.setK; split <;> rfl
@[simp] theorem Wave.setK_trap (w : Wave) (r : Nat) (x : Mask) : (w.setK r x).trap = w.trap := by unfold Wave.setK; split <;> rfl
@[simp] theorem Wave.setK_heldTraps (w : Wave) (r : Nat) (x : Mask) : (w.setK r x).heldTraps = w.heldTraps := by unfold Wave.setK; split <;> rfl
@[simp] theorem Wave.setK_shadow (w : Wave) (r : Nat) (x : Mask) : (w.setK r x).shadow = w.shadow := by unfold Wave.setK; split <;> rfl
@[simp] theorem Wave.setK_haltReq (w : Wave) (r : Nat) (x : Mask) : (w.setK r x).haltReq = w.haltReq := by unfold Wave.setK; split <;> rfl
@[simp] theorem Wave.setK_engFaults (w : Wave) (r : Nat) (x : Mask) : (w.setK r x).engFaults = w.engFaults := by unfold Wave.setK; split <;> rfl
@[simp] theorem Wave.setK_halted (w : Wave) (r : Nat) (x : Mask) : (w.setK r x).halted = w.halted := by unfold Wave.setK; split <;> rfl
@[simp] theorem Wave.setK_arrived (w : Wave) (r : Nat) (x : Mask) : (w.setK r x).arrived = w.arrived := by unfold Wave.setK; split <;> rfl
@[simp] theorem Wave.setK_owed (w : Wave) (r : Nat) (x : Mask) : (w.setK r x).owed = w.owed := by unfold Wave.setK; split <;> rfl
@[simp] theorem Wave.setK_qpol (w : Wave) (r : Nat) (x : Mask) : (w.setK r x).qpol = w.qpol := by unfold Wave.setK; split <;> rfl
@[simp] theorem Wave.setK_bad (w : Wave) (r : Nat) (x : Mask) :
    (w.setK r x).bad = if r = 0 then w.bad else w.lift (.k r) := by unfold Wave.setK; split <;> rfl

@[simp] theorem Wave.setDepth_id (w : Wave) (l n : Nat) : (w.setDepth l n).id = w.id := rfl
@[simp] theorem Wave.setDepth_a (w : Wave) (l n : Nat) : (w.setDepth l n).a = w.a := rfl
@[simp] theorem Wave.setDepth_b (w : Wave) (l n : Nat) : (w.setDepth l n).b = w.b := rfl
@[simp] theorem Wave.setDepth_v (w : Wave) (l n : Nat) : (w.setDepth l n).v = w.v := rfl
@[simp] theorem Wave.setDepth_s (w : Wave) (l n : Nat) : (w.setDepth l n).s = w.s := rfl
@[simp] theorem Wave.setDepth_k (w : Wave) (l n : Nat) : (w.setDepth l n).k = w.k := rfl
@[simp] theorem Wave.setDepth_splits (w : Wave) (l n : Nat) : (w.setDepth l n).splits = w.splits := rfl
@[simp] theorem Wave.setDepth_flags (w : Wave) (l n : Nat) : (w.setDepth l n).flags = w.flags := rfl
@[simp] theorem Wave.setDepth_marks (w : Wave) (l n : Nat) : (w.setDepth l n).marks = w.marks := rfl
@[simp] theorem Wave.setDepth_sb (w : Wave) (l n : Nat) : (w.setDepth l n).sb = w.sb := rfl
@[simp] theorem Wave.setDepth_fpstat (w : Wave) (l n : Nat) : (w.setDepth l n).fpstat = w.fpstat := rfl
@[simp] theorem Wave.setDepth_resmiss (w : Wave) (l n : Nat) : (w.setDepth l n).resmiss = w.resmiss := rfl
@[simp] theorem Wave.setDepth_cursor (w : Wave) (l n : Nat) : (w.setDepth l n).cursor = w.cursor := rfl
@[simp] theorem Wave.setDepth_seqno (w : Wave) (l n : Nat) : (w.setDepth l n).seqno = w.seqno := rfl
@[simp] theorem Wave.setDepth_prio (w : Wave) (l n : Nat) : (w.setDepth l n).prio = w.prio := rfl
@[simp] theorem Wave.setDepth_born (w : Wave) (l n : Nat) : (w.setDepth l n).born = w.born := rfl
@[simp] theorem Wave.setDepth_guard (w : Wave) (l n : Nat) : (w.setDepth l n).guard = w.guard := rfl
@[simp] theorem Wave.setDepth_expired (w : Wave) (l n : Nat) : (w.setDepth l n).expired = w.expired := rfl
@[simp] theorem Wave.setDepth_trap (w : Wave) (l n : Nat) : (w.setDepth l n).trap = w.trap := rfl
@[simp] theorem Wave.setDepth_heldTraps (w : Wave) (l n : Nat) : (w.setDepth l n).heldTraps = w.heldTraps := rfl
@[simp] theorem Wave.setDepth_shadow (w : Wave) (l n : Nat) : (w.setDepth l n).shadow = w.shadow := rfl
@[simp] theorem Wave.setDepth_haltReq (w : Wave) (l n : Nat) : (w.setDepth l n).haltReq = w.haltReq := rfl
@[simp] theorem Wave.setDepth_engFaults (w : Wave) (l n : Nat) : (w.setDepth l n).engFaults = w.engFaults := rfl
@[simp] theorem Wave.setDepth_halted (w : Wave) (l n : Nat) : (w.setDepth l n).halted = w.halted := rfl
@[simp] theorem Wave.setDepth_arrived (w : Wave) (l n : Nat) : (w.setDepth l n).arrived = w.arrived := rfl
@[simp] theorem Wave.setDepth_owed (w : Wave) (l n : Nat) : (w.setDepth l n).owed = w.owed := rfl
@[simp] theorem Wave.setDepth_qpol (w : Wave) (l n : Nat) : (w.setDepth l n).qpol = w.qpol := rfl
@[simp] theorem Wave.setDepth_bad (w : Wave) (l n : Nat) : (w.setDepth l n).bad = w.bad := rfl
@[simp] theorem Wave.setDepth_depth (w : Wave) (l n : Nat) : (w.setDepth l n).depth = SMap.write 0 w.depth l n := rfl

@[simp] theorem Wave.setSplit_id (w : Wave) (i : Nat) (sp : Split) : (w.setSplit i sp).id = w.id := rfl
@[simp] theorem Wave.setSplit_a (w : Wave) (i : Nat) (sp : Split) : (w.setSplit i sp).a = w.a := rfl
@[simp] theorem Wave.setSplit_b (w : Wave) (i : Nat) (sp : Split) : (w.setSplit i sp).b = w.b := rfl
@[simp] theorem Wave.setSplit_v (w : Wave) (i : Nat) (sp : Split) : (w.setSplit i sp).v = w.v := rfl
@[simp] theorem Wave.setSplit_s (w : Wave) (i : Nat) (sp : Split) : (w.setSplit i sp).s = w.s := rfl
@[simp] theorem Wave.setSplit_k (w : Wave) (i : Nat) (sp : Split) : (w.setSplit i sp).k = w.k := rfl
@[simp] theorem Wave.setSplit_depth (w : Wave) (i : Nat) (sp : Split) : (w.setSplit i sp).depth = w.depth := rfl
@[simp] theorem Wave.setSplit_flags (w : Wave) (i : Nat) (sp : Split) : (w.setSplit i sp).flags = w.flags := rfl
@[simp] theorem Wave.setSplit_marks (w : Wave) (i : Nat) (sp : Split) : (w.setSplit i sp).marks = w.marks := rfl
@[simp] theorem Wave.setSplit_sb (w : Wave) (i : Nat) (sp : Split) : (w.setSplit i sp).sb = w.sb := rfl
@[simp] theorem Wave.setSplit_fpstat (w : Wave) (i : Nat) (sp : Split) : (w.setSplit i sp).fpstat = w.fpstat := rfl
@[simp] theorem Wave.setSplit_resmiss (w : Wave) (i : Nat) (sp : Split) : (w.setSplit i sp).resmiss = w.resmiss := rfl
@[simp] theorem Wave.setSplit_cursor (w : Wave) (i : Nat) (sp : Split) : (w.setSplit i sp).cursor = w.cursor := rfl
@[simp] theorem Wave.setSplit_seqno (w : Wave) (i : Nat) (sp : Split) : (w.setSplit i sp).seqno = w.seqno := rfl
@[simp] theorem Wave.setSplit_prio (w : Wave) (i : Nat) (sp : Split) : (w.setSplit i sp).prio = w.prio := rfl
@[simp] theorem Wave.setSplit_born (w : Wave) (i : Nat) (sp : Split) : (w.setSplit i sp).born = w.born := rfl
@[simp] theorem Wave.setSplit_guard (w : Wave) (i : Nat) (sp : Split) : (w.setSplit i sp).guard = w.guard := rfl
@[simp] theorem Wave.setSplit_expired (w : Wave) (i : Nat) (sp : Split) : (w.setSplit i sp).expired = w.expired := rfl
@[simp] theorem Wave.setSplit_trap (w : Wave) (i : Nat) (sp : Split) : (w.setSplit i sp).trap = w.trap := rfl
@[simp] theorem Wave.setSplit_heldTraps (w : Wave) (i : Nat) (sp : Split) : (w.setSplit i sp).heldTraps = w.heldTraps := rfl
@[simp] theorem Wave.setSplit_shadow (w : Wave) (i : Nat) (sp : Split) : (w.setSplit i sp).shadow = w.shadow := rfl
@[simp] theorem Wave.setSplit_haltReq (w : Wave) (i : Nat) (sp : Split) : (w.setSplit i sp).haltReq = w.haltReq := rfl
@[simp] theorem Wave.setSplit_engFaults (w : Wave) (i : Nat) (sp : Split) : (w.setSplit i sp).engFaults = w.engFaults := rfl
@[simp] theorem Wave.setSplit_halted (w : Wave) (i : Nat) (sp : Split) : (w.setSplit i sp).halted = w.halted := rfl
@[simp] theorem Wave.setSplit_arrived (w : Wave) (i : Nat) (sp : Split) : (w.setSplit i sp).arrived = w.arrived := rfl
@[simp] theorem Wave.setSplit_owed (w : Wave) (i : Nat) (sp : Split) : (w.setSplit i sp).owed = w.owed := rfl
@[simp] theorem Wave.setSplit_qpol (w : Wave) (i : Nat) (sp : Split) : (w.setSplit i sp).qpol = w.qpol := rfl
@[simp] theorem Wave.setSplit_bad (w : Wave) (i : Nat) (sp : Split) : (w.setSplit i sp).bad = w.bad := rfl
@[simp] theorem Wave.setSplit_splits (w : Wave) (i : Nat) (sp : Split) : (w.setSplit i sp).splits = SMap.insert w.splits i sp := rfl

@[simp] theorem Wave.mapSplit_id (w : Wave) (i : Nat) (f : Split → Split) : (w.mapSplit i f).id = w.id := by unfold Wave.mapSplit; split <;> rfl
@[simp] theorem Wave.mapSplit_a (w : Wave) (i : Nat) (f : Split → Split) : (w.mapSplit i f).a = w.a := by unfold Wave.mapSplit; split <;> rfl
@[simp] theorem Wave.mapSplit_b (w : Wave) (i : Nat) (f : Split → Split) : (w.mapSplit i f).b = w.b := by unfold Wave.mapSplit; split <;> rfl
@[simp] theorem Wave.mapSplit_v (w : Wave) (i : Nat) (f : Split → Split) : (w.mapSplit i f).v = w.v := by unfold Wave.mapSplit; split <;> rfl
@[simp] theorem Wave.mapSplit_s (w : Wave) (i : Nat) (f : Split → Split) : (w.mapSplit i f).s = w.s := by unfold Wave.mapSplit; split <;> rfl
@[simp] theorem Wave.mapSplit_k (w : Wave) (i : Nat) (f : Split → Split) : (w.mapSplit i f).k = w.k := by unfold Wave.mapSplit; split <;> rfl
@[simp] theorem Wave.mapSplit_depth (w : Wave) (i : Nat) (f : Split → Split) : (w.mapSplit i f).depth = w.depth := by unfold Wave.mapSplit; split <;> rfl
@[simp] theorem Wave.mapSplit_flags (w : Wave) (i : Nat) (f : Split → Split) : (w.mapSplit i f).flags = w.flags := by unfold Wave.mapSplit; split <;> rfl
@[simp] theorem Wave.mapSplit_marks (w : Wave) (i : Nat) (f : Split → Split) : (w.mapSplit i f).marks = w.marks := by unfold Wave.mapSplit; split <;> rfl
@[simp] theorem Wave.mapSplit_sb (w : Wave) (i : Nat) (f : Split → Split) : (w.mapSplit i f).sb = w.sb := by unfold Wave.mapSplit; split <;> rfl
@[simp] theorem Wave.mapSplit_fpstat (w : Wave) (i : Nat) (f : Split → Split) : (w.mapSplit i f).fpstat = w.fpstat := by unfold Wave.mapSplit; split <;> rfl
@[simp] theorem Wave.mapSplit_resmiss (w : Wave) (i : Nat) (f : Split → Split) : (w.mapSplit i f).resmiss = w.resmiss := by unfold Wave.mapSplit; split <;> rfl
@[simp] theorem Wave.mapSplit_cursor (w : Wave) (i : Nat) (f : Split → Split) : (w.mapSplit i f).cursor = w.cursor := by unfold Wave.mapSplit; split <;> rfl
@[simp] theorem Wave.mapSplit_seqno (w : Wave) (i : Nat) (f : Split → Split) : (w.mapSplit i f).seqno = w.seqno := by unfold Wave.mapSplit; split <;> rfl
@[simp] theorem Wave.mapSplit_prio (w : Wave) (i : Nat) (f : Split → Split) : (w.mapSplit i f).prio = w.prio := by unfold Wave.mapSplit; split <;> rfl
@[simp] theorem Wave.mapSplit_born (w : Wave) (i : Nat) (f : Split → Split) : (w.mapSplit i f).born = w.born := by unfold Wave.mapSplit; split <;> rfl
@[simp] theorem Wave.mapSplit_guard (w : Wave) (i : Nat) (f : Split → Split) : (w.mapSplit i f).guard = w.guard := by unfold Wave.mapSplit; split <;> rfl
@[simp] theorem Wave.mapSplit_expired (w : Wave) (i : Nat) (f : Split → Split) : (w.mapSplit i f).expired = w.expired := by unfold Wave.mapSplit; split <;> rfl
@[simp] theorem Wave.mapSplit_trap (w : Wave) (i : Nat) (f : Split → Split) : (w.mapSplit i f).trap = w.trap := by unfold Wave.mapSplit; split <;> rfl
@[simp] theorem Wave.mapSplit_heldTraps (w : Wave) (i : Nat) (f : Split → Split) : (w.mapSplit i f).heldTraps = w.heldTraps := by unfold Wave.mapSplit; split <;> rfl
@[simp] theorem Wave.mapSplit_shadow (w : Wave) (i : Nat) (f : Split → Split) : (w.mapSplit i f).shadow = w.shadow := by unfold Wave.mapSplit; split <;> rfl
@[simp] theorem Wave.mapSplit_haltReq (w : Wave) (i : Nat) (f : Split → Split) : (w.mapSplit i f).haltReq = w.haltReq := by unfold Wave.mapSplit; split <;> rfl
@[simp] theorem Wave.mapSplit_engFaults (w : Wave) (i : Nat) (f : Split → Split) : (w.mapSplit i f).engFaults = w.engFaults := by unfold Wave.mapSplit; split <;> rfl
@[simp] theorem Wave.mapSplit_halted (w : Wave) (i : Nat) (f : Split → Split) : (w.mapSplit i f).halted = w.halted := by unfold Wave.mapSplit; split <;> rfl
@[simp] theorem Wave.mapSplit_arrived (w : Wave) (i : Nat) (f : Split → Split) : (w.mapSplit i f).arrived = w.arrived := by unfold Wave.mapSplit; split <;> rfl
@[simp] theorem Wave.mapSplit_owed (w : Wave) (i : Nat) (f : Split → Split) : (w.mapSplit i f).owed = w.owed := by unfold Wave.mapSplit; split <;> rfl
@[simp] theorem Wave.mapSplit_qpol (w : Wave) (i : Nat) (f : Split → Split) : (w.mapSplit i f).qpol = w.qpol := by unfold Wave.mapSplit; split <;> rfl
@[simp] theorem Wave.mapSplit_bad (w : Wave) (i : Nat) (f : Split → Split) : (w.mapSplit i f).bad = w.bad := by unfold Wave.mapSplit; split <;> rfl

@[simp] theorem Wave.issued_id (w : Wave) (i c : Nat) : (w.issued i c).id = w.id := by simp [Wave.issued]
@[simp] theorem Wave.issued_a (w : Wave) (i c : Nat) : (w.issued i c).a = w.a := by simp [Wave.issued]
@[simp] theorem Wave.issued_b (w : Wave) (i c : Nat) : (w.issued i c).b = w.b := by simp [Wave.issued]
@[simp] theorem Wave.issued_v (w : Wave) (i c : Nat) : (w.issued i c).v = w.v := by simp [Wave.issued]
@[simp] theorem Wave.issued_s (w : Wave) (i c : Nat) : (w.issued i c).s = w.s := by simp [Wave.issued]
@[simp] theorem Wave.issued_k (w : Wave) (i c : Nat) : (w.issued i c).k = w.k := by simp [Wave.issued]
@[simp] theorem Wave.issued_depth (w : Wave) (i c : Nat) : (w.issued i c).depth = w.depth := by simp [Wave.issued]
@[simp] theorem Wave.issued_flags (w : Wave) (i c : Nat) : (w.issued i c).flags = w.flags := by simp [Wave.issued]
@[simp] theorem Wave.issued_marks (w : Wave) (i c : Nat) : (w.issued i c).marks = w.marks := by simp [Wave.issued]
@[simp] theorem Wave.issued_sb (w : Wave) (i c : Nat) : (w.issued i c).sb = w.sb := by simp [Wave.issued]
@[simp] theorem Wave.issued_fpstat (w : Wave) (i c : Nat) : (w.issued i c).fpstat = w.fpstat := by simp [Wave.issued]
@[simp] theorem Wave.issued_resmiss (w : Wave) (i c : Nat) : (w.issued i c).resmiss = w.resmiss := by simp [Wave.issued]
@[simp] theorem Wave.issued_cursor (w : Wave) (i c : Nat) : (w.issued i c).cursor = w.cursor := by simp [Wave.issued]
@[simp] theorem Wave.issued_seqno (w : Wave) (i c : Nat) : (w.issued i c).seqno = w.seqno := by simp [Wave.issued]
@[simp] theorem Wave.issued_prio (w : Wave) (i c : Nat) : (w.issued i c).prio = w.prio := by simp [Wave.issued]
@[simp] theorem Wave.issued_born (w : Wave) (i c : Nat) : (w.issued i c).born = w.born := by simp [Wave.issued]
@[simp] theorem Wave.issued_trap (w : Wave) (i c : Nat) : (w.issued i c).trap = w.trap := by simp [Wave.issued]
@[simp] theorem Wave.issued_heldTraps (w : Wave) (i c : Nat) : (w.issued i c).heldTraps = w.heldTraps := by simp [Wave.issued]
@[simp] theorem Wave.issued_shadow (w : Wave) (i c : Nat) : (w.issued i c).shadow = w.shadow := by simp [Wave.issued]
@[simp] theorem Wave.issued_haltReq (w : Wave) (i c : Nat) : (w.issued i c).haltReq = w.haltReq := by simp [Wave.issued]
@[simp] theorem Wave.issued_engFaults (w : Wave) (i c : Nat) : (w.issued i c).engFaults = w.engFaults := by simp [Wave.issued]
@[simp] theorem Wave.issued_halted (w : Wave) (i c : Nat) : (w.issued i c).halted = w.halted := by simp [Wave.issued]
@[simp] theorem Wave.issued_arrived (w : Wave) (i c : Nat) : (w.issued i c).arrived = w.arrived := by simp [Wave.issued]
@[simp] theorem Wave.issued_owed (w : Wave) (i c : Nat) : (w.issued i c).owed = w.owed := by simp [Wave.issued]
@[simp] theorem Wave.issued_qpol (w : Wave) (i c : Nat) : (w.issued i c).qpol = w.qpol := by simp [Wave.issued]
@[simp] theorem Wave.issued_bad (w : Wave) (i c : Nat) : (w.issued i c).bad = w.bad := by simp [Wave.issued]
@[simp] theorem Wave.issued_lastIssue (w : Wave) (i c : Nat) : (w.issued i c).lastIssue = c + 1 := rfl
@[simp] theorem Wave.issued_guard (w : Wave) (i c : Nat) : (w.issued i c).guard = 0 := rfl
@[simp] theorem Wave.issued_expired (w : Wave) (i c : Nat) : (w.issued i c).expired = none := rfl
@[simp] theorem Wave.issued_splits (w : Wave) (i c : Nat) :
    (w.issued i c).splits = (w.mapSplit i fun sp => { sp with lastIssue := c + 1 }).splits := rfl

end Sys2Proof.Machine
end

