-- ==== Sys2Proof/Laws/Issue.lean ====
section
/-! SUPPORT. What the shared shapes of an issue do: the failing checks, a trap, going on, an engine command and a push. -/

namespace Sys2Proof.Machine

open Sys2Proof

/-! ## Waves and splits of a state -/

theorem State.wave_setWave (s : State) (k j : Nat) (w : Wave) :
    (s.setWave k w).wave j = if j = k then some w else s.wave j := SMap.find_insert ..

theorem State.mapWave_of {s : State} {k : Nat} {w : Wave} (h : s.wave k = some w) (f : Wave → Wave) :
    s.mapWave k f = s.setWave k (f w) := by simp [State.mapWave, h]

theorem Wave.mapSplit_of {w : Wave} {i : Nat} {sp : Split} (h : SMap.find w.splits i = some sp) (f : Split → Split) :
    w.mapSplit i f = w.setSplit i (f sp) := by simp [Wave.mapSplit, h]

theorem Wave.find_setSplit (w : Wave) (i j : Nat) (sp : Split) :
    SMap.find (w.setSplit i sp).splits j = if j = i then some sp else SMap.find w.splits j := SMap.find_insert ..

/-- The tenant after a tenant has been set. -/
theorem State.tenant_setTenant (s : State) (t u : Nat) (x : Tenant) :
    (s.setTenant t x).tenant u = if u = t then x else s.tenant u := SMap.read_write ..

/-! ## The failing checks (03 R56) -/

theorem State.checked_bounds {s : State} {i : Issue} {w : Wave} {sp : Split} {u : Uses} (h : Issuing s i w sp)
    (hb : w.outOfBounds u = true) (f : Issue → Wave → Split → State) : s.checked u f = s.trapAt i tRegBounds 0 0 0 := by
  simp [State.checked, State.withCur_of h, hb]

theorem State.checked_hazard {s : State} {i : Issue} {w : Wave} {sp : Split} {u : Uses} (h : Issuing s i w sp)
    (hb : w.outOfBounds u = false) (hz : w.hazard sp u = true) (f : Issue → Wave → Split → State) :
    s.checked u f = s.trapAt i tFlagHazard 0 0 0 := by
  simp [State.checked, State.withCur_of h, hb, hz]

theorem State.checked_stall {s : State} {i : Issue} {w : Wave} {sp : Split} {u : Uses} (h : Issuing s i w sp)
    (hb : w.outOfBounds u = false) (hz : w.hazard sp u = false) (hs : w.scoreboard u = true)
    (f : Issue → Wave → Split → State) : s.checked u f = s := by
  simp [State.checked, State.withCur_of h, hb, hz, hs]

/-! ## A trap (10 R229) -/

/-- A precise trap of an issuing split: its wave is put back with the trap recorded, and nothing else changes. -/
theorem State.trapAt_of {s : State} {i : Issue} {w : Wave} {sp : Split} (h : Issuing s i w sp) (cause sub lane : Nat)
    (addr : Dword) :
    s.trapAt i cause sub lane addr = s.setWave i.key
      { w.setSplit i.split { sp with latch := none } with
        trap := some { cause, sub, lane, split := i.split, pc := i.pc, resume := i.pc, active := w.active sp, addr } } := by
  simp only [State.trapAt, State.mapWave_of h.wave, Wave.mapSplit_of h.split, SMap.read, h.split]
  rfl

theorem State.takeTrap_of {s : State} {i : Issue} {w : Wave} {sp : Split} (h : Issuing s i w sp) (cause sub : Nat) :
    s.takeTrap cause sub = s.trapAt i cause sub 0 0 := by simp [State.takeTrap, h.cur]

/-! ## Going on -/

/-- Going on changes the issuing wave alone: its split stands at the next instruction. -/
theorem State.done_wave (s : State) (i : Issue) (w : Wave) (k : Nat) :
    (s.done i w).wave k =
      if k = i.key then some ((w.mapSplit i.split fun sp => sp.next i).issued i.split s.clock) else s.wave k :=
  s.wave_setWave ..

theorem State.done_same (s : State) (i : Issue) (w : Wave) : s.sameMemory (s.done i w) := ⟨rfl, rfl, rfl, rfl, rfl⟩
theorem State.jump_same (s : State) (i : Issue) (w : Wave) (pc : Dword) : s.sameMemory (s.jump i w pc) :=
  ⟨rfl, rfl, rfl, rfl, rfl⟩

/-! ## An engine command (01 R12, 09 R195) -/

/-- A command whose checks have passed: nothing without an active lane, a stall without room, else its act. -/
theorem State.command_of {s : State} {i : Issue} {w : Wave} {sp : Split} {f : Form} {e : Ext} {q : Nat}
    (h : Issuing s i w sp) (hc : w.clear sp (usesOf f e) = true) (g : Issue → Wave → Split → State) :
    s.command f e q g = if w.active sp = 0 then s.done i w else if s.room w q = true then g i w sp else s := by
  simp only [State.command, State.checked_of h hc]
  cases s.room w q <;> simp

theorem State.clearIdemp_same (s : State) (w : WaveId) : s.sameMemory (s.clearIdemp w) := by
  unfold State.clearIdemp
  split <;> exact ⟨rfl, rfl, rfl, rfl, rfl⟩

theorem State.clearIdemp_entries (s : State) (w : WaveId) : (s.clearIdemp w).entries = s.entries := by
  unfold State.clearIdemp
  split <;> rfl

/-- A push puts its entry behind all others and changes no memory. -/
theorem State.push_entries (s : State) (i : Issue) (w : Wave) (sp : Split) (q : Nat) (x : QEntry) :
    (s.push i w sp q x).entries = s.entries ++ [s.pushed i w sp q x] := by
  show (if q < 15 then s.clearIdemp w.id else s).entries ++ [s.pushed i w sp q x] = _
  split
  · rw [State.clearIdemp_entries]
  · rfl

theorem State.push_same (s : State) (i : Issue) (w : Wave) (sp : Split) (q : Nat) (x : QEntry) :
    s.sameMemory (s.push i w sp q x) := by
  have h := s.clearIdemp_same w.id
  by_cases hq : q < 15
  · refine ⟨?_, ?_, ?_, ?_, ?_⟩ <;> simp only [State.push, State.enqueue, hq, if_true]
    · exact h.mem
    · exact h.sp
    · exact h.qm
    · exact h.cal
    · exact h.slice
  · refine ⟨?_, ?_, ?_, ?_, ?_⟩ <;> simp only [State.push, State.enqueue, hq, if_false] <;> rfl

/-! ## Instructions that act once for their split (07 R144) -/

theorem State.maskOp_of {s : State} {i : Issue} {w : Wave} {sp : Split} {f : Form} {e : Ext} (h : Issuing s i w sp)
    (hc : w.clear sp (usesOf f e) = true) (g : Wave → Split → Mask) :
    s.maskOp f e g = s.done i (if w.active sp = 0 then w else w.putMask e.d (g w sp)) := by
  simp only [State.maskOp, State.once_of h hc]
  split <;> rfl

theorem State.maskCount_of {s : State} {i : Issue} {w : Wave} {sp : Split} {e : Ext} (h : Issuing s i w sp)
    (hc : w.clear sp (usesOf Form.maskToS e) = true) (g : Wave → Split → Nat) :
    s.maskCount e g = s.done i (if w.active sp = 0 then w else w.put e.d 32 0 (g w sp)) := by
  simp only [State.maskCount, State.once_of h hc]
  split <;> rfl

theorem State.immOp_of {s : State} {i : Issue} {w : Wave} {sp : Split} {b : BaseImm} (h : Issuing s i w sp)
    (hc : w.clear sp { sr := [b.d.toNat, b.a.toNat] } = true) (op : Word → Word) :
    s.immOp b op = s.done i (if w.active sp = 0 then w else w.setS b.d.toNat (op (w.getS b.a.toNat))) := by
  simp only [State.immOp, State.once_of h hc]
  split <;> rfl

theorem State.popWords_of {s : State} {i : Issue} {w : Wave} {sp : Split} {f : Form} {e : Ext} {q n : Nat} {nb : Bool}
    (h : Issuing s i w sp) (hc : w.clear sp (usesOf f e) = true) :
    s.popWords f e q n nb =
      if w.active sp = 0 then s.done i w
      else match s.queue w.id.uid q with
        | [] => if nb then s.done i (w.setSs (regNo e.d) n 0) else s
        | x :: _ => ((s.meetHome x).dropEntry x.id).done i (w.setSs (regNo e.d) n (x.data.toNat % 2 ^ (32 * n))) := by
  simp only [State.popWords, State.once_of h hc, State.pop]
  cases s.queue w.id.uid q <;> rfl

/-! ## Structured control (07 R140) -/

/-- A structured instruction: a counter past 255 traps; else the members' counters change and the split goes on. -/
theorem State.structured_of {s : State} {i : Issue} {w : Wave} {sp : Split} {e : Ext} (h : Issuing s i w sp)
    (f : Wave → Split → Nat → Nat → Nat) (taken : List Nat → List Nat → Bool) :
    s.structured e f taken =
      let ls := lanesOf sp.members
      let new := ls.map fun l => f w sp l (w.depthOf l)
      if new.any (fun c => decide (255 < c)) then s.trapAt i tDepthOverflow 0 0 0
      else
        let w' := (ls.zip new).foldl (fun w p => w.setDepth p.1 p.2) w
        if taken (ls.map w.depthOf) new then s.jump i w' (targetOf i e) else s.done i w' := by
  have hc : w.clear sp {} = true := by simp [Wave.clear, Wave.outOfBounds, Wave.hazard, Wave.scoreboard]
  simp only [State.structured, State.checked_of h hc]

/-! ## Memory instructions (09 R194–R196) -/

/-- A memory instruction whose lanes' addresses fail a check takes the trap of the first failing lane. -/
theorem State.memInstr_trap {s s' : State} {i : Issue} {w : Wave} {sp : Split} {u : Uses} {e : Ext} {per : Bool} {m : MemOp}
    {addrs : Wave → Nat → List Dword} {f : AddrFault} {l : Nat} {a : Dword} (h : Issuing s i w sp)
    (hc : w.clear sp u = true) (hl : per = true ∨ w.memLanes sp e per ≠ [])
    (hf : s.checkLanes w.id m (addrs w) (w.memLanes sp e per) = (s', .error (f, l, a)))
    (mk : State → Issue → Wave → Split → List Checked → State) :
    s.memInstr u e per m addrs mk = s'.trapAt i f.cause f.sub l a := by
  have hn : ¬((!per) = true ∧ w.memLanes sp e per = []) := by
    rintro ⟨h1, h2⟩
    rcases hl with hl | hl
    · simp [hl] at h1
    · exact hl h2
  simp only [State.memInstr, State.checked_of h hc, hf, Bool.and_eq_true, decide_eq_true_eq, hn, if_false]

/-! ## Engines -/

/-- A step of an engine without an entry of its kind does nothing. -/
theorem State.engineStep_none {s : State} {p : QEntry → Bool} (h : s.pickEntry p = none) (f : QEntry → State) :
    s.engineStep p f = s := by simp [State.engineStep, h]

theorem State.engineStep_some {s : State} {p : QEntry → Bool} {e : QEntry} (h : s.pickEntry p = some e)
    (f : QEntry → State) : s.engineStep p f = f e := by simp [State.engineStep, h]

/-- The entry that a step takes meets its condition. -/
theorem State.pickOf_holds {s : State} {p : QEntry → Bool} {e : QEntry} (h : s.pickOf p = some e) : p e = true := by
  unfold State.pickOf at h
  split at h <;> have := List.find?_some h <;> simp_all

/-- The entry that an engine takes meets its condition. -/
theorem State.pickEntry_holds {s : State} {p : QEntry → Bool} {e : QEntry} (h : s.pickEntry p = some e) : p e = true := by
  have := State.pickOf_holds h
  simp_all

end Sys2Proof.Machine
end

