-- ==== Sys2Proof/Laws/Memory.lean ====
section
/-! SUPPORT. What the operations of the ordering machine leave of the memories: every one keeps the canonical form, and a
write changes the bytes that it names and no others. -/

namespace Sys2Proof.Machine

open Sys2Proof

/-! ## The canonical form -/

theorem State.memWf_iff (s : State) : s.memWf = true ↔
    s.mem.wf = true ∧ s.sp.wf = true ∧ s.qm.wf = true ∧ s.cal.wf = true ∧ s.slice.wf = true := by
  simp [State.memWf, Bool.and_eq_true, and_assoc]

/-- The form depends on the memories alone. -/
theorem State.memWf_congr {s t : State} (h : s.sameMemory t) (hs : s.memWf = true) : t.memWf = true := by
  simpa [State.memWf, h.mem, h.sp, h.qm, h.cal, h.slice] using hs

/-- Lifting poison changes no memory. -/
theorem State.cleanse_same (s : State) (k : MemK) (a n : Nat) : s.sameMemory (s.cleanse k a n) := by
  unfold State.cleanse
  split <;> exact ⟨rfl, rfl, rfl, rfl, rfl⟩

theorem State.sameMemory.after {s t u : State} (h : s.sameMemory t) (k : t.sameMemory u) : s.sameMemory u :=
  ⟨k.mem.trans h.mem, k.sp.trans h.sp, k.qm.trans h.qm, k.cal.trans h.cal, k.slice.trans h.slice⟩

/-- Marking and lifting the poison of copies changes no memory. -/
theorem State.freshCopy_same (s : State) (key : Nat) : s.sameMemory (s.freshCopy key) := by
  unfold State.freshCopy
  split <;> exact ⟨rfl, rfl, rfl, rfl, rfl⟩

theorem State.spoilCopies_same (s : State) (d a n : Nat) (b : Bool) : s.sameMemory (s.spoilCopies d a n b) := by
  unfold State.spoilCopies
  split <;> exact ⟨rfl, rfl, rfl, rfl, rfl⟩

/-- What a buffered store brings on may be marked as poison, which changes no memory. -/
theorem State.carry_same (s : State) (n : Nat) (e : BufEnt) : s.sameMemory (s.carry n e) := by
  unfold State.carry
  split
  · exact ⟨rfl, rfl, rfl, rfl, rfl⟩
  · dsimp only
    split <;> exact ⟨rfl, rfl, rfl, rfl, rfl⟩

theorem State.memWf_poke {s : State} (l : Loc) (bs : List Byte) (h : s.memWf = true) : (s.poke l bs).memWf = true := by
  obtain ⟨k, a⟩ := l
  obtain ⟨h1, h2, h3, h4, h5⟩ := (State.memWf_iff _).1 (memWf_congr (s.cleanse_same k a bs.length) h)
  rw [State.memWf_iff]
  cases k <;> simp only [State.poke] <;>
    refine ⟨?_, ?_, ?_, ?_, ?_⟩ <;> first | assumption | exact Memory.wf_setBytes _ _ ‹_›

theorem applyPartial_wf {m : Memory} (p : Partial) (h : m.wf = true) : (applyPartial m p).wf = true :=
  Memory.wf_setBytes _ _ h

theorem foldl_applyPartial_wf (ps : List Partial) {m : Memory} (h : m.wf = true) : (ps.foldl applyPartial m).wf = true := by
  induction ps generalizing m with
  | nil => exact h
  | cons p ps ih => exact ih (applyPartial_wf p h)

/-- Waiting for a stack changes no memory. -/
theorem State.reach_same (s : State) (a n : Nat) : s.sameMemory (s.reach a n) := by
  unfold State.reach
  split <;> exact ⟨rfl, rfl, rfl, rfl, rfl⟩

theorem State.memWf_fold {s : State} (a n : Nat) (h : s.memWf = true) : (s.fold a n).memWf = true := by
  have h := memWf_congr (s.reach_same a n) h
  unfold State.fold
  dsimp only
  split
  · exact h
  · obtain ⟨h1, h2, h3, h4, h5⟩ := (State.memWf_iff _).1 h
    exact (State.memWf_iff _).2 ⟨foldl_applyPartial_wf _ h1, h2, h3, h4, h5⟩

theorem State.memWf_homeWrite {s : State} (a : Nat) (bs : List Byte) (h : s.memWf = true) :
    (s.homeWrite a bs).memWf = true := memWf_poke _ _ (memWf_fold _ _ h)

/-- A fold of a list keeps what each of its steps keeps. -/
theorem foldl_keeps {α β : Type} {P : α → Prop} {f : α → β → α} (hf : ∀ a b, P a → P (f a b)) (bs : List β) {a : α}
    (h : P a) : P (bs.foldl f a) := by
  induction bs generalizing a with
  | nil => exact h
  | cons b bs ih => exact ih (hf a b h)

theorem State.dropCopies_same (s : State) (d a n : Nat) : s.sameMemory (s.dropCopies d a n) :=
  foldl_keeps (P := fun t => s.sameMemory t)
    (f := fun (t : State) (p : Nat × List Byte) => { t with ds := SMap.erase t.ds (copyKey d p.1) })
    (fun _ _ h => ⟨h.mem, h.sp, h.qm, h.cal, h.slice⟩) _ ⟨rfl, rfl, rfl, rfl, rfl⟩

theorem State.dropPartial_same (s : State) (ag : Agent) (u : Bool) (ls : List Loc) : s.sameMemory (s.dropPartial ag u ls) := by
  unfold State.dropPartial
  split
  · split
    · exact s.dropCopies_same _ _ _
    · exact ⟨rfl, rfl, rfl, rfl, rfl⟩
  · exact ⟨rfl, rfl, rfl, rfl, rfl⟩

/-- What a load drops before its lanes read changes no memory. -/
theorem LsEntry.dropPartials_same (e : LsEntry) (s : State) : s.sameMemory (e.dropPartials s) := by
  unfold LsEntry.dropPartials
  split
  · refine foldl_keeps (P := fun t => s.sameMemory t) (fun t x h => ?_) _ ⟨rfl, rfl, rfl, rfl, rfl⟩
    exact foldl_keeps (P := fun t => s.sameMemory t) (fun u l g => g.after (u.dropPartial_same _ _ l)) _ h
  · exact ⟨rfl, rfl, rfl, rfl, rfl⟩

theorem State.copyTakes_same (s : State) (d a : Nat) (bs : List Byte) : s.sameMemory (s.copyTakes d a bs) := by
  unfold State.copyTakes
  split
  · refine State.sameMemory.after (t := if _ then _ else _) ?_ ⟨rfl, rfl, rfl, rfl, rfl⟩
    split
    · exact s.freshCopy_same _
    · exact ⟨rfl, rfl, rfl, rfl, rfl⟩
  · have h := (s.dropCopies_same d a bs.length).after (State.freshCopy_same _ (copyKey d a))
    exact ⟨h.mem, h.sp, h.qm, h.cal, h.slice⟩

theorem State.copyAfter_same (s : State) (d : Nat) (u : Bool) (a : Nat) (bs : List Byte) :
    s.sameMemory (s.copyAfter d u a bs) := by
  unfold State.copyAfter
  split
  · exact s.dropCopies_same d a bs.length
  · exact s.copyTakes_same d a bs

theorem State.copyPart_same (s : State) (ag : Agent) (u : Bool) (ls : List Loc) (bs : List Byte) :
    s.sameMemory (s.copyPart ag u ls bs) := by
  have same : s.sameMemory s := ⟨rfl, rfl, rfl, rfl, rfl⟩
  unfold State.copyPart
  split
  · exact same
  · split
    · split
      · exact s.copyAfter_same _ _ _ _
      · exact same
    · exact same

theorem State.memWf_readHome {s : State} (ag : Agent) (u : Bool) (a n : Nat) (h : s.memWf = true) :
    (s.readHome ag u a n).1.memWf = true := by
  unfold State.readHome
  cases ag.dieOf with
  | none => exact memWf_fold _ _ h
  | some d =>
    dsimp only
    have hd : ((s.dropCopies d a n).fold a n).memWf = true := memWf_fold _ _ (memWf_congr (s.dropCopies_same d a n) h)
    split
    · exact h
    · split
      · split
        · exact h
        · cases u
          · exact memWf_congr ((copyTakes_same _ _ _ _).after (spoilCopies_same _ _ _ _ _)) hd
          · exact hd
      · exact memWf_fold _ _ h

theorem State.memWf_readUnit {s : State} (ag : Agent) (u : Bool) (ls : List Loc) (h : s.memWf = true) :
    (s.readUnit ag u ls).1.memWf = true := by
  cases ls with
  | nil => exact h
  | cons l rest =>
    simp only [State.readUnit]
    generalize l.k = k
    cases k <;> try exact h
    dsimp only
    split
    · exact h
    · split <;> exact memWf_readHome _ _ _ _ h

theorem State.memWf_readUnits {s : State} (ag : Agent) (u : Bool) (us : List (List Loc)) (h : s.memWf = true) :
    (s.readUnits ag u us).1.memWf = true := by
  unfold State.readUnits
  refine foldl_keeps (P := fun acc : State × List Byte => acc.1.memWf = true) (fun acc x hp => ?_) us h
  exact memWf_readUnit ag u x hp

theorem State.memWf_readLocs {s : State} (ag : Agent) (u : Bool) (ls : List Loc) (h : s.memWf = true) :
    (s.readLocs ag u ls).1.memWf = true := memWf_readUnits _ _ _ h

theorem State.memWf_storeBelow {s : State} (d : Option Nat) (l : Loc) (bs : List Byte) (u : Bool) (h : s.memWf = true) :
    (s.storeBelow d l bs u).memWf = true := by
  unfold State.storeBelow
  split
  · exact memWf_homeWrite _ _ h
  · split
    · exact h
    · split
      · exact h
      · exact memWf_homeWrite _ _ h

theorem State.memWf_storeUnit {s : State} (ag : Agent) (u : Bool) (ls : List Loc) (bs : List Byte) (h : s.memWf = true) :
    (s.storeUnit ag u ls bs).memWf = true := by
  unfold State.storeUnit
  split
  · exact h
  · split
    · exact h
    · exact memWf_poke _ _ h
    · split
      · exact h
      · exact memWf_poke _ _ h
    · split
      · exact h
      · exact memWf_poke _ _ h
    · split
      · exact h
      · exact memWf_poke _ _ h
    · split
      · exact h
      · exact memWf_storeBelow _ _ _ _ h

theorem State.memWf_storeUnits (ag : Agent) (u : Bool) (us : List (List Loc)) {s : State} (bs : List Byte)
    (h : s.memWf = true) : (s.storeUnits ag u us bs).memWf = true := by
  induction us generalizing s bs with
  | nil => exact h
  | cons x us ih => exact ih _ (memWf_storeUnit _ _ _ _ h)

theorem State.memWf_storeLocs {s : State} (ag : Agent) (u : Bool) (ls : List Loc) (bs : List Byte) (h : s.memWf = true) :
    (s.storeLocs ag u ls bs).memWf = true := memWf_storeUnits _ _ _ _ h

theorem State.memWf_moveLq {s : State} (e : BufEnt) (h : s.memWf = true) : (s.moveLq e).memWf = true :=
  memWf_congr (carry_same _ _ _) (memWf_poke (s := { s with lq := s.lq.filter fun x => x.id != e.id }) _ _ h)
theorem State.memWf_movePq {s : State} (e : BufEnt) (h : s.memWf = true) : (s.movePq e).memWf = true :=
  memWf_congr (carry_same _ _ _) (memWf_poke (s := { s with pq := s.pq.filter fun x => x.id != e.id }) _ _ h)

theorem State.memWf_moveCb {s : State} (e : BufEnt) (h : s.memWf = true) : (s.moveCb e).memWf = true := by
  unfold State.moveCb
  refine memWf_congr (carry_same _ _ _) ?_
  split
  · exact memWf_poke _ _ h
  · exact memWf_poke _ _ h
  · exact memWf_storeBelow _ _ _ _ h

theorem State.memWf_moveDw {s : State} (e : BufEnt) (h : s.memWf = true) : (s.moveDw e).memWf = true := by
  have := memWf_homeWrite (s := { s with dw := s.dw.filter fun x => x.id != e.id }) e.loc.a e.bytes h
  exact memWf_congr (((copyAfter_same _ _ _ _ _).after (spoilCopies_same _ _ _ _ _)).after (carry_same _ _ _)) this

theorem State.memWf_drainLq {s : State} (c : Nat) (h : s.memWf = true) : (s.drainLq c).memWf = true :=
  foldl_keeps (P := fun t : State => t.memWf = true) (fun _ e ht => memWf_moveLq e ht) _ h
theorem State.memWf_propagateCb {s : State} (c : Nat) (h : s.memWf = true) : (s.propagateCb c).memWf = true :=
  foldl_keeps (P := fun t : State => t.memWf = true) (fun _ e ht => memWf_moveCb e ht) _ h
theorem State.memWf_writeBackDw {s : State} (d : Nat) (h : s.memWf = true) : (s.writeBackDw d).memWf = true :=
  foldl_keeps (P := fun t : State => t.memWf = true) (fun _ e ht => memWf_moveDw e ht) _ h
theorem State.memWf_deliverPq {s : State} (d : Nat) (h : s.memWf = true) : (s.deliverPq d).memWf = true :=
  foldl_keeps (P := fun t : State => t.memWf = true) (fun _ e ht => memWf_movePq e ht) _ h

theorem State.memWf_release {s : State} (ag : Agent) (sc : Scope) (h : s.memWf = true) : (s.release ag sc).memWf = true := by
  unfold State.release
  cases ag.core <;> cases ag.dieOf <;> cases sc <;> dsimp only <;> with_reducible
    first
      | exact h
      | exact memWf_propagateCb _ h
      | exact memWf_writeBackDw _ h
      | exact memWf_writeBackDw _ (memWf_propagateCb _ h)
      | exact memWf_deliverPq _ (memWf_writeBackDw _ h)
      | exact memWf_deliverPq _ (memWf_writeBackDw _ (memWf_propagateCb _ h))

/-- An acquire drops copies and changes no memory. -/
theorem State.acquire_same (s : State) (ag : Agent) (sc : Scope) : s.sameMemory (s.acquire ag sc) := by
  unfold State.acquire
  cases ag.dieOf <;> cases sc <;> exact ⟨rfl, rfl, rfl, rfl, rfl⟩

theorem State.memWf_moveAll {s : State} (buf : State → List BufEnt) {move : State → BufEnt → State} (p : BufEnt → Bool)
    (hm : ∀ (t : State) e, t.memWf = true → (move t e).memWf = true) (h : s.memWf = true) :
    (s.moveAll buf move p).memWf = true := foldl_keeps (P := fun t : State => t.memWf = true) hm _ h

theorem State.memWf_moveFor {s : State} (buf : State → List BufEnt) {move : State → BufEnt → State} (own : Nat)
    (ls : List Loc) (hm : ∀ (t : State) e, t.memWf = true → (move t e).memWf = true) (h : s.memWf = true) :
    (s.moveFor buf move own ls).memWf = true := memWf_moveAll _ _ hm h

theorem State.memWf_settle {s : State} (ag : Agent) (ls : List Loc) (h : s.memWf = true) : (s.settle ag ls).memWf = true := by
  have hlq (t : State) e := t.memWf_moveLq e
  have hcb (t : State) e := t.memWf_moveCb e
  have hdw (t : State) e := t.memWf_moveDw e
  have hpq (t : State) e := t.memWf_movePq e
  cases ls with
  | nil => exact h
  | cons l rest =>
    unfold State.settle
    dsimp only
    have path : ∀ t : State, t.memWf = true →
        (match ag.core with
        | some c => t.moveFor (·.cb) State.moveCb c (l :: rest)
        | none => t).memWf = true := by
      intro t ht
      cases ag.core with
      | none => exact ht
      | some c => exact memWf_moveFor _ _ _ hcb ht
    split
    · exact memWf_moveFor _ _ _ hlq h
    · exact h
    · split
      · exact memWf_moveFor _ _ _ hpq (memWf_moveFor _ _ _ hdw (path s h))
      · exact path s h

theorem State.memWf_forward {s : State} (ag : Agent) (u : Bool) (ls : List Loc) (h : s.memWf = true) :
    (s.forward ag u ls).memWf = true := by
  have hcb (t : State) e := t.memWf_moveCb e
  have hdw (t : State) e := t.memWf_moveDw e
  unfold State.forward
  cases ag.core <;> cases u <;> cases ag.dieOf <;> dsimp only <;> with_reducible
    first
      | exact h
      | exact memWf_moveFor _ _ _ hcb h
      | exact memWf_moveFor _ _ _ hdw h
      | exact memWf_moveFor _ _ _ hdw (memWf_moveFor _ _ _ hcb h)

theorem State.memWf_storeThrough {s : State} (ag : Agent) (u through : Bool) (ls : List Loc) (bs : List Byte)
    (h : s.memWf = true) : (s.storeThrough ag u through ls bs).memWf = true := by
  unfold State.storeThrough
  dsimp only
  split
  · exact memWf_forward _ _ _ (memWf_storeLocs _ _ _ _ h)
  · exact memWf_storeLocs _ _ _ _ h

theorem State.memWf_homePart {s : State} (ls : List Loc) (h : s.memWf = true) : (s.homePart ls).1.memWf = true := by
  unfold State.homePart
  cases ls with
  | nil => exact h
  | cons l rest =>
    dsimp only
    split
    · exact h
    · exact memWf_fold _ _ h
    · exact h

theorem State.memWf_homeBytes {s : State} (ls : List Loc) (h : s.memWf = true) : (s.homeBytes ls).1.memWf = true := by
  unfold State.homeBytes
  refine foldl_keeps (P := fun acc : State × List Byte => acc.1.memWf = true) (fun acc c hp => ?_) _ h
  exact memWf_homePart c hp

theorem State.memWf_homeStore {s : State} (ls : List Loc) (bs : List Byte) (h : s.memWf = true) :
    (s.homeStore ls bs).memWf = true := by
  unfold State.homeStore
  cases ls with
  | nil => exact h
  | cons l rest =>
    dsimp only
    split <;> first | exact h | exact memWf_poke _ _ h | exact memWf_homeWrite _ _ h

theorem State.memWf_homePutPart {s : State} (ag : Agent) (u : Bool) (ls : List Loc) (bs : List Byte) (h : s.memWf = true) :
    (s.homePutPart ag u ls bs).memWf = true := memWf_congr (copyPart_same _ _ _ _ _) (memWf_homeStore _ _ h)

theorem State.memWf_homePut {s : State} (ag : Agent) (u : Bool) (ls : List Loc) (bs : List Byte) (h : s.memWf = true) :
    (s.homePut ag u ls bs).memWf = true := by
  unfold State.homePut
  refine foldl_keeps (P := fun t : State => t.memWf = true) (fun t c ht => ?_) _ h
  exact memWf_homePutPart _ _ _ _ ht

theorem State.memWf_copyAll {s : State} (ag : Agent) (u : Bool) (ls : List Loc) (bs : List Byte) (h : s.memWf = true) :
    (s.copyAll ag u ls bs).memWf = true := by
  unfold State.copyAll
  refine foldl_keeps (P := fun t : State => t.memWf = true) (fun t c ht => ?_) _ h
  exact memWf_congr (copyPart_same _ _ _ _ _) ht

theorem State.memWf_atomic {s : State} (ag : Agent) (u : Bool) (ls : List Loc) (f : List Byte → Option (List Byte))
    (h : s.memWf = true) : (s.atomic ag u ls f).1.memWf = true := by
  have hb := memWf_homeBytes ls (memWf_settle ag ls h)
  unfold State.atomic
  dsimp only
  split
  · exact memWf_homePut _ _ _ _ hb
  · exact memWf_copyAll _ _ _ _ hb

theorem State.strike_same (s : State) (t : Nat) (ag : Agent) (ls : List Loc) : s.sameMemory (s.strike t ag ls) := by
  unfold State.strike
  split
  · exact ⟨rfl, rfl, rfl, rfl, rfl⟩
  · split <;> exact ⟨rfl, rfl, rfl, rfl, rfl⟩

/-- A request that is applied for its members keeps the form. -/
theorem State.memWf_applyFor {s : State} (ms : List Member) (ls : List Loc) (f : Nat → Nat) (h : s.memWf = true) :
    (s.applyFor ms ls f).1.memWf = true := by
  unfold State.applyFor
  dsimp only
  refine foldl_keeps (P := fun t : State => t.memWf = true) (fun t m ht => memWf_congr (copyPart_same ..) ht) _ ?_
  refine memWf_homeStore _ _ (memWf_homePart _ ?_)
  refine foldl_keeps (P := fun t : State => t.memWf = true) (fun t m ht => memWf_settle _ _ ?_) _ h
  split
  · exact memWf_congr (strike_same ..) ht
  · exact ht

/-- Right after reset every memory lists nothing. -/
theorem State.reset_mem_wf : State.reset.mem.wf = true := rfl

/-! ## What moving buffered stores leaves alone -/

/-- Two states agree in their waves, contexts, entries, tenants, management registers, free values and clock. -/
structure State.sameAround (s t : State) : Prop where
  waves : t.waves = s.waves
  ctxs : t.ctxs = s.ctxs
  entries : t.entries = s.entries
  tenants : t.tenants = s.tenants
  mgmt : t.mgmt = s.mgmt
  fresh : t.fresh = s.fresh
  clock : t.clock = s.clock

theorem State.sameAround.trans {s t u : State} (h : s.sameAround t) (k : t.sameAround u) : s.sameAround u :=
  ⟨k.waves.trans h.waves, k.ctxs.trans h.ctxs, k.entries.trans h.entries, k.tenants.trans h.tenants, k.mgmt.trans h.mgmt,
    k.fresh.trans h.fresh, k.clock.trans h.clock⟩

/-- Marking and lifting poison leaves the rest alone. -/
theorem State.around_freshCopy (s : State) (key : Nat) : s.sameAround (s.freshCopy key) := by
  unfold State.freshCopy
  split <;> exact ⟨rfl, rfl, rfl, rfl, rfl, rfl, rfl⟩

theorem State.around_spoilCopies (s : State) (d a n : Nat) (b : Bool) : s.sameAround (s.spoilCopies d a n b) := by
  unfold State.spoilCopies
  split <;> exact ⟨rfl, rfl, rfl, rfl, rfl, rfl, rfl⟩

theorem State.around_carry (s : State) (n : Nat) (e : BufEnt) : s.sameAround (s.carry n e) := by
  unfold State.carry
  split
  · exact ⟨rfl, rfl, rfl, rfl, rfl, rfl, rfl⟩
  · dsimp only
    split <;> exact ⟨rfl, rfl, rfl, rfl, rfl, rfl, rfl⟩

theorem State.around_cleanse (s : State) (k : MemK) (a n : Nat) : s.sameAround (s.cleanse k a n) := by
  unfold State.cleanse
  split <;> exact ⟨rfl, rfl, rfl, rfl, rfl, rfl, rfl⟩

theorem State.around_poke (s : State) (l : Loc) (bs : List Byte) : s.sameAround (s.poke l bs) := by
  obtain ⟨k, a⟩ := l
  refine (s.around_cleanse k a bs.length).trans ?_
  cases k <;> exact ⟨rfl, rfl, rfl, rfl, rfl, rfl, rfl⟩

theorem State.around_fold (s : State) (a n : Nat) : s.sameAround (s.fold a n) := by
  have h : s.sameAround (s.reach a n) := by
    unfold State.reach; split <;> exact ⟨rfl, rfl, rfl, rfl, rfl, rfl, rfl⟩
  refine h.trans ?_
  unfold State.fold
  dsimp only
  split <;> exact ⟨rfl, rfl, rfl, rfl, rfl, rfl, rfl⟩

theorem State.around_homeWrite (s : State) (a : Nat) (bs : List Byte) : s.sameAround (s.homeWrite a bs) :=
  (s.around_fold a bs.length).trans (State.around_poke _ _ _)

theorem State.around_storeBelow (s : State) (d : Option Nat) (l : Loc) (bs : List Byte) (u : Bool) :
    s.sameAround (s.storeBelow d l bs u) := by
  unfold State.storeBelow
  split
  · exact s.around_homeWrite _ _
  · split
    · exact ⟨rfl, rfl, rfl, rfl, rfl, rfl, rfl⟩
    · split
      · exact ⟨rfl, rfl, rfl, rfl, rfl, rfl, rfl⟩
      · exact s.around_homeWrite _ _

theorem State.around_copyAfter (s : State) (d : Nat) (u : Bool) (a : Nat) (bs : List Byte) :
    s.sameAround (s.copyAfter d u a bs) := by
  have drop (t : State) (n : Nat) : t.sameAround (t.dropCopies d a n) :=
    foldl_keeps (P := fun x => t.sameAround x)
      (f := fun (x : State) (p : Nat × List Byte) => { x with ds := SMap.erase x.ds (copyKey d p.1) })
      (fun _ _ h => ⟨h.waves, h.ctxs, h.entries, h.tenants, h.mgmt, h.fresh, h.clock⟩) _ ⟨rfl, rfl, rfl, rfl, rfl, rfl, rfl⟩
  unfold State.copyAfter
  split
  · exact drop s _
  · unfold State.copyTakes
    split
    · refine State.sameAround.trans (t := if _ then _ else _) ?_ ⟨rfl, rfl, rfl, rfl, rfl, rfl, rfl⟩
      split
      · exact s.around_freshCopy _
      · exact ⟨rfl, rfl, rfl, rfl, rfl, rfl, rfl⟩
    · have h := (drop s bs.length).trans (State.around_freshCopy _ (copyKey d a))
      exact ⟨h.waves, h.ctxs, h.entries, h.tenants, h.mgmt, h.fresh, h.clock⟩

/-- A fold of moves that each leave a state alone. -/
theorem State.around_moveAll (s : State) (buf : State → List BufEnt) {move : State → BufEnt → State} (p : BufEnt → Bool)
    (hm : ∀ (t : State) e, t.sameAround (move t e)) : s.sameAround (s.moveAll buf move p) :=
  foldl_keeps (P := fun t => s.sameAround t) (fun t e h => h.trans (hm t e)) _ ⟨rfl, rfl, rfl, rfl, rfl, rfl, rfl⟩

theorem State.around_moveCb (s : State) (e : BufEnt) : s.sameAround (s.moveCb e) := by
  have h : s.sameAround { s with cb := s.cb.filter fun x => x.id != e.id } := ⟨rfl, rfl, rfl, rfl, rfl, rfl, rfl⟩
  unfold State.moveCb
  refine State.sameAround.trans ?_ (State.around_carry _ _ _)
  split
  · exact h.trans (State.around_poke _ _ _)
  · exact h.trans (State.around_poke _ _ _)
  · exact h.trans (State.around_storeBelow _ _ _ _ _)

theorem State.around_moveDw (s : State) (e : BufEnt) : s.sameAround (s.moveDw e) := by
  have h : s.sameAround { s with dw := s.dw.filter fun x => x.id != e.id } := ⟨rfl, rfl, rfl, rfl, rfl, rfl, rfl⟩
  exact (((h.trans (State.around_homeWrite _ _ _)).trans (State.around_copyAfter _ _ _ _ _)).trans
    (State.around_spoilCopies _ _ _ _ _)).trans (State.around_carry _ _ _)

theorem State.around_movePq (s : State) (e : BufEnt) : s.sameAround (s.movePq e) := by
  have h : s.sameAround { s with pq := s.pq.filter fun x => x.id != e.id } := ⟨rfl, rfl, rfl, rfl, rfl, rfl, rfl⟩
  exact (h.trans (State.around_poke _ _ _)).trans (State.around_carry _ _ _)

/-- A release moves buffered stores and changes no wave, context, entry, tenant or management register. -/
theorem State.around_release (s : State) (ag : Agent) (sc : Scope) : s.sameAround (s.release ag sc) := by
  have cb (t : State) c : t.sameAround (t.propagateCb c) := t.around_moveAll _ _ State.around_moveCb
  have dw (t : State) d : t.sameAround (t.writeBackDw d) := t.around_moveAll _ _ State.around_moveDw
  have pq (t : State) d : t.sameAround (t.deliverPq d) := t.around_moveAll _ _ State.around_movePq
  have same : s.sameAround s := ⟨rfl, rfl, rfl, rfl, rfl, rfl, rfl⟩
  unfold State.release
  cases ag.core <;> cases ag.dieOf <;> cases sc <;> dsimp only <;> with_reducible
    first
      | exact same
      | exact cb _ _
      | exact dw _ _
      | exact (cb _ _).trans (dw _ _)
      | exact (dw _ _).trans (pq _ _)
      | exact ((cb _ _).trans (dw _ _)).trans (pq _ _)

/-! ## What is written -/

/-- A write to M at its home writes the bytes it names; where no partial stands, it changes no other byte. -/
theorem State.byte_homeWrite {s : State} (a : Nat) (bs : List Byte) (hp : s.parts = []) (x : Nat) :
    (s.homeWrite a bs).mem.byte x = if a ≤ x ∧ x < a + bs.length then bs.getD (x - a) 0 else s.mem.byte x := by
  have hr : (s.reach a bs.length).parts = [] ∧ (s.reach a bs.length).mem = s.mem := by
    unfold State.reach
    split <;> exact ⟨hp, rfl⟩
  have hf : s.fold a bs.length = s.reach a bs.length := by simp [State.fold, hr.1]
  unfold State.homeWrite
  rw [hf]
  simp only [State.poke, ((s.reach a bs.length).cleanse_same .m a bs.length).mem, hr.2]
  exact Memory.byte_setBytes ..

end Sys2Proof.Machine
end

