-- ==== Sys2Proof/Laws/PerInstr.lean ====
section
/-! SUPPORT. For each instruction: its first word's LEN says how many words it has (03 R31), so that a fetch reads
exactly the words of the instruction. -/

namespace Sys2Proof.Laws.LengthField

open Sys2Proof Sys2Proof.Machine

/-- The number of words is the one that LEN of the first gives. -/
def Counted (ws : List Word) : Prop := ∀ w0 rest, ws = w0 :: rest → wordCount w0 = rest.length + 1

/-- The words of an instruction are counted by its first. -/
def Statement (i : Instr) : Prop := Counted (encode i)

/-- Bits [1:0] of packed fields are the last field. -/
theorem packed_len (fs : List (Nat × Nat)) (n : Nat) (hn : n < 4) :
    (BitVec.ofNat 32 (packFields (fs ++ [(n, 2)]))).toNat % 4 = n := by
  have h : packFields (fs ++ [(n, 2)]) % 4 = n := by
    induction fs with
    | nil => simp [packFields]; omega
    | cons f fs ih =>
      obtain ⟨v, k⟩ := f
      have h4 : (2 : Nat) ^ ((fs ++ [(n, 2)]).map Prod.snd).sum = 2 ^ (fs.map Prod.snd).sum * 4 := by
        simp [Nat.pow_add]
      simp only [List.cons_append, packFields, h4, ← Nat.mul_assoc]
      omega
  rw [BitVec.toNat_ofNat]
  omega

theorem counted_of {fs : List (Nat × Nat)} {n : Nat} {rest : List Word} (hn : n < 4)
    (h : rest.length + 1 = if n = 0 then 1 else if n = 3 then 5 else 3) :
    Counted (BitVec.ofNat 32 (packFields (fs ++ [(n, 2)])) :: rest) := by
  rintro w0 ws ⟨⟩
  rw [wordCount, packed_len fs n hn, h]
  split <;> simp_all

theorem of_ext (major minor : Nat) (e : Ext) : Counted (encodeExt major minor e) := by
  have g (n : Nat) (rest : List Word) (hn : n < 4) := counted_of (rest := rest) (n := n)
    (fs := [(e.a.field, 8), (e.d.field, 8), (minor, 8), (major, 6)]) hn
  by_cases h : e.lits = 1
  · simp only [encodeExt, h, if_true]
    exact g 3 _ (by omega) rfl
  · simp only [encodeExt, h, if_false]
    exact g 1 _ (by omega) rfl

theorem of_base (major minor : Nat) (b : Base3) : Counted (encodeBase3 major minor b) := by
  unfold encodeBase3
  cases b.b with
  | reg n => exact counted_of (n := 0) (fs := [(n.toNat, 7), (b.a.toNat, 7), (b.d.toNat, 7), (minor, 3), (major, 6)]) (by omega) rfl
  | lit w => exact counted_of (n := 2) (fs := [(0, 7), (b.a.toNat, 7), (b.d.toNat, 7), (minor, 3), (major, 6)]) (by omega) rfl

theorem of_imm (major : Nat) (b : BaseImm) : Counted (encodeImm major b) := by
  unfold encodeImm
  cases b.i with
  | imm n => exact counted_of (n := 0) (fs := [(n.toNat, 12), (b.a.toNat, 6), (b.d.toNat, 6), (major, 6)]) (by omega) rfl
  | lit w => exact counted_of (n := 2) (fs := [(0, 12), (b.a.toNat, 6), (b.d.toNat, 6), (major, 6)]) (by omega) rfl

theorem of_clause (h : Clause) : Statement (.clause h) :=
  counted_of (n := 0) (fs := [(h.dcount.toNat, 4), (h.setb.toNat, 4), (h.seta.toNat, 4), (h.wait.toNat, 12), (0x3F, 6)])
    (by omega) rfl

theorem of_shi (b : BaseShi) : Statement (.shi b) :=
  counted_of (n := 0) (fs := [(b.imm.toNat, 20), (b.d.toNat, 4), (0x0C, 6)]) (by omega) rfl

theorem clause (h : Clause) : Statement (.clause h) := of_clause h
theorem dref (c : DictCode) : Statement (.dref c) := nofun
theorem iaddBaseV (b : Base3) : Statement (.iaddBaseV b) := of_base _ _ b
theorem isubBaseV (b : Base3) : Statement (.isubBaseV b) := of_base _ _ b
theorem imulBaseV (b : Base3) : Statement (.imulBaseV b) := of_base _ _ b
theorem andBaseV (b : Base3) : Statement (.andBaseV b) := of_base _ _ b
theorem orBaseV (b : Base3) : Statement (.orBaseV b) := of_base _ _ b
theorem xorBaseV (b : Base3) : Statement (.xorBaseV b) := of_base _ _ b
theorem ishlBaseV (b : Base3) : Statement (.ishlBaseV b) := of_base _ _ b
theorem lshrBaseV (b : Base3) : Statement (.lshrBaseV b) := of_base _ _ b
theorem iminI32BaseV (b : Base3) : Statement (.iminI32BaseV b) := of_base _ _ b
theorem imaxI32BaseV (b : Base3) : Statement (.imaxI32BaseV b) := of_base _ _ b
theorem iminN32BaseV (b : Base3) : Statement (.iminN32BaseV b) := of_base _ _ b
theorem imaxN32BaseV (b : Base3) : Statement (.imaxN32BaseV b) := of_base _ _ b
theorem imulhI32BaseV (b : Base3) : Statement (.imulhI32BaseV b) := of_base _ _ b
theorem imulhN32BaseV (b : Base3) : Statement (.imulhN32BaseV b) := of_base _ _ b
theorem ishrI32BaseV (b : Base3) : Statement (.ishrI32BaseV b) := of_base _ _ b
theorem faddBaseV (b : Base3) : Statement (.faddBaseV b) := of_base _ _ b
theorem fsubBaseV (b : Base3) : Statement (.fsubBaseV b) := of_base _ _ b
theorem fmulBaseV (b : Base3) : Statement (.fmulBaseV b) := of_base _ _ b
theorem fminBaseV (b : Base3) : Statement (.fminBaseV b) := of_base _ _ b
theorem fmaxBaseV (b : Base3) : Statement (.fmaxBaseV b) := of_base _ _ b
theorem iaddBaseS (b : Base3) : Statement (.iaddBaseS b) := of_base _ _ b
theorem isubBaseS (b : Base3) : Statement (.isubBaseS b) := of_base _ _ b
theorem imulBaseS (b : Base3) : Statement (.imulBaseS b) := of_base _ _ b
theorem andBaseS (b : Base3) : Statement (.andBaseS b) := of_base _ _ b
theorem orBaseS (b : Base3) : Statement (.orBaseS b) := of_base _ _ b
theorem xorBaseS (b : Base3) : Statement (.xorBaseS b) := of_base _ _ b
theorem ishlBaseS (b : Base3) : Statement (.ishlBaseS b) := of_base _ _ b
theorem lshrBaseS (b : Base3) : Statement (.lshrBaseS b) := of_base _ _ b
theorem iminI32BaseS (b : Base3) : Statement (.iminI32BaseS b) := of_base _ _ b
theorem imaxI32BaseS (b : Base3) : Statement (.imaxI32BaseS b) := of_base _ _ b
theorem iminN32BaseS (b : Base3) : Statement (.iminN32BaseS b) := of_base _ _ b
theorem imaxN32BaseS (b : Base3) : Statement (.imaxN32BaseS b) := of_base _ _ b
theorem imulhI32BaseS (b : Base3) : Statement (.imulhI32BaseS b) := of_base _ _ b
theorem imulhN32BaseS (b : Base3) : Statement (.imulhN32BaseS b) := of_base _ _ b
theorem ishrI32BaseS (b : Base3) : Statement (.ishrI32BaseS b) := of_base _ _ b
theorem faddBaseS (b : Base3) : Statement (.faddBaseS b) := of_base _ _ b
theorem fsubBaseS (b : Base3) : Statement (.fsubBaseS b) := of_base _ _ b
theorem fmulBaseS (b : Base3) : Statement (.fmulBaseS b) := of_base _ _ b
theorem fminBaseS (b : Base3) : Statement (.fminBaseS b) := of_base _ _ b
theorem fmaxBaseS (b : Base3) : Statement (.fmaxBaseS b) := of_base _ _ b
theorem iaddi (b : BaseImm) : Statement (.iaddi b) := of_imm _ b
theorem andi (b : BaseImm) : Statement (.andi b) := of_imm _ b
theorem ori (b : BaseImm) : Statement (.ori b) := of_imm _ b
theorem xori (b : BaseImm) : Statement (.xori b) := of_imm _ b
theorem ishli (b : BaseImm) : Statement (.ishli b) := of_imm _ b
theorem shi (b : BaseShi) : Statement (.shi b) := of_shi b
theorem iadd (e : Ext) : Statement (.iadd e) := of_ext _ _ e
theorem isub (e : Ext) : Statement (.isub e) := of_ext _ _ e
theorem iaddc (e : Ext) : Statement (.iaddc e) := of_ext _ _ e
theorem imul (e : Ext) : Statement (.imul e) := of_ext _ _ e
theorem imulh (e : Ext) : Statement (.imulh e) := of_ext _ _ e
theorem imad (e : Ext) : Statement (.imad e) := of_ext _ _ e
theorem imin (e : Ext) : Statement (.imin e) := of_ext _ _ e
theorem imax (e : Ext) : Statement (.imax e) := of_ext _ _ e
theorem iabs (e : Ext) : Statement (.iabs e) := of_ext _ _ e
theorem ineg (e : Ext) : Statement (.ineg e) := of_ext _ _ e
theorem ishl (e : Ext) : Statement (.ishl e) := of_ext _ _ e
theorem ishr (e : Ext) : Statement (.ishr e) := of_ext _ _ e
theorem lshr (e : Ext) : Statement (.lshr e) := of_ext _ _ e
theorem andX (e : Ext) : Statement (.andX e) := of_ext _ _ e
theorem orX (e : Ext) : Statement (.orX e) := of_ext _ _ e
theorem xorX (e : Ext) : Statement (.xorX e) := of_ext _ _ e
theorem notX (e : Ext) : Statement (.notX e) := of_ext _ _ e
theorem popc (e : Ext) : Statement (.popc e) := of_ext _ _ e
theorem clz (e : Ext) : Statement (.clz e) := of_ext _ _ e
theorem brev (e : Ext) : Statement (.brev e) := of_ext _ _ e
theorem bfx (e : Ext) : Statement (.bfx e) := of_ext _ _ e
theorem bfi (e : Ext) : Statement (.bfi e) := of_ext _ _ e
theorem icmp (e : Ext) : Statement (.icmp e) := of_ext _ _ e
theorem selX (e : Ext) : Statement (.selX e) := of_ext _ _ e
theorem fadd (e : Ext) : Statement (.fadd e) := of_ext _ _ e
theorem fsub (e : Ext) : Statement (.fsub e) := of_ext _ _ e
theorem fmul (e : Ext) : Statement (.fmul e) := of_ext _ _ e
theorem fma (e : Ext) : Statement (.fma e) := of_ext _ _ e
theorem fmin (e : Ext) : Statement (.fmin e) := of_ext _ _ e
theorem fmax (e : Ext) : Statement (.fmax e) := of_ext _ _ e
theorem fabs (e : Ext) : Statement (.fabs e) := of_ext _ _ e
theorem fneg (e : Ext) : Statement (.fneg e) := of_ext _ _ e
theorem fcmp (e : Ext) : Statement (.fcmp e) := of_ext _ _ e
theorem fclass (e : Ext) : Statement (.fclass e) := of_ext _ _ e
theorem fdiv (e : Ext) : Statement (.fdiv e) := of_ext _ _ e
theorem fsqrt (e : Ext) : Statement (.fsqrt e) := of_ext _ _ e
theorem frcp (e : Ext) : Statement (.frcp e) := of_ext _ _ e
theorem frsq (e : Ext) : Statement (.frsq e) := of_ext _ _ e
theorem fex2 (e : Ext) : Statement (.fex2 e) := of_ext _ _ e
theorem flg2 (e : Ext) : Statement (.flg2 e) := of_ext _ _ e
theorem dadd (e : Ext) : Statement (.dadd e) := of_ext _ _ e
theorem dmul (e : Ext) : Statement (.dmul e) := of_ext _ _ e
theorem dfma (e : Ext) : Statement (.dfma e) := of_ext _ _ e
theorem cvt (e : Ext) : Statement (.cvt e) := of_ext _ _ e
theorem frnd (e : Ext) : Statement (.frnd e) := of_ext _ _ e
theorem pack (e : Ext) : Statement (.pack e) := of_ext _ _ e
theorem unpack (e : Ext) : Statement (.unpack e) := of_ext _ _ e
theorem kand (e : Ext) : Statement (.kand e) := of_ext _ _ e
theorem kor (e : Ext) : Statement (.kor e) := of_ext _ _ e
theorem kxor (e : Ext) : Statement (.kxor e) := of_ext _ _ e
theorem knot (e : Ext) : Statement (.knot e) := of_ext _ _ e
theorem kmov (e : Ext) : Statement (.kmov e) := of_ext _ _ e
theorem kpopc (e : Ext) : Statement (.kpopc e) := of_ext _ _ e
theorem kfirst (e : Ext) : Statement (.kfirst e) := of_ext _ _ e
theorem kany (e : Ext) : Statement (.kany e) := of_ext _ _ e
theorem kall (e : Ext) : Statement (.kall e) := of_ext _ _ e
theorem shfl (e : Ext) : Statement (.shfl e) := of_ext _ _ e
theorem shflx (e : Ext) : Statement (.shflx e) := of_ext _ _ e
theorem shflup (e : Ext) : Statement (.shflup e) := of_ext _ _ e
theorem shfldn (e : Ext) : Statement (.shfldn e) := of_ext _ _ e
theorem bcast (e : Ext) : Statement (.bcast e) := of_ext _ _ e
theorem redw (e : Ext) : Statement (.redw e) := of_ext _ _ e
theorem scanw (e : Ext) : Statement (.scanw e) := of_ext _ _ e
theorem movx (e : Ext) : Statement (.movx e) := of_ext _ _ e
theorem movxw (e : Ext) : Statement (.movxw e) := of_ext _ _ e
theorem xswap (e : Ext) : Statement (.xswap e) := of_ext _ _ e
theorem ifX (e : Ext) : Statement (.ifX e) := of_ext _ _ e
theorem elseX (e : Ext) : Statement (.elseX e) := of_ext _ _ e
theorem endif (e : Ext) : Statement (.endif e) := of_ext _ _ e
theorem loopX (e : Ext) : Statement (.loopX e) := of_ext _ _ e
theorem endloop (e : Ext) : Statement (.endloop e) := of_ext _ _ e
theorem breakX (e : Ext) : Statement (.breakX e) := of_ext _ _ e
theorem joinX (e : Ext) : Statement (.joinX e) := of_ext _ _ e
theorem bra (e : Ext) : Statement (.bra e) := of_ext _ _ e
theorem bz (e : Ext) : Statement (.bz e) := of_ext _ _ e
theorem bnz (e : Ext) : Statement (.bnz e) := of_ext _ _ e
theorem call (e : Ext) : Statement (.call e) := of_ext _ _ e
theorem calli (e : Ext) : Statement (.calli e) := of_ext _ _ e
theorem ret (e : Ext) : Statement (.ret e) := of_ext _ _ e
theorem exit (e : Ext) : Statement (.exit e) := of_ext _ _ e
theorem nop (e : Ext) : Statement (.nop e) := of_ext _ _ e
theorem yield (e : Ext) : Statement (.yield e) := of_ext _ _ e
theorem ld (e : Ext) : Statement (.ld e) := of_ext _ _ e
theorem ldb (e : Ext) : Statement (.ldb e) := of_ext _ _ e
theorem ldc (e : Ext) : Statement (.ldc e) := of_ext _ _ e
theorem lda (e : Ext) : Statement (.lda e) := of_ext _ _ e
theorem prf (e : Ext) : Statement (.prf e) := of_ext _ _ e
theorem st (e : Ext) : Statement (.st e) := of_ext _ _ e
theorem stb (e : Ext) : Statement (.stb e) := of_ext _ _ e
theorem stl (e : Ext) : Statement (.stl e) := of_ext _ _ e
theorem fao (e : Ext) : Statement (.fao e) := of_ext _ _ e
theorem cas (e : Ext) : Statement (.cas e) := of_ext _ _ e
theorem red (e : Ext) : Statement (.red e) := of_ext _ _ e
theorem vat (e : Ext) : Statement (.vat e) := of_ext _ _ e
theorem xacc (e : Ext) : Statement (.xacc e) := of_ext _ _ e
theorem xrd (e : Ext) : Statement (.xrd e) := of_ext _ _ e
theorem xclr (e : Ext) : Statement (.xclr e) := of_ext _ _ e
theorem fence (e : Ext) : Statement (.fence e) := of_ext _ _ e
theorem qfence (e : Ext) : Statement (.qfence e) := of_ext _ _ e
theorem barX (e : Ext) : Statement (.barX e) := of_ext _ _ e
theorem bara (e : Ext) : Statement (.bara e) := of_ext _ _ e
theorem barw (e : Ext) : Statement (.barw e) := of_ext _ _ e
theorem qpush (e : Ext) : Statement (.qpush e) := of_ext _ _ e
theorem qpop (e : Ext) : Statement (.qpop e) := of_ext _ _ e
theorem qpeek (e : Ext) : Statement (.qpeek e) := of_ext _ _ e
theorem trapX (e : Ext) : Statement (.trapX e) := of_ext _ _ e
theorem tret (e : Ext) : Statement (.tret e) := of_ext _ _ e
theorem sysc (e : Ext) : Statement (.sysc e) := of_ext _ _ e
theorem bkpt (e : Ext) : Statement (.bkpt e) := of_ext _ _ e
theorem rds (e : Ext) : Statement (.rds e) := of_ext _ _ e
theorem wrs (e : Ext) : Statement (.wrs e) := of_ext _ _ e
theorem icf (e : Ext) : Statement (.icf e) := of_ext _ _ e
theorem haltX (e : Ext) : Statement (.haltX e) := of_ext _ _ e
theorem cpy (e : Ext) : Statement (.cpy e) := of_ext _ _ e
theorem cpy2d (e : Ext) : Statement (.cpy2d e) := of_ext _ _ e
theorem gth (e : Ext) : Statement (.gth e) := of_ext _ _ e
theorem sct (e : Ext) : Statement (.sct e) := of_ext _ _ e
theorem xcode (e : Ext) : Statement (.xcode e) := of_ext _ _ e
theorem coll (e : Ext) : Statement (.coll e) := of_ext _ _ e
theorem mma (e : Ext) : Statement (.mma e) := of_ext _ _ e
theorem mzero (e : Ext) : Statement (.mzero e) := of_ext _ _ e
theorem mlda (e : Ext) : Statement (.mlda e) := of_ext _ _ e
theorem mldb (e : Ext) : Statement (.mldb e) := of_ext _ _ e
theorem munf (e : Ext) : Statement (.munf e) := of_ext _ _ e
theorem mdrn (e : Ext) : Statement (.mdrn e) := of_ext _ _ e
theorem mhist (e : Ext) : Statement (.mhist e) := of_ext _ _ e
theorem mstat (e : Ext) : Statement (.mstat e) := of_ext _ _ e
theorem draw (e : Ext) : Statement (.draw e) := of_ext _ _ e
theorem drawf (e : Ext) : Statement (.drawf e) := of_ext _ _ e
theorem kdraw (e : Ext) : Statement (.kdraw e) := of_ext _ _ e
theorem chsite (e : Ext) : Statement (.chsite e) := of_ext _ _ e
theorem chrec (e : Ext) : Statement (.chrec e) := of_ext _ _ e
theorem result (e : Ext) : Statement (.result e) := of_ext _ _ e
theorem chmut (e : Ext) : Statement (.chmut e) := of_ext _ _ e
theorem chstat (e : Ext) : Statement (.chstat e) := of_ext _ _ e
theorem chkey (e : Ext) : Statement (.chkey e) := of_ext _ _ e
theorem tsamp (e : Ext) : Statement (.tsamp e) := of_ext _ _ e
theorem tdraft (e : Ext) : Statement (.tdraft e) := of_ext _ _ e
theorem tconf (e : Ext) : Statement (.tconf e) := of_ext _ _ e
theorem trej (e : Ext) : Statement (.trej e) := of_ext _ _ e
theorem twatchSet (e : Ext) : Statement (.twatchSet e) := of_ext _ _ e
theorem twatchClear (e : Ext) : Statement (.twatchClear e) := of_ext _ _ e
theorem twatchOpen (e : Ext) : Statement (.twatchOpen e) := of_ext _ _ e
theorem twatchClose (e : Ext) : Statement (.twatchClose e) := of_ext _ _ e
theorem twatchThaw (e : Ext) : Statement (.twatchThaw e) := of_ext _ _ e
theorem twatchSync (e : Ext) : Statement (.twatchSync e) := of_ext _ _ e
theorem tinj (e : Ext) : Statement (.tinj e) := of_ext _ _ e
theorem tfork (e : Ext) : Statement (.tfork e) := of_ext _ _ e
theorem tstat (e : Ext) : Statement (.tstat e) := of_ext _ _ e
theorem trav (e : Ext) : Statement (.trav e) := of_ext _ _ e
theorem travc (e : Ext) : Statement (.travc e) := of_ext _ _ e
theorem tres (e : Ext) : Statement (.tres e) := of_ext _ _ e
theorem ttok (e : Ext) : Statement (.ttok e) := of_ext _ _ e
theorem smpl (e : Ext) : Statement (.smpl e) := of_ext _ _ e
theorem sres (e : Ext) : Statement (.sres e) := of_ext _ _ e
theorem asbeg (e : Ext) : Statement (.asbeg e) := of_ext _ _ e
theorem assegMove (e : Ext) : Statement (.assegMove e) := of_ext _ _ e
theorem assegLine (e : Ext) : Statement (.assegLine e) := of_ext _ _ e
theorem assegQuad (e : Ext) : Statement (.assegQuad e) := of_ext _ _ e
theorem assegCubic (e : Ext) : Statement (.assegCubic e) := of_ext _ _ e
theorem assegV (e : Ext) : Statement (.assegV e) := of_ext _ _ e
theorem asend (e : Ext) : Statement (.asend e) := of_ext _ _ e
theorem asdrn (e : Ext) : Statement (.asdrn e) := of_ext _ _ e
theorem asstat (e : Ext) : Statement (.asstat e) := of_ext _ _ e
theorem lnch (e : Ext) : Statement (.lnch e) := of_ext _ _ e
theorem armX (e : Ext) : Statement (.armX e) := of_ext _ _ e
theorem sigh (e : Ext) : Statement (.sigh e) := of_ext _ _ e
theorem xswapPair : Statement .xswapPair := nofun
theorem xswapTimeout : Statement .xswapTimeout := nofun
theorem splitMerge : Statement .splitMerge := nofun
theorem joinRelease : Statement .joinRelease := nofun
theorem yieldExpiry : Statement .yieldExpiry := nofun
theorem barrierComplete : Statement .barrierComplete := nofun
theorem longLatencyComplete : Statement .longLatencyComplete := nofun
theorem tokenWrite : Statement .tokenWrite := nofun
theorem performLsEntry : Statement .performLsEntry := nofun
theorem drainLq : Statement .drainLq := nofun
theorem propagateCb : Statement .propagateCb := nofun
theorem writeBackDw : Statement .writeBackDw := nofun
theorem dropCopy : Statement .dropCopy := nofun
theorem deliverPq : Statement .deliverPq := nofun
theorem bufferMerge : Statement .bufferMerge := nofun
theorem remoteRequest : Statement .remoteRequest := nofun
theorem hostMemAccess : Statement .hostMemAccess := nofun
theorem pageWalk : Statement .pageWalk := nofun
theorem combinePair : Statement .combinePair := nofun
theorem combineReturn : Statement .combineReturn := nofun
theorem guardExpiry : Statement .guardExpiry := nofun
theorem trapEntry : Statement .trapEntry := nofun
theorem watchdog : Statement .watchdog := nofun
theorem engineFault : Statement .engineFault := nofun
theorem debugStop : Statement .debugStop := nofun
theorem pcmatch : Statement .pcmatch := nofun
theorem q15DebugEntry : Statement .q15DebugEntry := nofun
theorem timeSliceExpiry : Statement .timeSliceExpiry := nofun
theorem deadlineExpiry : Statement .deadlineExpiry := nofun
theorem contextStopped : Statement .contextStopped := nofun
theorem contextAutoResume : Statement .contextAutoResume := nofun
theorem cpyEntry : Statement .cpyEntry := nofun
theorem cpy2dEntry : Statement .cpy2dEntry := nofun
theorem gthEntry : Statement .gthEntry := nofun
theorem sctEntry : Statement .sctEntry := nofun
theorem xcodeEntry : Statement .xcodeEntry := nofun
theorem collInstance : Statement .collInstance := nofun
theorem collTimeout : Statement .collTimeout := nofun
theorem mmaEntry : Statement .mmaEntry := nofun
theorem joinInstanceForm : Statement .joinInstanceForm := nofun
theorem joinInstanceStart : Statement .joinInstanceStart := nofun
theorem joinTimeout : Statement .joinTimeout := nofun
theorem mzeroEntry : Statement .mzeroEntry := nofun
theorem mldaEntry : Statement .mldaEntry := nofun
theorem mldbEntry : Statement .mldbEntry := nofun
theorem munfEntry : Statement .munfEntry := nofun
theorem mdrnEntry : Statement .mdrnEntry := nofun
theorem mhistEntry : Statement .mhistEntry := nofun
theorem matrixStatusPost : Statement .matrixStatusPost := nofun
theorem mBuild : Statement .mBuild := nofun
theorem drawRecord : Statement .drawRecord := nofun
theorem chrecEntry : Statement .chrecEntry := nofun
theorem resultEntry : Statement .resultEntry := nofun
theorem resultPost : Statement .resultPost := nofun
theorem chmutEntry : Statement .chmutEntry := nofun
theorem tsampEntry : Statement .tsampEntry := nofun
theorem tdraftEntry : Statement .tdraftEntry := nofun
theorem tconfEntry : Statement .tconfEntry := nofun
theorem trejEntry : Statement .trejEntry := nofun
theorem twatchSetEntry : Statement .twatchSetEntry := nofun
theorem twatchClearEntry : Statement .twatchClearEntry := nofun
theorem twatchOpenEntry : Statement .twatchOpenEntry := nofun
theorem twatchCloseEntry : Statement .twatchCloseEntry := nofun
theorem twatchThawEntry : Statement .twatchThawEntry := nofun
theorem twatchSyncEntry : Statement .twatchSyncEntry := nofun
theorem tinjEntry : Statement .tinjEntry := nofun
theorem tforkEntry : Statement .tforkEntry := nofun
theorem tokenResultPost : Statement .tokenResultPost := nofun
theorem rayTraversal : Statement .rayTraversal := nofun
theorem tresEntry : Statement .tresEntry := nofun
theorem continuationRecord : Statement .continuationRecord := nofun
theorem batchTimeout : Statement .batchTimeout := nofun
theorem smplEntry : Statement .smplEntry := nofun
theorem asbegEntry : Statement .asbegEntry := nofun
theorem assegEntry : Statement .assegEntry := nofun
theorem asendEntry : Statement .asendEntry := nofun
theorem asdrnEntry : Statement .asdrnEntry := nofun
theorem ashlarStatusPost : Statement .ashlarStatusPost := nofun
theorem lnchEntry : Statement .lnchEntry := nofun
theorem armEntry : Statement .armEntry := nofun
theorem sighEntry : Statement .sighEntry := nofun
theorem nodeEnd : Statement .nodeEnd := nofun
theorem nodeLaunch : Statement .nodeLaunch := nofun
theorem nodeRelaunch : Statement .nodeRelaunch := nofun
theorem nodeCond : Statement .nodeCond := nofun
theorem nodeWhile : Statement .nodeWhile := nofun
theorem nodeJoin : Statement .nodeJoin := nofun
theorem nodeArm : Statement .nodeArm := nofun
theorem nodeSignal : Statement .nodeSignal := nofun
theorem messageX : Statement .messageX := nofun
theorem workgroupPlace : Statement .workgroupPlace := nofun
theorem workgroupRetire : Statement .workgroupRetire := nofun
theorem completionEvent : Statement .completionEvent := nofun
theorem preempt : Statement .preempt := nofun
theorem resumeX : Statement .resumeX := nofun
theorem invalPage : Statement .invalPage := nofun
theorem invalAll : Statement .invalAll := nofun
theorem invalIcache : Statement .invalIcache := nofun
theorem invalComplete : Statement .invalComplete := nofun
theorem calwWrite : Statement .calwWrite := nofun
theorem seqnWrite : Statement .seqnWrite := nofun
theorem ringTailWrite : Statement .ringTailWrite := nofun
theorem ringAppend : Statement .ringAppend := nofun
theorem msgsend : Statement .msgsend := nofun
theorem contextError : Statement .contextError := nofun
theorem cerrClear : Statement .cerrClear := nofun
theorem dcmdHalt : Statement .dcmdHalt := nofun
theorem dcmdResume : Statement .dcmdResume := nofun
theorem dcmdSend : Statement .dcmdSend := nofun
theorem dbgenClear : Statement .dbgenClear := nofun
theorem debugWindowWrite : Statement .debugWindowWrite := nofun
theorem pstateD0 : Statement .pstateD0 := nofun
theorem pstateD1 : Statement .pstateD1 := nofun
theorem pstateD2 : Statement .pstateD2 := nofun
theorem pstateD3 : Statement .pstateD3 := nofun
theorem pstateD4 : Statement .pstateD4 := nofun
theorem pstateDone : Statement .pstateDone := nofun
theorem pwrcapWrite : Statement .pwrcapWrite := nofun
theorem powerAlarm : Statement .powerAlarm := nofun
theorem thermalAlarm : Statement .thermalAlarm := nofun
theorem thermalCritical : Statement .thermalCritical := nofun
theorem correctedError : Statement .correctedError := nofun
theorem uncorrectableError : Statement .uncorrectableError := nofun
theorem linkReplay : Statement .linkReplay := nofun
theorem packageReset : Statement .packageReset := nofun
theorem functionReady : Statement .functionReady := nofun
theorem measExtend : Statement .measExtend := nofun
theorem attgo : Statement .attgo := nofun
theorem attestComplete : Statement .attestComplete := nofun
theorem registerWrite : Statement .registerWrite := nofun
theorem unimplMajor : Statement .unimplMajor := nofun
theorem illegalEnc : Statement .illegalEnc := nofun
theorem fetchFault : Statement .fetchFault := nofun
theorem icfComplete : Statement .icfComplete := nofun
theorem remoteLoad : Statement .remoteLoad := nofun

end Sys2Proof.Laws.LengthField
end

