-- ==== Sys2Proof/Laws/Poison.lean ====
section
/-! SUPPORT. What the operations on poison do: a machine that holds none strikes no tenant, and a step notes what it has
consumed and changes nothing else. -/

namespace Sys2Proof.Machine

open Sys2Proof

/-- No read strikes where nothing that a read may find holds poison. -/
theorem State.strike_clean {s : State} (t : Nat) (ag : Agent) (ls : List Loc) (h : s.clean = true) : s.strike t ag ls = s := by
  simp [State.strike, h]

/-- No store strikes where no function has failed and no byte of it waits for its stack. -/
theorem State.strikeStore_clean {s : State} (t : Nat) (ls : List Loc) (hf : s.mgmt.fail = 0)
    (hw : ∀ l ∈ ls, l.k = .m → s.memWaits l.a = false) : s.strikeStore t ls = s := by
  have hn : (ls.filter fun l => l.k == .m && s.memWaits l.a) = [] := by
    rw [List.filter_eq_nil_iff]
    intro l hl hc
    obtain ⟨h1, h2⟩ := (Bool.and_eq_true _ _).mp hc
    exact absurd (hw l hl (by simpa using h1)) (by simp [h2])
  have ha : s.await t ls = s := by simp only [State.await, hn]
  simp [State.strikeStore, ha, hf]

/-- A step that has made a next state leaves it but for the tenants struck. -/
theorem State.consumed_next (s t : State) (i : Instr) :
    s.consumed i (.next t) = .next { t with struck := t.struck ++ s.consumes t i } := by
  simp only [State.consumed]
  cases s.consumes t i <;> simp

/-- Nothing is consumed where no register word, entry, dictionary entry or open sequence holds poison. -/
theorem State.consumes_clean {s : State} (t : State) (i : Instr) (hw : ∀ p ∈ s.waves, p.2.bad = [])
    (he : ∀ e ∈ s.entries, e.bad = false) (hd : ∀ x ∈ s.dicts, x.bad = []) (hq : ∀ q ∈ s.seqs, q.bad = false) :
    s.consumes t i = [] := by
  have listed {α : Type} (m : SMap α) (k : Nat) (v : α) (h : SMap.find m k = some v) : (k, v) ∈ m := by
    induction m with
    | nil => cases h
    | cons p rest ih =>
      unfold SMap.find at h
      split at h
      · rename_i hk
        cases h
        exact hk ▸ List.mem_cons_self ..
      · exact List.mem_cons_of_mem _ (ih h)
  have hr : s.readBad t i = [] := by
    unfold State.readBad
    split
    · rfl
    · split
      · rfl
      · rename_i w hk
        have hb : w.bad = [] := hw _ (listed _ _ _ hk)
        cases i <;> simp +contextual [hb, hd]
  have hsv : s.savedBad t = [] := by
    unfold State.savedBad
    rw [List.filterMap_eq_nil_iff]
    intro p hp
    simp [hw p hp]
  have ht : s.takenBad t i = [] := by
    unfold State.takenBad
    rw [if_pos]
    simpa using ⟨he, hq⟩
  simp [State.consumes, hr, hsv, ht]

/-! ## What a write of a register lifts (25 R428) -/

theorem Wave.mem_bad_setV (w : Wave) (r l : Nat) (y : Word) (x : RegWord) :
    x ∈ (w.setV r l y).bad ↔ x ∈ w.bad ∧ x ≠ .v r l := by simp [Wave.setV, Wave.lift]

theorem Wave.mem_bad_setV64 (w : Wave) (r l : Nat) (y : Dword) (x : RegWord) :
    x ∈ (w.setV64 r l y).bad ↔ x ∈ w.bad ∧ x ≠ .v r l ∧ x ≠ .v (r + 1) l := by
  simp only [Wave.setV64, Wave.mem_bad_setV, and_assoc]

/-- A link that is written to some lanes lifts the poison of its words there. -/
theorem Wave.mem_bad_setLinks (w : Wave) (d : Nat) (ls : List Nat) (link : Dword) (x : RegWord) :
    x ∈ (w.setLinks d ls link).bad ↔ x ∈ w.bad ∧ ∀ l ∈ ls, x ≠ .v d l ∧ x ≠ .v (d + 1) l := by
  unfold Wave.setLinks
  induction ls generalizing w with
  | nil => simp
  | cons l ls ih => rw [List.foldl_cons, ih, Wave.mem_bad_setV64]; simp [and_assoc]

end Sys2Proof.Machine
end

