-- ==== Sys2Proof/Tests/Slice0.lean ====
section
/-! SUPPORT. The model's own tests: ill-formed instructions that the checks refuse, words written out bit by bit from the
spec's encodings, single steps, and for every statement with hypotheses a case that meets all of them. -/

namespace Sys2Proof.Tests

open Sys2Proof Sys2Proof.Machine

set_option Elab.async false

/-! ## Ill-formed instructions, one for each check (03 R36–R41, R49, R55) -/

theorem test_wf_good : (Instr.iadd { d := .v 1, a := .v 2, b := .v 3, ty := .i32 }).wf = true := by decide
theorem test_wf_type : (Instr.iadd { d := .v 1, a := .v 2, b := .v 3, ty := .f32 }).wf = false := by decide
theorem test_wf_d : (Instr.iadd { d := .k 1, a := .v 2, b := .v 3, ty := .i32 }).wf = false := by decide
theorem test_wf_a : (Instr.iadd { d := .v 1, a := .q 2, b := .v 3, ty := .i32 }).wf = false := by decide
theorem test_wf_b : (Instr.iadd { d := .v 1, a := .v 2, b := .k 3, ty := .i32 }).wf = false := by decide
theorem test_wf_c : (Instr.iadd { d := .v 1, a := .v 2, b := .v 3, c := .v 4, ty := .i32 }).wf = false := by decide
theorem test_wf_pair : (Instr.iadd { d := .v 1, a := .v 2, b := .v 4, ty := .i64 }).wf = false := by decide
theorem test_wf_rnd : (Instr.iadd { d := .v 1, a := .v 2, b := .v 3, ty := .i32, rnd := .rtz }).wf = false := by decide
theorem test_wf_sr : (Instr.redw { d := .s 1, a := .v 2, ty := .f32, rnd := .sr }).wf = false ∧
    (Instr.redw { d := .s 1, a := .v 2, ty := .f32 }).wf = true := by decide
theorem test_wf_sat : (Instr.imulh { d := .v 1, a := .v 2, b := .v 3, ty := .i32, sat := true }).wf = false := by decide
theorem test_wf_ftz : (Instr.iadd { d := .v 1, a := .v 2, b := .v 3, ty := .i32, ftz := true }).wf = false := by decide
theorem test_wf_fb : (Instr.fadd { d := .v 1, a := .v 2, b := .v 3, ty := .f32, fb := true }).wf = false := by decide
theorem test_wf_k : (Instr.iadd { d := .s 1, a := .s 2, b := .s 3, ty := .i32, k := 1 }).wf = false := by decide
theorem test_wf_off : (Instr.iadd { d := .v 1, a := .v 2, b := .v 3, ty := .i32, off := 4 }).wf = false := by decide
theorem test_wf_ord : (Instr.iadd { d := .v 1, a := .v 2, b := .v 3, ty := .i32, ord := .acq }).wf = false := by decide
theorem test_wf_scope : (Instr.iadd { d := .v 1, a := .v 2, b := .v 3, ty := .i32, scope := .die }).wf = false := by decide
theorem test_wf_x : (Instr.iadd { d := .v 1, a := .v 2, b := .v 3, ty := .i32, x := 1 }).wf = false := by decide
theorem test_wf_two_literals : (Instr.iadd { d := .v 1, a := .lit, b := .lit, ty := .i32 }).wf = false := by decide
theorem test_wf_stray_literal : (Instr.iadd { d := .v 1, a := .v 2, b := .v 3, ty := .i32, lit := 7 }).wf = false := by decide
theorem test_wf_scalar_rule : (Instr.iadd { d := .s 1, a := .v 2, b := .s 3, ty := .i32 }).wf = false := by decide
theorem test_wf_selector : (Instr.twatchSet { d := .q 6, a := .s 8, x := 1 }).wf = false := by decide
theorem test_wf_pad : (Instr.dref { patch := 63, index := 1023 }).wf = false := by decide
theorem test_wf_target : (Instr.bra { b := .lit, lit := 2 }).wf = false := by decide

/-! ## Words written out bit by bit -/

def words (l : List Nat) : List Word := l.map (BitVec.ofNat 32)

/-- LEN 00, major 0x01 minor 0, D = v1 [17:11], A = v2 [24:18], B = v3 [31:25]. -/
theorem test_decode_base : decodeWords (words [3 * 2 ^ 25 + 2 * 2 ^ 18 + 1 * 2 ^ 11 + 0 * 2 ^ 8 + 0x01 * 4 + 0]) =
    .instr (.iaddBaseV { d := 1, a := 2, b := .reg 3 }) := by decide
/-- 03 R35: ISHL v1, v0, 2 with a literal. -/
theorem test_decode_base_literal : decodeWords (words [0x00000E06, 2, 0]) =
    .instr (.ishlBaseV { d := 1, a := 0, b := .lit 2 }) := by decide
/-- ADDI: IMM12 = −1 [31:20], A = s5 [19:14], D = s6 [13:8], major 0x07. -/
theorem test_decode_imm : decodeWords (words [0xFFF * 2 ^ 20 + 5 * 2 ^ 14 + 6 * 2 ^ 8 + 0x07 * 4]) =
    .instr (.iaddi { d := 6, a := 5, i := .imm 0xFFF }) := by decide
/-- SHI: IMM20 [31:12], D = s3 [11:8], major 0x0C. -/
theorem test_decode_shi : decodeWords (words [0xABCDE * 2 ^ 12 + 3 * 2 ^ 8 + 0x0C * 4]) =
    .instr (.shi { d := 3, imm := 0xABCDE }) := by decide
/-- 03 R42: one dictionary word, SETB and SETA none, WAIT f0. -/
theorem test_decode_clause : decodeWords (words [0x1FF001FC]) =
    .instr (.clause { dcount := 1, setb := 15, seta := 15, wait := 1 }) := by decide
/-- Major 0x10 minor 0: D = v1, A = v2, B = v3, TYPE I32 = 0x08. -/
theorem test_decode_integer : decodeWords (words [2 * 2 ^ 24 + 1 * 2 ^ 16 + 0x10 * 4 + 1, 0x08 * 2 ^ 20 + 3, 0]) =
    .instr (.iadd { d := .v 1, a := .v 2, b := .v 3, ty := .i32 }) := by decide
/-- 03 R36: FADD.rtz.f32 v200, v2, 1.0. -/
theorem test_decode_float : decodeWords (words [0x02C80047, 0x030000FF, 0x30, 0x3F800000, 0]) =
    .instr (.fadd { d := .v 200, a := .v 2, b := .lit, ty := .f32, rnd := .rtz, lit := 0x3F800000 }) := by decide
/-- Major 0x13 minor 0: DADD.f64 v2, v4, v6, TYPE F64 = 0x11. -/
theorem test_decode_fp64 : decodeWords (words [4 * 2 ^ 24 + 2 * 2 ^ 16 + 0x13 * 4 + 1, 0x11 * 2 ^ 20 + 6, 0]) =
    .instr (.dadd { d := .v 2, a := .v 4, b := .v 6, ty := .f64 }) := by decide
/-- Major 0x15 minor 0: KAND k1, k2, k3, every class 10. -/
theorem test_decode_mask : decodeWords (words [2 * 2 ^ 24 + 1 * 2 ^ 16 + 0x15 * 4 + 1, 3, 2 * 16 + 2 * 4 + 2]) =
    .instr (.kand { d := .k 1, a := .k 2, b := .k 3 }) := by decide
/-- Major 0x19 minor 0: BRA with its literal at B. -/
theorem test_decode_branch : decodeWords (words [0x19 * 4 + 3, 0xFF, 0x30, 0x40, 0]) =
    .instr (.bra { b := .lit, lit := 0x40 }) := by decide
/-- 09 N10: LD.g.b32 v2, [s0 + v1]. -/
theorem test_decode_load : decodeWords (words [0x00020069, 0x00300001, 0x10000004]) =
    .instr (.ld { d := .v 2, a := .s 0, b := .v 1, ty := .b32, x := 8 }) := by decide
/-- 09: ST.g.b32 [s2 + 256], s8. -/
theorem test_decode_store : decodeWords (words [0x0200006D, 0x00300800, 0x00200044]) =
    .instr (.st { a := .s 2, c := .s 8, ty := .b32, off := 256 }) := by decide
/-- 14: the GTH of the worked example. -/
theorem test_decode_copy : decodeWords (words [0x08020285, 0x00300010, 0x17]) =
    .instr (.gth { d := .q 2, a := .s 8, b := .s 16, ty := .b32 }) := by decide
/-- 15 R301: MMA.bf16.zero.sync q0, 0, 2. -/
theorem test_decode_matrix : decodeWords (words [0xFF000083, 0x00F00000, 0xC000000F, 2, 0]) =
    .instr (.mma { d := .q 0, a := .lit, b := .v 0, ty := .bf16, x := 0x60, lit := 2 }) := by decide
/-- 17 R317: .site 0x21 and DRAWF v6. -/
theorem test_decode_choice : decodeWords (words [0xFF0601C3, 0, 0xC, 0x21, 0]) =
    .instr (.drawf { d := .v 6, a := .lit, lit := 0x21 }) := by decide
/-- 19 R340: TSTAT s12, q7. -/
theorem test_decode_token : decodeWords (words [0x070C07C5, 0, 0xD]) =
    .instr (.tstat { d := .s 12, a := .q 7 }) := by decide
/-- 21 R357: TRAVC q8, v16, s8, v40, 4. -/
theorem test_decode_ray : decodeWords (words [0x10080189, 0x2808, 0x08000013]) =
    .instr (.travc { d := .q 8, a := .v 16, b := .s 8, c := .v 40, x := 4 }) := by decide
/-- 22 R380: ASSEG.line.v q12, v16. -/
theorem test_decode_ashlar : decodeWords (words [0x100C01C9, 0, 0x0A000003]) =
    .instr (.assegV { d := .q 12, a := .v 16, x := 5 }) := by decide
/-- 23 R395: LNCH q14, s8. -/
theorem test_decode_launch : decodeWords (words [0x080E008D, 0, 7]) =
    .instr (.lnch { d := .q 14, a := .s 8 }) := by decide
theorem test_decode_zero : decodeWords (words [0, 0, 0]) = .illegal := by decide
theorem test_decode_reserved : decodeWords (words [0x35 * 4 + 1, 0, 0]) = .unimpl := by decide
theorem test_decode_code : decodeCode 0xFFFF = none ∧ decodeCode 0x0405 = some { patch := 1, index := 5 } := by decide

/-! ## States for single steps -/

/-- A wave of 64 vector and 64 scalar registers with one split of lanes 0 to 3 at PC 0x1000, of which lane 3 is inactive. -/
def w0 : Wave :=
  { id := { uid := 1, grid := 3, group := 2 }, a := 64, b := 64
    v := [(2 * 64, 5), (2 * 64 + 1, 0xFFFFFFFF), (3 * 64, 7), (3 * 64 + 1, 2)]
    s := [(2, 9), (4, 0x2000)], k := [(1, 3), (2, 0x5)], depth := [(3, 1)]
    splits := [(0, { pc := 0x1000, members := 0xF })] }

def sp0 : Split := { pc := 0x1000, members := 0xF }
def c0 : Issue := { key := 0, split := 0, pc := 0x1000, npc := 0x100C }

/-- A state in which a split of the wave issues: its workgroup, its grid and its tenant are there, and page tables that
map the first 1 GiB of virtual addresses to the second of HBM. -/
def at_ (w : Wave) : State :=
  { State.reset with
    cur := some c0, waves := [(0, w)], nextId := 100
    ctxs := [(1, { id := w.id, b := w.b })]
    groups := [(2, { id := 2, grid := 3, kd := {} })], grids := [(3, { id := 3, kd := {}, nwg := 1, placed := 1 })]
    tenants := [(0, { root := 0x10000, state := .run, en := true, trapbase := 0x200000, hentry := 0x3000 })]
    mem := placedTables []
    mgmt := { ready := BitVec.ofNat 45 (2 ^ 45 - 1) } }

def s0 : State := at_ w0

theorem issuing : Issuing s0 c0 w0 sp0 := ⟨rfl, rfl, rfl⟩

/-- The split issues from a wave whose split table holds the given splits. -/
theorem issuing_of {w : Wave} {sp : Split} {ps : SMap Split} (h : w.splits = (0, sp) :: ps) : Issuing (at_ w) c0 w sp :=
  ⟨rfl, rfl, by simp [h, SMap.find, c0]⟩

/-! ## Lane instructions: cases that meet the hypotheses -/

def addV : Ext := { d := .v 1, a := .v 2, b := .v 3, ty := .i32 }

theorem meets_integer : ∃ r, integerRow (.iadd addV) = some r ∧ (Instr.iadd addV).wf = true ∧ Issuing s0 c0 w0 sp0 ∧
    w0.clear sp0 (usesOf r.form r.ext) = true ∧ hasVector r.form r.ext = true :=
  ⟨_, rfl, by decide, issuing, by decide, by decide⟩
/-- The last register of the allocation, and no active lane with scalar operands alone. -/
theorem meets_integer_edges : (∃ r, integerRow (.iadd { addV with d := .v 63 }) = some r ∧ w0.clear sp0 (usesOf r.form r.ext) = true) ∧
    (∃ r, integerRow (.iadd { addV with d := .s 1, a := .s 2, b := .s 3 }) = some r ∧
      hasVector r.form r.ext = false ∧ ({ w0 with depth := [(0, 1), (1, 1), (2, 1), (3, 1)] } : Wave).active sp0 = 0) :=
  ⟨⟨_, rfl, by decide⟩, ⟨_, rfl, by decide, by decide⟩⟩
theorem meets_float : ∃ r, floatRow (.fadd { addV with ty := .f32 }) = some r ∧
    (Instr.fadd { addV with ty := .f32 }).wf = true ∧ Issuing s0 c0 w0 sp0 ∧ w0.clear sp0 (usesOf r.form r.ext) = true :=
  ⟨_, rfl, by decide, issuing, by decide⟩
/-- With SR every lane takes a draw, and the draws are at hand. -/
theorem meets_float_draws : ∃ r, floatRow (.fadd { addV with ty := .f32, rnd := .sr }) = some r ∧ r.draws = 1 ∧
    (Instr.fadd { addV with ty := .f32, rnd := .sr }).wf = true ∧ s0.drawsBlocked 1 (w0.actors sp0 r.ext) = false :=
  ⟨_, rfl, rfl, by decide, by decide⟩
theorem meets_convert : ∃ r, convertRow (.cvt { d := .v 1, a := .v 2, ty := .f32, x := 8 }) = some r ∧
    (Instr.cvt { d := .v 1, a := .v 2, ty := .f32, x := 8 }).wf = true ∧ w0.clear sp0 (usesOf r.form r.ext) = true :=
  ⟨_, rfl, by decide, by decide⟩
theorem meets_cross : ∃ r, crossRow s0 (.bcast { d := .v 1, a := .v 2, b := .s 3, ty := .b32 }) = some r ∧
    (Instr.bcast { d := .v 1, a := .v 2, b := .s 3, ty := .b32 }).wf = true ∧ w0.clear sp0 (usesOf r.form r.ext) = true :=
  ⟨_, rfl, by decide, by decide⟩
theorem meets_carry : (Instr.iaddc { addV with ty := .n32, c := .k 1 }).wf = true ∧ Issuing s0 c0 w0 sp0 ∧
    w0.clear sp0 (usesOf .iaddc { addV with ty := .n32, c := .k 1 }) = true := ⟨by decide, issuing, by decide⟩

def spF : Split := { sp0 with seta := 11 }
def wF : Wave := { w0 with splits := [(0, spF)] }
theorem meets_long : ∃ r, longRow (.fdiv { addV with ty := .f32 }) = some r ∧ (Instr.fdiv { addV with ty := .f32 }).wf = true ∧
    Issuing (at_ wF) c0 wF spF ∧
    wF.clear spF { usesOf r.form r.ext with long := some (r.ext.fb, r.ext.d.isV) } = true :=
  ⟨_, rfl, by decide, issuing_of rfl, by decide⟩
theorem meets_imm : ∃ b g, immResult (.iaddi { d := 1, a := 2, i := .imm 0xFFF }) = some (b, g) ∧ Issuing s0 c0 w0 sp0 ∧
    w0.clear sp0 { sr := [b.d.toNat, b.a.toNat] } = true ∧ w0.active sp0 ≠ 0 := ⟨_, _, rfl, issuing, by decide, by decide⟩
theorem meets_shi : Issuing s0 c0 w0 sp0 ∧ w0.clear sp0 { sr := [15] } = true ∧ w0.active sp0 ≠ 0 :=
  ⟨issuing, by decide, by decide⟩
theorem meets_mask : ∃ f e g, maskResult (.kand { d := .k 1, a := .k 2, b := .k 0 }) = some (f, e, g) ∧
    (Instr.kand { d := .k 1, a := .k 2, b := .k 0 }).wf = true ∧ Issuing s0 c0 w0 sp0 ∧ w0.clear sp0 (usesOf f e) = true ∧
    w0.active sp0 ≠ 0 := ⟨_, _, _, rfl, by decide, issuing, by decide, by decide⟩
theorem meets_mask_number : maskCountExt (.kfirst { d := .s 1, a := .k 2 }) = some { d := .s 1, a := .k 2 } ∧
    (Instr.kfirst { d := .s 1, a := .k 2 }).wf = true ∧ Issuing s0 c0 w0 sp0 ∧
    w0.clear sp0 (usesOf .maskToS { d := .s 1, a := .k 2 }) = true ∧ w0.active sp0 ≠ 0 :=
  ⟨rfl, by decide, issuing, by decide, by decide⟩

def moveE : Ext := { d := .v 1, a := .v 60, b := .s 6, ty := .b32 }
/-- The effective register is the last of the allocation, then the base itself. -/
theorem meets_movx : (Instr.movx moveE).wf = true ∧ Issuing s0 c0 w0 sp0 ∧ w0.clear sp0 (usesOf .movx moveE) = true ∧
    reachesWell moveE 60 w0 sp0 := by
  refine ⟨by decide, issuing, by decide, fun l _ => ⟨60, ?_, by decide, by decide, fun j hj => ?_⟩⟩
  · show effective moveE 60 w0 l = 60
    unfold effective; rfl
  · rfl
theorem meets_movxw : (Instr.movxw { d := .v 60, a := .v 1, b := .s 6, ty := .b32 }).wf = true ∧ Issuing s0 c0 w0 sp0 ∧
    w0.clear sp0 (usesOf .movxw { d := .v 60, a := .v 1, b := .s 6, ty := .b32 }) = true ∧
    reachesWell { d := .v 60, a := .v 1, b := .s 6, ty := .b32 } 60 w0 sp0 := by
  refine ⟨by decide, issuing, by decide, fun l _ => ⟨60, ?_, by decide, by decide, fun j hj => ?_⟩⟩
  · show effective _ 60 w0 l = 60
    unfold effective; rfl
  · rfl

/-- The index takes lane 2 beyond the allocation, and no other lane. -/
def wIdx : Wave := { w0 with v := [(7 * 64 + 2, 4)] }
def idxE : Ext := { moveE with b := .v 7 }
theorem meets_movx_bounds : MovesIndexed (at_ wIdx) c0 wIdx sp0 (.movx idxE) .movx idxE 60 ∧
    2 ∈ lanesOf (wIdx.acting sp0 idxE.k) ∧ offRange idxE 60 wIdx 2 ∧
    ∀ j ∈ lanesOf (wIdx.acting sp0 idxE.k), j < 2 → ¬offRange idxE 60 wIdx j := by
  have h : lanesOf (wIdx.acting sp0 idxE.k) = [0, 1, 2] := by decide
  rw [h]
  exact ⟨⟨rfl, by decide, issuing_of rfl, by decide, by decide⟩, by decide, by unfold offRange effective; decide,
    by unfold offRange effective; decide⟩
/-- A pair at the odd register 61. -/
theorem meets_movxw_odd : offRange { moveE with d := .v 60, b := .s 7, ty := .b64 } 60 { w0 with s := [(7, 1)] } 0 := by
  unfold offRange effective; decide
/-- The effective register of lane 0 alone is pending, or the move's own operand is. -/
def wIdxP : Wave := { wIdx with v := [(7 * 64, 3)], marks := [(63, 0)] }
theorem meets_movx_hazard : MovesIndexed (at_ wIdxP) c0 wIdxP sp0 (.movx idxE) .movx idxE 60 ∧
    (∀ l ∈ lanesOf (wIdxP.acting sp0 idxE.k), ¬offRange idxE 60 wIdxP l) ∧
    (∃ l ∈ lanesOf (wIdxP.acting sp0 idxE.k), ∃ j < idxE.ty.bits / 32,
      (SMap.find wIdxP.marks ((effective idxE 60 wIdxP l).toNat + j)).isSome = true) ∧
    ({ wIdx with marks := [(7, 0)] } : Wave).hazard sp0 (usesOf .movx idxE) = true := by
  have h : lanesOf (wIdxP.acting sp0 idxE.k) = [0, 1, 2] := by decide
  rw [h]
  exact ⟨⟨rfl, by decide, issuing_of rfl, by decide, by decide⟩, by unfold offRange effective; decide,
    ⟨0, by decide, 0, by decide, by unfold effective; decide⟩, by decide⟩

/-- A wave of which no lane is active. -/
def wIdle : Wave := { w0 with depth := [(0, 1), (1, 1), (2, 1), (3, 1)] }
theorem idle : wIdle.active sp0 = 0 ∧ Issuing (at_ wIdle) c0 wIdle sp0 := ⟨by decide, issuing_of rfl⟩

def swapE : Ext := { d := .v 2, a := .v 3, b := .s 2, ty := .b32, x := 5 }
/-- s2 = 9 names core 1 of the group, another than the issuing core 0. -/
theorem meets_swap : (Instr.xswap swapE).wf = true ∧ Issuing (at_ wF) c0 wF spF ∧ wF.id.gang = 0 ∧
    wF.clear spF { usesOf .xswap swapE with long := some (swapE.fb, true) } = true ∧ (wF.getS 2).toNat % 8 ≠ wF.id.core % 8 :=
  ⟨by decide, issuing_of rfl, rfl, by decide, by decide⟩
/-- s6 = 0 names the issuing core itself. -/
theorem meets_swap_self : (Instr.xswap { swapE with b := .s 6 }).wf = true ∧ (wF.getS 6).toNat % 8 = wF.id.core % 8 ∧
    wF.active spF ≠ 0 := ⟨by decide, by decide, by decide⟩
/-- No lane is active; the wave is a half of a ganged slot. -/
theorem meets_swap_idle : wIdle.active spF = 0 ∧
    wIdle.clear spF { usesOf .xswap swapE with long := some (swapE.fb, true) } = true ∧ wIdle.id.gang = 0 := by decide
def wGang : Wave := { w0 with id := { w0.id with gang := 1 } }
theorem meets_swap_gang : (Instr.xswap swapE).wf = true ∧ Issuing (at_ wGang) c0 wGang sp0 ∧ wGang.id.gang ≠ 0 :=
  ⟨by decide, issuing_of rfl, by decide⟩

/-! ## Lane instructions: single steps -/

/-- The register of lane l after an instruction. -/
def laneAfter (i : Instr) (s : State) (r l : Nat) : Option Word := ((stateOf (exec i s)).bind fun t => t.wave 0).map fun w => w.getV r l
/-- The scalar register after an instruction. -/
def scalarAfter (i : Instr) (s : State) (r : Nat) : Option Word := ((stateOf (exec i s)).bind fun t => t.wave 0).map fun w => w.getS r
/-- The PC of split 0 after an instruction. -/
def pcAfter (i : Instr) (s : State) : Option Dword :=
  ((stateOf (exec i s)).bind fun t => t.wave 0).bind fun w => (SMap.find w.splits 0).map (·.pc)
/-- Cause, sub-code and resume PC of the trap after an instruction. -/
def trapAfter (i : Instr) (s : State) : Option (Nat × Nat × Dword) :=
  ((stateOf (exec i s)).bind fun t => t.wave 0).bind fun w => w.trap.map fun x => (x.cause, x.sub, x.resume)

/-- 0xFFFFFFFF + 2 wraps to 1; an inactive lane keeps its register. -/
theorem test_add_wraps : laneAfter (.iadd addV) s0 1 1 = some 1 ∧ laneAfter (.iadd addV) s0 1 3 = some 0 := by decide
theorem test_add_pc : pcAfter (.iadd addV) s0 = some 0x100C := by decide
/-- IMULH: −1 × 2 gives −1 in the high word. -/
theorem test_mulh_signed : laneAfter (.imulh addV) s0 1 1 = some 0xFFFFFFFF := by decide
/-- ISHR shifts the sign in. -/
theorem test_ishr_sign : laneAfter (.ishr { addV with b := .v 3 }) s0 1 1 = some 0xFFFFFFFF := by decide
theorem test_lshr_zero : laneAfter (.lshr { addV with b := .v 3 }) s0 1 1 = some 0x3FFFFFFF := by decide
/-- 1.0 + 1.5 = 2.5 in FP32. -/
theorem test_fadd : laneAfter (.fadd { d := .v 1, a := .lit, b := .v 5, ty := .f32, lit := 0x3F800000 })
    (at_ { w0 with v := [(5 * 64, 0x3FC00000)] }) 1 0 = some 0x40200000 := by decide
/-- A register beyond the allocation takes REG_BOUNDS at its own PC. -/
theorem test_reg_bounds : trapAfter (.iadd { addV with d := .v 64 }) s0 = some (4, 0, 0x1000) := by decide
/-- ADDI with an immediate of −1. -/
theorem test_addi : scalarAfter (.iaddi { d := 1, a := 2, i := .imm 0xFFF }) s0 1 = some 8 := by decide
theorem test_shi : scalarAfter (.shi { d := 1, imm := 0xABCDE }) s0 1 = some 0xABCDE000 := by decide
theorem test_kpopc : scalarAfter (.kpopc { d := .s 1, a := .k 2 }) s0 1 = some 2 := by decide

/-! ## Control flow and system instructions: cases that meet the hypotheses -/

/-- A pair whose second part is there and meets a condition. -/
theorem some_of {α β : Type} {p : α × Option β} (P : β → Bool)
    (h : (match p.2 with | some v => P v | none => false) = true) : ∃ a v, p = (a, some v) ∧ P v = true := by
  obtain ⟨a, v⟩ := p
  cases v with
  | none => cases h
  | some v => exact ⟨a, v, rfl, h⟩

def ifE : Ext := { a := .k 1, b := .lit, lit := 0x40 }
theorem meets_structured : structuredExt (.ifX ifE) = some ifE ∧ (Instr.ifX ifE).wf = true ∧ Issuing s0 c0 w0 sp0 :=
  ⟨rfl, by decide, issuing⟩
/-- A counter of 255 would pass its limit; one of 254 reaches it. -/
theorem meets_structured_edges :
    (∃ l ∈ lanesOf sp0.members, 255 < counterAfter { w0 with depth := [(3, 255)] } l (({ w0 with depth := [(3, 255)] } : Wave).depthOf l) true (.ifX ifE)) ∧
    ¬∃ l ∈ lanesOf sp0.members, 255 < counterAfter { w0 with depth := [(3, 254)] } l (({ w0 with depth := [(3, 254)] } : Wave).depthOf l) true (.ifX ifE) := by
  decide
theorem meets_branch : ∃ f e, branches w0 (.bz { a := .s 6, b := .lit, lit := 0x40 }) = some (f, e, true) ∧
    (Instr.bz { a := .s 6, b := .lit, lit := 0x40 }).wf = true ∧ Issuing s0 c0 w0 sp0 ∧ w0.clear sp0 (usesOf f e) = true :=
  ⟨_, _, rfl, by decide, issuing, by decide⟩
theorem meets_branch_not : ∃ f e, branches w0 (.bnz { a := .s 6, b := .lit, lit := 0x40 }) = some (f, e, false) :=
  ⟨_, _, rfl⟩

def callE : Ext := { d := .v 4, b := .lit, lit := 0x40 }
def spD : Split := { sp0 with cd := 255 }
theorem meets_call : (Instr.call callE).wf = true ∧ Issuing s0 c0 w0 sp0 ∧ w0.clear sp0 (usesOf .call callE) = true ∧
    w0.active sp0 ≠ 0 ∧ sp0.cd < 255 := ⟨by decide, issuing, by decide, by decide, by decide⟩
theorem meets_call_deep : Issuing (at_ { w0 with splits := [(0, spD)] }) c0 { w0 with splits := [(0, spD)] } spD ∧ 255 ≤ spD.cd :=
  ⟨issuing_of rfl, by decide⟩
def calliE : Ext := { d := .v 4, a := .s 4 }
theorem meets_calli : (Instr.calli calliE).wf = true ∧ w0.clear sp0 (usesOf .calli calliE) = true ∧ w0.active sp0 ≠ 0 ∧
    ∀ l ∈ lanesOf (w0.active sp0), callTarget w0 calliE l = 0x2000 := ⟨by decide, by decide, by decide, by decide +kernel⟩
/-- No lane is active. -/
theorem meets_call_idle : wIdle.clear sp0 (usesOf .call callE) = true ∧ wIdle.clear sp0 (usesOf .calli calliE) = true ∧
    wIdle.clear sp0 (usesOf .ret { a := .v 8 }) = true := by decide
/-- A target that is not a multiple of 4. -/
theorem meets_calli_odd : ∀ l ∈ lanesOf (w0.active sp0), callTarget { w0 with s := [(4, 0x2002)] } calliE l = 0x2002 := by
  decide
/-- Lane 0 calls 0x2000, lanes 1 and 2 call 0x3000. -/
def wDiv : Wave := { w0 with v := [(8 * 64, 0x2000), (8 * 64 + 1, 0x3000), (8 * 64 + 2, 0x3000)] }
def divE : Ext := { d := .v 4, a := .v 8 }
theorem div_targets : ((lanesOf (wDiv.active sp0)).map (callTarget wDiv divE)).eraseDups = [0x2000, 0x3000] := by
  have h : lanesOf (wDiv.active sp0) = [0, 1, 2] := by decide
  have g : [0, 1, 2].map (callTarget wDiv divE) = [0x2000, 0x3000, 0x3000] := by decide
  rw [h, g]; decide
theorem meets_divided : let ts := ((lanesOf (wDiv.active sp0)).map (callTarget wDiv divE)).eraseDups
    (Instr.calli divE).wf = true ∧ Issuing (at_ wDiv) c0 wDiv sp0 ∧ wDiv.clear sp0 (usesOf .calli divE) = true ∧
    sp0.cd < 255 ∧ (∀ x ∈ ts, x.toNat % 4 = 0) ∧ 2 ≤ ts.length ∧
    ts.length ≤ ((List.range 4).filter fun j => (SMap.find wDiv.splits j).isNone).length + 1 := by
  dsimp only
  rw [div_targets]
  exact ⟨by decide, issuing_of rfl, by decide, by decide, by simp, by decide, by decide⟩
/-- One of two targets is no multiple of 4. -/
theorem meets_divided_odd : ((lanesOf (wDiv.active sp0)).map (callTarget { wDiv with v := (8 * 64, 0x2002) :: wDiv.v } divE)).eraseDups =
    [0x2002, 0x3000] := by
  have h : lanesOf (wDiv.active sp0) = [0, 1, 2] := by decide
  have g : [0, 1, 2].map (callTarget { wDiv with v := (8 * 64, 0x2002) :: wDiv.v } divE) = [0x2002, 0x3000, 0x3000] := by decide
  rw [h, g]; decide
/-- 08 R186, 25 R428: a CALL lifts the poison of v4 in its lanes and leaves that of v6; 09 R218: the split of a divided CALLI
owes what the dividing one owes. -/
theorem test_call_lifts : ((stateOf (exec (.call callE) (at_ { w0 with bad := [.v 4 0, .v 6 0] }))).bind fun t =>
    (t.wave 0).map fun w => (w.bad, w.lastIssue == t.clock + 1)) = some ([.v 6 0], true) := by decide +kernel
theorem test_divide_owes : ((stateOf (exec (.calli divE) (at_ { wDiv with owed := [(2, [0])] }))).bind fun t =>
    (t.wave 0).map (·.owed)) = some [(2, [0, 1])] := by decide +kernel
def second : Split := { pc := 0x2000, members := 0xF0 }
/-- Three targets and one free entry: lanes of the third are left over. -/
def wRest : Wave :=
  { wDiv with v := [(8 * 64, 0x2000), (8 * 64 + 1, 0x3000), (8 * 64 + 2, 0x4000)]
              splits := [(0, sp0), (1, second), (2, second)] }
theorem meets_divided_rest : Issuing (at_ wRest) c0 wRest sp0 ∧ wRest.clear sp0 (usesOf .calli divE) = true ∧
    ((List.range 4).filter fun j => (SMap.find wRest.splits j).isNone) = [3] ∧
    ((lanesOf (wRest.active sp0)).map (callTarget wRest divE)).eraseDups = [0x2000, 0x3000, 0x4000] := by
  have h : lanesOf (wRest.active sp0) = [0, 1, 2] := by decide
  have g : [0, 1, 2].map (callTarget wRest divE) = [0x2000, 0x3000, 0x4000] := by decide
  rw [h, g]
  exact ⟨issuing_of rfl, by decide, by decide, by decide⟩
/-- No entry is free, and the inactive lane 3 stands at the last counter that a peel admits, or one beyond. -/
def wPeel (n : Nat) : Wave := { wDiv with depth := [(3, n)], splits := [(0, sp0), (1, second), (2, second), (3, second)] }
theorem meets_peel : Issuing (at_ (wPeel 253)) c0 (wPeel 253) sp0 ∧ (wPeel 253).clear sp0 (usesOf .calli divE) = true ∧
    (∀ j < 4, (SMap.find (wPeel 253).splits j).isSome = true) ∧
    (∀ l ∈ (lanesOf sp0.members).filter fun l => l ∉ lanesOf ((wPeel 253).active sp0), (wPeel 253).depthOf l ≤ 253) ∧
    ∃ l ∈ (lanesOf sp0.members).filter fun l => l ∉ lanesOf ((wPeel 254).active sp0), 253 < (wPeel 254).depthOf l := by
  have h : (lanesOf sp0.members).filter (fun l => l ∉ lanesOf ((wPeel 253).active sp0)) = [3] := by decide
  have g : (lanesOf sp0.members).filter (fun l => l ∉ lanesOf ((wPeel 254).active sp0)) = [3] := by decide
  rw [h, g]
  exact ⟨issuing_of rfl, by decide, by decide, by decide, 3, by decide, by decide⟩
/-- The link of lane 0 stands in v8:v9. -/
theorem meets_ret : (Instr.ret { a := .v 8 }).wf = true ∧ wDiv.clear sp0 (usesOf .ret { a := .v 8 }) = true ∧
    wDiv.active sp0 ≠ 0 ∧ (wDiv.getV64 8 (lowLane (wDiv.active sp0))).getLsbD 1 = false ∧
    (wDiv.getV64 8 (lowLane (wDiv.active sp0))).getLsbD 0 = false ∧ sp0.cd = 0 ∧ spD.cd ≠ 0 := by decide
/-- The peel's link of lane 0: of the CALLI at 0x1500, and at an address that is not mapped. Lane 3 waits at counter 1, or
no lane does. -/
def wBack (link : Word) (n : Nat) : Wave := { wDiv with v := [(8 * 64, link)], depth := [(3, n)] }
theorem meets_peel_return : (wBack 0x1501 1).clear sp0 (usesOf .ret { a := .v 8 }) = true ∧
    (wBack 0x1501 1).getV64 8 (lowLane ((wBack 0x1501 1).active sp0)) = 0x1501 ∧
    ((lanesOf sp0.members).filter fun l => (wBack 0x1501 1).depthOf l = 1) = [3] ∧
    ((lanesOf sp0.members).filter fun l => (wBack 0x1501 2).depthOf l = 1) = [] := by decide
/-- The CALLI stands at 0x1500, and calls 0x2000 or 0x2002. -/
def sCalli : State :=
  { s0 with mem := (placedTables []).setBytes 0x40001500 ((encode (.calli calliE)).flatMap fun x => leBytes 4 x.toNat) }
def fetched (s : State) (pc : Dword) : Option Instr :=
  match s.fetchInstr w0.id pc with
  | (_, .ok ws) =>
    match decodeWords ws with
    | .instr i => some i
    | _ => none
  | _ => none
theorem meets_peel_again : fetched sCalli 0x1500 = some (.calli calliE) ∧ fetched s0 0x1500 = none ∧
    (match s0.fetchInstr w0.id 0x80000000 with
      | (_, .error _) => true
      | _ => false) = true ∧
    (wBack 0x1501 1).clear sp0 (usesOf .calli calliE) = true ∧ callTarget (wBack 0x1501 1) calliE 3 = 0x2000 ∧
    callTarget { wBack 0x1501 1 with s := [(4, 0x2002)] } calliE 3 = 0x2002 := by decide +kernel
/-- With CD 0 and bit 1 set the bit is looked at first. -/
theorem meets_ret_odd_empty : (wBack 0x1502 1).active sp0 ≠ 0 ∧ sp0.cd = 0 ∧
    ((wBack 0x1502 1).getV64 8 (lowLane ((wBack 0x1502 1).active sp0))).getLsbD 1 = true := by decide
theorem meets_ret_odd : (({ wDiv with v := [(8 * 64, 0x2002)] } : Wave).getV64 8 0).getLsbD 1 = true := by decide

def allDone : Wave := { w0 with depth := [] }
/-- Lane 3 is left; no lane and no other split is left; no lane is left but another split is. -/
theorem meets_exit : w0.handling = false ∧ w0.active sp0 ≠ 0 ∧ w0.engFaults = [] ∧ sp0.members &&& ~~~(w0.active sp0) ≠ 0 := by
  decide
theorem meets_exit_last : allDone.active sp0 ≠ 0 ∧ sp0.members &&& ~~~(allDone.active sp0) = 0 ∧
    ∀ p ∈ allDone.splits, p.1 = c0.split := by decide
theorem meets_exit_split : (∃ p ∈ ({ allDone with splits := [(0, sp0), (1, second)] } : Wave).splits, p.1 ≠ c0.split) ∧
    ∀ p ∈ ({ allDone with splits := [(0, sp0), (1, second)] } : Wave).splits, p.2.wait = .ready := by decide
theorem meets_yield : w0.active sp0 ≠ 0 ∧ ({ w0 with depth := [(0, 1), (1, 1), (2, 1), (3, 1)] } : Wave).active sp0 = 0 := by decide

theorem meets_clause_waits : ∃ n < 12, (0x801 : BitVec 12).getLsbD n = true ∧
    SMap.read 0 ({ w0 with flags := [(11, 1)] } : Wave).flags n ≠ 0 := ⟨11, by decide, by decide, by decide⟩
theorem meets_clause : ∀ n < 12, (0x801 : BitVec 12).getLsbD n = true → SMap.read 0 w0.flags n = 0 := by decide
/-- The group has no table; with one, a header may have codes. -/
theorem meets_clause_codes : (s0.group w0.id.group).kd.dictn = 0 := by decide

/-- A state whose workgroup has a table of one entry: IADD v1, v2, v3 with B patched. -/
def sDict : State := { s0 with
  groups := [(2, { id := 2, grid := 3, kd := { dictn := 1, table := [([0x06080804, 0, 0], 5)] } })] }
theorem meets_code : Issuing sDict c0 w0 sp0 ∧ (sDict.group w0.id.group).kd.table[0]? = some ([0x06080804, 0, 0], 5) ∧
    (5 : Word).toNat % 64 ≤ 9 ∧ (sDict.group w0.id.group).kd.table[1]? = none := ⟨⟨rfl, rfl, rfl⟩, rfl, by decide, rfl⟩
/-- A patch where SEL is 0: the major 0x01 is assigned, 0x24 and 0x3E are not. -/
theorem meets_code_patch : (64 : Word).toNat % 64 = 0 ∧ ({ patch := 1, index := 0 } : DictCode).patch ≠ 0 ∧
    (0x06080804 : Word).toNat / 4 % 64 = 1 ∧
    ∀ n ∈ [0x24, 0x3E], (BitVec.ofNat 32 (4 * n) : Word).toNat / 4 % 64 ∈
      [0x0D, 0x0E, 0x0F] ++ List.range' 0x24 12 ++ List.range' 0x35 10 := by decide

theorem meets_software_trap : softTrapOf (.trapX { x := 127 }) = some (15, 127) ∧ Issuing s0 c0 w0 sp0 := ⟨rfl, issuing⟩
/-- Debugging disabled, and enabled outside a handler. -/
theorem meets_breakpoint : (s0.tenant w0.id.tenant).dbgen = false ∧ w0.handling = false ∧
    (({ s0 with tenants := [(0, { dbgen := true })] } : State).tenant w0.id.tenant).dbgen = true := by decide
theorem meets_halt : (s0.tenant w0.id.tenant).cerr.cause = 0 ∧
    (({ s0 with tenants := [(0, { cerr := { cause := 1 } })] } : State).tenant w0.id.tenant).cerr.cause ≠ 0 := by decide
theorem meets_rds : (Instr.rds { d := .s 2, x := 9 }).wf = true ∧ Issuing s0 c0 w0 sp0 ∧
    w0.clear sp0 (usesOf .rds { d := .s 2, x := 9 }) = true := ⟨by decide, issuing, by decide⟩
theorem meets_wrs : (∀ x ∈ [0x0E, 0x10], (Instr.wrs { a := .s 2, x := BitVec.ofNat 7 x }).wf = true) ∧
    (Instr.wrs { a := .s 2, x := 0x0F }).wf = true ∧ w0.clear sp0 (usesOf .wrs { a := .s 2, x := 0x0F }) = true := by decide

/-- A wave whose handler's only split issues TRET; the trap was split 0's, at 0x1500. -/
def shHand : Shadow :=
  { trap := { cause := 7, pc := 0x1500, resume := 0x1500 }, debug := false, clock := 0
    splits := [(0, { sp0 with pc := 0x1500 })], depth := [], marks := [], held := [], extra := [] }
def wHand : Wave := { w0 with shadow := some shHand }
theorem meets_tret_outside : w0.shadow = none := rfl
/-- The frame of the wave lies in memory that reads as zeros, so RESUME is 0. -/
theorem meets_tret : ∃ s' v, MayReturn (at_ wHand) s' c0 wHand sp0 shHand v ∧ goodResume shHand (BitVec.ofNat 64 (v / 2 ^ 96)) := by
  obtain ⟨s', v, h, hp⟩ := some_of (p := (at_ wHand).readFrame wHand.id)
    (fun v => BitVec.ofNat 64 (v / 2 ^ 96) == (0 : Dword)) (by decide +kernel)
  exact ⟨s', v, ⟨issuing_of rfl, rfl, rfl, by simp [at_, State.reset], h⟩, by
    rw [eq_of_beq hp]; exact ⟨by decide, .inl (by decide)⟩⟩
/-- RESUME with bit 1 set is good when it is the trap's own. -/
theorem meets_tret_code : goodResume { shHand with trap := { shHand.trap with resume := 0x1502 } } 0x1502 ∧ ¬goodResume shHand 0x1502 := by
  unfold goodResume; decide
/-- RESUME is 1. -/
def sOddFrame : State := { at_ wHand with mem := (placedTables []).setBytes 0x4020000C [1] }
theorem meets_tret_bad : ∃ s' v, MayReturn sOddFrame s' c0 wHand sp0 shHand v ∧ ¬goodResume shHand (BitVec.ofNat 64 (v / 2 ^ 96)) := by
  obtain ⟨s', v, h, hp⟩ := some_of (p := sOddFrame.readFrame wHand.id)
    (fun v => BitVec.ofNat 64 (v / 2 ^ 96) == (1 : Dword)) (by decide +kernel)
  exact ⟨s', v, ⟨⟨rfl, rfl, rfl⟩, rfl, rfl, by simp [sOddFrame, at_, State.reset], h⟩, by
    rw [eq_of_beq hp]; unfold goodResume; decide⟩
/-- Another split is valid; an ls entry is left; the frame lies where nothing is mapped. -/
theorem meets_tret_double : ({ wHand with splits := [(0, sp0), (1, second)] } : Wave).splits.length ≠ 1 ∧
    (({ at_ wHand with tenants := [(0, { root := 0x10000, trapbase := 0x80000000 })] } : State).readFrame wHand.id).2 = none ∧
    ∃ x ∈ ({ at_ wHand with ls := [{ id := 9, uid := 1, age := 9, kind := .fence, die := 0, core := 0, tenant := 0, split := 0 }] } : State).ls, x.uid = wHand.id.uid := by
  decide +kernel
/-- The trap was an engine fault of q2, whose faulting entry and another one are held. -/
def shEngine : Shadow := { shHand with trap := { shHand.trap with cause := tEngineFault, queue := 2 } }
def wEngine : Wave := { w0 with shadow := some shEngine }
def sEngine : State :=
  { at_ wEngine with
    stops := [{ uid := 1, q := 2, sub := 2, addr := 0 }]
    entries := [{ id := 50, uid := 1, q := 2, data := 0 }, { id := 51, uid := 1, q := 2, data := 0 }] }
theorem meets_tret_engine : ∃ s' v st x xs, MayReturn sEngine s' c0 wEngine sp0 shEngine v ∧
    goodResume shEngine (BitVec.ofNat 64 (v / 2 ^ 96)) ∧ shEngine.trap.cause = tEngineFault ∧
    (s'.stops.find? fun y => y.uid == wEngine.id.uid && y.q == shEngine.trap.queue) = some st ∧ st.job = none ∧
    s'.heldEntries wEngine.id.uid shEngine.trap.queue st.age = x :: xs ∧ mayRepeat x st.sub = true := by
  have h : (match sEngine.readFrame wHand.id with
      | (t, some v) => BitVec.ofNat 64 (v / 2 ^ 96) == (0 : Dword) && t.stops == sEngine.stops && t.entries == sEngine.entries
      | _ => false) = true := by decide +kernel
  rcases e : sEngine.readFrame wHand.id with ⟨t, _ | v⟩
  · rw [e] at h; cases h
  · rw [e] at h
    simp only [Bool.and_eq_true, beq_iff_eq] at h
    refine ⟨t, v, { uid := 1, q := 2, sub := 2, addr := 0 }, { id := 50, uid := 1, q := 2, data := 0 },
      [{ id := 51, uid := 1, q := 2, data := 0 }], ⟨⟨rfl, rfl, rfl⟩, rfl, rfl, by simp [sEngine, at_, State.reset], e⟩, ?_, rfl, ?_,
      rfl, ?_, by decide⟩
    · rw [h.1.1]; exact ⟨by decide, .inl (by decide)⟩
    · rw [h.1.2]; decide
    · unfold State.heldEntries; rw [h.2]; decide
/-- An entry of a collective cannot be performed again. -/
theorem meets_fate : mayRepeat { id := 50, uid := 1, q := 3, data := 0 } 0 = false := by decide
/-- A handler of a wave with four scalar registers. -/
theorem meets_handler_scalars : ({ wHand with b := 4 } : Wave).shadow = some shHand ∧ shHand.debug = false := ⟨rfl, rfl⟩

/-- Two streams with an earlier entry of one of them, and a single stream. -/
def sPush : State := { s0 with entries := [{ id := 50, uid := 1, q := 2, data := 0, age := 50 }] }
theorem meets_qfence : ((List.range 17).filter fun n => (0x10004 : Dword).getLsbD n) = [2, 16] ∧
    ((List.range 17).filter fun n => (0x4 : Dword).getLsbD n) = [2] ∧
    ∃ x ∈ sPush.entries, x.uid = w0.id.uid ∧ x.q < 16 ∧ x.q ∈ [2, 16] ∧ x.age < sPush.nextId ∧ (x.post = none ∨ x.joined ≠ none) := by decide
theorem meets_bar_scope : 2 ≤ Scope.die.code ∧ (s0.grid w0.id.grid).kd.cor = false := by decide
theorem meets_bar : (Scope.core.code < 2 ∨ (s0.grid w0.id.grid).kd.cor = true) ∧ SMap.find w0.arrived 0 = none ∧
    w0.splits = [(c0.split, sp0)] ∧ (∃ p ∈ ({ w0 with splits := [(0, sp0), (1, second)] } : Wave).splits, p.1 ≠ c0.split ∧ p.2.wait = .ready) ∧
    (SMap.find ({ w0 with arrived := [(0, 1)] } : Wave).arrived 0).isSome = true := by decide
theorem meets_barw : SMap.find ({ w0 with arrived := [(0, 1)] } : Wave).arrived 0 = some 1 ∧
    ¬1 ≤ s0.barrierDone 0 (s0.barrierKey w0.id 0) ∧
    1 ≤ ({ s0 with barriers := [{ net := 0, owner := 4, place := 0, done := 1 }] } : State).barrierDone 0 (s0.barrierKey w0.id 0) ∧
    c0.split ∉ SMap.read [] w0.owed 0 := by decide
/-- The wave has departed, and this split still owes its departure. -/
theorem meets_barw_owed : SMap.find ({ w0 with owed := [(0, [0])] } : Wave).arrived 0 = none ∧
    c0.split ∈ SMap.read [] ({ w0 with owed := [(0, [0])] } : Wave).owed 0 := by decide

def qpushE : Ext := { d := .q 2, a := .s 2, ty := .b32 }
theorem meets_qpush : (Instr.qpush qpushE).wf = true ∧ w0.clear sp0 (usesOf .qpush qpushE) = true ∧ s0.room w0 2 = true ∧
    (Instr.qpush { qpushE with d := .q 1 }).wf = true ∧ (Instr.qpush { qpushE with d := .q 15 }).wf = true ∧
    ({ s0 with entries := List.replicate 256 { id := 50, uid := 1, q := 2, data := 0 } } : State).room w0 2 = false := by
  decide +kernel
def sPop : State := { s0 with entries := [{ id := 50, uid := 1, q := 3 + 4, data := 9 }] }
def qpopE : Ext := { d := .s 2, a := .q 7, ty := .b32 }
theorem meets_qpop : (Instr.qpop qpopE).wf = true ∧ w0.clear sp0 (usesOf .qpop qpopE) = true ∧
    (sPop.queue w0.id.uid 7).length = 1 ∧ s0.queue w0.id.uid 7 = [] ∧ (Instr.qpop { qpopE with a := .q 0 }).wf = true ∧
    (Instr.qpop { qpopE with a := .q 15 }).wf = true := by decide
theorem meets_qpeek : (Instr.qpeek { d := .s 2, a := .q 7, ty := .b64 }).wf = true ∧
    w0.clear sp0 (usesOf .qpeek { d := .s 2, a := .q 7, ty := .b64 }) = true := by decide

/-! ## Control flow: single steps -/

/-- IF on k1 = 3: lanes 0 and 1 stay active, lane 2 takes 1, the inactive lane 3 goes from 1 to 2. -/
theorem test_if : ((stateOf (exec (.ifX ifE) s0)).bind fun t => t.wave 0).map (fun w => (List.range 4).map w.depthOf) =
    some [0, 0, 1, 2] := by decide
theorem test_bra : pcAfter (.bra { b := .lit, lit := 0xFFFFFFF0 }) s0 = some 0xFF0 := by decide
theorem test_call : pcAfter (.call callE) s0 = some 0x1040 ∧ laneAfter (.call callE) s0 4 1 = some 0x1014 := by decide
theorem test_syscall : trapAfter (.sysc { x := 5 }) s0 = some (16, 5, 0x100C) := by decide
theorem test_tret_outside : trapAfter (.tret {}) s0 = some (17, 0, 0x1000) := by decide
theorem test_rds_lane : laneAfter (.rds { d := .v 5, x := 0 }) s0 5 2 = some 2 := by decide

/-! ## Memory instructions: cases that meet the hypotheses -/

/-- A pair whose second part is a value, or a fault. -/
theorem ok_of {α β ε : Type} {p : α × Except ε β} (h : (match p.2 with | .ok _ => true | .error _ => false) = true) :
    ∃ a b, p = (a, .ok b) := by
  obtain ⟨a, b⟩ := p
  cases b with
  | error => cases h
  | ok b => exact ⟨a, b, rfl⟩
theorem error_of {α β ε : Type} {p : α × Except ε β} (h : (match p.2 with | .ok _ => false | .error _ => true) = true) :
    ∃ a e, p = (a, .error e) := by
  obtain ⟨a, b⟩ := p
  cases b with
  | ok => cases h
  | error e => exact ⟨a, e, rfl⟩

def ldE : Ext := { d := .v 1, a := .s 4, b := .v 0, ty := .b32 }
theorem meets_load : ∃ r s' cs, loadRow (at_ wF) wF (.ld ldE) = some r ∧ (Instr.ld ldE).wf = true ∧ Issuing (at_ wF) c0 wF spF ∧
    wF.clear spF r.uses = true ∧ r.per = true ∧
    (at_ wF).checkLanes wF.id r.access r.addrs (r.lanes wF spF) = (s', .ok cs) := by
  obtain ⟨s', cs, h⟩ := ok_of (p := (at_ wF).checkLanes wF.id { space := .g, acc := .load, bytes := 4 }
    (fun l => [laneAddr wF ldE false l]) (lanesOf (wF.acting spF 0))) (by decide +kernel)
  exact ⟨_, s', cs, rfl, by decide, issuing_of rfl, by decide, rfl, h⟩
/-- A scalar load with no active lane. -/
theorem meets_load_idle : ∃ r, loadRow s0 w0 (.ld { ldE with d := .s 6 }) = some r ∧ (Instr.ld { ldE with d := .s 6 }).wf = true ∧
    r.per = false ∧ r.lanes { w0 with depth := [(0, 1), (1, 1), (2, 1), (3, 1)] } sp0 = [] := ⟨_, rfl, by decide, rfl, by decide⟩

def stE : Ext := { a := .s 4, c := .v 2, ty := .b32 }
theorem meets_store : ∃ r s' cs, storeRow w0 (.st stE) = some r ∧ (Instr.st stE).wf = true ∧ Issuing s0 c0 w0 sp0 ∧
    w0.clear sp0 r.uses = true ∧ r.per = true ∧ s0.checkLanes w0.id r.access r.addrs (r.lanes w0 sp0) = (s', .ok cs) := by
  obtain ⟨s', cs, h⟩ := ok_of (p := s0.checkLanes w0.id { space := .g, acc := .store, bytes := 4 }
    (fun l => [laneAddr w0 stE false l]) (lanesOf (w0.acting sp0 0))) (by decide +kernel)
  exact ⟨_, s', cs, rfl, by decide, issuing, by decide, rfl, h⟩
/-- An address beyond the mapped gigabyte faults. -/
def wFar : Wave := { w0 with s := [(4, 0x2000), (5, 1)] }
theorem meets_memory_trap : ∃ r s' f l a, storeRow wFar (.st stE) = some r ∧ Issuing (at_ wFar) c0 wFar sp0 ∧
    wFar.clear sp0 r.uses = true ∧ r.per = true ∧
    (at_ wFar).checkLanes wFar.id r.access r.addrs (r.lanes wFar sp0) = (s', .error (f, l, a)) := by
  obtain ⟨s', ⟨f, l, a⟩, h⟩ := error_of (p := (at_ wFar).checkLanes wFar.id { space := .g, acc := .store, bytes := 4 }
    (fun l => [laneAddr wFar stE false l]) (lanesOf (wFar.acting sp0 0))) (by decide +kernel)
  exact ⟨_, s', f, l, a, rfl, issuing_of rfl, by decide, rfl, h⟩
/-- The core has the last three of its 8,192 requests left, or two. -/
def sFull (n : Nat) : State :=
  { s0 with ls := [{ id := 9, uid := 5, age := 9, kind := .store, die := 0, core := 0, tenant := 0, split := 0
                     lanes := List.replicate n { lane := 0, va := 0, locs := [] } }] }
theorem meets_outstanding : (sFull 8189).outstanding 0 + 3 = 8192 ∧ 8192 < (sFull 8190).outstanding 0 + 3 := by
  have h : ∀ n, (sFull n).outstanding 0 = n := by
    intro n
    show 0 + (List.replicate n _).length = n
    simp
  rw [h, h]; decide
theorem meets_prefetch : (Instr.prf { a := .s 4, b := .v 0 }).wf = true ∧
    w0.clear sp0 (usesOf .prf { a := .s 4, b := .v 0 }) = true := by decide

/-- A store to an unmapped page takes PAGE_FAULT with the lowest acting lane. -/
theorem test_store_fault : (((stateOf (exec (.st stE) (at_ wFar))).bind fun t => t.wave 0).bind (·.trap)).map (fun x => (x.cause, x.lane)) =
    some (7, 0) := by decide +kernel
/-- A store enters the ls stream with one access for each of the three acting lanes. -/
theorem test_store_enters : ((stateOf (exec (.st stE) s0)).map fun t => t.ls.map fun x => x.lanes.map fun y => (y.lane, y.data)) =
    some [[(0, [5, 0, 0, 0]), (1, [255, 255, 255, 255]), (2, [0, 0, 0, 0])]] := by decide +kernel

/-! ## Commands, pops and the choice engine's instructions: cases that meet the hypotheses -/

theorem none_of {α β : Type} {p : α × Option β} (h : p.2.isNone = true) : ∃ a, p = (a, none) := by
  obtain ⟨a, b⟩ := p
  cases b with
  | none => exact ⟨a, rfl⟩
  | some => cases h

/-- A parameter group at s8: addresses 0x2000 and 0x4000, and a count of 4. -/
def wC : Wave := { w0 with s := [(8, 0x2000), (10, 0x4000), (12, 4)] }
def sC : State := at_ wC
theorem issuingC : Issuing sC c0 wC sp0 := issuing_of rfl

def cpyE : Ext := { d := .q 2, a := .s 2, b := .s 8 }
theorem meets_command : ∃ r s', commandRow wC (.cpy cpyE) = some r ∧ (Instr.cpy cpyE).wf = true ∧ Issuing sC c0 wC sp0 ∧
    wC.clear sp0 (usesOf r.form r.ext) = true ∧ ¬(r.tile = true ∧ (sC.group wC.id.group).kd.macc ≤ r.ext.x.toNat % 4) ∧
    wC.active sp0 ≠ 0 ∧ sC.room wC r.q = true ∧ sC.checkFirst wC.id r.first = (s', none) := by
  obtain ⟨s', h⟩ := none_of (p := sC.checkFirst wC.id [(.g, .engWrite, 0x2000), (.g, .engRead, 0x4000)]) (by decide +kernel)
  exact ⟨_, s', rfl, by decide, issuingC, by decide, by decide, by decide, by decide +kernel, h⟩
/-- An MMA of tile 0 in a workgroup with no tile, and with one; SYNC behind an earlier entry of q0. -/
theorem meets_command_tile : ∃ r, commandRow w0 (.mma { d := .q 0, a := .lit, ty := .bf16, x := 0x60, lit := 2 }) = some r ∧
    r.tile = true ∧ r.sync = true ∧ (s0.group w0.id.group).kd.macc ≤ r.ext.x.toNat % 4 ∧
    (({ s0 with groups := [(2, { id := 2, grid := 3, kd := { macc := 1 } })] } : State).group w0.id.group).kd.macc = 1 :=
  ⟨_, rfl, rfl, by decide, by decide, by decide⟩
/-- The first byte of an unmapped address fails its check. -/
theorem meets_command_fault : (s0.checkFirst w0.id [(.g, .engRead, 0x100000000)]).2.isSome = true := by decide +kernel

theorem meets_tsamp : (Instr.tsamp { d := .q 6, a := .s 8, ty := .f32 }).wf = true ∧
    w0.clear sp0 (usesOf .tsamp { d := .q 6, a := .s 8, ty := .f32 }) = true ∧ w0.active sp0 ≠ 0 ∧ s0.room w0 6 = true ∧
    s0.drawable w0.id.uid [lowLane (w0.active sp0)] :=
  ⟨by decide, by decide, by decide, by decide +kernel, by
    intro l hl
    have h : [lowLane (w0.active sp0)] = [0] := by decide
    rw [h] at hl
    simp only [List.mem_singleton] at hl
    subst hl
    decide⟩
theorem meets_asseg : (Instr.assegV { d := .q 12, a := .v 16, x := 5 }).wf = true ∧
    w0.clear sp0 (usesOf .asseg { d := .q 12, a := .v 16, x := 5 }) = true ∧ w0.active sp0 ≠ 0 ∧ s0.room w0 12 = true := by
  decide +kernel
theorem meets_smpl : ∃ s', (Instr.smpl { d := .q 10, a := .v 4, b := .s 8 }).wf = true ∧
    wC.clear sp0 (usesOf .smpl { d := .q 10, a := .v 4, b := .s 8 }) = true ∧ wC.acting sp0 0 ≠ 0 ∧ sC.room wC 10 = true ∧
    sC.samples wC.id.uid < 4 ∧
    sC.checkFirst wC.id [(.g, .engRead, groupAddr wC (.s 8) 1)] = (s', none) := by
  obtain ⟨s', h⟩ := none_of (p := sC.checkFirst wC.id [(.g, .engRead, groupAddr wC (.s 8) 1)]) (by decide +kernel)
  exact ⟨s', by decide, by decide, by decide, by decide +kernel, by decide, h⟩
theorem meets_trav : ∃ s', (Instr.trav { d := .q 8, a := .v 16, b := .s 8 }).wf = true ∧
    wC.clear sp0 (usesOf .trav { d := .q 8, a := .v 16, b := .s 8 }) = true ∧ wC.acting sp0 0 ≠ 0 ∧ sC.room wC 8 = true ∧
    sC.raysAt wC.id.place + popCount (wC.acting sp0 0) ≤ 64 ∧
    sC.checkFirst wC.id [(.g, .engRead, groupAddr wC (.s 8) 1), (.g, .engWrite, groupAddr wC (.s 8) 3)] = (s', none) := by
  obtain ⟨s', h⟩ := none_of (p := sC.checkFirst wC.id
    [(.g, .engRead, groupAddr wC (.s 8) 1), (.g, .engWrite, groupAddr wC (.s 8) 3)]) (by decide +kernel)
  exact ⟨s', by decide, by decide, by decide, by decide +kernel, by decide, h⟩
def travcE : Ext := { d := .q 8, a := .v 16, b := .s 8, c := .v 40, x := 4 }
theorem travc_ready {w : Wave} {sp : Split} (hw : ∃ ps, w.splits = (0, sp) :: ps)
    (h : w.clear sp (usesOf .travc travcE) = true ∧ w.acting sp 0 ≠ 0 ∧ (at_ w).room w 8 = true ∧
      (at_ w).raysAt w.id.place + popCount (w.acting sp 0) ≤ 64)
    (g : ((at_ w).checkFirst w.id [(.g, .engRead, groupAddr w (.s 8) 1), (.g, .engRead, groupAddr w (.s 8) 3),
      (.g, .fetch, groupAddr w (.s 8) 5)]).2.isNone = true) : ∃ s', TravcReady (at_ w) s' c0 w sp travcE := by
  obtain ⟨ps, hw⟩ := hw
  obtain ⟨s', g⟩ := none_of g
  exact ⟨s', ⟨by decide, issuing_of hw, h.1, h.2.1, h.2.2.1, h.2.2.2, g⟩⟩
theorem meets_travc : ∃ s', TravcReady sC s' c0 wC sp0 travcE ∧ wC.handling = false ∧
    sp0.members &&& ~~~(wC.acting sp0 0) ≠ 0 := by
  obtain ⟨s', h⟩ := travc_ready (w := wC) (sp := sp0) ⟨_, rfl⟩ (by decide +kernel) (by decide +kernel)
  exact ⟨s', h, by decide, by decide⟩
/-- Every member acts; the split is the wave's only one, or another is left. -/
def spAll : Split := { sp0 with members := 7 }
theorem meets_travc_last : ∃ s', TravcReady (at_ { wC with splits := [(0, spAll)] }) s' c0 { wC with splits := [(0, spAll)] } spAll travcE ∧
    spAll.members &&& ~~~(({ wC with splits := [(0, spAll)] } : Wave).acting spAll 0) = 0 := by
  obtain ⟨s', h⟩ := travc_ready (w := { wC with splits := [(0, spAll)] }) (sp := spAll) ⟨_, rfl⟩ (by decide +kernel) (by decide +kernel)
  exact ⟨s', h, by decide⟩
theorem meets_travc_split : ∃ s', TravcReady (at_ { wC with splits := [(0, spAll), (1, second)] }) s' c0
    { wC with splits := [(0, spAll), (1, second)] } spAll travcE := by
  obtain ⟨s', h⟩ := travc_ready (w := { wC with splits := [(0, spAll), (1, second)] }) (sp := spAll) ⟨_, rfl⟩ (by decide +kernel)
    (by decide +kernel)
  exact ⟨s', h⟩
theorem meets_travc_handler : ∃ s', TravcReady (at_ { wC with shadow := some shHand }) s' c0 { wC with shadow := some shHand } sp0 travcE ∧
    shHand.debug = false := by
  obtain ⟨s', h⟩ := travc_ready (w := { wC with shadow := some shHand }) (sp := sp0) ⟨_, rfl⟩ (by decide +kernel) (by decide +kernel)
  exact ⟨s', h, rfl⟩

theorem meets_pop : popRow (.tstat { d := .s 12, a := .q 7, x := 1 }) =
      some (.popNb 7 4 4, { d := .s 12, a := .q 7, x := 1 }, 7, 4, true) ∧
    (Instr.tstat { d := .s 12, a := .q 7, x := 1 }).wf = true ∧
    w0.clear sp0 (usesOf (.popNb 7 4 4) { d := .s 12, a := .q 7, x := 1 }) = true ∧
    (sPop.queue w0.id.uid 7).length = 1 ∧ s0.queue w0.id.uid 7 = [] ∧
    popRow (.mstat { d := .s 12, a := .q 1 }) = some (.mstat, { d := .s 12, a := .q 1 }, 1, 2, false) :=
  ⟨rfl, by decide, by decide, by decide, by decide, rfl⟩
/-- A result of lanes 0 and 63. -/
theorem meets_sres : let y : QEntry := { id := 50, uid := 1, q := 11, data := 0, latch := [(0, [1, 2, 3, 4]), (63, [5, 6, 7, 8])] }
    (Instr.sres { d := .v 8, a := .q 11 }).wf = true ∧ w0.clear sp0 (usesOf .sres { d := .v 8, a := .q 11 }) = true ∧
    (({ s0 with entries := [y] } : State).queue w0.id.uid 11) = [y] ∧ (∀ p ∈ y.latch, p.1 < 64) ∧
    (y.latch.map (·.1)).Nodup ∧ ∀ p ∈ y.latch, p.2.length = 4 := by decide

/-- A context that records, and a thread with the slot 0. -/
def sRec : State := { s0 with ctxs := [(1, { cd := { recording := true, reca := 0x4000, nslot := 4 }, threads := [(0, { slot := some 0 })] })] }
theorem meets_draw : (s0.ctx 1).cd.rmode = 0 ∧ (s0.ctx 1).cd.recording = false ∧ (sRec.ctx 1).cd.recording = true ∧
    ((sRec.ctx 1).thread 0).finished = false ∧ ((sRec.ctx 1).thread 0).draws.toNat < 1024 ∧
    ((sRec.ctx 1).thread 0).slot = some 0 := by decide
/-- A linear replay serves the entry at the draw count, a keyed one the second entry of the site and occurrence; neither
finds one at a count of 2. -/
def thM : Thread := { slot := some 0, m := [⟨7, 5, 0⟩, ⟨8, 5, 0⟩], consumed := [0] }
theorem meets_draw_replay : Replays thM 1 5 0 0 ⟨7, 5, 0⟩ ∧ Replays thM 2 5 0 1 ⟨8, 5, 0⟩ ∧
    (∀ j x, ¬Replays { thM with draws := 2 } 1 5 0 j x) ∧ ∀ j x, ¬Replays { thM with consumed := [0, 1] } 2 5 0 j x := by
  refine ⟨⟨rfl, by decide⟩, ⟨rfl, ?_⟩, ?_, ?_⟩
  · rw [if_neg (by decide)]
    refine ⟨by decide, rfl, rfl, ?_⟩
    intro i hi y _ hc
    obtain rfl : i = 0 := by omega
    exact absurd (by decide) hc
  · rintro j x ⟨h, g⟩
    rw [if_pos rfl] at g
    subst g
    cases h
  · rintro j x ⟨h, g⟩
    rw [if_neg (by decide)] at g
    match j, h with
    | 0, _ => exact g.1 (by decide)
    | 1, _ => exact g.1 (by decide)
    | n + 2, h => simp [thM] at h
/-- The draw count stands at the limit of 1,024; a thread has no slot, or is finished. -/
theorem meets_draw_limit : 1024 ≤ ({ thM with draws := 1024 } : Thread).draws.toNat ∧ ({ thM with slot := none } : Thread).slot = none ∧
    ({ thM with finished := true } : Thread).finished = true ∧
    (({ s0 with ctxs := [(1, { cd := { rmode := 1 }, threads := [(0, thM)] })] } : State).ctx 1).cd.rmode ≠ 0 := by decide
theorem meets_draws : ∃ f e g, drawRow w0 (.kdraw { d := .k 2, b := .lit, lit := 0x4000 }) = some (f, e, g) ∧
    (Instr.kdraw { d := .k 2, b := .lit, lit := 0x4000 }).wf = true ∧
    w0.clear sp0 (usesOf { f with a := .unused } e) = true ∧ s0.built w0.id.uid [] ∧
    ∃ l ∈ [0], ((({ s0 with ctxs := [(1, { threads := [(0, { building := true })] })] } : State).ctx 1).thread l).building = true ∧
      ((({ s0 with ctxs := [(1, { threads := [(0, { building := true })] })] } : State).ctx 1).thread l).finished = false :=
  ⟨_, _, _, rfl, by decide, by decide, by intro l hl; simp at hl, 0, by simp, by decide, by decide⟩
/-- A finished lane whose M is being built: without list mapping, and with it before its T stands. -/
def drawing (c : Ctx) : State := { s0 with ctxs := [(1, { c with threads := [(0, { building := true, finished := true })] })] }
theorem meets_drawable : (drawing {}).drawable 1 [0] ∧ ¬(drawing { cd := { listMap := true } }).drawable 1 [0] ∧
    ¬(drawing {}).built 1 [0] :=
  ⟨by intro l hl _; simp at hl; subst hl; decide, by intro h; have := h 0 (by simp); revert this; decide,
    by intro h; have := h 0 (by simp); revert this; decide⟩
theorem meets_chsite : (Instr.chsite { a := .s 2 }).wf = true ∧ w0.clear sp0 (usesOf .chsite { a := .s 2 }) = true ∧
    (SMap.find s0.ctxs w0.id.uid).isSome = true ∧ (Instr.chstat { d := .v 7, x := 4 }).wf = true ∧
    w0.clear sp0 (usesOf .chstat { d := .v 7, x := 4 }) = true ∧ (Instr.chkey { d := .s 2, x := 2 }).wf = true ∧
    w0.clear sp0 (usesOf .chkey { d := .s 2, x := 2 }) = true := by decide
theorem meets_choice_push : (Instr.result { d := .q 4, a := .v 8, b := .v 9, ty := .f32 }).wf = true ∧
    w0.clear sp0 (usesOf .result { d := .q 4, a := .v 8, b := .v 9, ty := .f32 }) = true ∧ w0.acting sp0 0 ≠ 0 ∧
    s0.room w0 4 = true ∧ (Instr.chrec { d := .q 4 }).wf = true ∧ (Instr.chmut { d := .q 4, a := .v 8 }).wf = true := by
  decide +kernel

/-- Sequence number, queue and operation of the entry that a push makes. -/
theorem test_command_entry : ((stateOf (exec (.cpy cpyE) sC)).map fun t => t.entries.map fun x =>
    (x.q, x.seq, x.pc, x.data.toNat % 2048, x.data.toNat / 2 ^ 192 % 2 ^ 32)) =
    some [(2, 1, 0x1000, 2 * 8 + 1024, 0)] := by decide +kernel
/-- TSTAT under NB of an empty queue writes zeros at once. -/
theorem test_pop_nothing : scalarAfter (.tstat { d := .s 4, a := .q 7, x := 1 }) s0 4 = some 0 := by decide +kernel

/-! ## Steps of waves: cases that meet the hypotheses -/

theorem pair_of {α β : Type} {p : α × β} {b : β} (h : p.2 = b) : ∃ a, p = (a, b) := ⟨p.1, by rw [← h]⟩

/-- Two waiting exchanges, of cores 0 and 1 of a group of 8, each naming the other. -/
def xA : XSwap :=
  { op := 60, uid := 1, tenant := 0, die := 0, core := 0, slot := 0, split := 0, partner := 1, tag := 5, wide := false, dreg := 2
    vals := [(0, [7])], clock := 3, pc := 0x1000 }
def xB : XSwap :=
  { op := 61, uid := 9, tenant := 0, die := 0, core := 1, slot := 0, split := 0, partner := 0, tag := 5, wide := false, dreg := 4
    vals := [(0, [8]), (63, [9])], clock := 2, pc := 0x2000 }
def wB : Wave := { w0 with id := { uid := 9, grid := 3, group := 2, core := 1 } }
def sX : State := { s0 with waves := [(0, w0), (96, wB)], xswaps := [xA, xB] }
theorem meets_exchange : nextPair (sX.xswaps.filter fun z => sX.dieRuns z.die) = some (xB, xA) ∧ (∀ z ∈ sX.xswaps, z.core < 256 ∧ z.slot < 64) ∧
    Resident sX 96 wB ∧ Resident sX 0 w0 ∧ wB.id.uid = xB.uid ∧ w0.id.uid = xA.uid ∧ ∀ p ∈ xB.vals ++ xA.vals, p.1 < 64 :=
  ⟨by decide, by decide, ⟨rfl, rfl⟩, ⟨rfl, rfl⟩, rfl, rfl, by decide⟩
/-- The exchange issued 2^20 clocks ago. -/
def sXT : State := { s0 with xswaps := [xA], clock := 3 + 2 ^ 20, ops := [{ id := 60, uid := 1, flag := some 0, ready := false, vregs := [2] }] }
theorem meets_exchange_timeout : (sXT.xswaps.filter fun z => decide (z.clock + 2 ^ 20 ≤ sXT.dieClock z.die) && sXT.dieRuns z.die) = [xA] ∧ Resident sXT 0 w0 ∧
    w0.id.uid = xA.uid ∧ w0.shadow = none ∧ w0.trap = none ∧ xA.hand = false ∧ xA.code = false ∧
    (∃ o, sXT.ops.find? (·.id == xA.op) = some o) ∧ ∃ p, SMap.find w0.splits xA.split = some p :=
  ⟨by decide, ⟨rfl, rfl⟩, rfl, rfl, rfl, rfl, rfl, ⟨_, rfl⟩, ⟨_, rfl⟩⟩

def parked : Split := { pc := 0x2000, members := 0x3, park := true }
def wPark : Wave := { w0 with splits := [(0, parked), (3, { parked with members := 0xC })] }
/-- The die of the wave runs. -/
theorem awake (w : Wave) (n : Nat) (h : w.id.die = 0) : Awake { at_ w with subject := .ids 0 0 0, clock := n } 0 w :=
  ⟨rfl, by rw [h]; rfl⟩
theorem meets_merge : ({ at_ wPark with subject := .ids 0 0 0 } : State).wave 0 = some wPark ∧ SMap.rising 0 wPark.splits = true ∧
    (∃ i j p q, i < j ∧ SMap.find wPark.splits i = some p ∧ SMap.find wPark.splits j = some q ∧ p.park = true ∧ q.park = true ∧
      p.at = q.at ∧ p.cd = q.cd) ∧ wPark.splits ≠ [] ∧ ∀ p ∈ wPark.splits, p.2.park = true ∧ p.2.codes = 0 :=
  ⟨rfl, rfl, ⟨0, 3, _, _, by decide, rfl, rfl, rfl, rfl, rfl, rfl⟩, by decide, by decide⟩
theorem meets_yield_expiry : w0.shadow = none ∧
    ∃ p ∈ ({ w0 with splits := [(0, { sp0 with wait := .until 33 })] } : Wave).splits, ∃ n, p.2.wait = .until n ∧ n ≤ 33 :=
  ⟨rfl, _, List.mem_cons_self, 33, rfl, by decide⟩
/-- A wave of its own, and the lower half of a ganged slot whose upper half is resident. -/
def wHalf : Wave := { w0 with id := { w0.id with gang := 1 }, guard := 252 }
theorem meets_guard : 252 ≤ ({ w0 with guard := 252 } : Wave).guard ∧ w0.expired = none ∧ w0.id.gang = 0 ∧
    wHalf.id.gang ≠ 0 ∧ wHalf.id.partner ≠ 0 ∧
    ({ s0 with waves := [(0, wHalf), (1, wB)] } : State).wave wHalf.id.partner = some wB := by decide
/-- 07 R150: a guard of 252 has expired at the end of the clock, one of 251 has not. -/
theorem test_guard_tick : (({ w0 with guard := 252 } : Wave).guardTick 9).expired = some 9 ∧
    (({ w0 with guard := 251 } : Wave).guardTick 9).expired = none := by decide
theorem meets_icf : (∃ p, SMap.find ({ w0 with splits := [(0, { sp0 with wait := .icf .core 70 })] } : Wave).splits 0 = some p ∧
    p.wait = .icf .core 70) ∧ ∀ x ∈ s0.ls, x.id ≠ 70 := ⟨⟨_, rfl, rfl⟩, by simp [s0, at_, State.reset]⟩

/-- An FDIV whose results are known, for v1 in lanes 0 and 63 and on flag 11. -/
def opF : LongOp := { id := 60, uid := 1, flag := some 11, ready := true, vw := [(1, 0, 5), (1, 63, 6)] }
def sOp : State := { s0 with ops := [opF], subject := .ids 60 0 0 }
theorem meets_landing : sOp.subject = .ids opF.id 0 0 ∧ sOp.ops.find? (·.id == opF.id) = some opF ∧ opF.ready = true ∧
    Resident sOp 0 w0 ∧ w0.id.uid = opF.uid ∧ sOp.dieRuns (sOp.ctx opF.uid).id.die = true ∧ (∀ p ∈ opF.vw, p.2.1 < 64) ∧
    (opF.vw.map fun p => (p.1, p.2.1)).Nodup ∧ (opF.sw.map (·.1)).Nodup :=
  ⟨rfl, rfl, rfl, ⟨rfl, rfl⟩, rfl, rfl, by decide, by decide, by decide⟩
def sTok : State := { s0 with tokens := [{ id := 60, uid := 1, reg := 5, val := 7 }], subject := .ids 60 0 0 }
theorem meets_token_write : ∃ x, sTok.subject = .ids x.id 0 0 ∧ sTok.tokens.find? (·.id == x.id) = some x ∧ Resident sTok 0 w0 ∧
    w0.id.uid = x.uid ∧ sTok.dieRuns (sTok.ctx x.uid).id.die = true :=
  ⟨{ id := 60, uid := 1, reg := 5, val := 7 }, rfl, rfl, ⟨rfl, rfl⟩, rfl, rfl⟩
/-- The workgroup's one wave has arrived at barrier 0 of scope core. -/
def wArr : Wave := { w0 with arrived := [(0, 1)], splits := [(0, { sp0 with wait := .departing 0 })] }
theorem meets_barrier : ∃ key rest, (at_ wArr).fullBarriers = (0, key) :: rest ∧
    (∀ p ∈ (at_ wArr).waves, ∀ q ∈ (at_ wArr).waves, p.1 = q.1 → p = q) ∧ (at_ wArr).wave 0 = some wArr ∧
    (at_ wArr).barrierKey wArr.id 0 = key ∧ SMap.find wArr.arrived 0 = some ((at_ wArr).barrierDone 0 key + 1) ∧
    wArr.shadow = none ∧ ∃ p, (0, p) ∈ wArr.splits ∧ p.wait = .departing 0 :=
  ⟨(4, 0), [], by decide, by intro p hp q hq _; simp [at_] at hp hq; rw [hp, hq], rfl, by decide, by decide, rfl,
    _, List.mem_cons_self, rfl⟩

/-- A wave that has trapped, outside a handler. -/
def tr : Trap := { cause := 31, pc := 0x1000, resume := 0x1000, active := 7 }
def wTrap : Wave := { w0 with trap := some tr }
def sTrap : State := { at_ wTrap with subject := .ids 0 0 0 }
theorem meets_entry : ∃ s', sTrap.wave 0 = some wTrap ∧ wTrap.trap = some tr ∧ tr.cause < 32 ∧ wTrap.halted = false ∧
    wTrap.shadow = none ∧ (sTrap.tenant wTrap.id.tenant).hentry ≠ 0 ∧ sTrap.settledFor wTrap = true ∧
    sTrap.writeFrame wTrap { tr with active := wTrap.active (SMap.read {} wTrap.splits tr.split) } = (s', true) := by
  obtain ⟨s', h⟩ := pair_of (p := sTrap.writeFrame wTrap { tr with active := wTrap.active (SMap.read {} wTrap.splits tr.split) })
    (b := true) (by decide +kernel)
  exact ⟨s', rfl, rfl, by decide, rfl, rfl, by decide, by decide, h⟩
/-- The frame's place is not mapped. -/
theorem meets_entry_fails :
    (({ sTrap with tenants := [(0, { root := 0x10000, hentry := 0x3000, trapbase := 0x100000000 })] } : State).writeFrame wTrap tr).2 = false ∧
    (({ sTrap with tenants := [] } : State).tenant wTrap.id.tenant).hentry = 0 := by decide +kernel
theorem meets_frame : tr.cause < 256 ∧ tr.sub < 256 ∧ tr.lane < 256 ∧ tr.split < 256 ∧ tr.queue < 256 := by decide
theorem meets_double : ({ wHand with trap := some tr } : Wave).shadow = some shHand ∧ shHand.debug = false ∧
    shHand.clock + ((at_ wHand).tenant wHand.id.tenant).wdog.toNat < ({ at_ wHand with clock := 2 ^ 21 + 1 } : State).clock := by
  decide
theorem meets_engine_fault : let w : Wave := { w0 with engFaults := [{ queue := 2, sub := 1, addr := 0, site := 0x1000, seq := 1 }] }
    w.engFaults = [{ queue := 2, sub := 1, addr := 0, site := 0x1000, seq := 1 }] ∧ w.splits = [(0, sp0)] ∧ w.trap = none ∧
    w.shadow = none ∧ w.heldTraps = [] ∧ w.halted = false ∧ w.haltReq = false := by decide

/-- A debug stop with debugging enabled, and one with it disabled. -/
def wBrk : Wave := { w0 with trap := some { tr with cause := 32 } }
def sBrk (on : Bool) : State :=
  { at_ wBrk with subject := .ids 0 0 0, tenants := [(0, { root := 0x10000, trapbase := 0x200000, dbgen := on })] }
theorem meets_debug_stop : ∃ s', (sBrk true).wave 0 = some wBrk ∧ 32 ≤ ({ tr with cause := 32 } : Trap).cause ∧
    (sBrk true).settledFor wBrk = true ∧ ((sBrk true).tenant wBrk.id.tenant).dbgen = true ∧
    ((sBrk false).tenant wBrk.id.tenant).dbgen = false ∧ wBrk.heldTraps = [] ∧
    (sBrk true).writeFrame wBrk
      { tr with cause := 32, active := wBrk.active (SMap.read {} wBrk.splits tr.split) } = (s', true) := by
  obtain ⟨s', h⟩ := pair_of (p := (sBrk true).writeFrame wBrk
    { tr with cause := 32, active := wBrk.active (SMap.read {} wBrk.splits tr.split) }) (b := true) (by decide +kernel)
  exact ⟨s', rfl, by decide, by decide, rfl, rfl, rfl, h⟩
/-- Core 0's comparator 0 matches the PC. -/
def sMatch : State :=
  { s0 with blocks := [(0, { cmp := [(0, { pc := 0x1000, en := true, anyten := true })] })], tenants := [(0, { dbgen := true })] }
theorem meets_pcmatch : sMatch.comparatorHits w0.id c0.pc = true ∧ w0.handling = false ∧ sp0.noMatch = false ∧
    s0.comparatorHits w0.id c0.pc = false := by decide
theorem meets_debug_entry : ∃ x, ({ s0 with entries := [{ id := 50, uid := 1, q := 15, data := 0 }] } : State).entries.find?
    (fun e => e.q == 15 && s0.dieRuns (s0.ctx e.uid).id.die) = some x ∧ (s0.tenant (s0.ctx 1).id.tenant).dbgen = false := ⟨_, rfl, by decide⟩
theorem meets_fetch_traps : fetchTrapOf s0 c0 .unimplMajor = some (2, 0, 0x1000) ∧
    fetchTrapOf s0 c0 .illegalEnc = some (1, 0, 0x1000) ∧
    fetchTrapOf { s0 with subject := .value 3 0 0x1004 } c0 .fetchFault = some (7, 3, 0x1004) := by decide

/-- The frame's first bytes: cause 31 and, at byte 4, the PC. -/
theorem test_entry_frame : ((stateOf (exec .trapEntry sTrap)).map fun t =>
    ((t.wave 0).map fun w => (w.splits.map (·.2.pc), w.getK 1, w.getS 0, w.getS 2))) =
    some (some ([0x3000], 7, 0x200000, 31)) := by decide +kernel

/-! ## The ordering machine: cases that meet the hypotheses -/

/-- A raw load of two lanes from the scratchpad, and loads, fences and barrier entries of the same wave. -/
def lsE : LsEntry :=
  { id := 60, uid := 1, die := 0, core := 0, tenant := 0, age := 60, split := 0, kind := .load, ty := .b32
    lanes := [{ lane := 0, locs := locsFrom .sp 0 4 }, { lane := 63, locs := locsFrom .sp (2 ^ 19 - 4) 4 }], dest := .vec 1, op := some 61 }
def sLs (e : LsEntry) : State :=
  { s0 with ls := [e], subject := .ids e.id 0 0, ops := [{ id := 61, uid := 1, flag := some 0, ready := false }] }
theorem may_perform {e : LsEntry} (h : (sLs e).performable e = true) : MayPerform (sLs e) e :=
  ⟨⟨0, 0, rfl⟩, by simp [sLs], h, fun b hb => (by decide : ∀ b < 45, (BitVec.ofNat 45 (2 ^ 45 - 1)).getLsbD b = true) b hb,
    rfl, rfl⟩
theorem meets_load_performs : MayPerform (sLs lsE) lsE ∧ ∀ x ∈ lsE.lanes, ∃ k, k ≠ .m ∧ ∀ l ∈ x.locs, l.k = k :=
  ⟨may_perform (by decide), by
    intro x hx
    refine ⟨.sp, by decide, fun l hl => ?_⟩
    simp only [lsE, List.mem_cons, List.not_mem_nil, or_false] at hx
    rcases hx with rfl | rfl <;> simp only [locsFrom, List.mem_map] at hl <;> obtain ⟨j, -, rfl⟩ := hl <;> rfl⟩
/-- An aligned unit of 8 bytes of M whose home is die 0, the core's own. -/
def lsM : LsEntry := { lsE with ty := .b64, lanes := [{ lane := 0, locs := locsFrom .m 0x40000000 8 }] }
theorem meets_load_m : MayPerform (sLs lsM) lsM ∧ lsM.lanes = [{ lane := 0, locs := locsFrom .m 0x40000000 8 }] ∧
    0x40000000 % 8 = 0 ∧ (∀ l ∈ locsFrom .m 0x40000000 8, (sLs lsM).inPath (.wave lsM.core) l = none) ∧
    homeDie 0x40000000 = some (lsM.core / Config.coresPerDie) :=
  ⟨may_perform (by decide), rfl, by decide, by decide, by decide⟩
/-- No stack is ready: the load waits. -/
theorem meets_load_waits : let s := { sLs lsM with mgmt := {} }
    s.performable lsM = true ∧ s.poison = [] ∧ s.mgmt.fail = 0 ∧ SMap.find s.blocks lsM.core = none ∧ s.memWaits 0x40000000 = true := by
  decide
theorem meets_fence_performs : MayPerform (sLs { lsE with kind := .fence, ord := .ar, scope := .pod, lanes := [], dest := .none, op := none })
    { lsE with kind := .fence, ord := .ar, scope := .pod, lanes := [], dest := .none, op := none } := may_perform (by decide)
theorem meets_arrival : MayPerform (sLs { lsE with kind := .arrive 0, op := none }) { lsE with kind := .arrive 0, op := none } ∧
    Resident (sLs { lsE with kind := .arrive 0, op := none }) 0 w0 ∧ w0.id.uid = lsE.uid ∧ w0.shadow = none :=
  ⟨may_perform (by decide), ⟨rfl, rfl⟩, rfl, rfl⟩
theorem meets_departure : MayPerform (sLs { lsE with kind := .depart 23, op := none }) { lsE with kind := .depart 23, op := none } ∧
    Resident (sLs { lsE with kind := .depart 23, op := none }) 0 w0 := ⟨may_perform (by decide), ⟨rfl, rfl⟩⟩

/-- A store of 4 bytes to a kind of memory. -/
def lsS (k : MemK) : LsEntry :=
  { lsE with kind := .store, lanes := [{ lane := 0, locs := locsFrom k 0x1000 4, data := [1, 2, 3, 4] }], dest := .none, op := none }
theorem meets_store_performs (k : MemK) : MayPerform (sLs (lsS k)) (lsS k) ∧ (lsS k).kind = .store ∧ (lsS k).ord = .plain ∧
    (lsS k).lanes = [{ lane := 0, locs := locsFrom k 0x1000 4, data := [1, 2, 3, 4] }] ∧ (lsS k).op = none :=
  ⟨may_perform (by cases k <;> decide), rfl, rfl, rfl, rfl⟩
/-- A store through a page that lets none stay behind, whose page is uncached. -/
def lsT : LsEntry :=
  { lsS .m with lanes := [{ lane := 0, locs := locsFrom .m 0x40000000 4, data := [1, 2, 3, 4], through := true, uncached := true }] }
theorem meets_through : MayPerform (sLs lsT) lsT := may_perform (by decide)
/-- The one entry of a buffer. -/
def ent (k : MemK) (a : Nat) : BufEnt := { id := 60, own := 0, loc := ⟨k, a⟩, bytes := [1, 2, 3, 4] }
theorem oldest {e : BufEnt} {s : State} (h : s.subject = .ids e.id 0 0) : Oldest s [e] e :=
  ⟨⟨0, 0, h⟩, by simp, by simp [oldestIn]⟩
theorem meets_moves (k : MemK) (a : Nat) : let e := ent k a
    Oldest { s0 with lq := [e], subject := .ids 60 0 0 } [e] e ∧ Oldest { s0 with cb := [e], subject := .ids 60 0 0 } [e] e ∧
    Oldest { s0 with dw := [e], subject := .ids 60 0 0 } [e] e ∧ Oldest { s0 with pq := [e], subject := .ids 60 0 0 } [e] e ∧
    e.bytes ≠ [] ∧ OnRunningDie s0 e := ⟨oldest rfl, oldest rfl, oldest rfl, oldest rfl, by simp [ent], rfl⟩
/-- The three ways of a store to M below its core: a remote window, its own die, another die; and no copy held. -/
theorem meets_below : paKind 0x8000000000000 = .remote ∧ (paKind 0x40000000 ≠ .remote ∧ homeDie 0x40000000 = some (0 / Config.coresPerDie)) ∧
    (paKind 0x40001000 ≠ .remote ∧ homeDie 0x40001000 ≠ some (0 / Config.coresPerDie)) ∧
    s0.copiesAt 0 0x40001000 4 = [] := by decide
theorem meets_merge_entries : let x := ent .sp 8
    let y : BufEnt := { ent .sp 8 with id := 62 }
    let z : BufEnt := { ent .sp 16 with id := 61 }
    bufferOf { s0 with lq := [x, z, y] } .lq = [] ++ x :: [z] ++ y :: [] ∧ ([x, z, y].map (·.id)).Nodup ∧ x.own = y.own ∧
    x.loc = y.loc ∧ x.bytes.length = y.bytes.length ∧ ∀ u ∈ [z], ∀ l ∈ x.locs, u.byteAt x.own l = none := by decide

/-- 32 bytes of a memory at their home: no buffered store and no partial, on die 0. -/
theorem at_home (k : MemK) (hk : k ≠ .hole) (n : Nat) (hn : n ≤ 64) (e : LsEntry) : AtHome (sLs e) 0 k 0x40000000 n :=
  ⟨hk, by simp [sLs, at_, s0, State.reset], fun _ => rfl, fun _ j hj => by
    have h : (0x40000000 + j) / 4096 % 8 = 0 := by omega
    have h2 : 0x40000000 + j < 0x10000000000 := by omega
    simp [homeDie, paKind, h, h2]⟩
def lsA (kind : LsKind) (ty : DType) (data : List Byte) (n : Nat) : LsEntry :=
  { lsE with kind, ty, lanes := [{ lane := 0, locs := locsFrom .m 0x40000000 n, data }], dest := .none, op := none }
theorem meets_atomics :
    MayPerform (sLs (lsA (.fao 0) .n32 [1, 0, 0, 0] 4)) (lsA (.fao 0) .n32 [1, 0, 0, 0] 4) ∧
    (sLs (lsA (.fao 0) .n32 [1, 0, 0, 0] 4)).combs = [] ∧ Num.fmtOf .n32 = none ∧
    AtHome (sLs (lsA (.fao 0) .n32 [1, 0, 0, 0] 4)) 0 .m 0x40000000 DType.n32.bytes ∧
    MayPerform (sLs (lsA .cas .n32 [1, 0, 0, 0, 2, 0, 0, 0] 4)) (lsA .cas .n32 [1, 0, 0, 0, 2, 0, 0, 0] 4) ∧
    MayPerform (sLs (lsA (.red 0 .rne false) .n32 [1, 0, 0, 0] 4)) (lsA (.red 0 .rne false) .n32 [1, 0, 0, 0] 4) ∧
    AtHome (sLs lsE) 0 .qm 0x40000000 4 :=
  ⟨may_perform (by decide), rfl, rfl, at_home .m (by decide) 4 (by decide) _, may_perform (by decide),
    may_perform (by decide), at_home .qm (by decide) 4 (by decide) _⟩
theorem meets_accumulators :
    MayPerform (sLs (lsA .xclr .none (List.replicate 64 0) 64)) (lsA .xclr .none (List.replicate 64 0) 64) ∧
    MayPerform (sLs (lsA .xacc .f32 [0, 0, 128, 63] 64)) (lsA .xacc .f32 [0, 0, 128, 63] 64) ∧
    MayPerform (sLs { lsA (.xrd .rne) .f32 [] 64 with form := .dec .rne false false }) { lsA (.xrd .rne) .f32 [] 64 with form := .dec .rne false false } ∧
    (∃ f, Num.fmtOf .f32 = some f) ∧ AtHome (sLs lsE) 0 .m 0x40000000 64 :=
  ⟨may_perform (by decide), may_perform (by decide), may_perform (by decide), ⟨_, rfl⟩, at_home .m (by decide) 64 (by decide) _⟩
theorem meets_vat : MayPerform (sLs (lsA (.vat 0 true .rne false) .n32 (List.replicate 32 1) 32)) (lsA (.vat 0 true .rne false) .n32 (List.replicate 32 1) 32) ∧
    (List.replicate 32 (1 : Byte)).length = 32 ∧ AtHome (sLs lsE) 0 .m 0x40000000 32 :=
  ⟨may_perform (by decide), by decide, at_home .m (by decide) 32 (by decide) _⟩

/-- FAO.add of 1 on 0xFFFFFFFF wraps to 0. -/
theorem test_fao_wraps : let s := { sLs (lsA (.fao 0) .n32 [1, 0, 0, 0] 4) with mem := Memory.setBytes [] 0x40000000 [255, 255, 255, 255] }
    (stateOf (exec .performLsEntry s)).map (fun t => t.mem.bytes 0x40000000 4) = some [0, 0, 0, 0] := by decide +kernel
/-- 05 R84: two lanes of one load read one byte of another die alike, though the die holds a copy of that byte alone. -/
theorem test_load_one_store :
    let e : LsEntry := { lsE with ty := .b16, lanes := [{ lane := 0, locs := locsFrom .m 0x40001001 1 }, { lane := 1, locs := locsFrom .m 0x40001000 2 }] }
    (stateOf (exec .performLsEntry { sLs e with ds := [(copyKey 0 0x40001001, [9])] })).map (fun t => t.ops.map (·.vw)) =
      some [[(1, 0, 0), (1, 1, 0)]] := by decide +kernel
/-- 25 R428: a RED of a core's scratchpad on poison strikes its tenant. -/
theorem test_red_strikes : let e : LsEntry := { lsA (.red 0 .rne false) .n32 [1, 0, 0, 0] 4 with lanes := [{ lane := 0, locs := locsFrom .sp 8 4, data := [1, 0, 0, 0] }] }
    (stateOf (exec .performLsEntry { sLs e with poison := [⟨.sp, 8⟩] })).map (fun t => t.struck.map (·.1)) = some [0] := by decide +kernel
/-- A store stands in its core's LQ, and SP is unchanged. -/
theorem test_store_buffered : (stateOf (exec .performLsEntry (sLs (lsS .sp)))).map (fun t => (t.lq.map (·.bytes), t.sp)) =
    some ([[1, 2, 3, 4]], []) := by decide +kernel

/-! ## Combining, walks, accesses from outside: cases that meet the hypotheses -/

theorem leaf_of {p : State × WalkStep} (P : State → Leaf → Bool)
    (h : (match p.2 with | .leaf l => P p.1 l | _ => false) = true) : ∃ s l, p = (s, .leaf l) ∧ P s l = true := by
  obtain ⟨s, x⟩ := p
  cases x with
  | leaf l => exact ⟨s, l, rfl, h⟩
  | _ => cases h

/-- Two FAO.add of one lane for one place, of cores 0 and 1. -/
def faoOf (id uid v : Nat) : LsEntry :=
  { id, uid, die := 0, core := id - 60, tenant := 0, age := id, split := 0, kind := .fao 0, ty := .n32
    lanes := [{ lane := 0, locs := Loc.range ⟨.m, 0x40000000⟩ 4, data := leBytes 4 v }] }
def sFao : State := { s0 with ls := [faoOf 60 1 5, faoOf 61 9 7], subject := .meet (.bench 0 0) 60 61 true [] }
theorem meets_pair : LaneRequest sFao (faoOf 60 1 5) { lane := 0, locs := Loc.range ⟨.m, 0x40000000⟩ 4, data := leBytes 4 5 } 0 ⟨.m, 0x40000000⟩ 4 ∧
    LaneRequest sFao (faoOf 61 9 7) { lane := 0, locs := Loc.range ⟨.m, 0x40000000⟩ 4, data := leBytes 4 7 } 0 ⟨.m, 0x40000000⟩ 4 ∧
    sFao.combs = [] ∧ Num.fmtOf .n32 = none ∧ paKind 0x40000000 ≠ .host ∧
    (sFao.outputs 0 ⟨.m, 0x40000000⟩).find? (fun o => o.1 == .bench 0 0) = some (.bench 0 0, 0) ∧
    (sFao.outputs 1 ⟨.m, 0x40000000⟩).find? (fun o => o.1 == .bench 0 0) = some (.bench 0 0, 1) :=
  ⟨⟨rfl, rfl, rfl, rfl, ⟨rfl, by decide⟩, rfl, by decide⟩, ⟨rfl, rfl, rfl, rfl, ⟨rfl, by decide⟩, rfl, by decide⟩, rfl, rfl,
    by decide, by decide, by decide⟩
/-- An entry for another place stands behind the second request. -/
def sFao3 : State :=
  { s0 with ls := [faoOf 60 1 5, faoOf 61 9 7, { lsM with id := 62, lanes := [{ lane := 0, locs := locsFrom .m 0x40000008 8 }] }]
            subject := .meet (.slice 0 0) 60 61 false [62] }
theorem meets_pair_behind : FreeBehind sFao3 [62] ⟨.m, 0x40000000⟩ ∧
    ((sFao3.outputs 0 ⟨.m, 0x40000000⟩).find? (fun o => o.1 == .slice 0 0)).isSome = true :=
  ⟨⟨by decide, by decide, by decide⟩, by decide⟩
def comb0 : Comb :=
  { id := 70, point := .bench 0 0, first := .lanes 60, second := .lanes 61, loc := ⟨.m, 0x40000000⟩, op := 0, ty := .n32, opA := 5
    cntA := 1, opP := 12, cntP := 2 }
theorem meets_pair_apply : let s : State := { sFao with combs := [comb0], subject := .ids 70 0 0 }
    s.ls.find? (·.id == 60) = some (faoOf 60 1 5) ∧ comb0.op ≠ 8 ∧ comb0.ty.bits = 32 ∧ Num.fmtOf comb0.ty = none ∧
    AtHome s 0 .m comb0.loc.a comb0.ty.bytes := ⟨rfl, by decide, rfl, rfl, at_home' _ rfl⟩
  where
    at_home' (s : State) (h : s = { sFao with combs := [comb0], subject := .ids 70 0 0 }) : AtHome s 0 .m comb0.loc.a comb0.ty.bytes := by
      subst h
      exact ⟨by decide, by simp [sFao, at_, s0, State.reset], fun _ => rfl, fun _ => by decide⟩
theorem meets_pair_return : let c : Comb := { comb0 with old := some 9 }
    let s : State := { sFao with combs := [c], subject := .ids 70 0 0 }
    s.ls = [faoOf 60 1 5, faoOf 61 9 7] ∧ c.old = some 9 ∧
    (Loc.range ⟨.m, 0x40000000⟩ 4).head? = some c.loc := ⟨rfl, rfl, rfl⟩

/-- A request from Adit port 9 meets a waiting one of core 0 at the home's slice. -/
def sRemoteFao (waited : Bool) : State :=
  { s0 with ls := [faoOf 60 1 5], meets := [[{ out := .slice 0 0, other := some 60, waited }]]
            subject := .remote (.fao 9 0x40000000 0 .n32 7 1) }
theorem meets_remote_pair (b : Bool) : (0 : BitVec 4).toNat ≤ 7 ∧ DeviceRange 0x40000000 DType.n32.bytes ∧
    LaneRequest (sRemoteFao b) (faoOf 60 1 5) { lane := 0, locs := Loc.range ⟨.m, 0x40000000⟩ 4, data := leBytes 4 5 } 0 ⟨.m, 0x40000000⟩ 4 ∧
    (sRemoteFao b).combs = [] ∧ AtHome (sRemoteFao b) 0 .m 0x40000000 4 ∧
    ((sRemoteFao b).outputs 0 ⟨.m, 0x40000000⟩).find? (fun o => o.1 == .slice 0 0) = some (.slice 0 0, 0) ∧
    ((sRemoteFao b).aditWay 9 ⟨.m, 0x40000000⟩).find? (fun o => o.1 == .slice 0 0) = some (.slice 0 0, 33) := by
  refine ⟨by decide, by unfold DeviceRange; decide, ⟨rfl, rfl, rfl, rfl, ⟨rfl, by decide⟩, rfl, ?_⟩, rfl,
    ⟨by decide, by simp [sRemoteFao, at_, s0, State.reset], fun _ => rfl, fun _ => by decide⟩, ?_, ?_⟩ <;> cases b <;> decide
/-- 5 of the waiting request and 7 of the other package: each gets the value before its own step. -/
theorem test_remote_pair : ∀ b, ((stateOf (exec .remoteRequest (sRemoteFao b))).map fun t =>
    leNat (t.mem.bytes 0x40000000 4) + 2 ^ 32 * leNat t.answer) = some (12 + 2 ^ 32 * if b then 5 else 0) := by decide +kernel
theorem test_remote_waiter : ∀ b, ((stateOf (exec .remoteRequest (sRemoteFao b))).map fun t =>
    t.ls.flatMap fun e => e.lanes.map (·.old)) = some [some (if b then 0 else 7)] := by decide +kernel

def req (write : Bool) : WalkReq := { die := 0, tenant := 0, va := 0x2000, write }
/-- A walk of a read and of a write finds the leaf, which no die holds yet. -/
theorem meets_walk (b : Bool) : ∃ s' l, s0.walk (req b).tenant (req b).va = (s', .leaf l) ∧
    s'.cached (req b).die none (req b).tenant (req b).va.toNat = [] ∧ l.hole = false ∧ (if b then l.w else l.r) = true ∧ 0 < l.size := by
  obtain ⟨s', l, h, hp⟩ := leaf_of (p := s0.walk 0 0x2000)
    (fun s' l => s'.cached 0 none 0 0x2000 == [] && !l.hole && l.w && l.r && decide (0 < l.size)) (by decide +kernel)
  simp only [Bool.and_eq_true, Bool.not_eq_true', beq_iff_eq, decide_eq_true_eq] at hp
  exact ⟨s', l, h, hp.1.1.1.1, hp.1.1.1.2, by cases b <;> simp [hp.1.1.2, hp.1.2], hp.2⟩
/-- The first and the last byte of HBM, one beyond it, and host memory. -/
theorem meets_ranges : DeviceRange 0 1 ∧ DeviceRange 0xFFFFFFFFFF 1 ∧ ¬DeviceRange 0xFFFFFFFFFF 2 ∧ ¬DeviceRange 0x10000000000 8 ∧
    paKind 0x10000000000 ≠ .host ∧ paKind 0x4000000000000 = .host ∧ DeviceRange 0x20000000000 8 := by
  unfold DeviceRange; decide
theorem meets_remote_cas : (7 : Dword).toNat < 2 ^ DType.n32.bits ∧ DType.n32.bits = 32 ∧ DeviceRange 0x40000000 64 ∧
    ∀ p ∈ s0.parts, p.hits 0x40000000 64 = false := by
  unfold DeviceRange; decide
theorem meets_remote_atomic : Num.fmtOf .n64 = none ∧ (0xFFFFFFFFFFFFFFFF : Dword).toNat < 2 ^ DType.n64.bits ∧
    DeviceRange 0x40000000 DType.n64.bytes ∧ (0 : BitVec 4).toNat ≠ 8 ∧ s0.meets = [] ∧ s0.mgmt.fencedFrames = [] ∧
    ∀ p ∈ s0.parts, p.hits 0x40000000 8 = false := by
  unfold DeviceRange; decide

/-! ## Entries of the engines: the shared case -/

/-- An entry's eight words. -/
def data8 (ws : List Nat) : BitVec 256 := BitVec.ofNat 256 (ws.zipIdx.foldl (fun n p => n + p.1 * 2 ^ (32 * p.2)) 0)
/-- An entry of the wave in a queue. -/
def entryOf (q : Nat) (ws : List Nat) : QEntry := { id := 50, uid := 1, q, data := data8 ws, age := 50, seq := 1, pc := 0x1000 }
/-- Before a command with SYNC: an entry of q0 that is not performed, a joint member whose status waits for room, a store. -/
theorem meets_command_sync : (entryOf 0 []).uid = w0.id.uid ∧ (entryOf 0 []).age < s0.nextId ∧ (entryOf 0 []).post = none ∧
    ({ entryOf 0 [] with post := some 0, joined := some (50, false) } : QEntry).joined ≠ none ∧
    (lsS .sp).uid = w0.id.uid ∧ (lsS .sp).age < s0.nextId := by decide
/-- A state whose only entry is e, named by the subject. -/
def eng (s : State) (e : QEntry) : State := { s with entries := [e], subject := .ids e.id 0 0 }
theorem turn {s : State} {e : QEntry} (h : (eng s e).heads e = true) : Turn (eng s e) e := ⟨⟨0, 0, rfl⟩, by simp [eng], h⟩

/-- A computation has ended well; two, the second upon the first, have. -/
def isOk {α : Type} : Except EFault α × State → Bool
  | (.ok _, _) => true
  | (.error _, _) => false
def isOk2 {α β : Type} (f : α → State → Except EFault β × State) : Except EFault α × State → Bool
  | (.ok a, s) => isOk (f a s)
  | (.error _, _) => false
theorem go_ok {α : Type} {p : Except EFault α × State} (h : isOk p = true) : ∃ a s, p = (.ok a, s) := by
  obtain ⟨x, s⟩ := p
  cases x with
  | error => cases h
  | ok a => exact ⟨a, s, rfl⟩
theorem go_ok2 {α β : Type} {p : Except EFault α × State} {f : α → State → Except EFault β × State} (h : isOk2 f p = true) :
    ∃ a s b t, p = (.ok a, s) ∧ f a s = (.ok b, t) := by
  obtain ⟨x, s⟩ := p
  cases x with
  | error => cases h
  | ok a =>
    obtain ⟨b, t, g⟩ := go_ok (p := f a s) h
    exact ⟨a, s, b, t, rfl, g⟩
theorem go_error {α : Type} {p : Except EFault α × State} (h : isOk p = false) : ∃ f s, p = (.error f, s) := by
  obtain ⟨x, s⟩ := p
  cases x with
  | ok => cases h
  | error f => exact ⟨f, s, rfl⟩

/-! ## The copy engine -/

/-- CPY of 4 bytes from 0x4000 to 0x2000 with token s2. -/
def eCpy : QEntry := entryOf 2 [2 * 8 + 1024, 0x2000, 0, 0x4000, 0, 4]
theorem meets_copy : ∃ r s', copyRowOf .cpyEntry = some r ∧ Turn (eng s0 eCpy) eCpy ∧ eCpy.q = 2 ∧ eCpy.data.toNat % 8 = r.op ∧
    copyOk eCpy = true ∧ (r.work (eng s0 eCpy) eCpy).go (eng s0 eCpy) = (.ok (), s') := by
  obtain ⟨⟨⟩, s', h⟩ := go_ok (p := (copyBytes ((eng s0 eCpy).corePort eCpy) eCpy.dsp eCpy.ssp (copyWord eCpy 5) (copyAddr eCpy 1)
    (copyAddr eCpy 3) (copyWord eCpy 5)).go (eng s0 eCpy)) (by decide +kernel)
  exact ⟨_, s', rfl, turn (by decide), rfl, by decide, by decide, h⟩
/-- The destination is not mapped. -/
def eCpyBad : QEntry := entryOf 2 [2 * 8 + 1024, 0x2000, 1, 0x4000, 0, 4]
theorem meets_copy_fault : ∃ f s', Turn (eng s0 eCpyBad) eCpyBad ∧ copyOk eCpyBad = true ∧
    (copyBytes ((eng s0 eCpyBad).corePort eCpyBad) eCpyBad.dsp eCpyBad.ssp (copyWord eCpyBad 5) (copyAddr eCpyBad 1)
      (copyAddr eCpyBad 3) (copyWord eCpyBad 5)).go (eng s0 eCpyBad) = (.error f, s') := by
  obtain ⟨f, s', h⟩ := go_error (p := (copyBytes ((eng s0 eCpyBad).corePort eCpyBad) eCpyBad.dsp eCpyBad.ssp (copyWord eCpyBad 5)
    (copyAddr eCpyBad 1) (copyAddr eCpyBad 3) (copyWord eCpyBad 5)).go (eng s0 eCpyBad)) (by decide +kernel)
  exact ⟨f, s', turn (by decide), by decide, h⟩
/-- A count beyond 2^24, and an opcode that no command has. -/
theorem meets_copy_limits : copyOk (entryOf 2 [0, 0x2000, 0, 0x4000, 0, 0xFFFFFFFF]) = false ∧
    5 ≤ (entryOf 2 [7]).data.toNat % 8 ∧ (eng s0 (entryOf 2 [7])).heads (entryOf 2 [7]) = true := by decide
/-- Distance from the destination to the source: 0, or not less than the count. -/
theorem meets_copy_line : ∃ bs ps s1 s2, (copyAddr eCpy 1).toNat % 64 + copyWord eCpy 5 ≤ 64 ∧
    (copyAddr eCpy 3).toNat % 64 + copyWord eCpy 5 ≤ 64 ∧ copyWord eCpy 5 ≤ (copyAddr eCpy 1 - copyAddr eCpy 3).toNat ∧
    (EM.read ((eng s0 eCpy).corePort eCpy) eCpy.ssp (copyAddr eCpy 3) (copyWord eCpy 5)).go (eng s0 eCpy) = (.ok bs, s1) ∧
    (EM.places ((eng s0 eCpy).corePort eCpy) eCpy.dsp .engWrite (copyAddr eCpy 1) (copyWord eCpy 5)).go s1 = (.ok ps, s2) ∧
    s2.mgmt.fail = 0 ∧ (∀ x ∈ ps, ∀ l ∈ x.locs, l.k = .m → s2.memWaits l.a = false) ∧
    SMap.find s2.blocks ((eng s0 eCpy).ctx eCpy.uid).id.pcore = none := by
  have h : (match (EM.read ((eng s0 eCpy).corePort eCpy) eCpy.ssp (copyAddr eCpy 3) (copyWord eCpy 5)).go (eng s0 eCpy) with
      | (.ok _, s1) =>
        match (EM.places ((eng s0 eCpy).corePort eCpy) eCpy.dsp .engWrite (copyAddr eCpy 1) (copyWord eCpy 5)).go s1 with
        | (.ok ps, s2) => s2.mgmt.fail == 0 && s2.blocks == [] && ps.all fun x => x.locs.all fun l => !s2.memWaits l.a
        | _ => false
      | _ => false) = true := by decide +kernel
  obtain ⟨bs, s1, ps, s2, h1, h2⟩ := go_ok2
    (p := (EM.read ((eng s0 eCpy).corePort eCpy) eCpy.ssp (copyAddr eCpy 3) (copyWord eCpy 5)).go (eng s0 eCpy))
    (f := fun _ s1 => (EM.places ((eng s0 eCpy).corePort eCpy) eCpy.dsp .engWrite (copyAddr eCpy 1) (copyWord eCpy 5)).go s1)
    (by decide +kernel)
  rw [h1] at h
  dsimp only at h
  rw [h2] at h
  simp only [Bool.and_eq_true, beq_iff_eq] at h
  obtain ⟨⟨hf, hb⟩, hw⟩ := h
  rw [List.all_eq_true] at hw
  refine ⟨bs, ps, s1, s2, by decide, by decide, by decide, h1, h2, hf, fun x hx l hl _ => ?_, by rw [hb]; rfl⟩
  simpa using List.all_eq_true.mp (hw x hx) l hl

/-- XCODE of 32 elements from FP32 (code 0x10) to FP16 (code 0x0E). -/
def eXcode : QEntry := entryOf 2 [4 + 0x0E * 2 ^ 11, 0x2000, 0, 0x4000, 0, 32, 0x10]
theorem meets_xcode : ∃ x s1 s2, Turn (eng s0 eXcode) eXcode ∧ copyOk eXcode = true ∧
    (entrySr eXcode && (eng s0 eXcode).drawsBlocked eXcode.uid [eXcode.lane]) = false ∧ 0 < copyWord eXcode 5 % 2 ^ 24 ∧
    (xcodePair ((eng s0 eXcode).corePort eXcode) eXcode).go (eng s0 eXcode) = (.ok x, s1) ∧
    (ascending (32 / xcodeSize x) (xcodeGroup ((eng s0 eXcode).corePort eXcode) eXcode x.2 x.1 (xcodeSize x))).go s1 = (.ok (), s2) := by
  have h1 : (xcodePair ((eng s0 eXcode).corePort eXcode) eXcode).go (eng s0 eXcode) = (.ok (.f16, .f32), eng s0 eXcode) := by rfl
  obtain ⟨⟨⟩, s2, h2⟩ := go_ok (p := (ascending (32 / xcodeSize (.f16, .f32))
    (xcodeGroup ((eng s0 eXcode).corePort eXcode) eXcode .f32 .f16 (xcodeSize (.f16, .f32)))).go (eng s0 eXcode)) (by decide +kernel)
  exact ⟨_, _, s2, turn (by decide), by decide, by decide, by decide, h1, h2⟩
theorem meets_xcode_none : copyOk (entryOf 2 [4 + 0x0E * 2 ^ 11, 0x2000, 0, 0x4000, 0, 0, 0x10]) = true ∧
    copyWord (entryOf 2 [4 + 0x0E * 2 ^ 11, 0x2000, 0, 0x4000, 0, 0, 0x10]) 5 % 2 ^ 24 = 0 := by decide

/-- COLL of one member: four words of 32 bits from 0x4000 to 0x2000. -/
def eColl : QEntry := entryOf 3 [5 + 3 * 2 ^ 11, 0x2000, 0, 0x4000, 0, 4, 0]
theorem meets_coll : Turn (eng s0 eColl) eColl ∧ eColl.q = 3 ∧ collOk eColl = true ∧ copyWord eColl 5 % 2 ^ 24 ≠ 0 ∧
    (eng s0 eColl).collSet eColl = [eColl] ∧ collN eColl = 1 ∧ collRank eColl = 0 ∧ collRoot eColl = 0 ∧ collCop eColl = 0 :=
  ⟨turn (by decide), rfl, by decide, by decide, by decide, by decide, by decide, by decide, by decide⟩
theorem meets_coll_work : let s := (eng s0 eColl).release ((eng s0 eColl).corePort eColl).ag .core
    ∃ vs s1 s2, (collSource (s.corePort eColl) eColl (elemSize eColl)).go s = (.ok vs, s1) ∧
      s1.corePort eColl = s.corePort eColl ∧ (collWrite (s.corePort eColl) eColl (elemSize eColl) vs).go s1 = (.ok (), s2) := by
  have h : (match (collSource (((eng s0 eColl).release ((eng s0 eColl).corePort eColl).ag .core).corePort eColl) eColl (elemSize eColl)).go
      ((eng s0 eColl).release ((eng s0 eColl).corePort eColl).ag .core) with
      | (.ok _, s1) => s1.corePort eColl == ((eng s0 eColl).release ((eng s0 eColl).corePort eColl).ag .core).corePort eColl
      | _ => false) = true := by decide +kernel
  obtain ⟨vs, s1, ⟨⟩, s2, h1, h2⟩ := go_ok2 (p := (collSource (((eng s0 eColl).release ((eng s0 eColl).corePort eColl).ag .core).corePort eColl) eColl (elemSize eColl)).go
      ((eng s0 eColl).release ((eng s0 eColl).corePort eColl).ag .core))
    (f := fun vs s1 => (collWrite (((eng s0 eColl).release ((eng s0 eColl).corePort eColl).ag .core).corePort eColl) eColl (elemSize eColl) vs).go s1)
    (by decide +kernel)
  rw [h1] at h
  exact ⟨vs, s1, s2, h1, eq_of_beq h, h2⟩
/-- A member of a group of two alone, at the limit of its wait; a reduction code that does not exist. -/
def eCollTwo : QEntry := { entryOf 3 [5 + 3 * 2 ^ 11, 0x2000, 0, 0x4000, 0, 4, 1 * 2 ^ 8] with began := some 1 }
theorem meets_coll_timeout : (eng s0 eCollTwo).heads eCollTwo = true ∧ (eng s0 eCollTwo).collReady eCollTwo = false ∧
    eCollTwo.began = some 1 ∧ 1 + 2 ^ 24 ≤ ({ eng s0 eCollTwo with clock := 2 ^ 24 + 1 } : State).dieClock 0 ∧
    collOk (entryOf 3 [5 + 3 * 2 ^ 11, 0x2000, 0, 0x4000, 0, 4, 3 * 8]) = false ∧
    collOk (entryOf 3 [5 + 3 * 2 ^ 11, 0x2000, 0, 0x4000, 0, 0, 0]) = true := by decide +kernel

/-- CPY moves the bytes and its token receives their number. -/
theorem test_copy : ((stateOf (exec .cpyEntry { eng s0 eCpy with mem := (eng s0 eCpy).mem.setBytes 0x40004000 [1, 2, 3, 4] })).map fun t =>
    (t.tokens.map (·.val), t.cb.map (·.bytes), t.entries.length)) = some ([4], [[1], [2], [3], [4]], 0) := by decide +kernel


/-! ## The matrix engine -/

/-- A workgroup with 4 KiB of CORE and two tiles, and descriptors of operands of two BF16 steps a row. -/
def kdM : KernelDesc := { coresz := 4096, macc := 2 }
def ctxM (id : WaveId) : Ctx := { id, b := 64, adesc := .plain 0 16, bdesc := .plain 1024 16 }
def sM : State := { s0 with groups := [(2, { id := 2, grid := 3, kd := kdM })], ctxs := [(1, ctxM w0.id)], tiles := [(0, 5), (4096, 6)] }

/-- MZERO of tile 0 and of the last tile. -/
def eZero (t : Nat) : QEntry := entryOf 0 [1 + 0x10 * 2 ^ 11 + t * 2 ^ 16]
theorem meets_mzero (t : Nat) (h : t < 2) : Turn (eng sM (eZero t)) (eZero t) ∧ (eng sM (eZero t)).matTurn (eZero t) = true ∧
    (eZero t).data.toNat % 8 = 1 ∧ (eng sM (eZero t)).rawMatrixOk (eZero t) = true ∧
    (eng sM (eZero t)).entryTile (eZero t) = 4096 * t := by
  obtain rfl | rfl : t = 0 ∨ t = 1 := by omega
  all_goals exact ⟨turn (by decide), by decide, by decide, by decide, by decide⟩
theorem test_mzero : (stateOf (exec .mzeroEntry (eng sM (eZero 1)))).map (·.tiles) = some [(0, 5)] := by decide +kernel

def eDesc (op : Nat) (ws : List Nat) : QEntry := entryOf 0 ((op + 0x0F * 2 ^ 11) :: ws)
/-- MLDA with the least pitch, MLDB, MUNF, and MHIST at the two ends of its base; a pitch of zero, zero sizes, a base beyond. -/
theorem meets_descriptors : ∀ x ∈ [(Instr.mldaEntry, 2, [32, 16]), (.mldbEntry, 3, [0, 0xFFFFFFF0]),
      (.munfEntry, 4, [16, 0x00010001, 0x01010001, 0x00010001, 0]), (.mhistEntry, 6, [128, 127]), (.mhistEntry, 6, [0, 0xFFFFFF60])],
    (eng sM (eDesc x.2.1 x.2.2)).heads (eDesc x.2.1 x.2.2) = true ∧ (eng sM (eDesc x.2.1 x.2.2)).matTurn (eDesc x.2.1 x.2.2) = true ∧
    (eDesc x.2.1 x.2.2).data.toNat % 8 = x.2.1 ∧ (SMap.find (eng sM (eDesc x.2.1 x.2.2)).ctxs 1).isSome = true ∧
    (descRow x.1).isSome = true := by decide
theorem meets_descriptors_ok : plainOk (eDesc 2 [32, 16]) ∧ unfoldOk (eDesc 4 [16, 0x00010001, 0x01010001, 0x00010001, 0]) ∧
    histBase (eDesc 6 [128, 127]) = 127 ∧ histBase (eDesc 6 [0, 0xFFFFFF60]) = -160 ∧ ¬plainOk (eDesc 3 [0, 0]) ∧
    ¬unfoldOk (eDesc 4 []) ∧ histBase (eDesc 6 [0, 128]) = 128 := by unfold plainOk unfoldOk; decide
/-- MLDA sets ADESC and leaves BDESC. -/
theorem test_mlda : (stateOf (exec .mldaEntry (eng sM (eDesc 2 [32, 48])))).map (fun t => ((t.ctx 1).adesc, (t.ctx 1).bdesc)) =
    some (.plain 32 48, .plain 1024 16) := by decide +kernel

/-- MMA of two BF16 steps on tile 1. -/
def eMma : QEntry := entryOf 0 [0x0F * 2 ^ 11 + 1 * 2 ^ 16, 2]
theorem meets_mma : Turn (eng sM eMma) eMma ∧ (eng sM eMma).matTurn eMma = true ∧ eMma.data.toNat % 8 = 0 :=
  ⟨turn (by decide), by decide, by decide⟩
/-- What a result meets: its entry is there, and the wave with room, or none. -/
def posts (e : QEntry) (full : Bool) : Except EFault Answer × State → Bool
  | (.ok (some _), s) => match s.waveOf e.uid with
    | some (k, w) => s.entries.find? (fun x => x.id == e.id) == some e && k == 0 && s.room w (answerQueue e.q) == !full
    | none => false
  | _ => false
theorem posts_of {e : QEntry} {full : Bool} {p : Except EFault Answer × State} (h : posts e full p = true) :
    ∃ d s' w, p = (.ok (some d), s') ∧ s'.entries.find? (fun x => x.id == e.id) = some e ∧ s'.waveOf e.uid = some (0, w) ∧
      s'.room w (answerQueue e.q) = !full := by
  obtain ⟨x, s'⟩ := p
  match x, h with
  | .error _, h => simp [posts] at h
  | .ok none, h => simp [posts] at h
  | .ok (some d), h =>
    simp only [posts] at h
    split at h
    · rename_i k w hw
      simp only [Bool.and_eq_true, beq_iff_eq] at h
      obtain ⟨⟨h1, rfl⟩, h2⟩ := h
      exact ⟨d, s', w, rfl, h1, hw, h2⟩
    · cases h
/-- Its work ends well, and the wave has room for the result. -/
theorem meets_mma_posted : ∃ d s' w, (mmaWork (eng sM eMma) eMma).go (eng sM eMma) = (.ok (some d), s') ∧
    s'.entries.find? (fun x => x.id == eMma.id) = some eMma ∧ s'.waveOf eMma.uid = some (0, w) ∧
    s'.room w (answerQueue eMma.q) = true := posts_of (full := false) (by decide +kernel)
/-- The answering queue is full: its one slot holds a status already. -/
def wFull : Wave := { w0 with qpol := [(1, (1, 0))] }
def sBusy : State := { sM with waves := [(0, wFull)] }
def oneStatus (s : State) (e : QEntry) : State := { s with entries := s.entries ++ [{ e with id := 55, q := 1 }] }
theorem meets_mma_waits : ∃ d s' w, (mmaWork (oneStatus (eng sBusy eMma) eMma) eMma).go (oneStatus (eng sBusy eMma) eMma) = (.ok (some d), s') ∧
    s'.entries.find? (fun x => x.id == eMma.id) = some eMma ∧ s'.waveOf eMma.uid = some (0, w) ∧
    s'.room w (answerQueue eMma.q) = false := posts_of (full := true) (by decide +kernel)
/-- A wave that has exited; an operand descriptor that is not valid. -/
theorem meets_mma_gone : (eng { sM with waves := [] } eMma).waveOf 1 = none ∧
    (eng { sM with waves := [] } eMma).heads eMma = true := by decide
theorem meets_mma_fails : ∃ f s', (mmaWork (eng { sM with ctxs := [(1, { id := w0.id, b := 64 })] } eMma) eMma).go
    (eng { sM with ctxs := [(1, { id := w0.id, b := 64 })] } eMma) = (.error f, s') := go_error (by decide +kernel)
theorem meets_mma_seven : (eng sM (entryOf 0 [7])).heads (entryOf 0 [7]) = true ∧ (eng sM (entryOf 0 [7])).matTurn (entryOf 0 [7]) = true ∧
    (entryOf 0 [7]).data.toNat % 8 = 7 := by decide

/-- MDRN of tile 0 as FP32 to 0x2000, with the least pitch, and with a pitch that is too short. -/
def eDrain (pitch : Nat) : QEntry := entryOf 0 [5 + 0x10 * 2 ^ 11, 0x2000, 0, pitch]
theorem meets_mdrn (n : Nat) (h : n = 256 ∨ n = 240) : Turn (eng sM (eDrain n)) (eDrain n) ∧ (eng sM (eDrain n)).matTurn (eDrain n) = true ∧
    (eDrain n).data.toNat % 8 = 5 ∧ (eng sM (eDrain n)).rawMatrixOk (eDrain n) = true ∧
    (entrySr (eDrain n) && (eng sM (eDrain n)).drawsBlocked (eDrain n).uid [(eDrain n).lane]) = false ∧
    (eDrain n).data.getLsbD 21 = false ∧ ¬((eDrain 240).data.toNat / 2 ^ 96 % 2 ^ 32 = 256) ∧ (eDrain n).data.toNat / 2 ^ 18 % 8 = 0 ∧ copyWord (eDrain n) 3 = n := by
  obtain rfl | rfl := h
  all_goals exact ⟨turn (by decide), by decide, by decide, by decide, by decide, by decide, by decide, by decide, by decide⟩
/-- With HIST set: the wave has a descriptor, the last that its base and shift admit, or none. -/
def eHist : QEntry := entryOf 0 [5 + 0x10 * 2 ^ 11 + 2 ^ 21, 0x2000, 0, 256]
theorem meets_hist : eHist.data.getLsbD 21 = true ∧ ((eng sM eHist).ctx eHist.uid).hdesc = none ∧ matType eHist = .f32 ∧
    (({ sM with ctxs := [(1, { ctxM w0.id with hdesc := some (128, 127) })] } : State).ctx eHist.uid).hdesc = some (128, 127) ∧
    eHist.data.toNat / 2 ^ 18 % 8 = 0 ∧ copyWord eHist 3 = 256 ∧ (eng sM eHist).rawMatrixOk eHist = true ∧
    (eng sM eHist).matTurn eHist = true := by decide
theorem meets_statusWord : (255 : Nat) < 256 ∧ (3 : Nat) < 4 ∧ (1 : Nat) < 2 := by decide
/-- The status of a fault at FST 63, of every field at its end. -/
theorem test_statusWord : ((statusWord (entryOf 0 [0x30000]) 255 63 3 1 3).toNat % 2 ^ 32) = 0xFF00FFF8 := by decide

/-- A workgroup on a quad, of which the waves on cores 0 and 1 have pushed a pair's MMA. -/
def kdQ : KernelDesc := { kdM with quadwg := true, nwaves := 4 }
def w9 : Wave := { w0 with id := { uid := 9, grid := 3, group := 2, core := 1, wave := 1 } }
def ePair (k : Nat) : QEntry := entryOf 0 [0x0F * 2 ^ 11 + 1 * 2 ^ 18, k]
def fPair (k : Nat) : QEntry := { ePair k with id := 51, uid := 9 }
def sQ (k : Nat) : State :=
  { sM with
    waves := [(0, w0), (96, w9)], groups := [(2, { id := 2, grid := 3, kd := kdQ })]
    ctxs := [(1, ctxM w0.id), (9, ctxM w9.id)], entries := [ePair k, fPair k] }
theorem meets_form : ∃ g kind es, (sQ 2).formable = [(g, kind, es)] ∧ es = [ePair 2, fPair 2] := by
  refine ⟨{ id := 2, grid := 3, kd := kdQ }, 1, [ePair 2, fPair 2], by decide +kernel, rfl⟩
def joinQ : JoinInst := { id := 70, group := 2, kind := 1, members := [50, 51], issuer := 0 }
def sQJ (k : Nat) : State := { sQ k with joins := [joinQ], subject := .ids 70 0 0, clock := 1 }
theorem meets_pair_instance (k : Nat) (h : k = 2 ∨ k = 0) : PairInstance (sQJ k) joinQ (ePair k) (fPair k) := by
  obtain rfl | rfl := h
  all_goals exact ⟨⟨0, 0, rfl⟩, rfl, by decide, ⟨rfl, by decide⟩, rfl, by decide, by decide, by decide, .inl (by decide)⟩
theorem meets_pair_limits : issuerFields (sQJ 0) (ePair 0) = false ∧ issuerFields (sQJ 2) (ePair 2) = true ∧
    (matType (ePair 2)).isBlock = false := by decide
/-- The issuer's type is a block format, and its A comes from an unfolding. -/
def eBlock : QEntry := entryOf 0 [0x14 * 2 ^ 11 + 1 * 2 ^ 18, 32]
theorem meets_pair_format : let s : State := { sQJ 2 with ctxs := [(1, { ctxM w0.id with adesc := .virtual 0 0 0 0 0 }), (9, ctxM w9.id)] }
    issuerFields s eBlock = true ∧ (matType eBlock).isBlock = true ∧ virtualA s eBlock = true := by decide
/-- The MMA of a pair in a workgroup that is no quad workgroup. -/
theorem meets_span : Turn (eng sM (ePair 2)) (ePair 2) ∧ matSpan (ePair 2) ≠ 0 ∧ (eng sM (ePair 2)).rawMatrixOk (ePair 2) = true ∧
    ((eng sM (ePair 2)).group ((eng sM (ePair 2)).ctx (ePair 2).uid).id.group).kd.quadwg = false :=
  ⟨turn (by decide), by decide, by decide, by decide⟩
/-- The pair of cores 188 and 189 on the last die. -/
def gLast : Group := { id := 2, grid := 3, die := 7, core := 1532, kd := kdQ }
def sLast : State :=
  { sQ 2 with
    groups := [(2, gLast)]
    ctxs := [(1, ctxM { w0.id with die := 7, core := 188 }), (9, ctxM { w9.id with die := 7, core := 189 })] }
theorem meets_full : gLast.kd.quadwg = true ∧ ∀ n, (1 = 0 ∧ n < 4 ∨ 1 ≠ 0 ∧ 2 * (1 - 1) ≤ n ∧ n < 2 * 1) →
    ∃ e ∈ sLast.entries, sLast.joint e = true ∧ e.inst = none ∧ sLast.heads e = true ∧ (sLast.ctx e.uid).id.group = gLast.id ∧
      sLast.joinKind e = 1 ∧ (sLast.ctx e.uid).id.pcore = gLast.core / 4 * 4 + n := by
  refine ⟨rfl, fun n h => ?_⟩
  obtain rfl | rfl : n = 0 ∨ n = 1 := by omega
  · exact ⟨ePair 2, by simp [sLast, sQ], by decide, by decide, by decide, by decide, by decide, by decide⟩
  · exact ⟨fPair 2, by simp [sLast, sQ], by decide, by decide, by decide, by decide, by decide, by decide⟩
/-- Both members' shares are read, and both tiles take their sums. -/
def twoShares : State × Except (Nat × EFault) (List (List MatRow × List MatRow)) → Bool
  | (_, .ok [_, _]) => true
  | _ => false
theorem meets_pair_shares : let sizes := shareSizes (matSpan (ePair 2))
    ∃ s1 s2 s3 x y fe ff, joinShares (matType (ePair 2)) (copyWord (ePair 2) 1) sizes.1 sizes.2 [ePair 2, fPair 2]
        { sQJ 2 with joins := [] } = (s1, .ok [x, y]) ∧
      (finishTile (ePair 2) (matType (ePair 2)) (copyWord (ePair 2) 1) (matZero (ePair 2)) (tileInputs (matSpan (ePair 2)) 0 [x, y]).1
        (tileInputs (matSpan (ePair 2)) 0 [x, y]).2).go s1 = (.ok fe, s2) ∧
      (finishTile (fPair 2) (matType (ePair 2)) (copyWord (ePair 2) 1) (matZero (ePair 2)) (tileInputs (matSpan (ePair 2)) 1 [x, y]).1
        (tileInputs (matSpan (ePair 2)) 1 [x, y]).2).go (s2.postResult (ePair 2) (statusWord (ePair 2) 0 fe (matSpan (ePair 2)) 1 0))
        = (.ok ff, s3) := by
  have h : twoShares (joinShares (matType (ePair 2)) (copyWord (ePair 2) 1) (shareSizes (matSpan (ePair 2))).1
      (shareSizes (matSpan (ePair 2))).2 [ePair 2, fPair 2] { sQJ 2 with joins := [] }) = true := by decide +kernel
  revert h
  intro h sizes
  show ∃ s1 s2 s3 x y fe ff, joinShares (matType (ePair 2)) (copyWord (ePair 2) 1) (shareSizes (matSpan (ePair 2))).1
      (shareSizes (matSpan (ePair 2))).2 [ePair 2, fPair 2] { sQJ 2 with joins := [] } = (s1, .ok [x, y]) ∧ _
  generalize joinShares _ _ _ _ _ _ = p at h ⊢
  obtain ⟨s1, e⟩ := p
  match e, h with
  | .error _, h => cases h
  | .ok [], h => cases h
  | .ok [_], h => cases h
  | .ok (_ :: _ :: _ :: _), h => cases h
  | .ok [x, y], _ => exact ⟨s1, _, _, x, y, _, _, rfl, rfl, rfl⟩
/-- A candidate alone at the end of its wait; a status that has waited. -/
def eAlone : QEntry := { ePair 2 with began := some 5 }
theorem meets_join_timeout : let s : State := { eng (sQ 2) eAlone with clock := 5 + 2 ^ 24 }
    s.standsFirst eAlone = true ∧ s.joint eAlone = true ∧ eAlone.inst = none ∧ eAlone.began = some 5 ∧ 5 + 2 ^ 24 ≤ s.clock := by
  decide
def eWaits (q : Nat) : QEntry := { entryOf q [0] with post := some 7 }
/-- A result of each engine that posts one has waited for room. -/
theorem meets_waiting_post (q : Nat) (h : q = 0 ∨ q = 4 ∨ q = 6 ∨ q = 12) : WaitingPost (eng s0 (eWaits q)) (eWaits q) q 7 0 w0 := by
  obtain rfl | rfl | rfl | rfl := h
  all_goals exact ⟨turn (by decide), rfl, rfl, rfl, by decide⟩

/-! ## The choice engine -/

def cdC : ChoiceDesc := { srca := 0x4000, reca := 0x8000, rqa := 0x2000, rqn := 1, nslot := 2, recording := true }
def th0 : Thread := { id := 5, t := 0, slot := some 0, m := [⟨3, 1, 0⟩] }
/-- Slot 0 of SRCA is not valid, slot 1 begins with `head`. -/
def sC' (head : Nat) : State :=
  { s0 with
    ctxs := [(1, { id := w0.id, b := 64, cd := cdC, threads := [(0, th0), (3, { th0 with slot := some 1 })] })]
    mem := s0.mem.setBytes (0x40004000 + 8256) (leBytes 64 head ++ leBytes 8 (9 + 2 ^ 32 * 4)) }
def eBuild (lane slot tries : Nat) : QEntry :=
  { entryOf 4 [] with imp := some (.build lane), threads := [(lane, { th0 with slot := some slot })], build := some { tries } }
def isSource (p : Except EFault Source × State) (x : Source) (lane : Nat) : Bool :=
  match p with
  | (.ok y, s) => x == y && (match SMap.find s.ctxs 1 with
    | some c => (c.thread lane).id == 5
    | none => false)
  | _ => false
theorem source_of {p : Except EFault Source × State} {x : Source} {lane : Nat} (h : isSource p x lane = true) :
    ∃ s1 c, p = (.ok x, s1) ∧ SMap.find s1.ctxs 1 = some c ∧ (c.thread lane).id = 5 := by
  obtain ⟨y, s⟩ := p
  match y, h with
  | .error _, h => cases h
  | .ok y, h =>
    simp only [isSource, Bool.and_eq_true, beq_iff_eq] at h
    obtain ⟨rfl, h⟩ := h
    split at h
    · exact ⟨s, _, rfl, by assumption, by simpa using h⟩
    · cases h
/-- The slots 0 and 1 of lanes 0 and 3: invalid, of one draw, and changing: with no retry yet, with one left, with none. -/
theorem meets_build : ∀ x ∈ [(0, 0, 0, 0, Source.invalid), (2 ^ 16 + 1, 3, 1, 0, .entries [drawOfBytes (leBytes 8 (9 + 2 ^ 32 * 4))]),
      (2 ^ 16 + 2 ^ 32, 3, 1, 0, .changing), (2 ^ 16 + 2 ^ 32, 3, 1, 65535, .changing), (2 ^ 16 + 2 ^ 32, 3, 1, 65536, .changing)],
    ∃ s1 c, BuildHeads (eng (sC' x.1) (eBuild x.2.1 x.2.2.1 x.2.2.2.1)) s1 (eBuild x.2.1 x.2.2.1 x.2.2.2.1) c x.2.1 x.2.2.1
      x.2.2.2.1 { th0 with slot := some x.2.2.1 } x.2.2.2.2 := by
  intro x hx
  have h : (eng (sC' x.1) (eBuild x.2.1 x.2.2.1 x.2.2.2.1)).heads (eBuild x.2.1 x.2.2.1 x.2.2.2.1) = true ∧ x.2.2.1 < 2 ∧
      isSource ((readSource (lanePort (eng (sC' x.1) (eBuild x.2.1 x.2.2.1 x.2.2.2.1)) (eBuild x.2.1 x.2.2.1 x.2.2.2.1) x.2.1)
        ((eng (sC' x.1) (eBuild x.2.1 x.2.2.1 x.2.2.2.1)).ctx 1).cd x.2.2.1).go
          (eng (sC' x.1) (eBuild x.2.1 x.2.2.1 x.2.2.2.1))) x.2.2.2.2 x.2.1 = true := by
    revert x
    decide +kernel
  obtain ⟨s1, c, h1, h2, h3⟩ := source_of h.2.2
  exact ⟨s1, c, ⟨turn h.1, ⟨_, rfl⟩, ⟨_, rfl⟩⟩, ⟨rfl, rfl⟩, rfl, rfl, h.2.1, h1, h2, h3⟩
theorem meets_build_badslot : (eng (sC' 0) (eBuild 0 2 0)).heads (eBuild 0 2 0) = true ∧ (eBuild 0 2 0).imp = some (.build 0) ∧
    ((eng (sC' 0) (eBuild 0 2 0)).ctx 1).cd.listMap = false ∧ ((eng (sC' 0) (eBuild 0 2 0)).ctx 1).cd.nslot ≤ 2 := by decide

/-- Under list mapping: a list of no entry, and one whose entry 0 names slot 2, beyond the last. -/
def sList (head : Nat) : State :=
  { s0 with
    ctxs := [(1, { id := w0.id, b := 64, cd := { cdC with listMap := true, muta := 0x6000 }, threads := [(0, th0)] })]
    mem := s0.mem.setBytes 0x40006000 (leBytes 64 head ++ leBytes 16 (2 + 2 ^ 64 * 0x7000)) }
def eList : QEntry := { entryOf 4 [] with imp := some (.build 0), threads := [(0, { th0 with slot := none })] }
theorem meets_list : ∀ x ∈ [0, 1], ∃ s1 s2 c, ListRead (eng (sList x) eList) s1 s2 eList c 0 { th0 with slot := none } x (2 + 2 ^ 64 * 0x7000) := by
  intro x hx
  have h : (eng (sList x) eList).heads eList = true ∧
      (match (EM.readNat (lanePort (eng (sList x) eList) eList 0) .g 0x6000 4).go (eng (sList x) eList) with
        | (.ok head, s1) => head == x && s1.ctxs == (sList x).ctxs &&
          (match (EM.readNat (lanePort (eng (sList x) eList) eList 0) .g 0x6040 16).go s1 with
            | (.ok v, s2) => v == 2 + 2 ^ 64 * 0x7000 && s2.ctxs == (sList x).ctxs
            | _ => false)
        | _ => false) = true := by
    revert x
    decide +kernel
  obtain ⟨ht, h⟩ := h
  rcases h1 : (EM.readNat (lanePort (eng (sList x) eList) eList 0) .g 0x6000 4).go (eng (sList x) eList) with ⟨_ | n, s1⟩
  · rw [h1] at h; cases h
  · rw [h1] at h
    rcases h2 : (EM.readNat (lanePort (eng (sList x) eList) eList 0) .g 0x6040 16).go s1 with ⟨_ | v, s2⟩
    · dsimp only at h; rw [h2] at h; simp at h
    · dsimp only at h
      rw [h2] at h
      simp only [Bool.and_eq_true, beq_iff_eq] at h
      obtain ⟨⟨rfl, hc⟩, rfl, hd⟩ := h
      exact ⟨s1, s2, _, ⟨turn ht, ⟨_, rfl⟩, ⟨_, rfl⟩⟩, rfl, h1, h2, by rw [hc]; rfl, by rw [hd]; rfl, rfl⟩

def eDraw (slot : Nat) : QEntry := { entryOf 4 [] with imp := some (.draw 0 5 slot 1023 7) }
theorem meets_draw_record : (eng (sC' 0) (eDraw 1)).heads (eDraw 1) = true ∧ (eng (sC' 0) (eDraw 2)).heads (eDraw 2) = true ∧
    ((eng (sC' 0) (eDraw 1)).ctx 1).cd.nslot = 2 := by decide

/-- A command of q4 for lane 0 with its thread, of slot t. -/
def eCh (op t : Nat) (fin : Bool) (a b : Word) : QEntry :=
  { entryOf 4 [op] with threads := [(0, { th0 with slot := some t, finished := fin })], latch := [(0, [a, b])] }
theorem choice_heads (s : State) (op t : Nat) (fin : Bool) (a b : Word) (h : (eng s (eCh op t fin a b)).heads (eCh op t fin a b) = true)
    (ho : (entryOf 4 [op]).data.toNat % 16 = op) : ChoiceHeads (eng s (eCh op t fin a b)) (eCh op t fin a b) op :=
  ⟨turn h, rfl, ⟨rfl, rfl, rfl⟩, ho⟩
theorem meets_chrec : ∀ x ∈ [(1, false), (2, true), (2, false)],
    ChoiceHeads (eng (sC' 0) (eCh 4 x.1 x.2 0 0)) (eCh 4 x.1 x.2 0 0) 4 ∧ ((eng (sC' 0) (eCh 4 x.1 x.2 0 0)).ctx 1).cd.recording = true := by
  intro x hx
  exact ⟨choice_heads _ _ _ _ _ _ (by revert x; decide) (by decide), rfl⟩
/-- RESULT of a thread with a record, of one beyond the slots, of a finished one, and where nothing is recorded. -/
theorem meets_result : ∀ x ∈ [(1, false), (2, false), (0, true)],
    ChoiceHeads (eng (sC' 0) (eCh 5 x.1 x.2 7 9)) (eCh 5 x.1 x.2 7 9) 5 ∧
    OneThread (eCh 5 x.1 x.2 7 9) 0 x.1 { th0 with slot := some x.1, finished := x.2 } 7 9 ∧
    ((eng (sC' 0) (eCh 5 x.1 x.2 7 9)).ctx 1).cd.cmp = 0 := by
  intro x hx
  exact ⟨choice_heads _ _ _ _ _ _ (by revert x; decide) (by decide), ⟨rfl, by decide, rfl, rfl⟩, rfl⟩
theorem meets_result_plain : ChoiceHeads (eng s0 (eCh 5 0 false 7 9)) (eCh 5 0 false 7 9) 5 ∧
    ((eng s0 (eCh 5 0 false 7 9)).ctx 1).cd.recording = false := ⟨choice_heads _ _ _ _ _ _ (by decide) (by decide), rfl⟩
theorem meets_chmut : ChoiceHeads (eng (sC' 0) (eCh 6 1 true 7 9)) (eCh 6 1 true 7 9) 6 ∧
    OneThread (eCh 6 1 true 7 9) 0 1 { th0 with slot := some 1, finished := true } 7 9 ∧
    ((eng (sC' 0) (eCh 6 1 true 7 9)).ctx 1).cd.rqa ≠ 0 ∧ ((eng s0 (eCh 6 1 true 7 9)).ctx 1).cd.rqa = 0 ∧
    (eng s0 (eCh 6 1 true 7 9)).heads (eCh 6 1 true 7 9) = true ∧ (eng s0 (eCh 6 1 false 7 9)).heads (eCh 6 1 false 7 9) = true :=
  ⟨choice_heads _ _ _ _ _ _ (by decide) (by decide), ⟨rfl, by decide, rfl, rfl⟩, by decide, by decide, by decide, by decide⟩
theorem meets_chmut_raw : let e : QEntry := { entryOf 4 [0] with raw := true }
    Turn (eng s0 e) e ∧ e.q = 4 ∧ e.imp = none ∧ e.post = none ∧ e.raw = true := ⟨turn (by decide), rfl, rfl, rfl, rfl⟩
/-- 1.0 and 0.0 are finite and not negative; the least NaN pattern is a NaN. -/
theorem meets_metro : (∃ x, Num.fp32.decode 0x3F800000 = .fin x ∧ x.neg = false) ∧ (∃ x, Num.fp32.decode 0 = .fin x ∧ x.neg = false) ∧
    Num.fp32.decode 0x7F800001 = .nan true := ⟨⟨_, rfl, rfl⟩, ⟨_, rfl, rfl⟩, rfl⟩
/-- 04 R62: a = 1 × 1 / 3 is inexact. -/
theorem test_metro_inexact : (metro 0x3F800000 0x3F800000 0x40400000 0).2.2 = { bits := 0x3EAAAAAB, fl := Num.NX } := by decide +kernel
theorem meets_set_value : ([⟨3, 1, 0⟩, ⟨4, 2, 0⟩] : List Draw)[1]? = some ⟨4, 2, 0⟩ := rfl
/-- RESULT without a recording posts the finished lane in bits 191 to 128. -/
theorem test_result : ((stateOf (exec .resultEntry (eng s0 (eCh 5 0 false 7 9)))).map fun t =>
    t.entries.map fun x => (x.q, x.data.toNat / 2 ^ 128, x.data.toNat % 2 ^ 64 / 2 ^ 32)) = some [(5, 1, 1)] := by decide +kernel

/-! ## The token engine -/

/-- A command on sequence 3, of the type ty, with OPC or X. -/
def eTk (op x ty : Nat) (ws : List Nat) : QEntry := { entryOf 6 ((op + x * 2 ^ 16 + ty * 2 ^ 11) :: 3 :: ws) with draw := some (7, ⟨0, 1, 0, none⟩) }
/-- Four sequences, of which sequence 3 is open on die 0 in the given state, with a record at 0x3000. -/
def sT (state : Nat) : State :=
  { s0 with
    tenants := [(0, { (s0.tenant 0) with seqn := 4, seqb := 0 })]
    seqs := [{ tenant := 0, id := 3, home := 0, hdr := state * 2 ^ 32, watch := List.replicate 16 0, kv := [], recent := [] }] }
/-- The commands of the rows, each at the ends of its fields. -/
def tokenCases : List (Instr × QEntry) :=
  [(.tsampEntry, eTk 0 0 0x10 [0x2000, 0, 8, 0x3F800000, 1, 0x3F800000]), (.tsampEntry, eTk 0 2 0x10 [0x2000, 0, 1, 0x3F800000, 1024, 0x3F800000]),
   (.tdraftEntry, eTk 1 0 0 [0x2000, 0, 64]), (.tconfEntry, eTk 2 0 0 [127]), (.trejEntry, eTk 3 0 0 []),
   (.twatchSetEntry, eTk 4 0 0 [15, 0x2000, 0]), (.twatchClearEntry, eTk 4 1 0 [15]), (.twatchCloseEntry, eTk 4 3 0 []),
   (.twatchThawEntry, eTk 4 4 0 []), (.twatchSyncEntry, eTk 4 5 0 []), (.tinjEntry, eTk 5 0 0 [0x2000, 0, 8]), (.tforkEntry, eTk 6 0 0 [])]
theorem meets_tokens : ∀ x ∈ tokenCases, ∃ r, tokenRow x.1 = some r ∧
    (∀ n < 3, TokenHeads (eng (sT n) x.2) x.2 r.op r.opc) ∧ tokenOk x.2 = true ∧ noCoreIds x.2 ∧
    namedSeq x.2 < ((sT 1).tenant (seqTenant (sT 1) x.2)).seqn ∧ (s0.tenant (seqTenant s0 x.2)).seqn ≤ namedSeq x.2 := by
  intro x hx
  have h : (∀ n < 3, (eng (sT n) x.2).heads x.2 = true) ∧ x.2.q = 6 ∧ x.2.post = none ∧ tokenOk x.2 = true ∧
      (match tokenRow x.1 with
        | some r => decide (x.2.data.toNat % 8 = r.op ∧ (r.opc = none ∨ r.opc = some (x.2.data.toNat / 2 ^ 16 % 8)))
        | none => false) = true ∧
      ((x.2.data.toNat % 8 ≠ 1 ∧ x.2.data.toNat % 8 ≠ 5) ∨ x.2.data.getLsbD 16 = false) ∧ x.2.uid = 1 ∧ namedSeq x.2 = 3 := by
    revert x; decide +kernel
  obtain ⟨h1, h2, h3, h4, h5, h6, h7, h8⟩ := h
  cases hr : tokenRow x.1 with
  | none => simp [hr] at h5
  | some r =>
    simp only [hr, decide_eq_true_eq] at h5
    refine ⟨r, rfl, fun n hn => ⟨turn (h1 n hn), h2, h3, h5.1, fun m hm => ?_⟩, h4, h6, ?_, ?_⟩
    · rcases h5.2 with h | h <;> rw [hm] at h <;> cases h; rfl
    · simp only [seqTenant, h7, h8]; decide
    · simp only [seqTenant, h7, h8]; decide
/-- No sequence is open; sequence 3 is open and runs, and is FROZEN. -/
theorem meets_sequences : s0.openSeq 0 3 = none ∧ (∃ q, (sT 1).openSeq 0 3 = some q ∧ q.hdr / 2 ^ 32 % 4 = 1 ∧ q.home = 0) ∧
    (∃ q, (sT 2).openSeq 0 3 = some q ∧ q.hdr / 2 ^ 32 % 4 = 2 ∧ q.home = 0) := ⟨rfl, ⟨_, rfl, rfl, rfl⟩, ⟨_, rfl, rfl, rfl⟩⟩
/-- Sequence 3's home is another die, and the logits lie in `.cald`. -/
theorem meets_far_home : (∃ q, ({ sT 1 with seqs := [{ tenant := 0, id := 3, home := 7, hdr := 2 ^ 32, watch := [], kv := [], recent := [] }] } :
    State).openSeq 0 3 = some q ∧ q.home ≠ (s0.ctx 1).id.die) ∧
    (eTk 0 2 0x10 [0x2000, 0, 1, 0x3F800000, 1024, 0x3F800000]).data.getLsbD 17 = true := ⟨⟨_, rfl, by decide⟩, by decide⟩
/-- TWATCH.open of sequence 3, which is not open; with the records where nothing is mapped, the work ends in a fault. -/
def sShut : State := { sT 1 with seqs := [] }
def sNoRecord : State := { sShut with tenants := [(0, { (s0.tenant 0) with seqn := 4, seqb := 0x100000000 })] }
theorem meets_open : TokenHeads (eng sShut (eTk 4 2 0 [])) (eTk 4 2 0 []) 4 (some 2) ∧ tokenOk (eTk 4 2 0 []) = true ∧
    sShut.openSeq 0 3 = none ∧ namedSeq (eTk 4 2 0 []) = 3 ∧ (sShut.tenant (seqTenant sShut (eTk 4 2 0 []))).seqn = 4 ∧
    ∃ f s', (openClosed (eng sNoRecord (eTk 4 2 0 [])) (eTk 4 2 0 [])).go (eng sNoRecord (eTk 4 2 0 [])) = (.error f, s') :=
  ⟨⟨turn (by decide), rfl, rfl, by decide, fun n h => by cases h; decide⟩, by decide, by decide, by decide, by decide,
    go_error (by decide +kernel)⟩
theorem meets_token_bad : tokenOk (eTk 1 0 0 [0x2000, 0, 65]) = false ∧ tokenOk (eTk 2 0 0 [128]) = false ∧
    tokenOk (eTk 4 2 0 [16]) = false ∧ tokenOk (eTk 4 2 0 [15]) = true ∧ (eng (sT 1) (eTk 4 2 0 [15])).heads (eTk 4 2 0 [15]) = true ∧
    (eng s0 (eTk 7 0 0 [])).heads (eTk 7 0 0 []) = true ∧ (eng s0 (eTk 4 6 0 [])).heads (eTk 4 6 0 []) = true ∧
    (eng s0 (eTk 4 7 0 [])).heads (eTk 4 7 0 []) = true := by decide
theorem meets_finish : ∃ s', (finishToken (homePort w0.id 1 0) 0 false true { q := (sT 1).seqs.headD ⟨0, 0, 0, 0, [], [], [], [], false⟩ }).go (sT 1)
    = (.ok (), s') := by
  obtain ⟨⟨⟩, s', h⟩ := go_ok (p := (finishToken (homePort w0.id 1 0) 0 false true
    { q := (sT 1).seqs.headD ⟨0, 0, 0, 0, [], [], [], [], false⟩ }).go (sT 1)) (by decide +kernel)
  exact ⟨s', h⟩
theorem meets_status_codes : (∀ c ∈ [3, 12, 10], c ≠ 0) ∧ (10 : Nat) ∈ [3, 12, 10] ∧ (∀ d ∈ [3, 12, 10], d ≠ 12 → d ≤ 10) ∧
    (∀ c ∈ [12], c = 12) := by decide
theorem meets_drafts (q : OpenSeq) (h : q.drafts = List.replicate 64 (1, none)) : 64 < q.drafts.length + [(2, none)].length (α := Nat × Option Chosen) := by
  rw [h]; decide
theorem meets_put : 2 ^ 2048 - 2 < 2 ^ 2048 ∧ (2 ^ 2048 - 2) % 2 ^ 32 < 2 ^ 32 - 1 ∧ 2 ^ 32 - 1 < 2 ^ 32 := by decide +kernel
theorem meets_fire : let x := 2 ^ 546 + 2 ^ 544 + 2 ^ 576 * (2 ^ 32 - 2)
    x < 2 ^ 1024 ∧ x / 2 ^ 576 % 2 ^ 32 < 2 ^ 32 - 1 ∧ x.testBit 546 = true := by decide +kernel
/-- TREJ on a sequence that is not open answers STATUS 8 at endpoint 7. -/
theorem test_trej : ((stateOf (exec .trejEntry (eng { sT 1 with seqs := [] } (eTk 3 0 0 [])))).map fun t =>
    t.entries.map fun x => (x.q, x.data.toNat / 2 ^ 8 % 16)) = some [(7, 8)] := by decide +kernel
/-- Status 12 (SHORT) gives way to any other. -/
theorem test_status : tokenStatus [3, 12, 10] = 10 ∧ tokenStatus [12] = 12 := by decide

/-! ## Rays, samples, paths, the launch port -/

/-- TRAV of the structure at 0x10100 with hit records at 0x2000; TRAVC with its pool and resume PC. -/
def eTrav : QEntry := entryOf 8 [0, 0x10100, 0, 0x2000, 0]
def eTravc : QEntry := entryOf 8 [1, 0x10100, 0, 0x4000, 0, 0x3000, 0]
theorem meets_trav_step : Turn (eng s0 eTrav) eTrav ∧ (copyAddr eTrav 1).toNat % 256 = 0 ∧ (copyAddr eTrav 3).toNat % 32 = 0 ∧
    eTrav.data.toNat / 2 ^ 160 = 0 ∧ eTrav.data.toNat % 8 = 0 ∧
    (eng s0 (entryOf 8 [0, 0x10180, 0, 0x2000, 0])).heads (entryOf 8 [0, 0x10180, 0, 0x2000, 0]) = true :=
  ⟨turn (by decide), by decide, by decide, by decide, by decide, by decide⟩
def ray0 : Ray := { id := 80, job := 50, lane := 3, regs := [] }
def jobT : RayJob := { e := eTrav }
def sR (r : Ray) (j : RayJob) : State := { s0 with rays := [r], jobs := [j], subject := .ids r.id 0 0 }
theorem ray_turn (r : Ray) (h : r.job = 50) (hf : r.token = 0 ∧ r.binned = false) : RayTurn (sR r jobT) jobT r 0 :=
  ⟨⟨0, rfl⟩, rfl, rfl, ⟨rfl, h.symm⟩, rfl, rfl, hf⟩
def hit0 : Hit := { t := 0x3F800000, inst := 1, geom := 2, prim := 0xFFFFFF }
/-- A ray with nothing left; one that has ended at a hit; one with a candidate of kind 1. -/
theorem meets_rays : RayTurn (sR ray0 jobT) jobT ray0 0 ∧ RayTurn (sR { ray0 with ended := some 1, best := some hit0 } jobT) jobT
      { ray0 with ended := some 1, best := some hit0 } 0 ∧
    RayTurn (sR { ray0 with offer := some (.candidate 1 hit0) } jobT) jobT { ray0 with offer := some (.candidate 1 hit0) } 0 :=
  ⟨ray_turn _ rfl ⟨rfl, rfl⟩, ray_turn _ rfl ⟨rfl, rfl⟩, ray_turn _ rfl ⟨rfl, rfl⟩⟩
def rayEnded : Ray := { ray0 with ended := some 1, best := some hit0 }
def keeps (p : Except EFault Unit × State) : Bool :=
  match p with
  | (.ok _, s) => s.rays == [rayEnded] && s.jobs == [jobT]
  | _ => false
theorem keeps_of {p : Except EFault Unit × State} (h : keeps p = true) : ∃ s, p = (.ok (), s) ∧ s.rays = [rayEnded] ∧ s.jobs = [jobT] := by
  obtain ⟨x, s⟩ := p
  match x, h with
  | .error _, h => cases h
  | .ok (), h => simp only [keeps, Bool.and_eq_true, beq_iff_eq] at h; exact ⟨s, rfl, h.1, h.2⟩
theorem meets_hit_record : ∃ s', (EM.write ((sR rayEnded jobT).corePort eTrav) .g (copyAddr eTrav 3 + BitVec.ofNat 64 (32 * rayEnded.lane))
    (leBytes 32 (hitNumber hit0))).go { sR rayEnded jobT with fresh := (sR rayEnded jobT).fresh + 3 } = (.ok (), s') ∧
      s'.rays = [rayEnded] ∧ s'.jobs = [jobT] := keeps_of (by decide +kernel)
theorem meets_ray_done : let s : State := { s0 with jobs := [jobT], subject := .ids 50 0 0 }
    s.subject = .ids jobT.e.id 0 0 ∧ jobT.e.data.toNat % 8 = 0 ∧ jobT.e.post = none ∧ s.waveOf jobT.e.uid = some (0, w0) ∧
    s.room w0 9 = true ∧ s.dieRuns (s.ctx jobT.e.uid).id.die = true := ⟨rfl, by decide, rfl, rfl, by decide, rfl⟩
/-- A TRES for token 0xFFFF with each verdict; for a token that no ray has; and the fourth verdict. -/
def eTres (n : Nat) : QEntry := entryOf 8 [2, n, 0x3F000000]
def rayAsks : Ray := { ray0 with token := 0xFFFF, offer := some (.candidate 2 hit0) }
theorem meets_answer (v : Nat) (h : v < 3) : Answering (eng (sR rayAsks jobT) (eTres (0xFFFF + v * 2 ^ 16))) (eTres (0xFFFF + v * 2 ^ 16))
    jobT rayAsks (.candidate 2 hit0) v := by
  obtain rfl | rfl | rfl : v = 0 ∨ v = 1 ∨ v = 2 := by omega
  all_goals exact ⟨turn (by decide), ⟨rfl, rfl, by decide⟩, ⟨by decide, by decide, by decide⟩, by decide, ⟨rfl, rfl⟩, rfl, rfl, rfl⟩
theorem meets_tres_bad : (eng s0 (eTres 5)).heads (eTres 5) = true ∧ copyWord (eTres 5) 1 < 2 ^ 18 ∧ copyWord (eTres 5) 1 / 2 ^ 16 % 4 ≠ 3 ∧
    (eng s0 (eTres 5)).rays = [] ∧ (eng s0 (eTres 0x30000)).heads (eTres 0x30000) = true ∧ copyWord (eTres 0x30000) 1 / 2 ^ 16 % 4 = 3 :=
  ⟨by decide, by decide, by decide, rfl, by decide, by decide⟩
theorem meets_nan_bound : (Num.fp32.decode 0xFFFFFFFF).isNan = true := by decide

/-- A finished ray of a TRAVC, and a bin of its pool and resume PC with the given records. -/
def bin0 (rs : List BinRecord) : Bin :=
  { die := 0, tenant := 0, pool := 0x4000, base := 0x8000, nslot := 1, fl := 8, pc := 0x3000, records := rs }
def sBin : State := { s0 with rays := [{ ray0 with ended := some 0 }], jobs := [{ e := eTravc }], bins := [bin0 []] }
theorem meets_bin : sBin.endedCont = some ({ e := eTravc }, { ray0 with ended := some 0 }) ∧ (bin0 []).die = (sBin.ctx 1).id.die ∧
    (bin0 []).tenant = (sBin.ctx 1).id.tenant ∧ (bin0 []).pool = copyAddr eTravc 3 ∧ (bin0 []).pc = copyAddr eTravc 5 ∧
    (bin0 []).records.length < 63 := by decide
def rec0 : BinRecord := { ray := 80, job := 50, grid := 3, clock := 1, bytes := leBytes 32 1 }
def sDue : State := { sBin with bins := [bin0 [rec0]], clock := 257 }
def keepsBins (p : Except EFault Unit × State) : Bool :=
  match p with
  | (.ok _, s) => s.bins == [bin0 [rec0]]
  | _ => false
theorem keepsBins_of {p : Except EFault Unit × State} (h : keepsBins p = true) : ∃ s, p = (.ok (), s) ∧ s.bins = [bin0 [rec0]] := by
  obtain ⟨x, s⟩ := p
  match x, h with
  | .error _, h => cases h
  | .ok (), h => exact ⟨s, rfl, by simpa [keepsBins] using h⟩
/-- 2^FL = 256 clocks after the first record, with the pool's one slot free. -/
theorem meets_batch : BatchTurn sDue (bin0 [rec0]) rec0 { e := eTravc } 0 :=
  ⟨by decide, by decide, ⟨rfl, rfl⟩, by decide⟩
/-- The pool lies where nothing is mapped. -/
theorem meets_batch_fault : ∃ f s', (batchWrites (sDue.diePort eTravc) 0x100000000 rec0.bytes).go sDue = (.error f, s') :=
  go_error (by decide +kernel)
theorem meets_batch_writes : ∃ s', (batchWrites (sDue.diePort eTravc) ((bin0 [rec0]).base + BitVec.ofNat 64 (16384 * 0)) rec0.bytes).go sDue
    = (.ok (), s') ∧ s'.bins = [bin0 [rec0]] := keepsBins_of (by decide +kernel)

/-- SMPL of lane 63 with the texture of one texel whose descriptor stands at 0x2000; its page says FP32. -/
def eSmpl : QEntry := { entryOf 10 [0, 0x2000, 0] with latch := [(63, [0x3F000000, 0x3F000000, 0])], mask := 0x8000000000000000 }
def sS : State :=
  { eng s0 eSmpl with mem := (s0.mem.setBytes 0x14000 (leBytes 16 (0x4000007F + 0x10 * 2 ^ 71))).setBytes 0x40002000 (leBytes 64 0x4000) }
def smplGo (s : State) : Bool :=
  match (readTexture (s.corePort eSmpl) (copyAddr eSmpl 1)).go s with
  | (.ok tx, s1) => match (sampleLane (s.corePort eSmpl) tx 0x3F000000 0x3F000000 0).go s1 with
    | (.ok _, s2) => s2.entries == [eSmpl] && decide (50 < s2.nextId) && (match s2.waveOf 1 with
      | some (_, w) => s2.room w 11
      | none => false)
    | _ => false
  | _ => false
theorem meets_sample : ∃ tx s1 cs miss s2 k w, (readTexture (sS.corePort eSmpl) (copyAddr eSmpl 1)).go sS = (.ok tx, s1) ∧
    (sampleLane (sS.corePort eSmpl) tx 0x3F000000 0x3F000000 0).go s1 = (.ok (cs, miss), s2) ∧ s2.entries = [eSmpl] ∧ eSmpl.id < s2.nextId ∧
    s2.waveOf eSmpl.uid = some (k, w) ∧ s2.room w 11 = true ∧ Turn sS eSmpl ∧ (∀ x ∈ sS.entries, x.id = eSmpl.id → x = eSmpl) ∧
    eSmpl.data.toNat / 2 ^ 96 = 0 := by
  have h : smplGo sS = true := by decide +kernel
  have ht : Turn sS eSmpl := ⟨⟨0, 0, rfl⟩, rfl, by decide⟩
  simp only [smplGo] at h
  split at h
  · rename_i tx s1 h1
    split at h
    · rename_i y s2 h2
      simp only [Bool.and_eq_true, beq_iff_eq, decide_eq_true_eq] at h
      split at h
      · exact ⟨tx, s1, y.1, y.2, s2, _, _, h1, h2, h.1.1, h.1.2, by assumption, h.2, ht, by simp [sS, eng], by decide⟩
      · simp at h
    · cases h
  · cases h
theorem meets_smpl_bad : (eng s0 { eSmpl with raw := true }).heads { eSmpl with raw := true } = true ∧
    (eng s0 (entryOf 10 [0, 0x2000, 0, 1])).heads (entryOf 10 [0, 0x2000, 0, 1]) = true ∧
    (entryOf 10 [0, 0x2000, 0, 1]).data.toNat / 2 ^ 96 ≠ 0 := by decide

/-- ASBEG of the last column and row of the plane on a surface of bytes (type N8); a path that is open. -/
def eAsbeg : QEntry := entryOf 12 [0 + 0x0A * 2 ^ 11, 0x2000, 0, 1, 0x0FFF0FFF, 0x00010001]
def path0 (wide : Bool) : Path :=
  { uid := 1, base := 0x2000, pitch := 16, x0 := 0, y0 := 0, w := 4, h := 4, rule := false, op := 0, space := 0, wide
    point := some ((0, 0), (256, 256)) }
def eAs (op : Nat) (ws : List Nat) : QEntry := entryOf 12 (op :: ws)
theorem meets_path : AshlarHeads (eng s0 eAsbeg) eAsbeg 0 ∧ ashlarOk eAsbeg = true ∧ (eng s0 eAsbeg).paths = [] ∧
    (∃ p, (eng { s0 with paths := [path0 true] } eAsbeg).pathOf 1 = some p) ∧ (path0 true).close.cells.length ≤ 262144 :=
  ⟨⟨turn (by decide), ⟨rfl, rfl⟩, by decide⟩, by decide, rfl, ⟨_, rfl⟩, by decide +kernel⟩
theorem meets_segments : ∀ x ∈ [(1, [0, 0x100000]), (1 + 2 ^ 16, [0, 0]), (2, []), (3, [])],
    AshlarHeads (eng s0 (eAs x.1 x.2)) (eAs x.1 x.2) (x.1 % 8) ∧ ashlarOk (eAs x.1 x.2) = true ∧ (eAs x.1 x.2).data.getLsbD 18 = false := by
  intro x hx
  have h : (eng s0 (eAs x.1 x.2)).heads (eAs x.1 x.2) = true ∧ (eAs x.1 x.2).data.toNat % 8 = x.1 % 8 ∧ ashlarOk (eAs x.1 x.2) = true ∧
      (eAs x.1 x.2).data.getLsbD 18 = false := by revert x; decide
  exact ⟨⟨turn h.1, ⟨rfl, rfl⟩, h.2.1⟩, h.2.2⟩
theorem meets_segment_point : (path0 true).uid = 1 ∧ (path0 true).point = some ((0, 0), (256, 256)) ∧
    (eAs (1 + 2 ^ 16) [0, 0]).data.toNat / 2 ^ 16 % 4 = 1 ∧
    ((path0 true).addChain (chainOf [half (256, 256), half (0, 0)])).cells.length ≤ 262144 := by decide +kernel

/-- A vector ASSEG of one line, from one corner of the tile to the other. -/
def eVec : QEntry := { entryOf 12 [1 + 2 ^ 16 + 2 ^ 18] with latch := [(0, [0, 0, 0x100000, 0x100000, 0, 0, 0, 0])] }
theorem meets_vector_segment : AshlarHeads (eng s0 eVec) eVec 1 ∧ ashlarOk eVec = true ∧ eVec.data.getLsbD 18 = true :=
  ⟨⟨turn (by decide), ⟨rfl, rfl⟩, by decide⟩, by decide, by decide⟩
/-- ASDRN of a path of 16 elements: all in one step; one element, after which 15 are left; and a path beyond the cells. -/
def pathD : Path := { path0 true with point := none }
def sPath (n : Nat) : State := { eng s0 (eAs 3 []) with paths := [pathD], subject := .ids 50 n 0 }
def pathBig (n : Nat) : Path := { pathD with h := 0, cells := List.replicate n (0, (0, 0)) }
theorem meets_path_end : (sPath 0).elementLimit = none ∧ (sPath 1).elementLimit = some 1 ∧ pathD.close.cells.length ≤ 262144 := by decide
theorem meets_path_part : ∃ s', (do EM.setPath pathD.close; drainPath ((sPath 1).corePort (eAs 3 [])) pathD.close (some 1) : EM (Option Nat)).go
    (sPath 1) = (.ok (some 0), s') := by
  have h : (match (do EM.setPath pathD.close; drainPath ((sPath 1).corePort (eAs 3 [])) pathD.close (some 1) : EM (Option Nat)).go (sPath 1) with
    | (.ok (some 0), _) => true
    | _ => false) = true := by decide +kernel
  rcases g : (do EM.setPath pathD.close; drainPath ((sPath 1).corePort (eAs 3 [])) pathD.close (some 1) : EM (Option Nat)).go (sPath 1) with
    ⟨_ | _ | n, s'⟩
  · rw [g] at h; cases h
  · rw [g] at h; cases h
  · rw [g] at h
    obtain rfl : n = 0 := by
      cases n with
      | zero => rfl
      | succ => cases h
    exact ⟨s', rfl⟩
theorem meets_path_full (p : Port) (s : State) : 262144 < (pathBig 262145).close.cells.length ∧
    ∃ r, (drainPath p (pathBig 262145).close none).go s = (.ok r, s) := by
  have h : ∀ n, (pathBig n).close.cells.length = n := fun n => List.length_replicate
  have g : ∀ n, ∃ r, (drainPath p (pathBig n).close none).go s = (.ok r, s) := fun n => ⟨_, rfl⟩
  exact ⟨by rw [h]; decide, g _⟩

def eL (ws : List Nat) : QEntry := entryOf 14 ws
/-- LNCH of the last node number; one with a bit above it. ARM of tag 255; of tag 0. SIGH of no payload and of too much. -/
theorem meets_launch_port : (∀ ws ∈ [[0, 0x4040, 0, 0xFFFFFF], [0, 0x4040, 0, 0x1000000], [1, 255, 0x2000, 0, 4096, 0x4000, 0, 0xFFFFFF],
      [1, 0], [2, 0, 0, 0, 255 + 2 ^ 31], [2, 0, 0, 0, 0], [2, 0, 0, 0, 31 * 2 ^ 16], [2, 0, 0, 4097, 0]],
      (eng s0 (eL ws)).heads (eL ws) = true) ∧ (eL [0, 0x4040, 0, 0xFFFFFF]).data.toNat / 2 ^ 120 = 0 ∧
    (eL [0, 0x4040, 0, 0x1000000]).data.toNat / 2 ^ 120 ≠ 0 ∧ (eL [1, 255, 0x2000, 0, 4096, 0x4000, 0, 0xFFFFFF]).data.toNat / 2 ^ 248 = 0 ∧
    copyWord (eL [1, 255, 0x2000, 0, 4096, 0x4000, 0, 0xFFFFFF]) 1 = 255 := by decide
/-- The package's own number 0 and package 31 have a route, by port 5. -/
def sRoute : State := { s0 with mgmt := { s0.mgmt with routes := [(0, (true, 5)), (31, (true, 5))] } }
theorem meets_signal (tag pkg : Nat) (host : Bool) (h : (tag, pkg, host) ∈ [(255, 0, true), (0, 0, false), (0, 31, false)]) :
    Signals (eng sRoute (eL [2, 0, 0, 0, tag + pkg * 2 ^ 16 + host.toNat * 2 ^ 31])) (eL [2, 0, 0, 0, tag + pkg * 2 ^ 16 + host.toNat * 2 ^ 31])
      0 tag pkg host := by
  simp only [List.mem_cons, Prod.mk.injEq, List.not_mem_nil, or_false] at h
  obtain ⟨rfl, rfl, rfl⟩ | ⟨rfl, rfl, rfl⟩ | ⟨rfl, rfl, rfl⟩ := h
  all_goals exact ⟨turn (by decide), ⟨rfl, by decide⟩, ⟨by decide, by decide⟩, ⟨by decide, by decide, by decide⟩, by decide⟩
/-- A payload of four bytes to the package itself; Signals at the payload's limit, and without a route. -/
def eSig : QEntry := eL [2, 0x2000, 0, 4, 7]
theorem meets_signal_payload : Signals (eng sRoute eSig) eSig 4 7 0 false ∧
    Signals (eng s0 (eL [2, 0x2000, 0, 4096, 7])) (eL [2, 0x2000, 0, 4096, 7]) 4096 7 0 false :=
  ⟨⟨turn (by decide), ⟨rfl, by decide⟩, ⟨by decide, by decide⟩, ⟨by decide, by decide, by decide⟩, by decide⟩,
    turn (by decide), ⟨rfl, by decide⟩, ⟨by decide, by decide⟩, ⟨by decide, by decide, by decide⟩, by decide⟩
/-- The state in which SIGH reads its payload. -/
def sSig : State := ({ eng sRoute eSig with fresh := (eng sRoute eSig).fresh + 1 } : State).release ((eng sRoute eSig).corePort eSig).ag .pod
theorem meets_signal_read : ∃ bs s2, (EM.read ((eng sRoute eSig).hubPort eSig) .g (copyAddr eSig 1) 4).go sSig = (.ok bs, s2) ∧
    s2.mgmt = (eng sRoute eSig).mgmt := by
  have h : (match (EM.read ((eng sRoute eSig).hubPort eSig) .g (copyAddr eSig 1) 4).go sSig with
      | (.ok _, s2) => s2.mgmt == (eng sRoute eSig).mgmt
      | _ => false) = true := by decide +kernel
  obtain ⟨bs, s2, g⟩ := go_ok (p := (EM.read ((eng sRoute eSig).hubPort eSig) .g (copyAddr eSig 1) 4).go sSig) (by decide +kernel)
  rw [g] at h
  exact ⟨bs, s2, g, eq_of_beq h⟩
theorem meets_route_out : (eng sRoute eSig).routeTo 31 = some 5 ∧ (eng sRoute eSig).mgmt.self = 0 ∧
    ((eng sRoute eSig).routeTo 0).isSome = true := by decide
theorem meets_route : s0.mgmt.self = 0 ∧ s0.routeTo 31 = none ∧ s0.routeTo 0 = none := ⟨rfl, by decide, by decide⟩
/-- 23 R396: a SIGH to its own package without a route stops q14 with SUB 0x10 + 4 (BADPA). -/
theorem test_sigh_own_route : ((stateOf (exec .sighEntry (eng s0 eSig))).map fun t =>
    t.stops.map fun x => (x.q, x.sub)) = some [(14, 0x14)] := by decide +kernel
/-- A ray that has met nothing leaves with STATUS 0. -/
theorem test_ray_ends : ((stateOf (exec .rayTraversal (sR ray0 jobT))).map fun t => t.rays.map (·.ended)) = some [some 0] := by decide +kernel
/-- LNCH releases its node for the walker. -/
theorem test_lnch : ((stateOf (exec .lnchEntry (eng s0 (eL [0, 0x4040, 0, 5])))).map fun t =>
    (t.releases.map fun r => (r.tenant, r.gbase.toNat, r.node), t.entries.length)) = some ([(0, 0x4040, 5)], 0) := by decide +kernel

/-! ## The walker, Geyser, the dispatchers, pre-emption -/

def rel0 : Release := { tenant := 0, gbase := 0x2000, node := 0 }
/-- A released node of the given bytes. -/
def sNode (raw : Nat) : State := { s0 with releases := [rel0], mem := s0.mem.setBytes 0x40002000 (leBytes 64 raw) }
def nodeRead (s : State) : Except EFault Nat × State := (EM.readNat (tenantPort 0) .g (0x2000 + BitVec.ofNat 64 (64 * 0)) 64).go (s.acquire .hub .pkg)
/-- A computation ends well with a value and a state that pass the check. -/
def gives {α : Type} (c : α → State → Bool) : Except EFault α × State → Bool
  | (.ok a, s) => c a s
  | _ => false
theorem gives_of {α : Type} {c : α → State → Bool} {p : Except EFault α × State} (h : gives c p = true) :
    ∃ a s, p = (.ok a, s) ∧ c a s = true := by
  obtain ⟨x, s⟩ := p
  match x, h with
  | .error _, h => cases h
  | .ok a, h => exact ⟨a, s, rfl, h⟩
theorem next_of {s : State} (h1 : s.mgmt = s0.mgmt) (h2 : s.subject = .none) (h3 : s.releases = [rel0]) : s.nextRelease = some rel0 := by
  have h : s.hubUp = true := by unfold State.hubUp; rw [h1]; decide
  simp [State.nextRelease, h, h2, h3]
theorem served_of {s : State} {raw : Nat} (c : State → Bool) (hn : s.nextRelease = some rel0)
    (h : gives (fun a t => a == raw && c t) (nodeRead s) = true) (hf : (nodeClear raw && nodeInRange raw) = true) :
    ∃ t, Served s t rel0 raw ∧ c t = true := by
  obtain ⟨a, t, h1, h2⟩ := gives_of h
  simp only [Bool.and_eq_true, beq_iff_eq] at h2 hf
  obtain ⟨rfl, h2⟩ := h2
  exact ⟨t, ⟨hn, h1, hf⟩, h2⟩
/-- Nodes of every TYPE: END, LAUNCH, COND, WHILE, JOIN, RELAUNCH, ARM, SIGNAL, at the ends of their fields. -/
def nodes : List Nat :=
  [0, 1 + 0xFFFFFF * 2 ^ 8 + 0x3000 * 2 ^ 64 + 2 ^ 192, 2 + 0x5000 * 2 ^ 64 + 7 * 2 ^ 128, 3 + 5 * 2 ^ 8 + 0x5000 * 2 ^ 64, 4 + 2 ^ 32,
   4 + 0xFFFF * 2 ^ 32, 5 + 0x3000 * 2 ^ 64, 6 + 255 * 2 ^ 32 + 0x6000 * 2 ^ 64 + 4096 * 2 ^ 128 + 0xFFFFFF * 2 ^ 160, 7, 7 + 2 ^ 198,
   7 + 0x6000 * 2 ^ 64 + 9 * 2 ^ 128 + 127 * 2 ^ 192]
theorem meets_node (raw : Nat) (h : raw ∈ nodes) : ∃ t, Served (sNode raw) t rel0 raw := by
  have h2 : gives (fun a _ => a == raw && true) (nodeRead (sNode raw)) = true ∧ (nodeClear raw && nodeInRange raw) = true := by
    revert raw; decide +kernel
  obtain ⟨t, ht, _⟩ := served_of (s := sNode raw) (fun _ => true) (next_of rfl rfl rfl) h2.1 h2.2
  exact ⟨t, ht⟩
theorem meets_node_types : (List.range 8).map nodeStep = [some .nodeEnd, some .nodeLaunch, some .nodeCond, some .nodeWhile, some .nodeJoin,
    some .nodeRelaunch, some .nodeArm, some .nodeSignal] ∧ nodes.map (· % 16) = [0, 1, 2, 3, 4, 4, 5, 6, 7, 7, 7] := by decide
/-- A node at an address that is not mapped; a node whose reserved bits are not zero; a JOIN of no edges. -/
theorem meets_node_errors : (∃ f t, nodeRead { sNode 0 with mem := [] } = (.error f, t)) ∧
    (∃ t, nodeRead (sNode (0 + 2 ^ 5)) = (.ok (2 ^ 5), t)) ∧ (nodeClear (2 ^ 5) && nodeInRange (2 ^ 5)) = false ∧
    (nodeClear 4 && nodeInRange 4) = false := by
  refine ⟨go_error (by decide +kernel), ?_, by decide, by decide⟩
  obtain ⟨a, t, h1, h2⟩ := gives_of (c := fun a _ => a == 2 ^ 5) (p := nodeRead (sNode (0 + 2 ^ 5))) (by decide +kernel)
  simp only [beq_iff_eq] at h2
  exact ⟨t, h2 ▸ h1⟩

/-- The node runs already, with its held starts at the limit and below it. -/
def sHeld (h : List (Nat × Option (List Word))) : State :=
  { sNode (1 + 2 ^ 192) with nodes := [(nodeKey 0 0x2000 0, { running := true, held := h })] }
def counts {α : Type} : List α → Nat → Bool
  | [], 0 => true
  | _ :: l, n + 1 => counts l n
  | _, _ => false
theorem counts_length {α : Type} : ∀ (l : List α) (n : Nat), counts l n = true → l.length = n
  | [], 0, _ => rfl
  | _ :: l, n + 1, h => by rw [List.length_cons, counts_length l n h]
theorem meets_held (n : Nat) (h : n = 65536 ∨ n = 0) : ∃ t, Served (sHeld (List.replicate n (0, none))) t rel0 (1 + 2 ^ 192) ∧
    (SMap.read {} t.nodes (nodeKey 0 0x2000 0)).running = true ∧ (SMap.read {} t.nodes (nodeKey 0 0x2000 0)).held.length = n := by
  obtain ⟨t, ht, hc⟩ := served_of (s := sHeld (List.replicate n (0, none))) (raw := 1 + 2 ^ 192)
    (fun t => (SMap.read {} t.nodes (nodeKey 0 0x2000 0)).running && counts (SMap.read {} t.nodes (nodeKey 0 0x2000 0)).held n) (next_of rfl rfl rfl)
    (by obtain rfl | rfl := h <;> decide +kernel) (by decide)
  simp only [Bool.and_eq_true] at hc
  exact ⟨t, ht, hc.1, counts_length _ _ hc.2⟩
/-- A LAUNCH whose kernel has one wave of 64 vector registers, and one whose descriptor has no wave. -/
def kv0 : Nat := 0x8000 + 7 * 2 ^ 320 + 2 ^ 384 + 255 * 2 ^ 400
def sLaunch (kv : Nat) : State := { sNode (1 + 0x3000 * 2 ^ 64 + 2 ^ 192) with
  mem := (sNode (1 + 0x3000 * 2 ^ 64 + 2 ^ 192)).mem.setBytes 0x40003000 (leBytes 128 kv) }
def launchGives (kv : Nat) (e : Option Nat) : Bool :=
  gives (fun raw s' => gives (fun (x : Sources) s'' =>
    raw == 1 + 0x3000 * 2 ^ 64 + 2 ^ 192 && (SMap.read {} s'.nodes (nodeKey 0 0x2000 0)).running == false &&
    s''.startError 0 raw x { kernelOf x.kv with table := x.table } (choiceOf x.chv)
      (countOf raw x { kernelOf x.kv with table := x.table } (choiceOf x.chv)) == e) ((readSources 0 raw).go (taken s' rel0)))
    (nodeRead (sLaunch kv))
theorem meets_start (kv : Nat) (e : Option Nat) (h : (kv, e) ∈ [(kv0, none), (0, some 2), (2, some 1)]) :
    ∃ s' s'' raw x, Served (sLaunch kv) s' rel0 raw ∧ raw % 16 = 1 ∧ (SMap.read {} s'.nodes (nodeKey 0 0x2000 0)).running = false ∧
    (readSources 0 raw).go (taken s' rel0) = (.ok x, s'') ∧
    s''.startError 0 raw x { kernelOf x.kv with table := x.table } (choiceOf x.chv)
      (countOf raw x { kernelOf x.kv with table := x.table } (choiceOf x.chv)) = e := by
  have hg : launchGives kv e = true := by
    simp only [List.mem_cons, Prod.mk.injEq, List.not_mem_nil, or_false] at h
    obtain ⟨rfl, rfl⟩ | ⟨rfl, rfl⟩ | ⟨rfl, rfl⟩ := h <;> decide +kernel
  obtain ⟨raw, s', h1, h2⟩ := gives_of hg
  obtain ⟨x, s'', h3, h4⟩ := gives_of h2
  simp only [Bool.and_eq_true, beq_iff_eq] at h4
  obtain ⟨⟨rfl, h5⟩, h6⟩ := h4
  exact ⟨s', s'', _, x, ⟨next_of rfl rfl rfl, h1, by decide⟩, by decide, h5, h3, h6⟩
theorem meets_start_errors : badKernel kv0 (kernelOf kv0) = false ∧ badKind (kernelOf kv0) = false ∧ badChoice 0 (choiceOf 0) = false ∧
    badKernel 2 (kernelOf 2) = true ∧ badKind (kernelOf 0) = true ∧ badKernel 0 (kernelOf 0) = false ∧ badChoice (3 * 2 ^ 564) (choiceOf (3 * 2 ^ 564)) = true ∧
    (kernelOf (kv0 + 2 ^ 393)).cor = true := by decide +kernel
/-- The word of a COND and a WHILE is read, and is not mapped. -/
theorem meets_cond (raw : Nat) (h : raw ∈ [2 + 0x5000 * 2 ^ 64 + 7 * 2 ^ 128, 3 + 5 * 2 ^ 8 + 0x5000 * 2 ^ 64]) : ∃ s' v s'', Served (sNode raw) s' rel0 raw ∧
    (EM.readNat (tenantPort 0) .g (BitVec.ofNat 64 (nodeBytes raw 8 8)) 4).go ((taken s' rel0).acquire .hub .sys) = (.ok v, s'') := by
  have hg : gives (fun a s' => gives (fun _ _ => a == raw)
      ((EM.readNat (tenantPort 0) .g (BitVec.ofNat 64 (nodeBytes raw 8 8)) 4).go ((taken s' rel0).acquire .hub .sys))) (nodeRead (sNode raw)) = true ∧
      (nodeClear raw && nodeInRange raw) = true := by revert raw; decide +kernel
  obtain ⟨a, s', h1, h2⟩ := gives_of hg.1
  obtain ⟨v, s'', h3, h4⟩ := gives_of h2
  simp only [beq_iff_eq] at h4
  have h5 := hg.2
  simp only [Bool.and_eq_true] at h5
  exact ⟨s', v, s'', ⟨next_of rfl rfl rfl, h4 ▸ h1, h5⟩, h3⟩
theorem meets_cond_fault : ∃ s' f s'', Served (sNode (2 + 2 ^ 96)) s' rel0 (2 + 2 ^ 96) ∧
    (EM.readNat (tenantPort 0) .g (BitVec.ofNat 64 (nodeBytes (2 + 2 ^ 96) 8 8)) 4).go ((taken s' rel0).acquire .hub .sys) = (.error f, s'') := by
  obtain ⟨s', h1, h2⟩ := served_of (s := sNode (2 + 2 ^ 96)) (raw := 2 + 2 ^ 96) (fun s' => !isOk ((EM.readNat (tenantPort 0) .g
    (BitVec.ofNat 64 (nodeBytes (2 + 2 ^ 96) 8 8)) 4).go ((taken s' rel0).acquire .hub .sys))) rfl (by decide +kernel) (by decide)
  obtain ⟨f, s'', h3⟩ := go_error (by simpa using h2)
  exact ⟨s', f, s'', h1, h3⟩
/-- The first of 65535 edges and the only edge have arrived at a JOIN. -/
theorem meets_join : (∃ s', Served (sNode (4 + 0xFFFF * 2 ^ 32)) s' rel0 (4 + 0xFFFF * 2 ^ 32) ∧
      (SMap.read {} s'.nodes (nodeKey 0 0x2000 0)).cnt + 1 ≠ nodeBytes (4 + 0xFFFF * 2 ^ 32) 4 2) ∧
    ∃ s', Served (sNode (4 + 2 ^ 32)) s' rel0 (4 + 2 ^ 32) ∧
      (SMap.read {} s'.nodes (nodeKey 0 0x2000 0)).cnt + 1 = nodeBytes (4 + 2 ^ 32) 4 2 := by
  obtain ⟨s', h1, h2⟩ := served_of (s := sNode (4 + 0xFFFF * 2 ^ 32)) (raw := 4 + 0xFFFF * 2 ^ 32)
    (fun s' => decide ((SMap.read {} s'.nodes (nodeKey 0 0x2000 0)).cnt = 0)) rfl (by decide +kernel) (by decide)
  obtain ⟨s'', h3, h4⟩ := served_of (s := sNode (4 + 2 ^ 32)) (raw := 4 + 2 ^ 32)
    (fun s' => decide ((SMap.read {} s'.nodes (nodeKey 0 0x2000 0)).cnt = 0)) rfl (by decide +kernel) (by decide)
  simp only [decide_eq_true_eq] at h2 h4
  exact ⟨⟨s', h1, by rw [h2]; decide⟩, s'', h3, by rw [h4]; decide⟩
theorem meets_signal_write : let raw := 7 + 0x6000 * 2 ^ 64 + 9 * 2 ^ 128 + 127 * 2 ^ 192
    ∃ s' s'', Served (sNode raw) s' rel0 raw ∧ (EM.writeNat (tenantPort 0) .g (BitVec.ofNat 64 (nodeBytes raw 8 8)) 8 (nodeBytes raw 16 8)).go
      ((taken s' rel0).release .hub .sys) = (.ok (), s'') := by
  intro raw
  obtain ⟨s', h1, h2⟩ := served_of (s := sNode raw) (raw := raw) (fun s' => isOk ((EM.writeNat (tenantPort 0) .g (BitVec.ofNat 64 (nodeBytes raw 8 8)) 8
    (nodeBytes raw 16 8)).go ((taken s' rel0).release .hub .sys))) (next_of rfl rfl rfl) (by decide +kernel) (by decide)
  obtain ⟨⟨⟩, s'', h3⟩ := go_ok h2
  exact ⟨s', s'', h1, h3⟩

/-- Messages: a launch, one of another length for tag 0, one for tag 255, and one whose header has a reserved bit. -/
def msgOf (h : Nat) (bs : List Byte) : Message := { tenant := 0, source := 1, bytes := leBytes 16 h ++ bs }
theorem meets_message : headerOk (leNat ((msgOf (12 * 2 ^ 16) (leBytes 12 0x4040)).bytes.take 16)) = true ∧
    leNat (((msgOf (12 * 2 ^ 16) (leBytes 12 (0x4040 + 0xFFFFFF * 2 ^ 64))).bytes.drop 16).take 12) / 2 ^ 64 = 0xFFFFFF ∧
    headerOk 0 = true ∧ headerOk 255 = true ∧ headerOk (4096 * 2 ^ 16) = true ∧ headerOk (4097 * 2 ^ 16) = false ∧ headerOk 256 = false ∧
    ({ s0 with messages := [msgOf 255 []], subject := .ids 0 0 0 } : State).messages = [msgOf 255 []] ∧ (s0.tag 0 255).armed = false ∧
    (s0.tag 0 255).pending.length < 4 := by decide +kernel
def armed : Tag := { armed := true, ra := 0x6000, rsize := 4, gbase := 0x2000, target := 0 }
theorem meets_tags : ((s0.setTag 0 255 armed).tag 0 255).armed = true ∧
    4 ≤ ((s0.setTag 0 255 { armed with armed := false, pending := List.replicate 4 [] }).tag 0 255).pending.length := by decide
theorem meets_fire_write : ∃ s', (EM.write (tenantPort 0) .g armed.ra ([1, 2, 3, 4, 5].take armed.rsize)).go
    (s0.setTag 0 255 { pending := armed.pending }) = (.ok (), s') := by
  obtain ⟨⟨⟩, s', h⟩ := go_ok (p := (EM.write (tenantPort 0) .g armed.ra ([1, 2, 3, 4, 5].take armed.rsize)).go
    (s0.setTag 0 255 { pending := armed.pending })) (by decide +kernel)
  exact ⟨s', h⟩

def kd1 : KernelDesc := { entry := 0x8000, vregs := 64, sregs := 4, nwaves := 1, diemask := 0x81 }
def grid7 : Grid := { id := 7, kd := kd1, nwg := 1, args := [5, 6] }
def sPlace (d : Nat) : State := { s0 with grids := [(7, grid7)], turns := [(d, (0, 0))], subject := .ids d 0 0 }
/-- On the first and on the last die; the first free slot of a core. -/
theorem meets_place (d : Nat) (h : d = 0 ∨ d = 7) : ((sPlace d).findPlace 0 kd1 d).isSome = true ∧ (sPlace d).headGrid 0 = some grid7 ∧
    SMap.read (0, 0) (sPlace d).turns d = (0, 0) ∧ 0 < max 1 ((sPlace d).tenant 0).weight ∧ (sPlace d).batches = [] ∧
    ((sPlace d).tenant 0).state = .run ∧ ((sPlace d).tenant 0).en = true := by
  obtain rfl | rfl := h
  all_goals exact ⟨by decide +kernel, by decide, by decide, by decide, rfl, rfl, rfl⟩
theorem meets_placed : ((s0.freeSlots 0).head? = some 1) ∧ (s0.freeSlots 1535).head? = some 0 ∧ kd1.quadwg = false ∧ kd1.gang = false ∧
    kd1.nwaves = 1 ∧ kd1.sregs ≤ 128 := by decide
/-- A workgroup on the last core of the package whose wave has exited. -/
def groupR : Group := { id := 2, grid := 3, core := 1535, die := 7 }
def gridR : Grid := { id := 3, nwg := 2, placed := 1, open_ := [(1535, 1), (2383, 1), (3007, 1), (4000, 1)] }
def sRetire : State := { s0 with waves := [], ctxs := [], groups := [(2, groupR)], grids := [(3, gridR)], subject := .ids 2 0 0 }
theorem meets_retire : SMap.rising 0 sRetire.groups = true ∧ (sRetire.groups.map (·.2)).find? (fun y => y.id == groupR.id) = some groupR ∧
    sRetire.retirable groupR = true ∧ SMap.find sRetire.grids groupR.grid = some gridR ∧ sRetire.grid groupR.grid = gridR := by decide
/-- All is placed and retired: the core's event is next, then the package's. -/
def gridE (done : List Nat) (evw : BitVec 4) : Grid :=
  { id := 3, nwg := 1, placed := 1, retired := [(5, 1), (4000, 1)], done, evw, eva := 0x6000, evval := 9 }
def sEvent (g : Grid) : State := { s0 with grids := [(3, g)], subject := .ids 3 0 0 }
theorem meets_event : (gridE [] 0).nextInstance = some 5 ∧ (gridE [] 1).nextInstance = some 5 ∧ (gridE [5] 0).nextInstance = some 4000 ∧
    (gridE [] 1).evw.getLsbD (eventPlace 5).1 = true ∧
    (SMap.read {} (sEvent (gridE [5] 0)).nodes (nodeKey 0 0 0)).held = [] := by decide
theorem meets_event_write : ∃ s', (EM.write (tenantPort 0) .g ((gridE [] 1).eva + BitVec.ofNat 64 (eventPlace 5).2)
    (leBytes 8 (SMap.read 0 (gridE [] 1).retired 5 * 2 ^ 32 + (gridE [] 1).evval.toNat))).go (sEvent (gridE [] 1)) = (.ok (), s') ∧
    s'.grids = (sEvent (gridE [] 1)).grids := by
  obtain ⟨⟨⟩, s', h1, h2⟩ := gives_of (c := fun _ t => t.grids == (sEvent (gridE [] 1)).grids)
    (p := (EM.write (tenantPort 0) .g ((gridE [] 1).eva + BitVec.ofNat 64 (eventPlace 5).2)
      (leBytes 8 (SMap.read 0 (gridE [] 1).retired 5 * 2 ^ 32 + (gridE [] 1).evval.toNat))).go (sEvent (gridE [] 1))) (by decide +kernel)
  exact ⟨s', h1, by simpa using h2⟩

/-- Tenant 0 in a state of its context, and tenant 63 waiting with a grid, no die being ready. -/
def sCtx (st : RunState) (x : Tenant) : State :=
  { s0 with
    tenants := [(0, { x with state := st }), (63, { state := .run, en := true })]
    waves := [], ctxs := [], groups := [], grids := [(9, { id := 9, tenant := 63, nwg := 1 })], clock := 5, mgmt := {}, subject := .ids 0 0 0 }
theorem meets_contexts : ((sCtx .run {}).tenant 0).state = .run ∧ ((sCtx .stopped {}).tenant 0).state = .stopped ∧
    ((sCtx .run { slice := 5 }).tenant 0).slice ≠ 0 ∧ (sCtx .run { slice := 5 }).waiting 63 = true ∧
    ((sCtx .run { slice := 5 }).tenant 0).runClock + ((sCtx .run { slice := 5 }).tenant 0).slice.toNat ≤ (sCtx .run { slice := 5 }).dieClock 8 ∧ noIdemp (sCtx .run { slice := 5 }) 0 ∧
    (sCtx .drain {}).toDiscard 0 = none ∧ (sCtx .drain {}).resident 0 = false ∧
    ((sCtx .stopped { yieldTo := some [62] }).tenant 0).yieldTo = some [62] ∧ (sCtx .stopped { yieldTo := some [62] }).headGrid 62 = none := by
  unfold noIdemp
  decide +kernel
def sDeadline : State := { s0 with tenants := [(0, { (s0.tenant 0) with state := .drain, deadline := some 0 })], subject := .ids 0 0 0 }
theorem meets_deadline : (sDeadline.tenant 0).state = .drain ∧ (sDeadline.tenant 0).deadline = some 0 ∧ sDeadline.resident 0 = true ∧
    sDeadline.ls = [] ∧ sDeadline.nodes = [] ∧ ∀ g ∈ sDeadline.grids, g.2.evw = 0 ∧ g.2.irq = 0 :=
  ⟨rfl, rfl, by decide, rfl, rfl, by decide⟩
def sDiscard : State := { sDeadline with groups := [(2, { id := 2, grid := 3, kd := { idemp := true }, idemp := true })] }
theorem meets_discard : ∃ g, sDiscard.toDiscard 0 = some g ∧ g.batch = none ∧ ∃ x, SMap.find sDiscard.grids g.grid = some x :=
  ⟨{ id := 2, grid := 3, kd := { idemp := true }, idemp := true }, by decide +kernel, rfl, _, rfl⟩
/-- The context runs, and its one workgroup, which holds IDEMP, is quiet. -/
def gIdemp : Group := { id := 2, grid := 3, kd := { idemp := true }, idemp := true }
def sIdemp : State := { s0 with groups := [(2, gIdemp)], subject := .ids 0 0 0 }
theorem meets_preempt_discards : (sIdemp.tenant 0).state = .run ∧ sIdemp.groups = [(gIdemp.id, gIdemp)] ∧ gIdemp.live = true ∧
    gIdemp.idemp = true ∧ gIdemp.tenant = 0 ∧ quiet sIdemp gIdemp ∧ gIdemp.batch = none ∧
    (∃ x, SMap.find sIdemp.grids gIdemp.grid = some x) ∧ sIdemp.ls = [] := by
  refine ⟨rfl, rfl, rfl, rfl, rfl, ?_, rfl, ⟨_, rfl⟩, rfl⟩
  unfold quiet; decide
/-- A forced reset of a grid that has placed all and whose one workgroup is still open. -/
def gReset : Grid := { id := 3, nwg := 1, placed := 1, open_ := [(4000, 1)], evw := 8, eva := 0x2000, evval := 9 }
theorem meets_reset_grid : gReset.allPlaced = true ∧ gReset.evw.getLsbD 3 = true ∧
    ∃ s', (EM.write (tenantPort gReset.tenant) .g (gReset.eva + BitVec.ofNat 64 15424) (leBytes 8 gReset.evval.toNat)).go
      { s0 with grids := [(3, { gReset with open_ := [], retired := [(4000, 0)], records := 0 })] } = (.ok (), s') ∧
      s'.grids = [(3, { gReset with open_ := [], retired := [(4000, 0)], records := 0 })] := by
  obtain ⟨⟨⟩, s', h1, h2⟩ := gives_of (c := fun _ t => t.grids == [(3, { gReset with open_ := [], retired := [(4000, 0)], records := 0 })])
    (p := (EM.write (tenantPort gReset.tenant) .g (gReset.eva + BitVec.ofNat 64 15424) (leBytes 8 gReset.evval.toNat)).go
      { s0 with grids := [(3, { gReset with open_ := [], retired := [(4000, 0)], records := 0 })] }) (by decide +kernel)
  exact ⟨by decide, by decide, s', h1, eq_of_beq h2⟩
theorem meets_groups_known : groupsKnown (sPlace 0) ∧ s0.hubUp = true := by unfold groupsKnown; decide
/-- JOIN of one edge releases NEXT. -/
theorem test_join : ((stateOf (exec .nodeJoin (sNode (4 + 5 * 2 ^ 8 + 2 ^ 32)))).map fun t => t.releases.map (·.node)) = some [5] := by
  decide +kernel
/-- A drained context with nothing resident stops. -/
theorem test_stops : ((stateOf (exec .contextStopped (sCtx .drain {}))).map fun t => (t.tenant 0).state) = some .stopped := by decide +kernel

/-! ## The host's registers -/

/-- Tenant 0 with the given block, named by the subject; tenant 63 owns the upper half of die 7's CAL. -/
def sHost (x : Tenant) (sub : Subject) : State := { s0 with tenants := [(0, x), (63, { calw := [(7, (256, 256))] })], subject := sub }
theorem meets_invalidation : (sHost {} (.value 0 0 0x50000)).subject = .value 0 0 0x50000 ∧ ((sHost {} .none).tenant 0).invalBusy = false ∧
    ((sHost { invalBusy := true } .none).tenant 0).invalBusy = true ∧
    (sHost {} (regAccess 0 0x010 true 0x60008)).subject = regAccess 0 0x010 true 0x60008 ∧ (0x60008 : Dword).getLsbD 0 = false := by decide
def leaf0 : Leaf := { size := 0x10000, pa := 0, hole := false, r := true, w := true, x := true, d := true, efmt := 0, geom := 0, bsize := 0, uncached := false, pte := 0 }
/-- Entries just before, in, and just behind the page 0x50000, and one of another tenant. -/
def sInval (kind : Nat) : State :=
  { sHost { invalBusy := true, invalRun := (5, kind) } (.ids 0 0 0) with
    tlb := [{ die := 0, asid := 0, va := 0x40000, leaf := leaf0 }, { die := 1, asid := 0, va := 0x50000, leaf := leaf0 },
      { die := 1, asid := 0, va := 0x60000, leaf := leaf0 }, { die := 0, asid := 1, va := 0x50000, leaf := leaf0 }]
    icache := [(5, 1), (1535 * 2 ^ 50 + 7, 2)] }
theorem meets_inval_complete : ∀ k < 3, ((sInval k).tenant 0).invalBusy = true ∧ ((sInval k).tenant 0).invalRun.2 = k := by decide
/-- INVAL of the page leaves the entries of its neighbours and of the other tenant. -/
theorem test_inval : ((stateOf (exec .invalComplete (sInval 0))).map fun t => t.tlb.map fun e => (e.asid, e.va)) =
    some [(0, 0x40000), (0, 0x60000), (1, 0x50000)] := by decide +kernel
/-- The lower half of die 7's CAL and none of the upper; one slice too many; a tenant that is enabled. -/
theorem meets_calw : ((sHost {} .none).tenant 0).quiet ∧ ¬((sHost { en := true } .none).tenant 0).quiet ∧
    (let v : Dword := 256 * 2 ^ 16
     v.toNat % 2 ^ 9 + v.toNat / 2 ^ 16 % 2 ^ 10 ≤ 512 ∧ ∀ u < 64, u ≠ 0 →
      let w := SMap.read (0, 0) ((sHost {} .none).tenant u).calw 7
      v.toNat / 2 ^ 16 % 2 ^ 10 = 0 ∨ w.1 = 0 ∨ w.2 + w.1 ≤ v.toNat % 2 ^ 9 ∨ v.toNat % 2 ^ 9 + v.toNat / 2 ^ 16 % 2 ^ 10 ≤ w.2) ∧
    512 < (1 + 512 * 2 ^ 16 : Dword).toNat % 2 ^ 9 + (1 + 512 * 2 ^ 16 : Dword).toNat / 2 ^ 16 % 2 ^ 10 := by
  unfold Tenant.quiet; decide +kernel
/-- The last slice of the lower half and the first of the upper; no slice, within the upper half. -/
theorem meets_calw_overlap : let w := SMap.read (0, 0) ((sHost {} .none).tenant 63).calw 7
    w = (256, 256) ∧ ¬((255 + 2 * 2 ^ 16 : Dword).toNat / 2 ^ 16 % 2 ^ 10 = 0 ∨ w.1 = 0 ∨ w.2 + w.1 ≤ 255 ∨
      255 + (255 + 2 * 2 ^ 16 : Dword).toNat / 2 ^ 16 % 2 ^ 10 ≤ w.2) ∧ (300 : Dword).toNat / 2 ^ 16 % 2 ^ 10 = 0 := by decide
/-- Tenant 63 has all sequences but one; tenant 0 asks for one, or two. -/
theorem meets_seqn_sum : let s : State := { s0 with tenants := [(0, {}), (63, { seqn := 65535 })] }
    ((List.range 64).map fun u => if u = 0 then 0 else (s.tenant u).seqn).sum + 1 = 65536 ∧ (s.tenant 0).quiet := by
  unfold Tenant.quiet; decide +kernel
theorem meets_seqn : (65536 : Dword).toNat % 2 ^ 17 ≤ 65536 ∧ 65536 < (65537 : Dword).toNat % 2 ^ 17 ∧
    ∀ u < 64, u ≠ 0 → ((sHost {} .none).tenant u).seqn = 0 := by decide +kernel
/-- A receive ring of four entries: empty, full, and with a TAIL that passes HEAD. -/
theorem meets_tail : let r : Ring := { n := 4, head := 0xFFFFFFFF, tail := 0xFFFFFFFB }
    ((sHost { receive := r } .none).tenant 0).receive = r ∧ r.head - r.tail = r.n ∧ (r.head - BitVec.ofNat 32 0xFFFFFFFF).toNat ≤ r.n.toNat ∧
    (r.head - BitVec.ofNat 32 0xFFFFFFFB).toNat ≤ r.n.toNat ∧ r.n.toNat < (r.head - BitVec.ofNat 32 0).toNat := by decide
/-- A ring without entries whose indices differ. -/
theorem meets_ring_empty : ({ n := 0, head := 3, tail := 1 } : Ring).n = 0 := rfl
theorem meets_error_ring : let r : Ring := { n := 2, head := 1, tail := 0, base := 0x40000 }
    (leBytes 32 5).length = 32 ∧ r.head - r.tail ≠ r.n ∧ ({ s0 with mgmt := { s0.mgmt with errRing := r } } : State).mgmt.errRing = r := by decide
theorem meets_msgsend : ((sHost {} .none).tenant 0).sendBusy = false ∧ ((sHost { sendBusy := true } .none).tenant 0).sendBusy = true ∧
    ((sHost { msgHead := 4096 * 2 ^ 16 } .none).tenant 0).msgHead.toNat / 2 ^ 16 % 2 ^ 13 = 4096 := by decide
theorem meets_context_error : ((sHost {} (.error { tenant := 0, cause := 5 })).tenant 0).cerr.cause = 0 ∧
    ((sHost { cerr := { cause := 7 } } .none).tenant 0).cerr.cause ≠ 0 := by decide
/-- The debugger of tenant 0 has selected the wave. -/
def sDbg (w : Wave) : State := { at_ w with tenants := [(0, { (s0.tenant 0) with dbgen := true })], subject := .ids 0 0 0 }
theorem meets_debug : ((sDbg w0).tenant 0).dbgen = true ∧ ((sDbg w0).tenant 0).dcmdBusy = false ∧ (sDbg w0).selected 0 = some (0, w0) ∧
    (sDbg w0).room w0 15 = true ∧ w0.shadow = none ∧
    (sDbg { w0 with qpol := [(15, (1, 0))] }).selected 0 = some (0, { w0 with qpol := [(15, (1, 0))] }) := by decide +kernel
theorem meets_debug_full : let w : Wave := { w0 with qpol := [(15, (1, 0))] }
    ({ sDbg w with entries := [entryOf 15 [0]] } : State).room w 15 = false := by decide
/-- A SEND waits for wave 1, which has room or none; or debugging is disabled. -/
def sSend (w : Wave) (on : Bool) : State :=
  { at_ w with tenants := [(0, { (s0.tenant 0) with dbgen := on, dcmdBusy := true, sendTo := 1 })], entries := [entryOf 16 [0]] }
theorem meets_waiting_send : ((sSend w0 true).tenant 0).dcmdBusy = true ∧ ((sSend w0 false).tenant 0).dbgen = false ∧
    (sSend w0 true).subject = .none ∧ (∀ u < 64, u ≠ 0 → ((sSend w0 true).tenant u).dcmdBusy = false) ∧
    (sSend w0 true).waveOf ((sSend w0 true).tenant 0).sendTo = some (0, w0) ∧ (sSend w0 true).room w0 15 = true ∧
    ({ sSend { w0 with qpol := [(15, (1, 0))] } true with entries := [entryOf 15 [0]] } : State).room
      { w0 with qpol := [(15, (1, 0))] } 15 = false := by decide +kernel
/-- A wave in a debug stop whose frame is in memory. -/
def shD : Shadow := { trap := { cause := 0x21, pc := 0x1000, resume := 0x1000 }, debug := true, clock := 0, splits := [(0, sp0)], depth := [], marks := [], held := [], extra := [] }
def wD : Wave := { w0 with shadow := some shD }
theorem meets_resume : ∃ s' v, Resumable (sDbg wD) s' 0 wD shD v ∧ (sDbg wD).selected 0 = some (0, wD) := by
  have h : (match (sDbg wD).readFrame wD.id with
      | (_, some v) => badResume (BitVec.ofNat 64 (v / 2 ^ 96)) shD.trap.resume == false
      | _ => false) = true := by decide +kernel
  split at h
  · rename_i s' v hv
    exact ⟨s', v, ⟨rfl, rfl, ⟨rfl, rfl⟩, by decide, hv, by simpa using h⟩, by decide +kernel⟩
  · cases h
/-- The wave's die stands in D3. -/
theorem meets_resume_stopped : let s : State := { sDbg wD with mgmt := { s0.mgmt with pstate := [(0, { cur := 3 })] } }
    s.selected 0 = some (0, wD) ∧ s.wave 0 = some wD ∧ wD.shadow = some shD ∧ shD.debug = true ∧ wD.halted = false ∧
    s.dieRuns wD.id.die = false := by decide +kernel
theorem meets_debug_off : ((sHost {} .none).tenant 0).dbgen = false ∧ (∀ p ∈ (sHost {} .none).waves, p.2.id.tenant ≠ 1) ∧
    ((sHost { dbgen := true } .none).tenant 0).dbgen = true ∧ ({ sHost { dbgen := true } .none with waves := [] } : State).waves = [] := by decide
/-- The debug window's first and last comparator, free, its own, and another tenant's. -/
def sWin (y : Comparator) (sub : Subject) : State :=
  { sHost { dbgen := true, dselCore := 1535 } sub with blocks := [(1535, { cmp := [(0, y), (7, y)] })] }
theorem meets_debug_window : ((sWin {} .none).tenant 0).dselCore < 1536 ∧ (SMap.read {} ((sWin {} .none).block 1535).cmp 7).en = false ∧
    (SMap.read {} ((sWin { en := true, tenant := 1 } .none).block 1535).cmp 7).tenant = 1 ∧
    (sWin {} (.value 0 (0x108 + 32 * 7) 1)).subject = .value 0 (0x108 + 32 * 7) 1 ∧ (0x104 : Nat) % 8 ≠ 0 ∧
    (sWin {} (.value 0 (0x110 + 32 * 7) 1)).subject = .value 0 (0x110 + 32 * 7) 1 := by decide
theorem meets_plain_regs : (0x008, 64, true) ∈ plainRegs ∧ (0x1010, 32, false) ∈ plainRegs ∧
    (sHost {} (regAccess 0 0x1010 true 5)).subject = regAccess 0 0x1010 true 5 ∧ (0x1010 : Nat) % 8 = 0 ∧ (0x00C : Nat) % 8 ≠ 0 := by decide
theorem meets_tctl : (0xFF01 : Dword).getLsbD 1 = false ∧ (0xFF01 : Dword).getLsbD 2 = false := by decide
/-- A debugger's HALT asks the selected wave to stop. -/
theorem test_dcmd_halt : ((stateOf (exec .dcmdHalt (sDbg w0))).bind fun t => t.wave 0).map (·.haltReq) = some true := by decide +kernel

/-! ## The package: cases that meet the hypotheses -/

def sPower (p : PState) (d : Nat) : State :=
  { s0 with mgmt := { s0.mgmt with pstate := [(d, p)] }, subject := .ids d 0 0 }
/-- The last die: free, busy towards D3 and towards D4, and in D4 with D0 commanded; a wave is resident on die 0. -/
theorem meets_power : powerCode .pstateD0 = some 0 ∧ powerCode .pstateD4 = some 4 ∧
    (SMap.read ({} : PState) (sPower {} 7).mgmt.pstate 7).busy = false ∧ (∃ w ∈ s0.waves, w.2.id.die = 0) ∧ (∀ w ∈ s0.waves, w.2.id.die ≠ 7) ∧
    (SMap.read ({} : PState) (sPower { busy := true, cmd := 3 } 7).mgmt.pstate 7).cmd < 4 ∧
    (SMap.read ({} : PState) (sPower { busy := true, cmd := 4 } 7).mgmt.pstate 7).cmd = 4 ∧
    (SMap.read ({} : PState) (sPower { busy := true, cur := 4, off := true } 7).mgmt.pstate 7).off = true ∧
    (SMap.read ({} : PState) (sPower { busy := true, cur := 3 } 7).mgmt.pstate 7).off = false ∧
    3 ≤ (SMap.read ({} : PState) (sPower { cur := 3 } 7).mgmt.pstate 7).cur := by decide
/-- CAP is clamped at both ends. -/
theorem test_cap : ((stateOf (exec .pwrcapWrite { s0 with subject := .value 0 0 0xFFFF })).map (·.mgmt.pwrcap)) = some 3600 ∧
    ((stateOf (exec .pwrcapWrite { s0 with subject := .value 0 0 1 })).map (·.mgmt.pwrcap)) = some 1800 := by decide
/-- 88.0 °C is above the alarm's limit and at the critical limit; 76.1 °C is above the limit at reset. -/
theorem meets_thermal : min s0.mgmt.talarm.toInt 880 < (761 : BitVec 16).toInt ∧ (880 : Int) ≤ (880 : BitVec 16).toInt ∧
    (760 : BitVec 16).toInt ≤ min s0.mgmt.talarm.toInt 879 ∧
    ∀ e < 8, e ≠ 7 → (SMap.read (0 : BitVec 16) s0.mgmt.temp e).toInt ≤ min s0.mgmt.talarm.toInt 879 := by decide
/-- A corrected error that is the third within 86,400 s, the third one microsecond too late, and the first. -/
def sErr (h : List Nat) (now : Nat) : State :=
  { s0 with mgmt := { s0.mgmt with history := [(.cache 2 7 5, h)], timer := BitVec.ofNat 64 now }, subject := .loc (.cache 2 7 5) none }
theorem meets_corrected : (sErr [100, 200] (86400000000 + 100)).historyOf (errUnit (.cache 2 7 5)) = [100, 200] ∧
    (sErr [100, 200] (86400000000 + 100)).mgmt.timer.toNat ≤ 100 + 86400 * 1000000 ∧
    ¬(sErr [100, 200] (86400000000 + 101)).mgmt.timer.toNat ≤ 100 + 86400 * 1000000 ∧
    (sErr [] 5).historyOf (errUnit (.cache 2 7 5)) = [] ∧ (sErr [4] 5).historyOf (errUnit (.cache 2 7 5)) = [4] ∧
    errUnit (.mem 0x1FFFF) = .mem 0x10000 := by decide
theorem meets_struck : ({ s0 with struck := [(0, 2)] } : State).struck = [(0, 2)] ∧ ({ s0 with struck := [(0, 2)] } : State).subject = .none ∧
    s0.mgmt.errRing.head - s0.mgmt.errRing.tail = s0.mgmt.errRing.n := ⟨rfl, rfl, by decide⟩
theorem meets_replay : SMap.read 0 ({ s0.mgmt with replays := [(15, 15), (79, 16)] } : Mgmt).replays 15 = 15 ∧
    16 ≤ SMap.read 0 ({ s0.mgmt with replays := [(15, 15), (79, 16)] } : Mgmt).replays 79 ∧
    SMap.read 0 s0.mgmt.replays 79 < 15 := by decide
/-- The register word 5 of core 0 holds poison; a location that is no link and holds no byte of a memory. -/
theorem meets_consumed : errUnit (.regs 0 5) ∈ ({ s0 with badWords := [.regs 0 5] } : State).badWords ∧ errBytes (.regs 0 5) = [] ∧
    ∀ n, ErrLoc.regs 0 5 ≠ .link n := ⟨by decide, rfl, by simp⟩
/-- What an IADD reads, lane 63 of v2, shares 64 bits with lane 62, which holds poison; the IADD has issued. -/
def wBad : Wave := { w0 with bad := [.v 2 0, .k 2, .s 9] }
theorem meets_kept : keptFits (.reg 0 (.v 5 63)) (.regs 0 17) = true ∧ keptFits (.entry 50) (.queues 0 3) = true ∧
    keptFits (.reg 96 (.v 5 63)) (.regs 0 17) = false ∧ s0.wave 0 = some w0 ∧ (RegWord.k 2 : RegWord) ≠ .k 0 := by decide
theorem meets_register_read : (at_ wBad).cur = some c0 ∧ (at_ wBad).wave c0.key = some wBad ∧
    SMap.find wBad.splits c0.split = some sp0 ∧ RegWord.v 2 1 ∈ readWords wBad sp0 (.iadd addV) ∧ wBad.holdsBad (.v 2 1) = true ∧
    ((stateOf (exec (.iadd addV) (at_ wBad))).map fun t => (at_ wBad).hasIssued t c0) = some true := by decide +kernel
/-- TSTAT has popped a poisoned entry of q7. -/
def eBad : QEntry := { entryOf 7 [5] with bad := true }
theorem meets_entry_taken : eBad ∈ ({ s0 with entries := [eBad] } : State).entries ∧ eBad.bad = true ∧
    ((stateOf (exec (.tstat { d := .s 4, a := .q 7 }) { s0 with entries := [eBad] })).map fun t =>
      ({ s0 with entries := [eBad] } : State).hasTaken t (.tstat { d := .s 4, a := .q 7 }) eBad) = some true := by decide +kernel
/-- A step that reads a poisoned word strikes the wave's tenant; one that reads none strikes no one. -/
theorem test_consumed : ((stateOf (takeStep (at_ wBad) (.iadd addV) (at_ wBad))).map (·.struck)) = some [(0, 7)] ∧
    ((stateOf (takeStep (at_ wBad) (.iadd { addV with a := .v 3 }) (at_ wBad))).map (·.struck)) = some [] := by decide +kernel
theorem meets_clean_step : (∀ p ∈ s0.waves, p.2.bad = []) ∧ (∀ e ∈ s0.entries, e.bad = false) ∧ (∀ x ∈ s0.dicts, x.bad = []) ∧
    (∀ q ∈ s0.seqs, q.bad = false) ∧ (stateOf (exec (.iadd addV) s0)).isSome = true := by decide +kernel
/-- A store waits for a stack that fails before it is ready. -/
theorem test_stack_fails : ((stateOf (exec .functionReady
      { State.reset with awaited := [(3, 11), (4, 27)], subject := .ids 27 0 0 })).map fun t =>
      (t.struck, t.awaited, t.mgmt.fail.getLsbD 27)) = some ([(4, 6)], [(3, 11)], true) := by decide +kernel
/-- The sixteenth failed replay of the bridge between dies 7 and 6 fails no port. -/
theorem test_bridge : ((stateOf (exec .linkReplay { s0 with
      mgmt := { s0.mgmt with replays := [(78, 15)] }, subject := .ids 78 0 0 })).map fun t => (t.mgmt.fail, t.mgmt.alarmEcc)) =
    some (s0.mgmt.fail, true) := by decide +kernel
theorem meets_verified : verified s0.mgmt 7 ∧ ¬verified {} 7 := by unfold verified; decide
/-- Bits 0 and 44 wait for nothing, bits 1 and 43 for bit 44; a die that is in D4 or has lost its state, and a function that has failed are not ready. -/
theorem meets_function : MayBeReady {} 0 ∧ MayBeReady {} 44 ∧ MayBeReady s0.mgmt 43 ∧ ¬MayBeReady {} 1 ∧ ¬MayBeReady {} 43 ∧
    ¬MayBeReady { s0.mgmt with pstate := [(7, { cur := 4 })] } 10 ∧
    ¬MayBeReady { s0.mgmt with pstate := [(7, { cur := 2, off := true })] } 10 ∧
    ¬MayBeReady { s0.mgmt with fail := BitVec.ofNat 45 (2 ^ 44) } 1 ∧ (44 : Nat) < 45 :=
  ⟨⟨by decide, by decide, by decide, by decide⟩, ⟨by decide, by decide, by decide, by decide⟩,
    ⟨by decide, by decide, by decide, by decide⟩, fun h => absurd (h.behind (by decide) (by decide)) (by decide),
    fun h => absurd (h.behind (by decide) (by decide)) (by decide), fun h => absurd (h.powered (by decide) (by decide)) (by decide),
    fun h => absurd (h.powered (by decide) (by decide)) (by decide), fun h => absurd (h.first (by decide)) (by decide), by decide⟩
theorem meets_measure : s0.mgmt.attgo = false ∧ ({ s0.mgmt with attgo := true } : Mgmt).attgo = true := by decide
/-- D3 commanded on die 7 makes it busy. -/
theorem test_power : ((stateOf (exec .pstateD3 (sPower {} 7))).map fun t => t.mgmt.pstate) = some [(7, { cmd := 3, busy := true })] := by decide

/-! ## Checks, steps, decoding, the invariant: cases that meet the hypotheses -/

theorem meets_checks : (∃ u, namedRegisters s0 w0 (.iadd { addV with d := .v 64 }) = some u ∧ w0.outOfBounds u = true) ∧
    (∃ u, namedRegisters s0 w0 (.iadd addV) = some u ∧ w0.outOfBounds u = false ∧
      (∃ r ∈ u.vr, (SMap.find ({ w0 with marks := [(3, 60)] } : Wave).marks r).isSome = true)) ∧
    (∃ u, namedRegisters s0 w0 (.iadd { addV with b := .s 63 }) = some u ∧ w0.outOfBounds u = false ∧
      (∀ r ∈ u.vr, SMap.find w0.marks r = none) ∧
      ∃ r ∈ u.sr, (SMap.find ({ w0 with sb := [(63, .op 60)] } : Wave).sb r).isSome = true) := by
  refine ⟨⟨_, rfl, by decide⟩, ⟨_, rfl, by decide, 3, ?_⟩, ⟨_, rfl, by decide, ?_, 63, ?_⟩⟩ <;> decide
theorem meets_checks_form : (Instr.iadd { addV with d := .v 64 }).wf = true ∧ (Instr.iadd { addV with b := .s 63 }).wf = true := by decide
theorem meets_checks_mzero : ∃ r u, commandRow w0 (.mzero { d := .q 0 }) = some r ∧ namedRegisters s0 w0 (.mzero { d := .q 0 }) = some u ∧
    r.tile = true ∧ r.ext.x.toNat % 4 < kdM.macc := ⟨_, _, rfl, rfl, rfl, by decide⟩

/-- The split is chosen, and the three words of IADD v1, v2, v3 stand at its PC; or it runs a code; or its PC is not mapped. -/
def sStep (sp : Split) (n : Nat) : State :=
  { at_ { w0 with splits := [(0, sp)] } with
    cur := none, picks := [{ key := 0, split := 0 }], mem := s0.mem.setBytes 0x40001000 (leBytes 12 n) }
def wordsOf (ws : List Word) : Nat := leNat (ws.flatMap fun w => leBytes 4 w.toNat)
theorem meets_step : ∃ t ws, ({ sStep sp0 (wordsOf (encode (.iadd addV))) with picks := [] } : State).fetchInstr w0.id sp0.pc = (t, .ok ws) ∧
    t.matched w0 sp0 sp0.pc = false ∧ ws.length = 3 := by
  have h : (match ({ sStep sp0 (wordsOf (encode (.iadd addV))) with picks := [] } : State).fetchInstr w0.id sp0.pc with
      | (t, .ok ws) => !t.matched w0 sp0 sp0.pc && ws.length == 3
      | _ => false) = true := by decide +kernel
  split at h
  · rename_i t ws hw
    simp only [Bool.and_eq_true, Bool.not_eq_true', beq_iff_eq] at h
    exact ⟨t, ws, hw, h.1, h.2⟩
  · cases h
theorem meets_step_state : (sStep sp0 0).agenda = [] ∧ (sStep sp0 0).picks = [{ key := 0, split := 0 }] ∧
    (∃ w, (sStep sp0 0).wave 0 = some w ∧ SMap.find w.splits 0 = some sp0) ∧ sp0.latch = none ∧ sp0.codes = 0 ∧
    ({ sStep sp0 0 with picks := [] } : State).mayIssue w0 = true ∧
    ({ sStep sp0 0 with picks := [] } : State).mayIssue { w0 with trap := some tr } = false := ⟨rfl, rfl, ⟨_, rfl, rfl⟩, rfl, rfl, by decide, by decide⟩
def spFar : Split := { sp0 with pc := 0x4000000000 }
theorem meets_step_fault : ∃ t c va, ({ sStep spFar 0 with picks := [] } : State).fetchInstr w0.id spFar.pc = (t, .error (c, va)) := by
  have h : (match ({ sStep spFar 0 with picks := [] } : State).fetchInstr w0.id spFar.pc with
      | (_, .error _) => true
      | _ => false) = true := by decide +kernel
  split at h
  · exact ⟨_, _, _, by assumption⟩
  · cases h
/-- A comparator at the PC hits. -/
def sHitPc : State :=
  { sStep sp0 0 with
    tenants := [(0, { (s0.tenant 0) with dbgen := true })]
    blocks := [(0, { cmp := [(7, { pc := 0x1000, en := true })] })] }
theorem meets_step_match : sHitPc.matched w0 sp0 sp0.pc = true := by decide
/-- A split with the last of its codes, whose word is read; one that has latched the code's words. -/
def spCode : Split := { sp0 with pc := 0x1004, codePc := 0x1002, codes := 1 }
theorem meets_step_code : ∃ t x, ({ sStep spCode (5 * 65536) with picks := [] } : State).fetchWord w0.id (spCode.codePc &&& ~~~3) = (t, .ok x) ∧
    t.matched w0 spCode spCode.codePc = false ∧ spCode.codePc.getLsbD 1 = true ∧ decodeCode (x.extractLsb' 16 16) = some { patch := 0, index := 5 } := by
  have h : (match ({ sStep spCode (5 * 65536) with picks := [] } : State).fetchWord w0.id (spCode.codePc &&& ~~~3) with
      | (t, .ok x) => !t.matched w0 spCode spCode.codePc && decodeCode (x.extractLsb' 16 16) == some { patch := 0, index := 5 }
      | _ => false) = true := by decide +kernel
  split at h
  · rename_i t x hx
    simp only [Bool.and_eq_true, Bool.not_eq_true', beq_iff_eq] at h
    exact ⟨t, x, hx, h.1, by decide, h.2⟩
  · cases h
theorem meets_step_latch : let i : Instr := .iadd addV
    decodeWords (encode i) = .instr i ∧ (∀ h, i ≠ .clause h) ∧ (∀ e, i ≠ .tret e) ∧
    ∀ m n e, extOf i = some (m, n, e) → m ≠ 0x18 ∧ m ≠ 0x19 := by
  refine ⟨by decide, by simp, by simp, fun m n e h => ?_⟩
  simp [extOf] at h
  obtain ⟨rfl, -⟩ := h
  decide
theorem meets_agenda : (Instr.invalComplete).isStep = true ∧
    ({ s0 with agenda := [(.invalComplete, .ids 0 0 0)] } : State).agenda = [(.invalComplete, .ids 0 0 0)] := ⟨rfl, rfl⟩
theorem meets_decode_encode : (Instr.iadd addV).wf = true ∧ (Instr.iadd addV).isStep = false ∧ (∀ d, Instr.iadd addV ≠ .dref d) ∧
    (Instr.dref { patch := 0x3F, index := 0x3FE }).wf = true ∧ (Instr.dref { patch := 0x3F, index := 0x3FF }).wf = false ∧
    decodeCode 0 = some { patch := 0, index := 0 } := ⟨by decide, rfl, by simp, by decide, by decide, by decide⟩
theorem meets_mem_wf : s0.memWf = true := by decide +kernel
/-- A step resolves a code and executes its words: the table's IADD v1, v2, v3, with 0 in the patched field. -/
theorem test_step_code : ((stateOf (step { sStep spCode 0 with groups := sDict.groups })).bind fun t => t.wave 0).map
    (fun w => (w.getV 1 0, w.splits.map fun p => (p.2.pc, p.2.codes))) = some (5, [(0x1004, 0)]) := by decide +kernel
/-- A step executes the instruction at the PC: lane 0 of v1 is 5 + 7, and the PC moves by three words. -/
theorem test_step : ((stateOf (step (sStep sp0 (wordsOf (encode (.iadd addV)))))).bind fun t => t.wave 0).map
    (fun w => (w.getV 1 0, w.splits.map (·.2.pc))) = some (12, [0x100C]) := by decide +kernel

end Sys2Proof.Tests
end

section
/-! IADDC (08 R159): the wave it leaves, named once, and what each register of that wave reads. -/

open Sys2Proof Sys2Proof.Machine

namespace Sys2Proof.Machine

/-! ## What the form admits -/

/-- IADDC takes `.n32` and `.n64`, which are not signed, and writes no mask register as its D. -/
theorem iaddc_unsigned_register {e : Ext} (h : (Instr.iaddc e).wf = true) :
    e.ty.isSigned = false ∧ ((∃ d, e.d = .v d) ∨ ∃ d, e.d = .s d) := by
  have ha : Form.iaddc.accepts e = true := h
  simp only [Form.accepts, Bool.and_eq_true, and_assoc] at ha
  obtain ⟨hty, hd, -⟩ := ha
  constructor
  · simp only [Form.iaddc, Bool.or_eq_true, beq_iff_eq] at hty
    rcases hty with hty | hty <;> rw [hty] <;> rfl
  · cases hde : e.d with
    | v d => exact .inl ⟨d, rfl⟩
    | s d => exact .inr ⟨d, rfl⟩
    | k _ | q _ | lit => rw [hde] at hd; cases hd

/-! ## Results without status bits -/

@[simp] theorem Wave.addStatus_zero (w : Wave) : w.addStatus 0 = w := by simp [Wave.addStatus]

theorem statusOf_eq_zero {ls : List Nat} {res : Nat → Num.Res} (h : ∀ l, (res l).fl = 0) :
    statusOf (ls.map fun l => (l, res l)) = 0 := by
  rw [statusOf_map]
  induction ls with
  | nil => rfl
  | cons l ls ih =>
    have hl : (0 : Word) ||| (res l).fl = 0 := by rw [h l]; rfl
    rw [List.foldl_cons, hl, ih]

/-- Results that set no status bit stand in a destination as any others do. -/
theorem laneWritten_putAll_actors (w : Wave) (sp : Split) (e : Ext) (n : Nat) {res : Nat → Num.Res}
    (h : ∀ l, (res l).fl = 0) :
    LaneWritten w (w.putAll e n ((w.actors sp e).map fun l => (l, res l))) e n (w.actors sp e) res := by
  have hw := laneWritten_putAll w e n (w.actors sp e) res (w.actors_lt sp e) (w.actors_nodup sp e)
    (fun d hd => w.actors_scalar sp e d hd)
  rwa [statusOf_eq_zero h, Wave.addStatus_zero] at hw

theorem partAt_eq {r n x r' : Nat} (h : r ≤ r' ∧ r' < r + regCount n) :
    partAt r n x r' = BitVec.ofNat 32 (x / 2 ^ (32 * (r' - r))) := by
  unfold partAt
  unfold regCount at h
  split
  · next hn =>
    rw [if_pos hn] at h
    have : r' - r = 0 := by omega
    simp [this]
  · rfl

theorem widen_of_unsigned {t : DType} (h : t.isSigned = false) (n x : Nat) : widen t n x = x % 2 ^ n := by
  simp [widen, h]

/-- The word of a result modulo 2^n that a register of an unsigned destination holds. -/
theorem partAt_widen_mod {t : DType} (ht : t.isSigned = false) {r n x r' : Nat} (h : r ≤ r' ∧ r' < r + regCount n) :
    partAt r n (widen t n (x % 2 ^ n)) r' = BitVec.ofNat 32 (x % 2 ^ n / 2 ^ (32 * (r' - r))) := by
  rw [widen_of_unsigned ht, Nat.mod_mod, partAt_eq h]

section
variable {w w' : Wave} {e : Ext} {n : Nat} {ls : List Nat} {x : Nat → Nat}

theorem LaneWritten.getV_of_mod (ht : e.ty.isSigned = false) (r l : Nat) (hl : l < 64) :
    LaneWritten w w' e n ls (fun l => { bits := x l % 2 ^ n }) → w'.getV r l =
      match e.d with
      | .v d =>
        if l ∈ ls ∧ d.toNat ≤ r ∧ r < d.toNat + regCount n then
          BitVec.ofNat 32 (x l % 2 ^ n / 2 ^ (32 * (r - d.toNat)))
        else w.getV r l
      | _ => w.getV r l := by
  intro h
  rw [h.v r l hl]
  cases e.d with
  | v d => exact ite_congr rfl (fun hr => partAt_widen_mod ht hr.2) fun _ => rfl
  | s _ | k _ | q _ | lit => rfl

theorem LaneWritten.getS_of_mod (ht : e.ty.isSigned = false) (r : Nat) :
    LaneWritten w w' e n ls (fun l => { bits := x l % 2 ^ n }) → w'.getS r =
      match e.d, ls with
      | .s d, l :: _ =>
        if d.toNat ≤ r ∧ r < d.toNat + regCount n then
          BitVec.ofNat 32 (x l % 2 ^ n / 2 ^ (32 * (r - d.toNat)))
        else w.getS r
      | _, _ => w.getS r := by
  intro h
  have hs := h.s r
  cases hd : e.d with
  | s d =>
    cases ls with
    | nil => simpa only [hd] using hs
    | cons l _ =>
      simp only [hd] at hs
      exact hs.trans (ite_congr rfl (partAt_widen_mod ht) fun _ => rfl)
  | v _ | k _ | q _ | lit => simpa only [hd] using hs

end

/-! ## Masks -/

/-- Bit j of the mask that gathers bit `f l` for every listed l that satisfies p. -/
theorem getLsbD_gather (ls : List Nat) (p : Nat → Prop) [DecidablePred p] (f : Nat → Nat) (hf : ∀ l ∈ ls, f l < 64)
    (j : Nat) :
    (ls.foldl (fun m l => if p l then m ||| laneBit (f l) else m) (0 : Mask)).getLsbD j =
      decide (∃ l ∈ ls, f l = j ∧ p l) := by
  have hm : ls.foldl (fun m l => if p l then m ||| laneBit (f l) else m) (0 : Mask) =
      maskOf ((ls.filter fun l => p l).map f) fun _ => true := by
    simp [maskOf, List.foldl_map, List.foldl_filter]
  rw [hm, maskOf_getLsbD]
  · simp [and_assoc, and_comm (a := p _)]
  · simp only [List.mem_map, List.mem_filter]
    rintro _ ⟨l, ⟨hl, -⟩, rfl⟩
    exact hf l hl

/-- Every bit below the width of the wave stands in its full mask. -/
theorem WaveId.full_getLsbD (i : WaveId) {j : Nat} (hj : j < i.width) : i.full.getLsbD j = true := by
  unfold WaveId.width at hj
  unfold WaveId.full
  split at hj
  · next hg => rw [if_pos hg]; exact (by decide : ∀ j < 64, (0xFFFFFFFFFFFFFFFF : Mask).getLsbD j = true) j hj
  · next hg => rw [if_neg hg]; exact (by decide : ∀ j < 32, (0xFFFFFFFF : Mask).getLsbD j = true) j hj

/-! ## The wave that IADDC leaves -/

/-- The number of kC. -/
def carryReg (e : Ext) : Nat :=
  match e.c with
  | .k n => n.toNat
  | _ => 0

/-- The bit of kC that holds a lane's carry. -/
def carryBit (e : Ext) (l : Nat) : Nat := if e.d.isS then 0 else l

/-- a + b + carry of a lane. -/
def carrySum (e : Ext) (w : Wave) (l : Nat) : Nat :=
  natA e w l + natB e w l + ((w.getK (carryReg e)).getLsbD (carryBit e l)).toNat

/-- The wave with the sums in D. -/
def Wave.putSums (w : Wave) (sp : Split) (e : Ext) : Wave :=
  w.putAll e e.ty.bits ((w.actors sp e).map fun l => (l, { bits := carrySum e w l % 2 ^ e.ty.bits }))

/-- The carry bits of the acting lanes. -/
def carryTouched (w : Wave) (sp : Split) (e : Ext) : Mask :=
  (w.actors sp e).foldl (fun m l => m ||| laneBit (carryBit e l)) 0

/-- The carry bits that the sums set. -/
def carryOut (w : Wave) (sp : Split) (e : Ext) : Mask :=
  (w.actors sp e).foldl (fun m l => if 2 ^ e.ty.bits ≤ carrySum e w l then m ||| laneBit (carryBit e l) else m) 0

/-- The wave with the sums in D and the carries in kC. -/
def Wave.addCarry (w : Wave) (sp : Split) (e : Ext) : Wave :=
  (w.putSums sp e).setK (carryReg e)
    (((w.putSums sp e).getK (carryReg e) &&& ~~~carryTouched w sp e) ||| carryOut w sp e)

/-- IADDC whose checks have passed leaves `Wave.addCarry` and goes on. -/
theorem exec_iaddc_of {s : State} {c : Issue} {w : Wave} {sp : Split} {e : Ext} (h : Issuing s c w sp)
    (hc : w.clear sp (usesOf .iaddc e) = true) : exec (.iaddc e) s = .next (s.done c (w.addCarry sp e)) :=
  congrArg Host.Outcome.next (State.checked_of h hc _)

theorem carryBit_lt {w : Wave} {sp : Split} {e : Ext} : ∀ l ∈ w.actors sp e, carryBit e l < 64 := by
  intro l hl
  unfold carryBit
  split
  · decide
  · exact w.actors_lt sp e l hl

theorem carryTouched_getLsbD (w : Wave) (sp : Split) (e : Ext) (j : Nat) :
    (carryTouched w sp e).getLsbD j = decide (j ∈ (w.actors sp e).map (carryBit e)) := by
  simpa [carryTouched] using getLsbD_gather (w.actors sp e) (fun _ => True) (carryBit e) carryBit_lt j

theorem carryOut_getLsbD (w : Wave) (sp : Split) (e : Ext) (j : Nat) :
    (carryOut w sp e).getLsbD j =
      decide (∃ l ∈ w.actors sp e, carryBit e l = j ∧ 2 ^ e.ty.bits ≤ carrySum e w l) :=
  getLsbD_gather _ (fun l => 2 ^ e.ty.bits ≤ carrySum e w l) _ carryBit_lt j

theorem Wave.putSums_written (w : Wave) (sp : Split) (e : Ext) :
    LaneWritten w (w.putSums sp e) e e.ty.bits (w.actors sp e) fun l => { bits := carrySum e w l % 2 ^ e.ty.bits } :=
  laneWritten_putAll_actors w sp e _ fun _ => rfl

@[simp] theorem Wave.rest_putSums (w : Wave) (sp : Split) (e : Ext) : (w.putSums sp e).rest = w.rest :=
  (w.putSums_written sp e).rest

@[simp] theorem Wave.id_putSums (w : Wave) (sp : Split) (e : Ext) : (w.putSums sp e).id = w.id :=
  (congrArg Wave.id (w.rest_putSums sp e) :)

theorem Wave.fpstat_putSums (w : Wave) (sp : Split) (e : Ext) : (w.putSums sp e).fpstat = w.fpstat := by
  have h := (w.putSums_written sp e).fpstat
  rw [← statusOf_map, statusOf_eq_zero fun _ => rfl] at h
  simpa using h

theorem Wave.getK_putSums (w : Wave) (sp : Split) {e : Ext} (hd : (∃ d, e.d = .v d) ∨ ∃ d, e.d = .s d) (r : Nat) :
    (w.putSums sp e).getK r = w.getK r := by
  have h := (w.putSums_written sp e).k r
  rcases hd with ⟨d, hd⟩ | ⟨d, hd⟩ <;> simpa only [hd] using h

/-- Of the mask registers only the acting lanes' carry bits of kC change, and none of k0. -/
theorem Wave.getK_addCarry (w : Wave) (sp : Split) {e : Ext} (hd : (∃ d, e.d = .v d) ∨ ∃ d, e.d = .s d) (r j : Nat)
    (hj : j < w.id.width) :
    ((w.addCarry sp e).getK r).getLsbD j =
      if r = carryReg e ∧ r ≠ 0 ∧ j ∈ (w.actors sp e).map (carryBit e) then
        decide (∃ l ∈ w.actors sp e, carryBit e l = j ∧ 2 ^ e.ty.bits ≤ carrySum e w l)
      else (w.getK r).getLsbD j := by
  unfold Wave.addCarry
  rw [Wave.getK_setK, Wave.id_putSums, Wave.getK_putSums _ _ hd, Wave.getK_putSums _ _ hd]
  by_cases hr : r = carryReg e ∧ r ≠ 0
  · obtain ⟨rfl, h0⟩ := hr
    have hj64 : j < 64 := by unfold WaveId.width at hj; split at hj <;> omega
    rw [if_pos ⟨rfl, h0⟩, BitVec.getLsbD_and, WaveId.full_getLsbD _ hj, Bool.and_true, BitVec.getLsbD_or,
      BitVec.getLsbD_and, BitVec.getLsbD_not, carryTouched_getLsbD, carryOut_getLsbD]
    by_cases hm : j ∈ (w.actors sp e).map (carryBit e)
    · simp [hm, h0]
    · have hn : ¬∃ l ∈ w.actors sp e, carryBit e l = j ∧ 2 ^ e.ty.bits ≤ carrySum e w l := by
        rintro ⟨l, hl, hlj, -⟩
        exact hm (List.mem_map.2 ⟨l, hl, hlj⟩)
      simp [hm, hn, hj64]
  · rw [if_neg, if_neg]
    · exact fun ⟨hk, h0, _⟩ => hr ⟨hk, h0⟩
    · exact fun ⟨hk, h0⟩ => hr ⟨hk, hk ▸ h0⟩

theorem Wave.getV_addCarry (w : Wave) (sp : Split) {e : Ext} (ht : e.ty.isSigned = false) (r l : Nat) (hl : l < 64) :
    (w.addCarry sp e).getV r l =
      match e.d with
      | .v d =>
        if l ∈ w.actors sp e ∧ d.toNat ≤ r ∧ r < d.toNat + regCount e.ty.bits then
          BitVec.ofNat 32 (carrySum e w l % 2 ^ e.ty.bits / 2 ^ (32 * (r - d.toNat)))
        else w.getV r l
      | _ => w.getV r l := by
  rw [Wave.addCarry, Wave.getV_setK]
  exact LaneWritten.getV_of_mod ht r l hl (w.putSums_written sp e)

theorem Wave.getS_addCarry (w : Wave) (sp : Split) {e : Ext} (ht : e.ty.isSigned = false) (r : Nat) :
    (w.addCarry sp e).getS r =
      match e.d, w.actors sp e with
      | .s d, l :: _ =>
        if d.toNat ≤ r ∧ r < d.toNat + regCount e.ty.bits then
          BitVec.ofNat 32 (carrySum e w l % 2 ^ e.ty.bits / 2 ^ (32 * (r - d.toNat)))
        else w.getS r
      | _, _ => w.getS r := by
  rw [Wave.addCarry, Wave.getS_setK]
  exact LaneWritten.getS_of_mod ht r (w.putSums_written sp e)

end Sys2Proof.Machine

/-- Settles O5: the wave that IADDC leaves, read register by register. -/
theorem addWithCarry : Obligations.AddWithCarry := by
  unfold Obligations.AddWithCarry
  intro s c w sp e hwf hi hc
  obtain ⟨ht, hd⟩ := iaddc_unsigned_register hwf
  refine ⟨w.addCarry sp e, exec_iaddc_of hi hc, ?_, ?_, w.getV_addCarry sp ht, w.getS_addCarry sp ht, w.getK_addCarry sp hd⟩
  · rw [Wave.addCarry, Wave.rest_setK, Wave.rest_putSums]
  · rw [Wave.addCarry, Wave.fpstat_setK, Wave.fpstat_putSums]
end

section
/-! DRAW, DRAWF and KDRAW (17 R310–R312, R317, R318): the checks, the wait for M and the draws, which the three share;
and what each writes from its draws, as the results of a lane instruction (08 R155). -/

open Sys2Proof Sys2Proof.Machine

namespace Sys2Proof.Machine

/-! ## The site's base -/

theorem siteOfPc_eq (pc : Dword) : siteOfPc pc = BitVec.ofNat 16 (pc.toNat / 4) := by
  apply BitVec.eq_of_toNat_eq
  simp [siteOfPc, Nat.shiftRight_eq_div_pow]

theorem siteBase_eq (e : Ext) (pc : Dword) :
    siteBase e pc = if e.a = .lit then BitVec.ofNat 16 e.lit.toNat else BitVec.ofNat 16 (pc.toNat / 4) := by
  unfold siteBase
  cases e.a with
  | lit => exact (if_pos rfl).trans (BitVec.ofNat_toNat 16 e.lit).symm
  | v _ | s _ | k _ | q _ => exact siteOfPc_eq pc

/-! ## Waiting for M -/

theorem State.not_drawsBlocked_of_built {s : State} {uid : Nat} {ls : List Nat} (h : s.built uid ls) :
    s.drawsBlocked uid ls = false := by
  simp only [State.drawsBlocked, List.any_eq_false]
  intro l hl
  simp [Thread.waits, h l hl]

theorem State.drawsBlocked_of_unfinished {s : State} {uid : Nat} {ls : List Nat}
    (h : ∃ l ∈ ls, ((s.ctx uid).thread l).building = true ∧ ((s.ctx uid).thread l).finished = false) :
    s.drawsBlocked uid ls = true := by
  obtain ⟨l, hl, hb, hf⟩ := h
  exact List.any_eq_true.2 ⟨l, hl, by simp [Thread.waits, hb, hf]⟩

/-! ## Draws are words -/

/-- Every drawn value of every lane is below 2^32. -/
theorem State.takeDrawsAt_lt (s : State) (w : Wave) (i : Issue) (base : BitVec 16) (n : Nat) (ls : List Nat) :
    ∀ us ∈ (s.takeDrawsAt w i base n ls).2, ∀ u ∈ us, u < 2 ^ 32 := by
  unfold State.takeDrawsAt
  split
  · simp
  · intro us hus
    obtain ⟨l, -, rfl⟩ := List.mem_map.1 hus
    refine List.foldlRecOn (motive := fun acc : State × SMap (List Nat) => ∀ u ∈ SMap.read [] acc.2 l, u < 2 ^ 32)
      ls _ (fun u hu => absurd hu List.not_mem_nil) fun acc ih j _ u hu => ?_
    dsimp only at hu
    rw [SMap.read_insert] at hu
    split at hu
    · obtain ⟨d, -, rfl⟩ := List.mem_map.1 hu
      exact d.u.isLt
    · exact ih u hu

/-- What holds of the default and of every element holds of what `getD` reads. -/
theorem getD_of_forall {α : Type} {P : α → Prop} {xs : List α} {d : α} (hd : P d) (h : ∀ x ∈ xs, P x) (k : Nat) :
    P (xs.getD k d) := by
  rw [List.getD_eq_getElem?_getD]
  cases hx : xs[k]? with
  | none => exact hd
  | some x => exact h x (List.mem_of_getElem? hx)

/-- The draw of a lane, as a number, is the word that it was drawn as. -/
theorem State.drawOf_takeDrawsAt_toNat (s : State) (w : Wave) (i : Issue) (base : BitVec 16) (n : Nat) (ls : List Nat)
    (l : Nat) :
    (BitVec.ofNat 32 (drawOf ((s.takeDrawsAt w i base n ls).2.getD l []))).toNat =
      ((s.takeDrawsAt w i base n ls).2.getD l []).getD 0 0 := by
  have hlt : ∀ u ∈ (s.takeDrawsAt w i base n ls).2.getD l [], u < 2 ^ 32 :=
    getD_of_forall (P := fun us => ∀ u ∈ us, u < 2 ^ 32) (fun u hu => absurd hu List.not_mem_nil)
      (s.takeDrawsAt_lt w i base n ls) l
  exact (BitVec.toNat_ofNat _ 32).trans
    (Nat.mod_eq_of_lt (getD_of_forall (P := fun u => u < 2 ^ 32) (by decide) hlt 0))

/-! ## What the draw instructions share -/

section
variable {s : State} {c : Issue} {w : Wave} {sp : Split} {f : Form} {e : Ext} {put : Wave → List (Nat × Word) → Wave}

theorem State.drawInstr_of_built (h : Issuing s c w sp)
    (hc : w.clear sp (usesOf { f with a := .unused } { e with a := .v 0 }) = true)
    (hb : s.built w.id.uid (lanesOf (w.acting sp e.k))) :
    s.drawInstr f e put =
      (s.takeDrawsAt w c (siteBase e c.pc) 1 (lanesOf (w.acting sp e.k))).1.done c
        (put w ((lanesOf (w.acting sp e.k)).map fun l => (l, BitVec.ofNat 32
          (drawOf ((s.takeDrawsAt w c (siteBase e c.pc) 1 (lanesOf (w.acting sp e.k))).2.getD l []))))) := by
  rw [State.drawInstr, State.checked_of h hc]
  dsimp only
  rw [State.not_drawsBlocked_of_built hb]
  rfl

theorem State.drawInstr_of_drawsBlocked (h : Issuing s c w sp)
    (hc : w.clear sp (usesOf { f with a := .unused } { e with a := .v 0 }) = true)
    (hb : s.drawsBlocked w.id.uid (lanesOf (w.acting sp e.k)) = true) : s.drawInstr f e put = s := by
  rw [State.drawInstr, State.checked_of h hc]
  exact if_pos hb

end

/-! ## What each writes -/

theorem Wave.actors_of_not_scalar (w : Wave) (sp : Split) {e : Ext} (h : e.d.isS = false) :
    w.actors sp e = lanesOf (w.acting sp e.k) := by
  simp [Wave.actors, h]

/-- Lane results in a vector register, as puts of 32 bits. -/
theorem Wave.putAll_vector (w : Wave) {e : Ext} {d : BitVec 8} (hd : e.d = .v d) (r : Nat × Word → Nat)
    (us : List (Nat × Word)) :
    w.putAll e 32 (us.map fun p => (p.1, { bits := r p })) = us.foldl (fun w p => w.put e.d 32 p.1 (r p)) w := by
  have hw : ∀ (w : Wave) l x, w.put (.v d) 32 l (widen e.ty 32 x) = w.put (.v d) 32 l x := fun w l x =>
    congrArg (w.setV d.toNat l) (BitVec.eq_of_toNat_eq (by simp [widen]))
  simp only [Wave.putAll, hd, List.foldl_map, hw]

/-- Lane results in a mask register, as a mask of the lanes of which a predicate holds. -/
theorem Wave.putAll_mask (w : Wave) {e : Ext} {d : BitVec 4} (hd : e.d = .k d) (n : Nat) (p : Nat × Word → Prop)
    [DecidablePred p] (us : List (Nat × Word)) :
    w.putAll e n (us.map fun x => (x.1, { bits := (decide (p x)).toNat })) =
      w.putMask e.d (us.foldl (fun m x => if p x then m ||| laneBit x.1 else m) 0) := by
  have hp : ∀ x, (decide (p x)).toNat % 2 = 1 ↔ p x := by
    intro x
    by_cases h : p x <;> simp [h]
  simp only [Wave.putAll, Wave.putMask, hd, List.foldl_map, hp]

theorem drawV_vector {e : Ext} (h : Form.drawV.accepts e = true) : ∃ d, e.d = .v d := by
  simp only [Form.accepts, Bool.and_eq_true, and_assoc] at h
  obtain ⟨-, hd, -⟩ := h
  cases hde : e.d with
  | v d => exact ⟨d, rfl⟩
  | s _ | k _ | q _ | lit => rw [hde] at hd; cases hd

theorem kdraw_mask {e : Ext} (h : Form.kdraw.accepts e = true) : ∃ d, e.d = .k d := by
  simp only [Form.accepts, Bool.and_eq_true, and_assoc] at h
  obtain ⟨-, hd, -⟩ := h
  cases hde : e.d with
  | k d => exact ⟨d, rfl⟩
  | v n => rw [hde] at hd; cases hd
  | s _ | q _ | lit => rw [hde] at hd; cases hd

/-- A draw instruction writes no scalar register, its A names none, and it puts each lane's draw as R312's table has it. -/
theorem exec_drawRow {w : Wave} {i : Instr} {f : Form} {e : Ext} {g : Nat → Nat → Nat}
    (h : drawRow w i = some (f, e, g)) (hwf : i.wf = true) :
    e.d.isS = false ∧ usesOf { f with a := .unused } { e with a := .v 0 } = usesOf { f with a := .unused } e ∧
      ∃ put, (∀ s, exec i s = .next (s.drawInstr f e put)) ∧
        ∀ us, put w us = w.putAll e 32 (us.map fun p => (p.1, { bits := g p.1 p.2.toNat })) := by
  unfold drawRow at h
  split at h
  case h_1 e =>
    cases h
    obtain ⟨d, hd⟩ := drawV_vector hwf
    exact ⟨by rw [hd]; rfl, rfl, _, fun _ => rfl, fun us => (w.putAll_vector hd (fun p => p.2.toNat) us).symm⟩
  case h_2 e =>
    cases h
    obtain ⟨d, hd⟩ := drawV_vector hwf
    exact ⟨by rw [hd]; rfl, rfl, _, fun _ => rfl, fun us => (w.putAll_vector hd _ us).symm⟩
  case h_3 e =>
    cases h
    obtain ⟨d, hd⟩ := kdraw_mask hwf
    refine ⟨by rw [hd]; rfl, rfl, _, fun _ => rfl, fun us => ?_⟩
    simp only [Nat.reducePow]
    exact (w.putAll_mask hd 32 (fun p => p.2.toNat < w.src e.lit e.b 16 p.1 * 65536) us).symm
  case h_4 => cases h

end Sys2Proof.Machine

/-- Settles O36: the three instructions share checks, wait and draws, and each puts its lanes' results. -/
theorem drawInstructions : Obligations.DrawInstructions := by
  unfold Obligations.DrawInstructions
  intro i s c w sp f e g hrow hwf hi hc ls base drawn
  obtain ⟨hs, hu, put, hexec, hput⟩ := exec_drawRow hrow hwf
  rw [← hu] at hc
  have hbase : siteBase e c.pc = base := siteBase_eq e c.pc
  constructor
  · intro hb
    refine ⟨w.putAll e 32 (ls.map fun l => (l, { bits := g l ((drawn.2.getD l []).getD 0 0) })), ?_, ?_⟩
    · rw [hexec, State.drawInstr_of_built hi hc hb, hput, List.map_map, hbase]
      simp only [Function.comp_def, State.drawOf_takeDrawsAt_toNat]
      rfl
    · have hw := laneWritten_putAll_actors w sp e 32 (res := fun l => { bits := g l ((drawn.2.getD l []).getD 0 0) })
        fun _ => rfl
      rwa [w.actors_of_not_scalar sp hs] at hw
  · intro hb
    rw [hexec, State.drawInstr_of_drawsBlocked hi hc (State.drawsBlocked_of_unfinished hb)]
end
